-- ==== Sys2Proof/Word.lean ====
section
/-! DEFINITION. The word and byte types of frame memory (spec/00_scope.md, "Sizes") and their plainest arithmetic. -/

namespace Sys2Proof

/-- A word is 32 bits, four bytes (00_scope.md, Conventions). -/
abbrev Word := BitVec 32

/-- One byte of a word. -/
abbrev Byte := BitVec 8

/-- The word that holds a number, modulo 2^32. -/
def toWord (n : Nat) : Word := BitVec.ofNat 32 n

/-- A number held at its largest value (Conventions, "Saturation"). -/
def saturate (top n : Nat) : Nat := min top n

end Sys2Proof
end

