-- ==== Sys2Proof/Syntax.lean ====
section
/-! DEFINITION. The commands of the part: one constructor for each row of spec/opcode_table.json, with the operands that
the row's rules name. -/

namespace Sys2Proof

/-- A side, as seen from the driver's seat (00_scope.md, "Sides"). -/
inductive Side where
  | left
  | right
deriving DecidableEq, Repr

/-- One host request on the system bus port, as the signals of 01 section 1.1 present it and R1 captures it. -/
structure Transfer where
  /-- SYA[25:0], a byte address; bits 1:0 are not used (R2). -/
  address : BitVec 26
  /-- SYWR: true for a write. -/
  write : Bool
  /-- SYLEN[1:0]: 0 one word, 1 four, 2 eight, 3 sixteen. -/
  lengthCode : BitVec 2
  /-- SYBE[3:0], used by single-word writes only (R3). -/
  enables : BitVec 4
  /-- SYDW: the words of a write in burst order; empty for a read. -/
  data : List Word
deriving DecidableEq, Repr

/-- The commands, in the order of the opcode table. -/
inductive Instr where
  /-- RESET goes low (R21). -/
  | resetAsserted
  /-- RESET goes high, with the CASEL straps as they stand (R20, R23), after it was held for a time in us (R21). -/
  | resetReleased (casel : BitVec 2) (heldMicros : Nat)
  /-- Memory initialisation ends (R20). -/
  | memoryInitialisationEnd
  /-- A microsecond passes (R123). -/
  | timebaseTick
  /-- A 7.8 us refresh interval ends (R13). -/
  | refreshIntervalEnd
  /-- The arbiter's grant (R17). -/
  | grant
  /-- A refresh ends (R14). -/
  | refreshEnd
  /-- A boot-load read returns its word (R36). -/
  | bootLoadReadDone
  /-- A record write reports complete (R152). -/
  | recordWriteDone
  /-- A host transfer arrives at the port (R1, R6, R18). -/
  | transferArrival (t : Transfer)
  /-- The next word of the transfer in hand is a write of a plain or report ring word (R9). -/
  | plainWordWrite
  /-- The next word is a read of a plain, ring or parameter word (R9). -/
  | plainWordRead
  /-- The next word is a write of a parameter word without further effect (R24). -/
  | parameterWordWrite
  /-- The next word is a write of 0004h with at least one byte enable (R39). -/
  | commitWordWrite
  /-- The next word is a write of 001Ch (R154). -/
  | reportReadIndexWrite
  /-- The next word is a read of a status word, the acknowledge word among them (R28, R147; log 12). -/
  | acknowledgeRead
  /-- The next word is a write of 0E00h (R148). -/
  | acknowledgeWrite
  /-- The next word is a write of another part-owned word (R27). -/
  | statusWordWrite
  /-- The next word is a write into a buffer of an enabled side (R70). -/
  | bufferWordWrite
  /-- The next word is a read of a buffer of an enabled side (R111). -/
  | bufferWordRead
  /-- The transfer in hand ends (R4). -/
  | transferEnd
  /-- A side's interval watchdog expires (R126). -/
  | watchdogExpiry (side : Side)
  /-- A side's hold timer expires (R129). -/
  | holdTimerExpiry (side : Side)
deriving DecidableEq, Repr

end Sys2Proof
end

