-- ==== Sys2Proof/WellFormed.lean ====
section
/-! DEFINITION. Which commands the pins of the part can spell. -/

namespace Sys2Proof

/-- The number of words a length code asks for (01, section 1.1). -/
def Transfer.wordCount (t : Transfer) : Nat :=
  match t.lengthCode.toNat with
  | 0 => 1
  | 1 => 4
  | 2 => 8
  | _ => 16

/-- A write brings one data word for each word of its burst (R1), and a read brings none (log 23). -/
def Transfer.wellFormed (t : Transfer) : Bool :=
  t.data.length == if t.write then t.wordCount else 0

/-- A well-formed command: only an arriving transfer can be ill-formed. -/
def Instr.wellFormed : Instr → Bool
  | .resetAsserted => true
  | .resetReleased _ _ => true
  | .memoryInitialisationEnd => true
  | .timebaseTick => true
  | .refreshIntervalEnd => true
  | .grant => true
  | .refreshEnd => true
  | .bootLoadReadDone => true
  | .recordWriteDone => true
  | .transferArrival t => t.wellFormed
  | .plainWordWrite => true
  | .plainWordRead => true
  | .parameterWordWrite => true
  | .commitWordWrite => true
  | .reportReadIndexWrite => true
  | .acknowledgeRead => true
  | .acknowledgeWrite => true
  | .statusWordWrite => true
  | .bufferWordWrite => true
  | .bufferWordRead => true
  | .transferEnd => true
  | .watchdogExpiry _ => true
  | .holdTimerExpiry _ => true

end Sys2Proof
end

