-- ==== Sys2Proof/Decode.lean ====
section
/-! DEFINITION. The command that a word spells by the bits of spec/opcode_table.json. No row of the table gives bits
(spec/98_reader.md: no row with fixed bits or fields), so no word spells a command. -/

namespace Sys2Proof

/-- The command a table word spells: none, since the table gives no row bits. -/
def decodeTableWord (_nbits _w : Nat) : Option Instr := none

end Sys2Proof
end

