-- ==== Sys2Proof/Config.lean ====
section
/-! DEFINITION. What is fixed for the part (sizes and limits of the spec), and the free values: what the spec leaves
open and an opaque constant stands for. -/

namespace Sys2Proof.Config

/-- Frame memory is 67,108,864 bytes (01, section 1.5). -/
def memoryBytes : Nat := 0x4000000

/-- The control area is 4 KiB (R23). -/
def controlBytes : Nat := 0x1000

/-- What a byte of frame memory that nothing has written reads as: DESIGN CHOICE, unsafe (log 2). -/
def blankByte : Byte := 0

/-- The refresh-owed count never exceeds 8 (R13). -/
def refreshMax : Nat := 8

/-- The own-access wait limit, 20 us (R18). -/
def ownAccessWaitLimit : Nat := 20

/-- The record queue holds at most 8 records (R151). -/
def recordQueueMax : Nat := 8

/-- The largest value of the word counts of R67, R89 and R105. -/
def wordCountMax : Nat := 16777215

/-- The SDRAM holds its contents through a RESET held for 64 ms or less, in us (R21). -/
def retentionMicros : Nat := 64000

/-- Memory initialisation first waits 200 us (R20). -/
def initialisationWait : Nat := 200

/-- Tiles of a side's image: 6 rows of 8 columns (R59). -/
def tiles : Nat := 48

/-- Words of the pending set of the configuration (R31). -/
def pendingWords : Nat := 128

/-- FREE VALUE. Frame memory after a RESET held longer than 64 ms (R21: "not guaranteed"), as a list of writes over
blank memory, for the n-th time it is drawn (log 7). -/
opaque memoryAfterLongReset : Nat → List Host.Cell

/-- FREE VALUE. How many words of a record write in progress were written when RESET ended it (R21, R158), taken
modulo 5, for the n-th time it is drawn (log 8). -/
opaque recordWordsWritten : Nat → Nat

/-- FREE VALUE. Whether a hold timer loaded with 0 by a scan start expires before that scan's first word is served (R129:
either may be taken first), for the n-th time it is drawn (log 28). -/
opaque expiryBeforeFirstWord : Nat → Bool

/-- FREE VALUE. Whether the grant is taken before the arrival of a request that waited for the bus to be freed (R18: either
may be taken first), for the n-th time it is drawn (log 29). -/
opaque grantBeforeRequest : Nat → Bool

end Sys2Proof.Config
end

