-- ==== Sys2Proof/Machine/State.lean ====
section
/-! DEFINITION. The state of the part, block by block as 00_scope.md lists them, the reasons a step can stop, and the
state at reset. -/

namespace Sys2Proof.Machine

/-! ## Names the spec sets in capitals -/

/-- View states (R130). -/
inductive ViewState where
  | off
  | waiting
  | live
  | marked
  | holding
  | lost
deriving DecidableEq, Repr

/-- Buffer states (R67). -/
inductive BufState where
  | free
  | filling
  | ready
  | showing
deriving DecidableEq, Repr

/-- Night states (R94). -/
inductive NightState where
  | day
  | night
deriving DecidableEq, Repr

/-- Configuration states (R38). -/
inductive ConfigState where
  | boot
  | unconfigured
  | configured
deriving DecidableEq, Repr

/-- Modes of a scan word (R112). -/
inductive ServeMode where
  | plain
  | border
  | fill
deriving DecidableEq, Repr

/-- Fault kinds of a side (R143, codes 1 to 11). -/
inductive SideKind where
  | frameLate
  | latency
  | tearScan
  | staleScan
  | frozen
  | readback
  | holdExpired
  | tearWrite
  | frameCut
  | shortFrame
  | partialWrite
deriving DecidableEq, Repr

/-- Fault kinds of the device (R143, codes 16 to 18). -/
inductive DeviceKind where
  | configReject
  | protect
  | recordDropped
deriving DecidableEq, Repr

/-- One of the 25 pairs of source and kind that can occur (R145). -/
inductive FaultEntry where
  | device (kind : DeviceKind)
  | side (sd : Side) (kind : SideKind)
deriving DecidableEq, Repr

/-! ## Configuration (CAU, chapter 2) -/

/-- A side's geometry: W, H and the three buffer bases (R33). -/
structure Geometry where
  w : Nat
  h : Nat
  base0 : Nat
  base1 : Nat
  base2 : Nat
deriving DecidableEq, Repr

/-- A side descriptor (R33). -/
structure Descriptor where
  enabled : Bool
  geometry : Geometry
  dayProfile : Nat
  nightProfile : Nat
  intervalMax : Nat
  latencyMax : Nat
  holdMax : Nat
  frozenRun : Nat
  recoverRun : Nat
  nEnter : Nat
  nLeave : Nat
  stepDown : Nat
  stepUp : Nat
deriving DecidableEq, Repr

/-- A profile (R34). -/
structure Profile where
  bor : Nat
  bog : Nat
  bob : Nat
  gr : Nat
  gg : Nat
  gb : Nat
  k : Nat
  dmin : Nat
  gt : Nat
  hfOn : Nat
  tone : List Nat
deriving DecidableEq, Repr

/-- The four profiles (R34). -/
structure Profiles where
  p0 : Profile
  p1 : Profile
  p2 : Profile
  p3 : Profile
deriving DecidableEq, Repr

/-- The device fields that the device-wide active copy keeps (R32). -/
structure DeviceCopy where
  ringBase : Nat
  ringCapacity : Nat
  attentionMask : Word
  markerColour : Word
  borderWidth : Nat
deriving DecidableEq, Repr

/-- The accepted set with its generation (R35). -/
structure AcceptedSet where
  generation : Word
  device : DeviceCopy
  left : Descriptor
  right : Descriptor
  profiles : Profiles
deriving DecidableEq, Repr

/-- A side's active set with its generation (R35). -/
structure ActiveSet where
  generation : Word
  desc : Descriptor
  profiles : Profiles
deriving DecidableEq, Repr

/-- The Control Area Unit. The pending set is filled in ascending order by the boot load (R36), so its length is the
boot-load progress (log 15). -/
structure Cau where
  config : ConfigState
  casel : BitVec 2
  pendingSet : List Word
  accepted : Option AcceptedSet
  device : Option DeviceCopy
deriving DecidableEq, Repr

/-! ## The transfer path (SBP, RDC, MCT, chapter 1) -/

/-- The regions that words are classified against, taken when the MCT takes a transfer (R7). -/
structure Snapshot where
  controlBase : Nat
  /-- Base and capacity of the report ring, where there is one. -/
  ring : Option (Nat × Nat)
  /-- The geometry of each side that is enabled in its active set. -/
  left : Option Geometry
  right : Option Geometry
deriving DecidableEq, Repr

/-- The five kinds of word with their coordinates (R8). -/
inductive WordKind where
  | parameter (offset : Nat)
  | status (offset : Nat)
  | buffer (sd : Side) (b : Fin 3) (o : Nat)
  | ring (slot : Nat)
  | plain
deriving DecidableEq, Repr

/-- The transfer in hand (R1), with the marks for what R4 makes after its last word. -/
structure InHand where
  transfer : Transfer
  snapshot : Snapshot
  /-- Words of the burst handled so far. -/
  handled : Nat
  /-- Words of a read, in burst order, so far. -/
  readData : List Word
  /-- The transfer carries a commit (R39). -/
  commit : Bool
  /-- Byte address of the first absorbed protected word (R27). -/
  protect : Option Nat
  /-- Side, buffer and byte address of the first word absorbed by a SHOWING buffer (R75). -/
  tear : Option (Side × Fin 3 × Nat)
  /-- The frame whose word W*H - 1 this transfer wrote (R76). -/
  frameDone : Option (Side × Fin 3)
  /-- The side whose scan this transfer read to its last word (R117). -/
  scanDone : Option Side
deriving DecidableEq, Repr

/-- An answer on the port's pins (R1, R4, R5). -/
inductive Answer where
  | complete (data : List Word)
  | retry
deriving DecidableEq, Repr

/-- An own access of the part (R15). -/
inductive OwnAccess where
  | bootLoadRead (address : Nat)
  | recordWrite (address : Nat) (words : List Word)
deriving DecidableEq, Repr

/-- An entry of the own-access queue (R15). -/
structure QueueEntry where
  access : OwnAccess
  joinTime : Word
deriving DecidableEq, Repr

/-- Who holds the memory bus (section 1.8, R22). -/
inductive Bus where
  | free
  | initialising
  | transfer
  | refresh
  | own (access : OwnAccess)
deriving DecidableEq, Repr

/-- The Memory Controller. -/
structure Mct where
  bus : Bus
  /-- Banks 0 to 3: closed, or open on a row (R12). -/
  banks : List (Option Nat)
  refreshOwed : Nat
  intervalRunning : Bool
  queue : List QueueEntry
deriving DecidableEq, Repr

/-! ## A side (PXD, RGM, GLU, SCN, VSU, chapters 3 to 7) -/

/-- A buffer record (R67); its base is the active set's (log 15). -/
structure BufRecord where
  state : BufState
  seq : BitVec 16
  captureTime : Word
  completionTime : Word
  count : Nat
  signature : Word
  profile : Nat
  verified : Bool
  cut : Bool
deriving DecidableEq, Repr

/-- A side's Ring Manager state (R67, R68). -/
structure BufferRing where
  buf0 : BufRecord
  buf1 : BufRecord
  buf2 : BufRecord
  nextSeq : BitVec 16
  lastVerified : Option Word
  equalRun : Nat
  frozenMark : Bool
  dropped : Nat
deriving DecidableEq, Repr

/-- A tile accumulator (R89). -/
structure TileAcc where
  n : Nat
  lumaSum : Nat
  hot : Nat
  maximum : Nat
deriving DecidableEq, Repr

/-- A tile's entry of the tile summary (R98). -/
structure TileSummary where
  hot : Bool
  code : Nat
deriving DecidableEq, Repr

/-- A side's Glare Unit state (chapter 5); the lists are in tile order. -/
structure Glare where
  acc : List TileAcc
  frameGt : Nat
  night : NightState
  map : List Nat
  summary : List TileSummary
deriving DecidableEq, Repr

/-- A scan record (R105). -/
structure ScanRecord where
  buf : Fin 3
  redirect : Option (Fin 3)
  fillServed : Bool
  startTime : Word
  wordsRead : Nat
  signature : Word
  readLast : Bool
  complete : Bool
deriving DecidableEq, Repr

/-- A side's Scan Tracker state (R105). -/
structure Scan where
  record : Option ScanRecord
  lastLatency : Word
  unchecked : Nat
deriving DecidableEq, Repr

/-- A running timer: the timebase at its loading, and its duration in us (R125, R128). -/
structure Timer where
  loadTime : Word
  duration : Nat
deriving DecidableEq, Repr

/-- A side's View Supervisor state (chapter 7); a timer that is none is stopped. -/
structure View where
  state : ViewState
  watchdog : Option Timer
  hold : Option Timer
  recovery : Nat
deriving DecidableEq, Repr

/-- All the state kept for one side. -/
structure SideState where
  active : Option ActiveSet
  takeWaiting : Bool
  frameProfile : Option Nat
  ring : BufferRing
  glare : Glare
  scan : Scan
  view : View
deriving DecidableEq, Repr

/-! ## Fault reporting (FLU, chapter 8) -/

/-- A fault record (R156); its layout is R166's. -/
structure FaultRecord where
  seq : BitVec 16
  entry : FaultEntry
  time : Word
  /-- Frame sequence and buffer index, absent as R156 says. -/
  frame : Option (BitVec 16 × Fin 3)
  /-- View state after the fault, absent for a device fault. -/
  view : Option ViewState
  detail : Word
deriving DecidableEq, Repr

/-- The Fault Unit. -/
structure Flu where
  /-- The counts of the 25 entries in priority order, 0 for a clear entry (R145, R146). -/
  entries : List Nat
  queue : List FaultRecord
  seq : BitVec 16
  writeIndex : Nat
  /-- The live report read index, once one has been delivered (R26). -/
  readIndex : Option Word
  attn : Bool
deriving DecidableEq, Repr

/-! ## The machine -/

/-- The whole state of the part and the queue of commands that wait for it. -/
structure State where
  /-- Commands that wait, first in, first out. -/
  pending : List Instr
  /-- RESET is held low. -/
  resetHeld : Bool
  timebase : Word
  inHand : Option InHand
  /-- The answers of the last event that gave any, in order; none from the taking of a transfer until it is answered
  (log 19). -/
  answers : List Answer
  /-- The request that SYREQ presents while a transfer is in hand, on the host's pins until that one is answered (R1;
  log 11). -/
  request : Option Transfer
  mct : Mct
  cau : Cau
  left : SideState
  right : SideState
  faultLine : Bool
  flu : Flu
  /-- Frame memory: (address, byte), addresses rising, no byte equal to what an unlisted address reads as. -/
  mem : List Host.Cell
  /-- How many free values have been drawn (log 9): the model's own. -/
  freeDraws : Nat
deriving DecidableEq, Repr

/-- Why the model stops. -/
inductive Fault where
  /-- Raised by BUFFER_WORD_READ at a scan start on a FILLING or FREE buffer in LIVE, MARKED or HOLDING when the side has no
  SHOWING buffer to redirect to. R107 and R130 say that no such state exists, so the spec gives it no meaning. Safe: the
  model stops (log 17). -/
  | noShowingBuffer
deriving DecidableEq, Repr

/-- Why the model has no meaning for a command. -/
inductive Refusal where
  /-- A command without a meaning, by its mnemonic. Raised by no arm of this model; safe. -/
  | notModelled (mnemonic : String)
deriving DecidableEq, Repr

/-- What a step answers. -/
abbrev Result := Host.Outcome State Fault Refusal

/-! ## Reset values -/

/-- A cleared buffer record (R85, R88). -/
def BufRecord.cleared : BufRecord :=
  { state := .free, seq := 0, captureTime := 0, completionTime := 0, count := 0, signature := 0, profile := 0,
    verified := false, cut := false }

/-- The ring's values after teardown and reset (R85, R88). -/
def BufferRing.off : BufferRing :=
  { buf0 := .cleared, buf1 := .cleared, buf2 := .cleared, nextSeq := 0, lastVerified := none, equalRun := 0,
    frozenMark := false, dropped := 0 }

/-- An accumulator after a frame start, teardown or reset (R90, R102). -/
def TileAcc.cleared : TileAcc := { n := 0, lumaSum := 0, hot := 0, maximum := 0 }

/-- The Glare Unit's OFF values (R102, R103). -/
def Glare.off : Glare :=
  { acc := List.replicate Config.tiles .cleared, frameGt := 0, night := .day, map := List.replicate Config.tiles 256,
    summary := List.replicate Config.tiles { hot := false, code := 0 } }

/-- The Scan Tracker's values after teardown and reset (R121, R122). -/
def Scan.off : Scan := { record := none, lastLatency := 0, unchecked := 0 }

/-- The View Supervisor's values after teardown and reset (R131, R142). -/
def View.off : View := { state := .off, watchdog := none, hold := none, recovery := 0 }

/-- A side in OFF with the active set given: none after reset (R47), the disabling set after teardown (R45). -/
def SideState.off (active : Option ActiveSet) : SideState :=
  { active := active, takeWaiting := false, frameProfile := none, ring := .off, glare := .off, scan := .off, view := .off }

/-- The Memory Controller's values (R22). While RESET is held nothing holds the bus (log 20). -/
def Mct.reset : Mct :=
  { bus := .free, banks := List.replicate 4 none, refreshOwed := 0, intervalRunning := false, queue := [] }

/-- The Control Area Unit's values (R47). CASEL is sampled at release; its value before is DESIGN CHOICE 0 (log 6). -/
def Cau.reset : Cau := { config := .boot, casel := 0, pendingSet := [], accepted := none, device := none }

/-- The Fault Unit's values (R158). -/
def Flu.reset : Flu :=
  { entries := List.replicate 25 0, queue := [], seq := 0, writeIndex := 0, readIndex := none, attn := false }

/-- The machine at power-on with RESET held (log 5): every block at its reset values, memory with nothing listed. -/
def State.reset : State :=
  { pending := [], resetHeld := true, timebase := 0, inHand := none, answers := [], request := none, mct := .reset,
    cau := .reset, left := .off none, right := .off none, faultLine := true, flu := .reset, mem := [], freeDraws := 0 }

end Sys2Proof.Machine
end

