-- ==== Sys2Proof/Machine/Operands.lean ====
section
/-! DEFINITION. Where the operands of a command come from: the words of a transfer in burst order, their kinds, and the
fields of the pending set (chapters 1, 2 and 9). -/

namespace Sys2Proof.Machine

/-! ## Words of a transfer (R2, R3) -/

/-- The byte address of the i-th word of a transfer in burst order: from the addressed word up to the end of its aligned
block, then from the block's first word (R2). -/
def wordAddress (t : Transfer) (i : Nat) : Nat :=
  let n := t.wordCount
  let word := t.address.toNat / 4
  (word / n * n + (word % n + i) % n) * 4

/-- The byte enables in force for a word: SYBE for a single word, all four on a burst (R3). -/
def enablesOf (t : Transfer) : BitVec 4 :=
  if t.wordCount = 1 then t.enables else 0xF

/-- The i-th word of write data in burst order (R1). -/
def dataWord (t : Transfer) (i : Nat) : Word := t.data.getD i 0

/-- All four bytes of the word are enabled (R3). -/
def fullWord (be : BitVec 4) : Bool := be == 0xF

/-- At least one byte of the word is enabled. -/
def anyEnabled (be : BitVec 4) : Bool := be != 0

/-- Byte lane k of a word, bits 8k+7..8k (01, section 1.1, SYBE). -/
def byteOf (w : Word) (k : Nat) : Byte := w.extractLsb' (8 * k) 8

/-- The word of four byte lanes, lane 0 least significant. -/
def ofBytes (b0 b1 b2 b3 : Byte) : Word := b3 ++ b2 ++ b1 ++ b0

/-- The lane of the new word where its byte is enabled, of the old one elsewhere (R3, R25). -/
def mergeLane (old new : Word) (be : BitVec 4) (k : Nat) : Byte :=
  if be.getLsbD k then byteOf new k else byteOf old k

/-- A word written under byte enables over an old one (R25). -/
def mergeWord (old new : Word) (be : BitVec 4) : Word :=
  ofBytes (mergeLane old new be 0) (mergeLane old new be 1) (mergeLane old new be 2) (mergeLane old new be 3)

/-! ## Sides and buffers -/

/-- A side's state. -/
def State.side (s : State) : Side → SideState
  | .left => s.left
  | .right => s.right

/-- Whether a side is enabled in its active set. -/
def SideState.enabled (x : SideState) : Bool :=
  match x.active with
  | some a => a.desc.enabled
  | none => false

/-- The active set of a side that is enabled in it; a side that is not has no buffer words (R8). -/
def SideState.inForce (x : SideState) : Option ActiveSet :=
  match x.active with
  | some a => if a.desc.enabled then some a else none
  | none => none

/-- Words of a buffer, W*H (R33). -/
def Geometry.size (g : Geometry) : Nat := g.w * g.h

/-- Base of a buffer (R33, R67). -/
def Geometry.base (g : Geometry) (b : Fin 3) : Nat :=
  match b with
  | 0 => g.base0
  | 1 => g.base1
  | 2 => g.base2

/-- The record of a buffer. -/
def BufferRing.buf (r : BufferRing) (b : Fin 3) : BufRecord :=
  match b with
  | 0 => r.buf0
  | 1 => r.buf1
  | 2 => r.buf2

/-- The ring with another record for one buffer. -/
def BufferRing.setBuf (r : BufferRing) (b : Fin 3) (x : BufRecord) : BufferRing :=
  match b with
  | 0 => { r with buf0 := x }
  | 1 => { r with buf1 := x }
  | 2 => { r with buf2 := x }

/-- The first buffer in a state; R69 leaves at most one FILLING and one SHOWING. -/
def BufferRing.find (r : BufferRing) (st : BufState) : Option (Fin 3) :=
  if r.buf0.state = st then some 0
  else if r.buf1.state = st then some 1
  else if r.buf2.state = st then some 2
  else none

/-- The side's FILLING buffer, if any. -/
def BufferRing.filling (r : BufferRing) : Option (Fin 3) := r.find .filling

/-- The side's SHOWING buffer, if any. -/
def BufferRing.showing (r : BufferRing) : Option (Fin 3) := r.find .showing

/-- The profile of an index 0..3 (R34). -/
def Profiles.get (p : Profiles) (i : Nat) : Profile :=
  match i with
  | 0 => p.p0
  | 1 => p.p1
  | 2 => p.p2
  | _ => p.p3

/-! ## Classification (R7, R8, R23) -/

/-- The control area base of a CASEL value (R23). -/
def controlBase (casel : BitVec 2) : Nat :=
  match casel.toNat with
  | 0 => 0x0000000
  | 1 => 0x0FFF000
  | 2 => 0x1FFF000
  | _ => 0x3FFF000

/-- The buffer of a side's geometry that holds an address, with the word offset in it (R8). -/
def bufferOf (g : Geometry) (a : Nat) : Option (Fin 3 × Nat) :=
  if g.base0 ≤ a ∧ a < g.base0 + g.size * 4 then some (0, (a - g.base0) / 4)
  else if g.base1 ≤ a ∧ a < g.base1 + g.size * 4 then some (1, (a - g.base1) / 4)
  else if g.base2 ≤ a ∧ a < g.base2 + g.size * 4 then some (2, (a - g.base2) / 4)
  else none

/-- The buffer word that an address is, on the sides that a snapshot shows enabled. -/
def bufferKind (sn : Snapshot) (a : Nat) : Option WordKind :=
  match sn.left.bind (bufferOf · a) with
  | some (b, o) => some (.buffer .left b o)
  | none =>
    match sn.right.bind (bufferOf · a) with
    | some (b, o) => some (.buffer .right b o)
    | none => none

/-- The kind of the word at an address (R8). -/
def classify (sn : Snapshot) (a : Nat) : WordKind :=
  if sn.controlBase ≤ a ∧ a < sn.controlBase + Config.controlBytes then
    if a - sn.controlBase < 0xE00 then .parameter (a - sn.controlBase) else .status (a - sn.controlBase)
  else
    match bufferKind sn a with
    | some k => k
    | none =>
      match sn.ring with
      | some (base, capacity) =>
        if base ≤ a ∧ a < base + capacity * 16 then .ring ((a - base) / 16) else .plain
      | none => .plain

/-- The regions of a side's buffers: those of an enabled active set (R8). -/
def SideState.region (x : SideState) : Option Geometry := x.inForce.map fun a => a.desc.geometry

/-- The snapshot that the RDC takes when a transfer is taken (R7). -/
def State.snapshot (s : State) : Snapshot :=
  { controlBase := controlBase s.cau.casel
    ring := s.cau.device.map fun d => (d.ringBase, d.ringCapacity)
    left := s.left.region
    right := s.right.region }

/-- The next word of the transfer in hand: the transfer, the word's address and its kind. -/
def State.currentWord (s : State) : Option (InHand × Nat × WordKind) :=
  match s.inHand with
  | some h =>
    if h.handled < h.transfer.wordCount then
      some (h, wordAddress h.transfer h.handled, classify h.snapshot (wordAddress h.transfer h.handled))
    else none
  | none => none

/-! ## Fields of the pending set (R161, R162) -/

/-- The unsigned value of bits hi..lo of a word. -/
def bits (w : Word) (hi lo : Nat) : Nat := w.toNat / 2 ^ lo % 2 ^ (hi + 1 - lo)

/-- The word at a byte offset of the pending set. -/
def wordAt (ps : List Word) (offset : Nat) : Word := ps.getD (offset / 4) 0

/-- The device fields (R161), as they stand in the pending set. -/
def pendingDevice (ps : List Word) : DeviceCopy :=
  { ringBase := (wordAt ps 0x08).toNat
    ringCapacity := (wordAt ps 0x0C).toNat
    attentionMask := wordAt ps 0x10
    markerColour := wordAt ps 0x14
    borderWidth := (wordAt ps 0x18).toNat }

/-- The side descriptor at an offset of the pending set (R161). -/
def pendingDescriptor (ps : List Word) (at' : Nat) : Descriptor :=
  let word (n : Nat) : Word := wordAt ps (at' + 4 * n)
  { enabled := (word 0).getLsbD 0
    geometry :=
      { w := (word 1).toNat, h := (word 2).toNat
        base0 := (word 3).toNat, base1 := (word 4).toNat, base2 := (word 5).toNat }
    dayProfile := bits (word 6) 15 0
    nightProfile := bits (word 6) 31 16
    intervalMax := (word 7).toNat
    latencyMax := (word 8).toNat
    holdMax := (word 9).toNat
    frozenRun := bits (word 10) 15 0
    recoverRun := bits (word 10) 31 16
    nEnter := bits (word 11) 15 0
    nLeave := bits (word 11) 31 16
    stepDown := bits (word 12) 15 0
    stepUp := bits (word 12) 31 16 }

/-- The offset of a side's descriptor (R33). -/
def descriptorOffset : Side → Nat
  | .left => 0x40
  | .right => 0x80

/-- The profile at an offset of the pending set (R162). -/
def pendingProfile (ps : List Word) (at' : Nat) : Profile :=
  let word (n : Nat) : Word := wordAt ps (at' + 4 * n)
  { bor := bits (word 0) 9 0, bog := bits (word 0) 19 10, bob := bits (word 0) 29 20
    gr := bits (word 1) 11 0, gg := bits (word 1) 27 16, gb := bits (word 2) 11 0
    k := bits (word 3) 15 0, dmin := bits (word 3) 31 16
    gt := bits (word 4) 15 0, hfOn := bits (word 4) 31 16
    tone := (List.range 33).map fun i => bits (word (5 + i / 4)) (8 * (i % 4) + 7) (8 * (i % 4)) }

/-! ## Clamping (R42) -/

/-- A value brought into lo..hi. -/
def clamp (lo hi n : Nat) : Nat := max lo (min hi n)

/-- N_ENTER and N_LEAVE brought into 0..4095 and put in order (R42). -/
def orderNight (enter leave : Nat) : Nat × Nat :=
  let e := clamp 0 4095 enter
  let l := clamp 0 4095 leave
  if e < l then (e, l) else if e = 4095 then (4094, 4095) else (e, e + 1)

/-- A side descriptor clamped (R42). -/
def clampDescriptor (d : Descriptor) : Descriptor :=
  { d with
    intervalMax := clamp 1000 200000 d.intervalMax
    latencyMax := clamp 1000 100000 d.latencyMax
    holdMax := clamp 0 2000000 d.holdMax
    frozenRun := clamp 2 255 d.frozenRun
    recoverRun := clamp 1 15 d.recoverRun
    nEnter := (orderNight d.nEnter d.nLeave).1
    nLeave := (orderNight d.nEnter d.nLeave).2
    stepDown := clamp 1 256 d.stepDown
    stepUp := clamp 1 256 d.stepUp }

/-- A profile clamped (R42). -/
def clampProfile (p : Profile) : Profile :=
  { p with
    k := clamp 0 4095 p.k
    dmin := clamp 0 256 p.dmin
    gt := clamp 0 4095 p.gt
    hfOn := clamp 0 256 p.hfOn }

/-- The accepted copy made from the pending set with its fields clamped (R35, R42). -/
def acceptedFrom (ps : List Word) (generation : Word) : AcceptedSet :=
  { generation := generation
    device := { pendingDevice ps with borderWidth := clamp 0 32 (pendingDevice ps).borderWidth }
    left := clampDescriptor (pendingDescriptor ps (descriptorOffset .left))
    right := clampDescriptor (pendingDescriptor ps (descriptorOffset .right))
    profiles :=
      { p0 := clampProfile (pendingProfile ps 0x100), p1 := clampProfile (pendingProfile ps 0x140)
        p2 := clampProfile (pendingProfile ps 0x180), p3 := clampProfile (pendingProfile ps 0x1C0) } }

/-- The descriptor of a side in an accepted set. -/
def AcceptedSet.descriptor (x : AcceptedSet) : Side → Descriptor
  | .left => x.left
  | .right => x.right

/-- What a side's active set becomes when it takes an accepted set (R45). -/
def AcceptedSet.forSide (x : AcceptedSet) (sd : Side) : ActiveSet :=
  { generation := x.generation, desc := x.descriptor sd, profiles := x.profiles }

end Sys2Proof.Machine
end

