-- ==== Sys2Proof/Machine/Flags.lean ====
section
/-! DEFINITION. The FAULT and ATTN lines, the codes and priority of faults, and the words the part answers or writes
about its state (chapters 7, 8 and 9). -/

namespace Sys2Proof.Machine

/-! ## Codes (R143, R163, R166) -/

/-- The code of a side kind (R143). -/
def SideKind.code : SideKind → Nat
  | .frameLate => 1
  | .latency => 2
  | .tearScan => 3
  | .staleScan => 4
  | .frozen => 5
  | .readback => 6
  | .holdExpired => 7
  | .tearWrite => 8
  | .frameCut => 9
  | .shortFrame => 10
  | .partialWrite => 11

/-- Class A kinds bear on the view (R143). -/
def SideKind.classA : SideKind → Bool
  | .frameLate | .latency | .tearScan | .staleScan | .frozen | .readback | .holdExpired => true
  | .tearWrite | .frameCut | .shortFrame | .partialWrite => false

/-- The code of a device kind (R143). -/
def DeviceKind.code : DeviceKind → Nat
  | .configReject => 16
  | .protect => 17
  | .recordDropped => 18

/-- The kind code of an entry (R143). -/
def FaultEntry.code : FaultEntry → Nat
  | .device k => k.code
  | .side _ k => k.code

/-- The source of an entry: 0 device, 1 left, 2 right (R143). -/
def FaultEntry.source : FaultEntry → Nat
  | .device _ => 0
  | .side .left _ => 1
  | .side .right _ => 2

/-- The entries in priority order, the highest first (R146). -/
def entryOrder : List FaultEntry :=
  [.device .configReject,
   .side .left .holdExpired, .side .right .holdExpired, .side .left .frozen, .side .right .frozen,
   .side .left .readback, .side .right .readback, .side .left .frameLate, .side .right .frameLate,
   .side .left .tearScan, .side .right .tearScan, .side .left .staleScan, .side .right .staleScan,
   .side .left .latency, .side .right .latency,
   .device .protect,
   .side .left .tearWrite, .side .right .tearWrite, .side .left .frameCut, .side .right .frameCut,
   .side .left .shortFrame, .side .right .shortFrame, .side .left .partialWrite, .side .right .partialWrite,
   .device .recordDropped]

/-- The place of the left side's entry of a kind in the priority order, from 0 (R146); the right side's is one more. -/
def SideKind.place : SideKind → Nat
  | .holdExpired => 1
  | .frozen => 3
  | .readback => 5
  | .frameLate => 7
  | .tearScan => 9
  | .staleScan => 11
  | .latency => 13
  | .tearWrite => 16
  | .frameCut => 18
  | .shortFrame => 20
  | .partialWrite => 22

/-- The place of an entry in the priority order, from 0 (R146). -/
def FaultEntry.place : FaultEntry → Nat
  | .device .configReject => 0
  | .device .protect => 15
  | .device .recordDropped => 24
  | .side .left k => k.place
  | .side .right k => k.place + 1

/-- View state codes (R163). -/
def ViewState.code : ViewState → Nat
  | .off => 0
  | .waiting => 1
  | .live => 2
  | .marked => 3
  | .holding => 4
  | .lost => 5

/-- Buffer state codes (R163). -/
def BufState.code : BufState → Nat
  | .free => 0
  | .filling => 1
  | .ready => 2
  | .showing => 3

/-- Configuration state codes (R163). -/
def ConfigState.code : ConfigState → Nat
  | .boot => 0
  | .unconfigured => 1
  | .configured => 2

/-- Night state codes (R163). -/
def NightState.code : NightState → Nat
  | .day => 0
  | .night => 1

/-! ## The lines (R139, R150) -/

/-- FAULT is asserted exactly when RESET is held, the CAU is in BOOT or UNCONFIGURED, or a side is in LOST (R139). -/
def State.faultCondition (s : State) : Bool :=
  s.resetHeld || s.cau.config != .configured || s.left.view.state == .lost || s.right.view.state == .lost

/-- The attention mask in force: none enabled while there is no device-wide active copy (R150). -/
def State.maskInForce (s : State) : Word :=
  match s.cau.device with
  | some d => d.attentionMask
  | none => 0

/-- Some pending entry's kind is enabled in a mask (R150). -/
def anyEnabledPending (mask : Word) (entries : List Nat) : Bool :=
  (entryOrder.zip entries).any fun p => decide (0 < p.2) && mask.getLsbD p.1.code

/-- The condition that ATTN shows (R150). -/
def State.attnCondition (s : State) : Bool := anyEnabledPending s.maskInForce s.flu.entries

/-- Both lines brought up to date (R139, R150). -/
def updateLines (s : State) : State :=
  { s with faultLine := s.faultCondition, flu := { s.flu with attn := s.attnCondition } }

/-! ## The acknowledge word (R147, R165) -/

/-- The place of the highest-priority pending entry (R147). -/
def firstPending : List Nat → Option Nat
  | [] => none
  | c :: rest => if 0 < c then some 0 else (firstPending rest).map (· + 1)

/-- The word of a taken entry: its count, source and kind code (R165). -/
def acknowledgeWord (e : FaultEntry) (count : Nat) : Word :=
  toWord (count * 2 ^ 24 + e.source * 2 ^ 16 + e.code)

/-! ## Records (R156, R166) -/

/-- Word 2 of a record: frame, buffer index and view state, with the marks for absent ones (R166). -/
def recordWord2 (frame : Option (BitVec 16 × Fin 3)) (view : Option ViewState) : Word :=
  let frameBits := match frame with
    | some (seq, b) => seq.toNat + b.val * 2 ^ 16
    | none => 0xF * 2 ^ 16
  let viewBits := match view with
    | some v => v.code
    | none => 0xF
  toWord (frameBits + viewBits * 2 ^ 24)

/-- The four words of a record (R166). -/
def FaultRecord.words (r : FaultRecord) : List Word :=
  [toWord (r.seq.toNat * 2 ^ 16 + r.entry.source * 2 ^ 8 + r.entry.code), r.time, recordWord2 r.frame r.view, r.detail]

/-! ## Status words (R29, R30, R163, R164) -/

/-- The number a Bool reads as. -/
def flag (b : Bool) : Nat := if b then 1 else 0

/-- A device status word, by its offset (R163). -/
def deviceStatusWord (s : State) (offset : Nat) : Word :=
  if offset = 0xE04 then toWord s.cau.config.code
  else if offset = 0xE08 then
    match s.cau.accepted with
    | some a => a.generation
    | none => 0
  else if offset = 0xE0C then s.timebase
  else if offset = 0xE10 then toWord (flag s.faultLine + flag s.flu.attn * 2)
  else if offset = 0xE14 then
    match s.cau.device with
    | some _ => toWord s.flu.writeIndex
    | none => 0
  else if offset = 0xE18 then toWord s.flu.seq.toNat
  else 0

/-- The status word of a buffer (R163). -/
def bufferStatusWord (b : BufRecord) : Word :=
  toWord (b.seq.toNat + b.state.code * 2 ^ 16 + b.profile * 2 ^ 20 + flag b.verified * 2 ^ 24 + flag b.cut * 2 ^ 25)

/-- Scan buffer and redirect target in word 0 of a side's status (R163). -/
def scanStatusBits : Option ScanRecord → Nat
  | none => 0
  | some r =>
    r.buf.val * 2 ^ 16 + 2 ^ 18 +
      match r.redirect with
      | some t => t.val * 2 ^ 20 + 2 ^ 22
      | none => 0

/-- Word n of a side's status (R163). -/
def sideStatusWord (x : SideState) (n : Nat) : Word :=
  match n with
  | 0 => toWord (x.view.state.code + x.glare.night.code * 2 ^ 8 + scanStatusBits x.scan.record)
  | 1 =>
    match x.active with
    | some a => a.generation
    | none => 0
  | 2 => bufferStatusWord x.ring.buf0
  | 3 => bufferStatusWord x.ring.buf1
  | 4 => bufferStatusWord x.ring.buf2
  | 5 => x.scan.lastLatency
  | 6 => toWord (x.ring.dropped + x.scan.unchecked * 2 ^ 16)
  | _ => 0

/-- The half of a map word that shows a tile (R164). -/
def tileStatusHalf (g : Glare) (tile : Nat) : Nat :=
  let t := g.summary.getD tile { hot := false, code := 0 }
  g.map.getD tile 256 + flag t.hot * 2 ^ 9 + t.code * 2 ^ 10

/-- Map word k of a side: tile 2k below, tile 2k + 1 above (R164). -/
def mapWord (g : Glare) (k : Nat) : Word :=
  toWord (tileStatusHalf g (2 * k) + tileStatusHalf g (2 * k + 1) * 2 ^ 16)

/-- The status word at an offset above 0E00h, from the live state of the part (R28, R163, R164). -/
def statusWord (s : State) (offset : Nat) : Word :=
  if offset < 0xE40 then deviceStatusWord s offset
  else if offset < 0xE60 then sideStatusWord s.left ((offset - 0xE40) / 4)
  else if offset < 0xEC0 then mapWord s.left.glare ((offset - 0xE60) / 4)
  else if offset < 0xEE0 then sideStatusWord s.right ((offset - 0xEC0) / 4)
  else if offset < 0xF40 then mapWord s.right.glare ((offset - 0xEE0) / 4)
  else 0

end Sys2Proof.Machine
end

