-- ==== Sys2Proof/Machine/Ops.lean ====
section
/-! DEFINITION. The operations that several commands share: frame memory, the bus, the words of a transfer, the fault
unit's raise with the view supervisor's answer to it, and the presentation of records. -/

namespace Sys2Proof.Machine

/-! ## Frame memory (section 1.5) -/

/-- The byte at an address. -/
def Memory.readByte : List Host.Cell → Nat → Byte
  | [], _ => Config.blankByte
  | c :: m, a => if c.1 = a then c.2 else Memory.readByte m a

/-- The byte at an address written, in the canonical form: addresses rising, no blank byte listed. -/
def Memory.writeByte : List Host.Cell → Nat → Byte → List Host.Cell
  | [], a, v => if v = Config.blankByte then [] else [(a, v)]
  | c :: m, a, v =>
    if a < c.1 then (if v = Config.blankByte then c :: m else (a, v) :: c :: m)
    else if c.1 = a then (if v = Config.blankByte then m else (a, v) :: m)
    else c :: Memory.writeByte m a v

/-- The canonical form of frame memory: addresses of the 64 MiB strictly rising, and no byte listed that an unlisted
address reads as. -/
abbrev Memory.wf (m : List Host.Cell) : Prop :=
  m.Pairwise (fun x y => x.1 < y.1) ∧ ∀ c ∈ m, c.1 < Config.memoryBytes ∧ c.2 ≠ Config.blankByte

/-- The word that an address names: address bits 25:2 (R2, R11; log 16). -/
def wordBase (a : Nat) : Nat := a % Config.memoryBytes / 4 * 4

/-- The word at an address. -/
def Memory.readWord (m : List Host.Cell) (a : Nat) : Word :=
  ofBytes (Memory.readByte m (wordBase a)) (Memory.readByte m (wordBase a + 1)) (Memory.readByte m (wordBase a + 2))
    (Memory.readByte m (wordBase a + 3))

/-- Byte lane k of a word written where it is enabled (R3). -/
def Memory.writeLane (m : List Host.Cell) (a : Nat) (be : BitVec 4) (w : Word) (k : Nat) : List Host.Cell :=
  if be.getLsbD k then Memory.writeByte m (wordBase a + k) (byteOf w k) else m

/-- The word at an address written under byte enables (R3). -/
def Memory.writeWord (m : List Host.Cell) (a : Nat) (be : BitVec 4) (w : Word) : List Host.Cell :=
  Memory.writeLane (Memory.writeLane (Memory.writeLane (Memory.writeLane m a be w 0) a be w 1) a be w 2) a be w 3

/-- Full words written at an address and the words above it, in order. -/
def Memory.writeWords (m : List Host.Cell) (a : Nat) : List Word → List Host.Cell
  | [] => m
  | w :: ws => Memory.writeWords (Memory.writeWord m a 0xF w) (a + 4) ws

/-- Memory from any list of cells, each written over blank memory in turn. -/
def Memory.ofCells (cells : List Host.Cell) : List Host.Cell :=
  cells.foldl (fun m c => Memory.writeByte m (c.1 % Config.memoryBytes) c.2) []

/-- Bank of an address: bits 12:11 (R11). -/
def bankOf (a : Nat) : Nat := a / 2 ^ 11 % 4

/-- Row of an address: bits 25:13 (R11). -/
def rowOf (a : Nat) : Nat := a / 2 ^ 13 % 8192

/-- Column of an address: bits 10:2 (R11). -/
def columnOf (a : Nat) : Nat := a / 4 % 512

/-- After an access, the word's bank is open on the word's row and the others are as they were (R12). -/
def openRow (a : Nat) (s : State) : State :=
  { s with mct := { s.mct with banks := s.mct.banks.set (bankOf a) (some (rowOf a)) } }

/-- All four banks closed (R14). -/
def closedBanks : List (Option Nat) := List.replicate 4 none

/-- A word written to memory under byte enables, by a transfer. -/
def storeWord (a : Nat) (be : BitVec 4) (w : Word) (s : State) : State :=
  openRow a { s with mem := Memory.writeWord s.mem a be w }

/-! ## The words of the transfer in hand -/

/-- The transfer in hand changed. -/
def modInHand (f : InHand → InHand) (s : State) : State := { s with inHand := s.inHand.map f }

/-- One more word of the transfer in hand handled; a read brings its data (R4). -/
def finishWord (data : List Word) (s : State) : State :=
  modInHand (fun h => { h with handled := h.handled + 1, readData := h.readData ++ data }) s

/-- What an event does when it is ready. An event that is not ready is not taken, and the state stays as it is (log 3). -/
def whenReady (ready : Bool) (effect : State → State) (s : State) : State :=
  if ready then effect s else s

/-- The handling of the next word of the transfer in hand, when its direction and kind are those the command names;
otherwise the event is not taken (log 3). -/
def onWord (write : Bool) (accepts : BitVec 4 → WordKind → Bool) (effect : InHand → Nat → WordKind → State → State)
    (s : State) : State :=
  match s.currentWord with
  | some (h, a, k) => if h.transfer.write = write ∧ accepts (enablesOf h.transfer) k = true then effect h a k s else s
  | none => s

/-- The data of the word being handled. -/
def currentData (h : InHand) : Word := dataWord h.transfer h.handled

/-! ## Sides -/

/-- A side's state replaced. -/
def setSide (sd : Side) (x : SideState) (s : State) : State :=
  match sd with
  | .left => { s with left := x }
  | .right => { s with right := x }

/-- A side's state changed. -/
def modSide (sd : Side) (f : SideState → SideState) (s : State) : State := setSide sd (f (s.side sd)) s

/-- A side's ring changed. -/
def modRing (sd : Side) (f : BufferRing → BufferRing) (s : State) : State :=
  modSide sd (fun x => { x with ring := f x.ring }) s

/-- One buffer record of a side changed. -/
def modBuf (sd : Side) (b : Fin 3) (f : BufRecord → BufRecord) (s : State) : State :=
  modRing sd (fun r => r.setBuf b (f (r.buf b))) s

/-- A side's view supervisor changed. -/
def modView (sd : Side) (f : View → View) (s : State) : State :=
  modSide sd (fun x => { x with view := f x.view }) s

/-- Sequence and index of a buffer, as a record names a frame. -/
def frameOf (x : SideState) (b : Fin 3) : BitVec 16 × Fin 3 := ((x.ring.buf b).seq, b)

/-- The elapsed time from a timebase value, modulo 2^32 (R124). -/
def elapsed (now since : Word) : Nat := (now - since).toNat

/-- A running timer has reached its duration (R126, R129). -/
def Timer.due (t : Timer) (now : Word) : Bool := decide (t.duration ≤ elapsed now t.loadTime)

/-- A timer loaded now (R125, R128). -/
def loaded (now : Word) (duration : Nat) : Option Timer := some { loadTime := now, duration := duration }

/-! ## The view supervisor's answer to faults and good scans (R128, R132 to R138) -/

/-- The view state that a class A fault leads to (R134). A cell of "not raised" leaves the state as it is (log 18). -/
def viewAfterFault : SideKind → ViewState → ViewState
  | .frameLate, .waiting => .lost
  | .frameLate, .live => .holding
  | .frameLate, .marked => .holding
  | .latency, .live => .marked
  | .tearScan, .live => .holding
  | .tearScan, .marked => .holding
  | .staleScan, .live => .holding
  | .staleScan, .marked => .holding
  | .frozen, .off => .off
  | .frozen, _ => .lost
  | .readback, .live => .marked
  | .readback, .holding => .lost
  | .holdExpired, .holding => .lost
  | _, v => v

/-- The hold timer over a move of the view state: loaded at an entry to HOLDING, stopped at an exit (R128). -/
def holdAfterMove (old new : ViewState) (now : Word) (holdMax : Nat) (hold : Option Timer) : Option Timer :=
  if new = .holding then (if old = .holding then hold else loaded now holdMax) else none

/-- HOLD_MAX of the side's active set. -/
def SideState.holdMax (x : SideState) : Nat :=
  match x.active with
  | some a => a.desc.holdMax
  | none => 0

/-- RECOVER_RUN of the side's active set. -/
def SideState.recoverRun (x : SideState) : Nat :=
  match x.active with
  | some a => a.desc.recoverRun
  | none => 0

/-- A move of the view state: the recovery run is 0 and the hold timer follows (R128, R133). -/
def moveView (now : Word) (holdMax : Nat) (new : ViewState) (v : View) : View :=
  { v with state := new, hold := holdAfterMove v.state new now holdMax v.hold, recovery := 0 }

/-- A side's answer to a fault: class A moves the view by R134 and breaks the run (R133), class B changes nothing (R135). -/
def faultSide (now : Word) (k : SideKind) (x : SideState) : SideState :=
  if k.classA then { x with view := moveView now x.holdMax (viewAfterFault k x.view.state) x.view } else x

/-- The view supervisor acts on a fault of its side (R134 to R136). -/
def viewFault (sd : Side) (k : SideKind) (s : State) : State := modSide sd (faultSide s.timebase k) s

/-- One good scan more in MARKED or LOST, and the step up when the run is long enough (R132, R133). -/
def advanceRun (recoverRun : Nat) (up : ViewState) (v : View) : View :=
  if recoverRun ≤ v.recovery + 1 then { v with state := up, recovery := 0 } else { v with recovery := v.recovery + 1 }

/-- The view supervisor acts on a good-scan notice (R132). -/
def goodScanView (recoverRun : Nat) (v : View) : View :=
  match v.state with
  | .off => v
  | .waiting => { v with state := .live, recovery := 0 }
  | .live => v
  | .marked => advanceRun recoverRun .live v
  | .holding => { v with state := .marked, hold := none, recovery := 0 }
  | .lost => advanceRun recoverRun .marked v

/-- A side's answer to a good-scan notice (R132). -/
def goodScanSide (x : SideState) : SideState := { x with view := goodScanView x.recoverRun x.view }

/-- A good-scan notice to a side's view supervisor, with the FAULT line brought up to date (R132, R139). -/
def goodScan (sd : Side) (s : State) : State := updateLines (modSide sd goodScanSide s)

/-! ## The fault unit (chapter 8) -/

/-- A raise added to the pending set: the entry's count up by 1, held at 255 (R145). -/
def countRaise (e : FaultEntry) (entries : List Nat) : List Nat :=
  entries.set e.place (saturate 255 (entries.getD e.place 0 + 1))

/-- The read index in use: the live read index reduced modulo the capacity (R153). -/
def readIndexInUse (f : Flu) (capacity : Nat) : Nat := (f.readIndex.getD 0).toNat % capacity

/-- The ring is full: the next slot is the oldest unread one (R153). -/
def ringFull (f : Flu) (d : DeviceCopy) : Bool :=
  (f.writeIndex + 1) % d.ringCapacity == readIndexInUse f d.ringCapacity

/-- The ring holds unread records (R40, R153). -/
def ringUnread (f : Flu) (d : DeviceCopy) : Bool := f.writeIndex != readIndexInUse f d.ringCapacity

/-- An own access is a record write. -/
def OwnAccess.isRecordWrite : OwnAccess → Bool
  | .bootLoadRead _ => false
  | .recordWrite _ _ => true

/-- A record write of the FLU waits in the MCT's queue. -/
def recordWriteWaiting (m : Mct) : Bool := m.queue.any fun e => e.access.isRecordWrite

/-- A record write of the FLU holds the bus. -/
def recordWriteRunning (m : Mct) : Bool :=
  match m.bus with
  | .own a => a.isRecordWrite
  | _ => false

/-- A record write is outstanding, from its presentation until it completes or is withdrawn (R152; log 15). -/
def recordWriteOutstanding (m : Mct) : Bool := recordWriteWaiting m || recordWriteRunning m

/-- An own access joins the tail of the queue with its join time (R15). -/
def joinOwnQueue (a : OwnAccess) (s : State) : State :=
  { s with mct := { s.mct with queue := s.mct.queue ++ [{ access := a, joinTime := s.timebase }] } }

/-- The byte address of the slot that the write index names (R152). -/
def recordSlot (d : DeviceCopy) (f : Flu) : Nat := d.ringBase + f.writeIndex * 16

/-- The FLU presents the head record when a ring exists, the ring is not full and no record write is outstanding
(R152). -/
def presentHead (s : State) : State :=
  match s.cau.device, s.flu.queue with
  | some d, r :: _ =>
    if ringFull s.flu d || recordWriteOutstanding s.mct then s
    else joinOwnQueue (.recordWrite (recordSlot d s.flu) r.words) s
  | _, _ => s

/-- The FLU withdraws a record write that waits in the MCT's queue (R152). -/
def withdrawRecord (s : State) : State :=
  { s with mct := { s.mct with queue := s.mct.queue.filter fun e => !e.access.isRecordWrite } }

/-- A record joins the queue with the next record sequence, or is discarded at a full queue with RECORD_DROPPED raised
(R151). The record's own sequence is given here. -/
def joinRecordQueue (r : FaultRecord) (f : Flu) : Flu :=
  if f.queue.length < Config.recordQueueMax then
    { f with queue := f.queue ++ [{ r with seq := f.seq }], seq := f.seq + 1 }
  else { f with entries := countRaise (.device .recordDropped) f.entries }

/-- The fault unit's part of a raise: the pending set, the record, ATTN, and the presentation of the head record (R144,
R145, R150, R151, R152). -/
def fluRaise (e : FaultEntry) (frame : Option (BitVec 16 × Fin 3)) (view : Option ViewState) (detail : Word)
    (s : State) : State :=
  presentHead (updateLines
    { s with
      flu := joinRecordQueue { seq := 0, entry := e, time := s.timebase, frame := frame, view := view, detail := detail }
        { s.flu with entries := countRaise e s.flu.entries } })

/-- A fault of a side: its view supervisor acts first, and the record shows the view state after that (R136, R144). -/
def raiseSide (sd : Side) (k : SideKind) (frame : Option (BitVec 16 × Fin 3)) (detail : Word) (s : State) : State :=
  fluRaise (.side sd k) frame (some ((viewFault sd k s).side sd).view.state) detail (viewFault sd k s)

/-- A fault of the device: frame and view state are absent (R156). -/
def raiseDevice (k : DeviceKind) (detail : Word) (s : State) : State :=
  fluRaise (.device k) none none detail s

end Sys2Proof.Machine
end

