-- ==== Sys2Proof/Machine/Clock.lean ====
section
/-! DEFINITION. The timebase and the timers' expiries (chapter 7): commands TIMEBASE_TICK, WATCHDOG_EXPIRY and
HOLD_TIMER_EXPIRY. -/

namespace Sys2Proof.Machine

/-- The timebase advances by 1, wrapping (R123). -/
def advanceTimebase (s : State) : State := { s with timebase := s.timebase + 1 }

/-- TIMEBASE_TICK: while RESET is held the counter stays at 0 (R123). -/
def execTimebaseTick (s : State) : Result := .next (whenReady (!s.resetHeld) advanceTimebase s)

/-- The watchdog stops and FRAME_LATE is raised, naming the FILLING buffer if there is one; the detail is the duration
loaded (R126). -/
def expireWatchdog (sd : Side) (t : Timer) (s : State) : State :=
  let x := s.side sd
  raiseSide sd .frameLate (x.ring.filling.map (frameOf x)) (toWord t.duration)
    (modView sd (fun v => { v with watchdog := none }) s)

/-- WATCHDOG_EXPIRY: taken when the running watchdog's elapsed time has reached its duration (R126). -/
def execWatchdogExpiry (sd : Side) (s : State) : Result :=
  match (s.side sd).view.watchdog with
  | some t => .next (whenReady (t.due s.timebase) (expireWatchdog sd t) s)
  | none => .next s

/-- The hold timer stops and HOLD_EXPIRED is raised, naming the SHOWING buffer; the detail is the duration loaded (R129). -/
def expireHold (sd : Side) (t : Timer) (s : State) : State :=
  let x := s.side sd
  raiseSide sd .holdExpired (x.ring.showing.map (frameOf x)) (toWord t.duration)
    (modView sd (fun v => { v with hold := none }) s)

/-- HOLD_TIMER_EXPIRY: taken when the running hold timer's elapsed time has reached its duration (R129). -/
def execHoldTimerExpiry (sd : Side) (s : State) : Result :=
  match (s.side sd).view.hold with
  | some t => .next (whenReady (t.due s.timebase) (expireHold sd t) s)
  | none => .next s

end Sys2Proof.Machine
end

