-- ==== Sys2Proof/Machine/BusControl.lean ====
section
/-! DEFINITION. The arbiter's grant, refresh, and the end of a record write (sections 1.6 to 1.8): commands
REFRESH_INTERVAL_END, GRANT, REFRESH_END and RECORD_WRITE_DONE. -/

namespace Sys2Proof.Machine

/-- A refresh takes the bus: the owed count goes down by 1 and all banks are closed (R13, R14). -/
def startRefresh (s : State) : State :=
  { s with
    mct := { s.mct with bus := .refresh, refreshOwed := s.mct.refreshOwed - 1, banks := closedBanks } }

/-- The head own access leaves the queue and takes the bus (R16). -/
def startOwnAccess (e : QueueEntry) (rest : List QueueEntry) (s : State) : State :=
  { s with mct := { s.mct with bus := .own e.access, queue := rest } }

/-- The grant is ready: the bus is free, initialisation has ended and RESET is not held (R17). -/
def grantReady (s : State) : Bool := !s.resetHeld && s.mct.bus == .free

/-- What the grant gives the bus to: a refresh if any is owed, else the head own access, else nothing (R17). -/
def grantBus (s : State) : State :=
  if 0 < s.mct.refreshOwed then startRefresh s
  else
    match s.mct.queue with
    | e :: rest => startOwnAccess e rest s
    | [] => s

/-- GRANT (R17). -/
def execGrant (s : State) : Result := .next (whenReady (grantReady s) grantBus s)

/-- The refresh-owed count after the end of an interval (R13). -/
def owedAfterInterval (owed : Nat) : Nat := if owed < Config.refreshMax then owed + 1 else owed

/-- The end of a refresh interval is counted whatever the bus is doing (R13). -/
def countInterval (s : State) : State :=
  { s with mct := { s.mct with refreshOwed := owedAfterInterval s.mct.refreshOwed } }

/-- REFRESH_INTERVAL_END: taken while the interval runs (R13). -/
def execRefreshIntervalEnd (s : State) : Result := .next (whenReady s.mct.intervalRunning countInterval s)

/-- At the end of a refresh all four banks are closed and the bus is free (R14). -/
def endRefresh (s : State) : State :=
  { s with mct := { s.mct with bus := .free, banks := closedBanks } }

/-- REFRESH_END: taken while a refresh holds the bus (R14). -/
def execRefreshEnd (s : State) : Result := .next (whenReady (s.mct.bus == .refresh) endRefresh s)

/-- A record write's four words are in memory and the bus is free (R16). -/
def endRecordWrite (a : Nat) (words : List Word) (s : State) : State :=
  openRow a { s with mem := Memory.writeWords s.mem a words, mct := { s.mct with bus := .free } }

/-- The write index after a record is written: from capacity - 1 to 0 (R152). -/
def nextSlot (device : Option DeviceCopy) (i : Nat) : Nat :=
  match device with
  | some d => (i + 1) % d.ringCapacity
  | none => i

/-- The FLU removes the head record and advances the write index (R152). -/
def retireRecord (s : State) : State :=
  { s with flu := { s.flu with queue := s.flu.queue.tail, writeIndex := nextSlot s.cau.device s.flu.writeIndex } }

/-- RECORD_WRITE_DONE: the FLU is told, and presents the next record if it may (R16, R152). -/
def execRecordWriteDone (s : State) : Result :=
  match s.mct.bus with
  | .own (.recordWrite a words) => .next (presentHead (retireRecord (endRecordWrite a words s)))
  | _ => .next s

end Sys2Proof.Machine
end

