-- ==== Sys2Proof/Machine/Configure.lean ====
section
/-! DEFINITION. The Control Area Unit (chapter 2): writes of parameter words, the commit check, acceptance, how a side
takes a set, and the boot load. Commands PARAMETER_WORD_WRITE, COMMIT_WORD_WRITE, REPORT_READ_INDEX_WRITE and
BOOT_LOAD_READ_DONE. -/

namespace Sys2Proof.Machine

/-! ## The commit check (R40) -/

/-- A buffer base is a multiple of 64 and the buffer ends within frame memory (R40). -/
def bufferPlaced (size base : Nat) : Bool := base % 64 == 0 && decide (base + size * 4 ≤ Config.memoryBytes)

/-- W, H and the buffer bases of a side pass (R40). -/
def geometryOk (g : Geometry) : Bool :=
  decide (64 ≤ g.w ∧ g.w ≤ 1920 ∧ g.w % 16 = 0 ∧ 64 ≤ g.h ∧ g.h ≤ 1080)
    && bufferPlaced g.size g.base0 && bufferPlaced g.size g.base1 && bufferPlaced g.size g.base2

/-- Both profile indices are at most 3 (R40). -/
def profilesOk (d : Descriptor) : Bool := decide (d.dayProfile ≤ 3) && decide (d.nightProfile ≤ 3)

/-- The report ring's capacity and place pass (R40). -/
def ringOk (d : DeviceCopy) : Bool :=
  [16, 32, 64, 128, 256].contains d.ringCapacity && d.ringBase % 64 == 0
    && decide (d.ringBase + d.ringCapacity * 16 ≤ Config.memoryBytes)

/-- Two regions, each a first byte and a length, share a byte (R40). -/
def shareByte (x y : Nat × Nat) : Bool := decide (max x.1 y.1 < min (x.1 + x.2) (y.1 + y.2))

/-- No two regions of a list share a byte. -/
def allDisjoint : List (Nat × Nat) → Bool
  | [] => true
  | r :: rs => rs.all (fun q => !shareByte r q) && allDisjoint rs

/-- The three buffer regions of a geometry. -/
def bufferRegions (g : Geometry) : List (Nat × Nat) := [(g.base0, g.size * 4), (g.base1, g.size * 4), (g.base2, g.size * 4)]

/-- The eight regions of a configuration: six buffers, the control area, the report ring (R40). -/
def regions (control : Nat) (device : DeviceCopy) (left right : Geometry) : List (Nat × Nat) :=
  bufferRegions left ++ bufferRegions right ++ [(control, Config.controlBytes), (device.ringBase, device.ringCapacity * 16)]

/-- A side's W, H and bases may change only when it is not enabled both in its active set and in the pending set (R40). -/
def geometryKept (active : Option ActiveSet) (d : Descriptor) : Bool :=
  match active with
  | some a => !(a.desc.enabled && d.enabled && a.desc.geometry != d.geometry)
  | none => true

/-- The ring base or capacity of a set differs from the active device copy, or there is none (R43). -/
def ringChanged (device : Option DeviceCopy) (new : DeviceCopy) : Bool :=
  match device with
  | some d => d.ringBase != new.ringBase || d.ringCapacity != new.ringCapacity
  | none => true

/-- The active ring holds unread records (R40). -/
def State.unreadRecords (s : State) : Bool :=
  match s.cau.device with
  | some d => ringUnread s.flu d
  | none => false

/-- No condition of R40 holds for the pending set. -/
def commitPasses (s : State) : Bool :=
  let ps := s.cau.pendingSet
  let device := pendingDevice ps
  let left := pendingDescriptor ps (descriptorOffset .left)
  let right := pendingDescriptor ps (descriptorOffset .right)
  (wordAt ps 0x00).toNat == 2
    && geometryOk left.geometry && geometryOk right.geometry
    && allDisjoint (regions (controlBase s.cau.casel) device left.geometry right.geometry)
    && ringOk device
    && profilesOk left && profilesOk right
    && geometryKept s.left.active left && geometryKept s.right.active right
    && !(ringChanged s.cau.device device && s.unreadRecords)

/-! ## How a side takes a set (R44, R45) -/

/-- A side just enabled: OFF values throughout but the view, which waits with the interval watchdog loaded (R45, R131). -/
def enabledSide (now : Word) (a : ActiveSet) : SideState :=
  { SideState.off (some a) with
    view := { state := .waiting, watchdog := loaded now a.desc.intervalMax, hold := none, recovery := 0 } }

/-- A side takes a set, by whether it was enabled and will be (R45, R131, R141). The take-waiting mark is cleared (R44). -/
def takeSet (now : Word) (a : ActiveSet) (x : SideState) : SideState :=
  if x.enabled then
    if a.desc.enabled then { x with active := some a, takeWaiting := false } else .off (some a)
  else
    if a.desc.enabled then enabledSide now a else { x with active := some a, takeWaiting := false }

/-- At a successful commit a side takes the set at once, or waits for the completion of its FILLING frame (R44). -/
def takeOrWait (now : Word) (a : ActiveSet) (x : SideState) : SideState :=
  if x.ring.filling.isSome && a.desc.enabled then { x with takeWaiting := true } else takeSet now a x

/-! ## Commit (R39 to R43) -/

/-- The write index after an acceptance: the read index in use of a changed ring, else as it was (R43, R155). -/
def writeIndexAfter (s : State) (new : DeviceCopy) : Nat :=
  if ringChanged s.cau.device new then readIndexInUse s.flu new.ringCapacity else s.flu.writeIndex

/-- The accepted set and the device-wide active copy are in force (R43). -/
def installSet (a : AcceptedSet) (s : State) : State :=
  { s with
    cau := { s.cau with config := .configured, accepted := some a, device := some a.device }
    flu := { s.flu with writeIndex := writeIndexAfter s a.device } }

/-- Each side takes the accepted set or waits (R44). -/
def offerSet (a : AcceptedSet) (s : State) : State :=
  { s with
    left := takeOrWait s.timebase (a.forSide .left) s.left
    right := takeOrWait s.timebase (a.forSide .right) s.right }

/-- A changed ring withdraws the record write aimed at the old one, and the head is presented again (R155). -/
def moveRing (changed : Bool) (s : State) : State :=
  if changed then presentHead (withdrawRecord s) else s

/-- A commit that passes is accepted (R43). -/
def acceptCommit (generation : Word) (s : State) : State :=
  let a := acceptedFrom s.cau.pendingSet generation
  moveRing (ringChanged s.cau.device a.device) (updateLines (offerSet a (installSet a s)))

/-- The configuration state after a failed commit (R38). -/
def configAfterReject : ConfigState → ConfigState
  | .boot => .unconfigured
  | .unconfigured => .unconfigured
  | .configured => .configured

/-- A commit that fails raises CONFIG_REJECT with its generation (R37, R38, R41). -/
def rejectCommit (generation : Word) (s : State) : State :=
  raiseDevice .configReject generation { s with cau := { s.cau with config := configAfterReject s.cau.config } }

/-- A commit of the pending set (R37, R39). Its generation is the commit word of the pending set. -/
def commit (s : State) : State :=
  let generation := wordAt s.cau.pendingSet 0x04
  if commitPasses s then acceptCommit generation s else rejectCommit generation s

/-! ## Parameter words (R24 to R26) -/

/-- The CAU merges a word into its pending set at an offset below 0200h (R24, R25). -/
def mergePending (offset : Nat) (be : BitVec 4) (w : Word) (s : State) : State :=
  if offset < 0x200 then
    { s with
      cau := { s.cau with
        pendingSet := s.cau.pendingSet.set (offset / 4) (mergeWord (wordAt s.cau.pendingSet offset) w be) } }
  else s

/-- A parameter word written: to memory and into the pending set (R24, R25). -/
def storeParameter (a offset : Nat) (be : BitVec 4) (w : Word) (s : State) : State :=
  mergePending offset be w (storeWord a be w s)

/-- The FLU takes a new live read index: a full ring withdraws a waiting record write, and room presents the head (R26,
R154). -/
def deliverReadIndex (w : Word) (s : State) : State :=
  let t := { s with flu := { s.flu with readIndex := some w } }
  match t.cau.device with
  | some d => if ringFull t.flu d then withdrawRecord t else presentHead t
  | none => t

/-- The row that a parameter write word is for: 0004h with an enable is the commit word, 001Ch the read index. -/
def isCommitWrite (be : BitVec 4) : WordKind → Bool
  | .parameter offset => offset == 0x04 && anyEnabled be
  | _ => false

/-- The word is the report read index. -/
def isReadIndexWrite (_be : BitVec 4) : WordKind → Bool
  | .parameter offset => offset == 0x1C
  | _ => false

/-- The word is a parameter word whose write has no further effect. -/
def isParameterWrite (be : BitVec 4) : WordKind → Bool
  | .parameter offset => offset != 0x1C && !(offset == 0x04 && anyEnabled be)
  | _ => false

/-- The offset of a word in the control area. -/
def WordKind.offset : WordKind → Nat
  | .parameter o => o
  | .status o => o
  | .buffer _ _ o => o
  | .ring slot => slot
  | .plain => 0

/-- The handling of a parameter write word, before the transfer moves on. -/
def parameterWrite (h : InHand) (a : Nat) (k : WordKind) (s : State) : State :=
  storeParameter a k.offset (enablesOf h.transfer) (currentData h) s

/-- PARAMETER_WORD_WRITE (R24, R25). -/
def execParameterWordWrite (s : State) : Result :=
  .next (onWord true isParameterWrite (fun h a k s => finishWord [] (parameterWrite h a k s)) s)

/-- COMMIT_WORD_WRITE: stored like any parameter word, and the transfer carries a commit (R39). -/
def execCommitWordWrite (s : State) : Result :=
  .next (onWord true isCommitWrite
    (fun h a k s => finishWord [] (modInHand (fun h => { h with commit := true }) (parameterWrite h a k s))) s)

/-- The merged read index is delivered when at least one byte was enabled (R25, R26). -/
def deliverMerged (be : BitVec 4) (s : State) : State :=
  if anyEnabled be then deliverReadIndex (wordAt s.cau.pendingSet 0x1C) s else s

/-- REPORT_READ_INDEX_WRITE: stored like any parameter word, and the merged word delivered (R25, R26, R154). -/
def execReportReadIndexWrite (s : State) : Result :=
  .next (onWord true isReadIndexWrite
    (fun h a k s => finishWord [] (deliverMerged (enablesOf h.transfer) (parameterWrite h a k s))) s)

/-! ## The boot load (R36, R37) -/

/-- The byte address of the next boot-load read: the words come in ascending order (R36). -/
def bootLoadAddress (s : State) : Nat := controlBase s.cau.casel + 4 * s.cau.pendingSet.length

/-- The CAU asks for its next boot-load read (R15, R36). -/
def askBootLoad (s : State) : State := joinOwnQueue (.bootLoadRead (bootLoadAddress s)) s

/-- A word returned by the boot load goes to the next offset of the pending set (R36). -/
def loadWord (w : Word) (s : State) : State :=
  { s with cau := { s.cau with pendingSet := s.cau.pendingSet ++ [w] } }

/-- The word of 001Ch is also delivered as the live read index (R26, R36). -/
def deliverLoaded (w : Word) (s : State) : State :=
  if s.cau.pendingSet.length = 0x1C / 4 + 1 then deliverReadIndex w s else s

/-- After the 128th word the load ends with the implicit commit, before it the next read is queued (R36, R37). -/
def continueLoad (s : State) : State :=
  if s.cau.pendingSet.length < Config.pendingWords then askBootLoad s else commit s

/-- A boot-load read of an address ends: its word is read and the bus is free (R16). -/
def endBootRead (a : Nat) (s : State) : State :=
  openRow a { s with mct := { s.mct with bus := .free } }

/-- BOOT_LOAD_READ_DONE (R16, R36, R37). -/
def execBootLoadReadDone (s : State) : Result :=
  match s.mct.bus with
  | .own (.bootLoadRead a) =>
    let w := Memory.readWord s.mem a
    .next (continueLoad (deliverLoaded w (loadWord w (endBootRead a s))))
  | _ => .next s

end Sys2Proof.Machine
end

