-- ==== Sys2Proof/Machine/Develop.lean ====
section
/-! DEFINITION. The Pixel Developer's arithmetic (chapter 3): channels, black offset, gain, knee, tone, output word, tile,
luma and signature term. -/

namespace Sys2Proof.Machine

/-- Red of an input word (R160). -/
def redOf (w : Word) : Nat := bits w 29 20

/-- Green of an input word (R160). -/
def greenOf (w : Word) : Nat := bits w 19 10

/-- Blue of an input word (R160). -/
def blueOf (w : Word) : Nat := bits w 9 0

/-- First stage: c1 (R52). -/
def offsetStage (bo c : Nat) : Nat := if bo < c then c - bo else 0

/-- Second stage: c2 (R53). -/
def gainStage (g c1 : Nat) : Nat := saturate 4095 ((c1 * g + 128) / 256)

/-- Third stage: c3 (R54). -/
def kneeStage (k d c2 : Nat) : Nat := if c2 ≤ k then c2 else k + ((c2 - k) * d + 128) / 256

/-- Fourth stage: the output level (R56). -/
def toneStage (tone : List Nat) (c3 : Nat) : Nat :=
  (tone.getD (c3 / 128) 0 * (128 - c3 % 128) + tone.getD (c3 / 128 + 1) 0 * (c3 % 128) + 64) / 128

/-- c2 of red, green and blue of an input word under a profile (R52, R53). -/
def gainedRed (p : Profile) (w : Word) : Nat := gainStage p.gr (offsetStage p.bor (redOf w))

/-- c2 of green. -/
def gainedGreen (p : Profile) (w : Word) : Nat := gainStage p.gg (offsetStage p.bog (greenOf w))

/-- c2 of blue. -/
def gainedBlue (p : Profile) (w : Word) : Nat := gainStage p.gb (offsetStage p.bob (blueOf w))

/-- The output level of a channel from its c2, under the dimming factor of its tile (R54 to R56). -/
def outputLevel (p : Profile) (d c2 : Nat) : Nat := toneStage p.tone (kneeStage p.k d c2)

/-- Fifth step: the output word, with its most significant byte zero (R57, R160). -/
def outputWord (p : Profile) (d : Nat) (w : Word) : Word :=
  toWord (outputLevel p d (gainedRed p w) * 2 ^ 16 + outputLevel p d (gainedGreen p w) * 2 ^ 8
    + outputLevel p d (gainedBlue p w))

/-- The luma, taken before the knee (R60). -/
def luma (p : Profile) (w : Word) : Nat :=
  (77 * gainedRed p w + 150 * gainedGreen p w + 29 * gainedBlue p w + 128) / 256

/-- The signature term of a word at an offset (R61, R115). -/
def signatureTerm (w : Word) (o : Nat) : Word := w.rotateLeft (o % 32)

/-- Column of a word offset (R58). -/
def columnX (g : Geometry) (o : Nat) : Nat := o % g.w

/-- Line of a word offset (R58). -/
def lineY (g : Geometry) (o : Nat) : Nat := o / g.w

/-- The tile of a word offset, row * 8 + column (R59). -/
def tileOf (g : Geometry) (o : Nat) : Nat := lineY g o * 6 / g.h * 8 + columnX g o * 8 / g.w

end Sys2Proof.Machine
end

