-- ==== Sys2Proof/Machine/Glare.lean ====
section
/-! DEFINITION. The Glare Unit (chapter 5): accumulation, and the completion update of the night state, the dimming map
and the tile summary. -/

namespace Sys2Proof.Machine

/-- The accumulator of a tile. -/
def Glare.accOf (g : Glare) (tile : Nat) : TileAcc := g.acc.getD tile .cleared

/-- The frame pixel count (R89). -/
def Glare.pixelCount (g : Glare) : Nat := (g.acc.map (·.n)).sum

/-- The frame luma sum (R89). -/
def Glare.lumaTotal (g : Glare) : Nat := (g.acc.map (·.lumaSum)).sum

/-- A frame start clears the accumulators and takes the frame GT (R90). -/
def glareFrameStart (gt : Nat) (g : Glare) : Glare :=
  { g with acc := List.replicate Config.tiles .cleared, frameGt := gt }

/-- One word's luma added to an accumulator (R91). -/
def addLuma (gt y : Nat) (t : TileAcc) : TileAcc :=
  { n := t.n + 1, lumaSum := t.lumaSum + y, hot := if gt ≤ y then t.hot + 1 else t.hot, maximum := max t.maximum y }

/-- A developed word added to its tile's accumulator, until the frame pixel count reaches its limit (R91). -/
def accumulate (tile y : Nat) (g : Glare) : Glare :=
  if g.pixelCount < Config.wordCountMax then
    { g with acc := g.acc.set tile (addLuma g.frameGt y (g.accOf tile)) }
  else g

/-- Step a: the scene mean M (R94). -/
def sceneMean (g : Glare) : Nat := g.lumaTotal / g.pixelCount

/-- Step b: the night state after a mean (R94). -/
def nightAfter (d : Descriptor) (m : Nat) : NightState → NightState
  | .day => if m < d.nEnter then .night else .day
  | .night => if d.nLeave < m then .day else .night

/-- Step c: a tile is hot (R95). -/
def tileHot (hfOn : Nat) (t : TileAcc) : Bool := decide (0 < t.n) && decide (hfOn ≤ t.hot * 256 / t.n)

/-- The hot judgement of every tile, in tile order (R95). -/
def hotTiles (hfOn : Nat) (g : Glare) : List Bool := (List.range Config.tiles).map fun i => tileHot hfOn (g.accOf i)

/-- The tiles that share an edge with a tile in the 6-row, 8-column grid (R96). -/
def neighbours (i : Nat) : List Nat :=
  (if 8 ≤ i then [i - 8] else []) ++ (if i < 40 then [i + 8] else []) ++ (if i % 8 ≠ 0 then [i - 1] else [])
    ++ (if i % 8 ≠ 7 then [i + 1] else [])

/-- Step d: the target factor of a tile, under the night state after step b (R96). -/
def targetFactor (state : NightState) (dmin : Nat) (hot : List Bool) (i : Nat) : Nat :=
  match state with
  | .day => 256
  | .night =>
    if hot.getD i false then dmin
    else if (neighbours i).any fun j => hot.getD j false then (dmin + 256) / 2
    else 256

/-- Step e: a factor moved toward its target (R97). -/
def moveFactor (stepDown stepUp target d : Nat) : Nat :=
  if target < d then max target (d - stepDown) else if d < target then min target (d + stepUp) else d

/-- Step f: a tile's summary (R98). -/
def tileSummary (hot : Bool) (t : TileAcc) : TileSummary := { hot := hot, code := t.maximum / 64 }

/-- The completion update, under the completed frame's profile and the side's descriptor (R93). -/
def completionUpdate (d : Descriptor) (p : Profile) (g : Glare) : Glare :=
  let nightNow := nightAfter d (sceneMean g) g.night
  let hot := hotTiles p.hfOn g
  { g with
    night := nightNow
    map := (List.range Config.tiles).map fun i =>
      moveFactor d.stepDown d.stepUp (targetFactor nightNow p.dmin hot i) (g.map.getD i 256)
    summary := (List.range Config.tiles).map fun i => tileSummary (hot.getD i false) (g.accOf i) }

end Sys2Proof.Machine
end

