-- ==== Sys2Proof/Machine/Ingest.lean ====
section
/-! DEFINITION. The Ring Manager's side of capture writes (chapter 4): frame start, cut, continuation, absorption, partial
writes, and the completion of a frame. Command BUFFER_WORD_WRITE. -/

namespace Sys2Proof.Machine

/-- The profile index for a frame that starts now: the night one in NIGHT, the day one in DAY (R49). -/
def chooseProfile (d : Descriptor) : NightState → Nat
  | .day => d.dayProfile
  | .night => d.nightProfile

/-- The record of a cut buffer: FREE, CUT set, VERIFIED clear, the rest as it was (R72). -/
def cutRecord (r : BufRecord) : BufRecord := { r with state := .free, cut := true, verified := false }

/-- A FILLING frame is cut: FRAME_CUT with its count as the detail (R72). -/
def cutFrame (sd : Side) (c : Fin 3) (s : State) : State :=
  let x := s.side sd
  raiseSide sd .frameCut (some (frameOf x c)) (toWord (x.ring.buf c).count) (modBuf sd c cutRecord s)

/-- The other FILLING buffer of the side, if any, is cut (R71, R72). -/
def cutOther (sd : Side) (b : Fin 3) (s : State) : State :=
  match (s.side sd).ring.filling with
  | some c => if c = b then s else cutFrame sd c s
  | none => s

/-- The record of a buffer in which a frame starts (R71). -/
def startRecord (now : Word) (seq : BitVec 16) (profile : Nat) (old : BufRecord) : BufRecord :=
  { state := .filling, seq := seq, captureTime := now, completionTime := old.completionTime, count := 0, signature := 0,
    profile := profile, verified := true, cut := false }

/-- The ring at a frame start in a buffer: the record, the sequence, and the dropped frame of a READY one (R71, R73). -/
def startRing (now : Word) (profile : Nat) (b : Fin 3) (r : BufferRing) : BufferRing :=
  { r.setBuf b (startRecord now r.nextSeq profile (r.buf b)) with
    nextSeq := r.nextSeq + 1
    dropped := if (r.buf b).state = .ready then saturate 65535 (r.dropped + 1) else r.dropped }

/-- The side at a frame start: ring, frame profile and accumulators (R49, R71, R90). -/
def startSide (now : Word) (a : ActiveSet) (b : Fin 3) (x : SideState) : SideState :=
  let profile := chooseProfile a.desc x.glare.night
  { x with
    frameProfile := some profile
    ring := startRing now profile b x.ring
    glare := glareFrameStart (a.profiles.get profile).gt x.glare }

/-- A frame start in buffer b (R71). -/
def frameStart (sd : Side) (a : ActiveSet) (b : Fin 3) (s : State) : State :=
  modSide sd (startSide s.timebase a b) (cutOther sd b s)

/-- The profile that the frame in a buffer is developed with: the PXD's frame profile, copied from the record (R49). -/
def developProfile (a : ActiveSet) (b : Fin 3) (x : SideState) : Profile :=
  a.profiles.get (x.frameProfile.getD (x.ring.buf b).profile)

/-- The dimming factor of a word's tile (R55). -/
def dimmingFactor (a : ActiveSet) (o : Nat) (x : SideState) : Nat := x.glare.map.getD (tileOf a.desc.geometry o) 256

/-- The output word of an input word at an offset of the frame in a buffer (R48, R66). -/
def developedWord (a : ActiveSet) (b : Fin 3) (o : Nat) (w : Word) (x : SideState) : Word :=
  outputWord (developProfile a b x) (dimmingFactor a o x) w

/-- A word counted and folded into a record (R74). -/
def countWord (out : Word) (o : Nat) (r : BufRecord) : BufRecord :=
  { r with count := saturate Config.wordCountMax (r.count + 1), signature := r.signature ^^^ signatureTerm out o }

/-- The side after a word is developed into buffer b: the record counts it and the GLU accumulates it (R50, R74, R91). -/
def continueSide (a : ActiveSet) (b : Fin 3) (o : Nat) (w : Word) (x : SideState) : SideState :=
  { x with
    ring := x.ring.setBuf b (countWord (developedWord a b o w x) o (x.ring.buf b))
    glare := accumulate (tileOf a.desc.geometry o) (luma (developProfile a b x) w) x.glare }

/-- The write of word W*H - 1 completes the frame at the end of the transfer (R76). -/
def markFrameDone (sd : Side) (a : ActiveSet) (b : Fin 3) (o : Nat) (s : State) : State :=
  if o + 1 = a.desc.geometry.size then modInHand (fun h => { h with frameDone := some (sd, b) }) s else s

/-- A continuation: the word is developed, written at its address and counted (R74). -/
def continueFrame (sd : Side) (a : ActiveSet) (b : Fin 3) (o addr : Nat) (w : Word) (s : State) : State :=
  markFrameDone sd a b o
    (modSide sd (continueSide a b o w) (storeWord addr 0xF (developedWord a b o w (s.side sd)) s))

/-- A partial write into a FILLING buffer clears VERIFIED (R62). -/
def partialRecord (r : BufRecord) : BufRecord := if r.state = .filling then { r with verified := false } else r

/-- A partial write is absorbed, and PARTIAL_WRITE raised with the word's address (R62). -/
def absorbPartial (sd : Side) (b : Fin 3) (addr : Nat) (s : State) : State :=
  raiseSide sd .partialWrite (some (frameOf (s.side sd) b)) (toWord addr) (modBuf sd b partialRecord s)

/-- A write absorbed by the SHOWING buffer marks its transfer for one TEAR_WRITE, with the first word's address (R75). -/
def absorbTear (sd : Side) (b : Fin 3) (addr : Nat) (s : State) : State :=
  modInHand (fun h => { h with tear := some (h.tear.getD (sd, b, addr)) }) s

/-- A full-word write is decided by the state of the buffer written (R70). -/
def fullWrite (sd : Side) (a : ActiveSet) (b : Fin 3) (o addr : Nat) (w : Word) (s : State) : State :=
  match ((s.side sd).ring.buf b).state with
  | .free => continueFrame sd a b o addr w (frameStart sd a b s)
  | .ready => continueFrame sd a b o addr w (frameStart sd a b s)
  | .filling => continueFrame sd a b o addr w s
  | .showing => absorbTear sd b addr s

/-- The handling of a write word in a buffer of an enabled side (R62, R70). -/
def bufferWrite (h : InHand) (addr : Nat) (k : WordKind) (s : State) : State :=
  match k with
  | .buffer sd b o =>
    match (s.side sd).inForce with
    | some a =>
      finishWord []
        (if fullWord (enablesOf h.transfer) then fullWrite sd a b o addr (currentData h) s else absorbPartial sd b addr s)
    | none => s
  | _ => s

/-- The word is a buffer word. -/
def isBufferWord (_be : BitVec 4) : WordKind → Bool
  | .buffer _ _ _ => true
  | _ => false

/-- BUFFER_WORD_WRITE (R62, R70 to R75). -/
def execBufferWordWrite (s : State) : Result :=
  .next (onWord true isBufferWord bufferWrite s)

/-! ## Completion of a frame (R77) -/

/-- Step 1: a count that differs from W*H clears VERIFIED and raises SHORT_FRAME (R78). -/
def lengthCheck (sd : Side) (a : ActiveSet) (b : Fin 3) (s : State) : State :=
  let r := (s.side sd).ring.buf b
  if r.count = a.desc.geometry.size then s
  else raiseSide sd .shortFrame (some (frameOf (s.side sd) b)) (toWord r.count)
    (modBuf sd b (fun r => { r with verified := false }) s)

/-- Step 2: the buffer is READY with its completion time, and the frame profile is absent (R49, R77). -/
def readySide (now : Word) (b : Fin 3) (x : SideState) : SideState :=
  { x with
    frameProfile := none
    ring := x.ring.setBuf b { x.ring.buf b with state := .ready, completionTime := now } }

/-- The equal run over a verified frame's signature (R82). -/
def stepRun (sig : Word) (r : BufferRing) : BufferRing :=
  if r.lastVerified = some sig then { r with equalRun := saturate 255 (r.equalRun + 1) }
  else { r with lastVerified := some sig, equalRun := 0, frozenMark := false }

/-- FROZEN is raised once a run reaches FROZEN_RUN - 1 (R83). -/
def frozenCheck (sd : Side) (a : ActiveSet) (b : Fin 3) (s : State) : State :=
  let x := s.side sd
  if a.desc.frozenRun - 1 ≤ x.ring.equalRun ∧ x.ring.frozenMark = false then
    raiseSide sd .frozen (some (frameOf x b)) (x.ring.buf b).signature
      (modRing sd (fun r => { r with frozenMark := true }) s)
  else s

/-- Step 3: the equal run of a VERIFIED frame (R82, R83). -/
def runCheck (sd : Side) (a : ActiveSet) (b : Fin 3) (s : State) : State :=
  let r := (s.side sd).ring.buf b
  if r.verified then frozenCheck sd a b (modRing sd (stepRun r.signature) s) else s

/-- Step 4: the Glare Unit's completion update under the completed frame's profile (R93). -/
def updateGlare (a : ActiveSet) (b : Fin 3) (x : SideState) : SideState :=
  { x with glare := completionUpdate a.desc (a.profiles.get (x.ring.buf b).profile) x.glare }

/-- Step 5: the interval watchdog is reloaded (R77, R125). -/
def reloadWatchdog (now : Word) (a : ActiveSet) (v : View) : View :=
  { v with watchdog := loaded now a.desc.intervalMax }

/-- Step 6: a waiting side takes the accepted set in force (R44, R77). -/
def takeWaitingSet (sd : Side) (s : State) : State :=
  match s.cau.accepted with
  | some acc =>
    if (s.side sd).takeWaiting then updateLines (modSide sd (takeSet s.timebase (acc.forSide sd)) s) else s
  | none => s

/-- Steps 2 to 6 of a completion, after the length check (R77). -/
def finishFrame (sd : Side) (a : ActiveSet) (b : Fin 3) (s : State) : State :=
  takeWaitingSet sd
    (modView sd (reloadWatchdog s.timebase a)
      (modSide sd (updateGlare a b)
        (runCheck sd a b (modSide sd (readySide s.timebase b) s))))

/-- The completion of the frame in buffer b (R77). -/
def completeFrame (sd : Side) (b : Fin 3) (s : State) : State :=
  match (s.side sd).inForce with
  | some a =>
    if ((s.side sd).ring.buf b).state = .filling then finishFrame sd a b (lengthCheck sd a b s) else s
  | none => s

end Sys2Proof.Machine
end

