-- ==== Sys2Proof/Machine/Scan.lean ====
section
/-! DEFINITION. The Scan Tracker (chapter 6) with the Ring Manager's scan-start notice: scan start, served words, and the
readback check. Command BUFFER_WORD_READ. -/

namespace Sys2Proof.Machine

/-- A count of scans, held at 65535 (R105). -/
def countUnchecked (c : Scan) : Scan := { c with unchecked := saturate 65535 (c.unchecked + 1) }

/-- Step 1 of a scan start: a scan in progress ends and is counted as unchecked (R106). -/
def endOpenScan (c : Scan) : Scan :=
  match c.record with
  | some r => if r.complete then c else countUnchecked c
  | none => c

/-- A record with another state. -/
def withState (st : BufState) (r : BufRecord) : BufRecord := { r with state := st }

/-- The buffer that was SHOWING becomes FREE, its record otherwise unchanged (R79). -/
def freeShowing (r : BufferRing) : BufferRing :=
  match r.showing with
  | some c => r.setBuf c (withState .free (r.buf c))
  | none => r

/-- Step 2: a scan-start notice makes a READY buffer SHOWING, and changes nothing otherwise (R79). -/
def scanNotice (b : Fin 3) (r : BufferRing) : BufferRing :=
  if (r.buf b).state = .ready then (freeShowing r).setBuf b (withState .showing (r.buf b)) else r

/-- Step 3: the redirect target, from b's state at the notice, the view state, and the SHOWING buffer (R107). -/
def redirectTarget (st : BufState) (view : ViewState) (showing : Option (Fin 3)) : Option (Fin 3) :=
  match st, view with
  | .filling, .live => showing
  | .filling, .marked => showing
  | .filling, .holding => showing
  | .free, .live => showing
  | .free, .marked => showing
  | .free, .holding => showing
  | _, _ => none

/-- The fault of a scan start on a FILLING or FREE buffer in LIVE or MARKED (R110). -/
def scanStartFault (st : BufState) (view : ViewState) : Option SideKind :=
  match st, view with
  | .filling, .live => some .tearScan
  | .filling, .marked => some .tearScan
  | .free, .live => some .staleScan
  | .free, .marked => some .staleScan
  | _, _ => none

/-- TEAR_SCAN or STALE_SCAN: the frame is the addressed buffer's, the detail the sequence of the SHOWING frame (R110). -/
def raiseScanStart (sd : Side) (b : Fin 3) (k : SideKind) (s : State) : State :=
  let x := s.side sd
  let seq := match x.ring.showing with
    | some t => (x.ring.buf t).seq.toNat
    | none => 0
  raiseSide sd k (some (frameOf x b)) (toWord seq) s

/-- The latency of a scan start on the frame in b (R108). -/
def latencyOf (now : Word) (b : Fin 3) (x : SideState) : Word := now - (x.ring.buf b).captureTime

/-- The frame in b gives a good scan but for its latency: VERIFIED, and the equal run below its limit (R109). -/
def freshFrame (a : ActiveSet) (b : Fin 3) (x : SideState) : Bool :=
  (x.ring.buf b).verified && decide (x.ring.equalRun < a.desc.frozenRun - 1)

/-- Step 4 on a buffer that was READY: the latency is stored, and a late frame raises LATENCY, a good one sends the
good-scan notice (R108, R109). -/
def judgeReady (sd : Side) (a : ActiveSet) (b : Fin 3) (s : State) : State :=
  let x := s.side sd
  let latency := latencyOf s.timebase b x
  let t := modSide sd (fun x => { x with scan := { x.scan with lastLatency := latency } }) s
  if a.desc.latencyMax < latency.toNat then raiseSide sd .latency (some (frameOf x b)) latency t
  else if freshFrame a b x then goodScan sd t
  else t

/-- Step 4 by b's state at the notice (R106). -/
def judgeScanStart (sd : Side) (a : ActiveSet) (b : Fin 3) (st : BufState) (s : State) : State :=
  if st = .ready then judgeReady sd a b s
  else
    match scanStartFault st (s.side sd).view.state with
    | some k => raiseScanStart sd b k s
    | none => s

/-- Step 5: the new record, in progress (R106). -/
def newScanRecord (b : Fin 3) (redirect : Option (Fin 3)) (now : Word) : ScanRecord :=
  { buf := b, redirect := redirect, fillServed := false, startTime := now, wordsRead := 0, signature := 0,
    readLast := false, complete := false }

/-- Steps 1 and 2: the open scan ended and the notice acted on (R106). -/
def noticeSide (b : Fin 3) (x : SideState) : SideState :=
  { x with scan := endOpenScan x.scan, ring := scanNotice b x.ring }

/-- The redirect target that a scan start on b sets, after the notice (R107). -/
def scanRedirect (b : Fin 3) (x : SideState) : Option (Fin 3) :=
  redirectTarget (x.ring.buf b).state x.view.state (scanNotice b x.ring).showing

/-- A scan start on buffer b (R106). -/
def scanStart (sd : Side) (a : ActiveSet) (b : Fin 3) (s : State) : State :=
  let x := s.side sd
  modSide sd
    (fun y => { y with scan := { y.scan with record := some (newScanRecord b (scanRedirect b x) s.timebase) } })
    (judgeScanStart sd a b (x.ring.buf b).state (modSide sd (noticeSide b) s))

/-- The hold timer that a scan start from s to t has loaded with 0 on its way to HOLDING: its expiry is ready before the scan's
first word (R129). -/
def expiryReadyAtStart (sd : Side) (s t : State) : Option Timer :=
  if (s.side sd).view.state ≠ .holding ∧ (t.side sd).view.state = .holding then
    (t.side sd).view.hold.filter fun tm => tm.due t.timebase
  else none

/-- That expiry is taken before the first word, or left for HOLD_TIMER_EXPIRY after it: a free choice (R129; log 28). -/
def expireAtStart (sd : Side) (tm : Timer) (s : State) : State :=
  let t := { s with freeDraws := s.freeDraws + 1 }
  if Config.expiryBeforeFirstWord s.freeDraws then expireHold sd tm t else t

/-- A scan start, up to the moment at which its first word is served (R106, R129). -/
def openScan (sd : Side) (a : ActiveSet) (b : Fin 3) (s : State) : State :=
  let t := scanStart sd a b s
  match expiryReadyAtStart sd s t with
  | some tm => expireAtStart sd tm t
  | none => t

/-- A scan start that must redirect on a side without a SHOWING buffer: R107 and R130 exclude it (log 17). -/
def scanStartStuck (b : Fin 3) (x : SideState) : Bool :=
  ((x.ring.buf b).state == .filling || (x.ring.buf b).state == .free)
    && (x.view.state == .live || x.view.state == .marked || x.view.state == .holding)
    && x.ring.showing == none

/-! ## Served words (R111 to R116) -/

/-- The mode of a scan word by the view state (R112). OFF serves no scan word (R130; log 18). -/
def serveMode : ViewState → ServeMode
  | .off => .plain
  | .waiting => .fill
  | .live => .plain
  | .marked => .border
  | .holding => .border
  | .lost => .fill

/-- The marker word: the marker colour's three low bytes (R113, R160). -/
def State.markerWord (s : State) : Word :=
  match s.cau.device with
  | some d => d.markerColour &&& 0x00FFFFFF
  | none => 0

/-- The border width in force (R113). -/
def State.borderWidth (s : State) : Nat :=
  match s.cau.device with
  | some d => d.borderWidth
  | none => 0

/-- The pixel of a word offset lies in the border (R113). -/
def inBorder (g : Geometry) (bw o : Nat) : Bool :=
  decide (columnX g o < bw ∨ g.w ≤ columnX g o + bw ∨ lineY g o < bw ∨ g.h ≤ lineY g o + bw)

/-- The served buffer of a scan (R105). -/
def ScanRecord.served (r : ScanRecord) : Fin 3 := r.redirect.getD r.buf

/-- The scan record that a read word of buffer b belongs to, if it is a scan word (R111). -/
def scanWordRecord (b : Fin 3) (x : SideState) : Option ScanRecord :=
  match x.scan.record with
  | some r => if r.complete = false ∧ r.buf = b then some r else none
  | none => none

/-- One scan word counted, with the read-last-word flag at offset W*H - 1 (R111). -/
def countScanWord (g : Geometry) (o : Nat) (r : ScanRecord) : ScanRecord :=
  { r with
    wordsRead := saturate Config.wordCountMax (r.wordsRead + 1)
    readLast := r.readLast || decide (o + 1 = g.size) }

/-- A side's scan record replaced. -/
def setScanRecord (sd : Side) (r : ScanRecord) (s : State) : State :=
  modSide sd (fun x => { x with scan := { x.scan with record := some r } }) s

/-- The scan completes at the end of the transfer that read its last word (R117). -/
def markScanDone (sd : Side) (g : Geometry) (o : Nat) (s : State) : State :=
  if o + 1 = g.size then modInHand (fun h => { h with scanDone := some sd }) s else s

/-- The word served for a scan word that memory is read for (R112, R113). -/
def overlayWord (s : State) (g : Geometry) (mode : ServeMode) (o : Nat) (w : Word) : Word :=
  if mode = .border ∧ inBorder g s.borderWidth o = true then s.markerWord else w

/-- A scan word served in FILL: the marker word, memory not read (R114). -/
def serveFill (sd : Side) (g : Geometry) (r : ScanRecord) (o : Nat) (s : State) : State :=
  finishWord [s.markerWord]
    (markScanDone sd g o (setScanRecord sd (countScanWord g o { r with fillServed := true }) s))

/-- A scan word served in PLAIN or BORDER: memory is read in the served buffer and folded into the read signature (R111,
R113, R115). -/
def serveMemory (sd : Side) (g : Geometry) (r : ScanRecord) (mode : ServeMode) (o : Nat) (s : State) : State :=
  let a := g.base r.served + o * 4
  let w := Memory.readWord s.mem a
  finishWord [overlayWord s g mode o w]
    (markScanDone sd g o
      (setScanRecord sd (countScanWord g o { r with signature := r.signature ^^^ signatureTerm w o }) (openRow a s)))

/-- A scan word (R111). -/
def serveScanWord (sd : Side) (g : Geometry) (r : ScanRecord) (o : Nat) (s : State) : State :=
  match serveMode (s.side sd).view.state with
  | .plain => serveMemory sd g r .plain o s
  | .border => serveMemory sd g r .border o s
  | .fill => serveFill sd g r o s

/-- A read word served from memory at its own address, unchanged (R9, R116). -/
def serveOwnAddress (addr : Nat) (s : State) : State :=
  finishWord [Memory.readWord s.mem addr] (openRow addr s)

/-- A read word of buffer b: a scan word, or outside a scan (R111, R116). -/
def serveBufferWord (sd : Side) (a : ActiveSet) (b : Fin 3) (o addr : Nat) (s : State) : State :=
  match scanWordRecord b (s.side sd) with
  | some r => serveScanWord sd a.desc.geometry r o s
  | none => serveOwnAddress addr s

/-- A read transfer starts a scan when the first word of its burst order is word 0 of a buffer (R106). -/
def startsScan (h : InHand) (o : Nat) : Bool := h.handled == 0 && o == 0

/-- The handling of a read word in a buffer of an enabled side: the scan start, if it makes one, then the word. Of the part's
other events only the expiry of R129 can fall between the two (R127; log 28). -/
def bufferRead (h : InHand) (addr : Nat) (k : WordKind) (s : State) : State :=
  match k with
  | .buffer sd b o =>
    match (s.side sd).inForce with
    | some a =>
      serveBufferWord sd a b o addr (if startsScan h o then openScan sd a b s else s)
    | none => s
  | _ => s

/-- The next word is a buffer word. -/
def isBufferRead (_be : BitVec 4) : WordKind → Bool
  | .buffer _ _ _ => true
  | _ => false

/-- The next word starts a scan that has nothing to redirect to (log 17). -/
def State.readStuck (s : State) : Bool :=
  match s.currentWord with
  | some (h, _, .buffer sd b o) =>
    !h.transfer.write && startsScan h o && (s.side sd).inForce.isSome && scanStartStuck b (s.side sd)
  | _ => false

/-- BUFFER_WORD_READ (R106, R111 to R116). -/
def execBufferWordRead (s : State) : Result :=
  if s.readStuck then .fault .noShowingBuffer else .next (onWord false isBufferRead bufferRead s)

/-! ## Completion of a scan (R117) -/

/-- The scan is compared: every word read once over, no FILL, and the served frame VERIFIED (R117). -/
def scanChecked (g : Geometry) (r : ScanRecord) (served : BufRecord) : Bool :=
  r.wordsRead == g.size && !r.fillServed && served.verified

/-- The readback check of a completed scan: READBACK on a difference, or one unchecked scan more (R117). -/
def judgeScan (sd : Side) (g : Geometry) (r : ScanRecord) (s : State) : State :=
  let x := s.side sd
  let served := x.ring.buf r.served
  if scanChecked g r served then
    if r.signature = served.signature then s
    else raiseSide sd .readback (some (frameOf x r.served)) (r.signature ^^^ served.signature) s
  else modSide sd (fun x => { x with scan := countUnchecked x.scan }) s

/-- The completion of a side's scan (R117). -/
def completeScan (sd : Side) (s : State) : State :=
  match (s.side sd).inForce, (s.side sd).scan.record with
  | some a, some r =>
    if r.complete then s
    else judgeScan sd a.desc.geometry r (setScanRecord sd { r with complete := true } s)
  | _, _ => s

end Sys2Proof.Machine
end

