-- ==== Sys2Proof/Machine/Status.lean ====
section
/-! DEFINITION. The part-owned words of the control area (R27, R28, R147, R148): commands ACKNOWLEDGE_READ,
ACKNOWLEDGE_WRITE and STATUS_WORD_WRITE. -/

namespace Sys2Proof.Machine

/-- Offset of the acknowledge word. -/
def acknowledgeOffset : Nat := 0xE00

/-- The acknowledge word's read: the highest-priority entry is taken and cleared, and ATTN brought up to date; nothing
pending answers 0 (R147). -/
def takeEntry (s : State) : Word × State :=
  match firstPending s.flu.entries with
  | some i =>
    (acknowledgeWord (entryOrder.getD i (.device .configReject)) (s.flu.entries.getD i 0),
      updateLines { s with flu := { s.flu with entries := s.flu.entries.set i 0 } })
  | none => (0, s)

/-- The value of a status word and the state after it is read: only the acknowledge word's read changes anything (R28). -/
def readStatus (offset : Nat) (s : State) : Word × State :=
  if offset = acknowledgeOffset then takeEntry s else (statusWord s offset, s)

/-- A status word of a read transfer answered by the part (R28). -/
def answerStatus (_h : InHand) (_a : Nat) (k : WordKind) (s : State) : State :=
  match k with
  | .status offset => finishWord [(readStatus offset s).1] (readStatus offset s).2
  | _ => s

/-- The word is a status word. -/
def isStatusWord (_be : BitVec 4) : WordKind → Bool
  | .status _ => true
  | _ => false

/-- The word is the acknowledge word. -/
def isAcknowledgeWord (_be : BitVec 4) : WordKind → Bool
  | .status offset => offset == acknowledgeOffset
  | _ => false

/-- The word is a protected status word (R27). -/
def isProtectedWord (_be : BitVec 4) : WordKind → Bool
  | .status offset => offset != acknowledgeOffset
  | _ => false

/-- ACKNOWLEDGE_READ: the read of a status word (R28, R147). The other status words have no row of their own; the step of
R28 is this one (log 12). -/
def execAcknowledgeRead (s : State) : Result :=
  .next (onWord false isStatusWord answerStatus s)

/-- Every entry of the pending set cleared, and ATTN brought up to date (R148). -/
def clearEntries (s : State) : State :=
  updateLines { s with flu := { s.flu with entries := List.replicate 25 0 } }

/-- ACKNOWLEDGE_WRITE: whatever its data and byte enables (R148). -/
def execAcknowledgeWrite (s : State) : Result :=
  .next (onWord true isAcknowledgeWord (fun _ _ _ s => finishWord [] (clearEntries s)) s)

/-- A protected word is absorbed: the transfer is marked for one PROTECT with the first one's address (R27). -/
def absorbProtected (a : Nat) (s : State) : State :=
  modInHand (fun h => { h with protect := some (h.protect.getD a) }) s

/-- STATUS_WORD_WRITE (R27). -/
def execStatusWordWrite (s : State) : Result :=
  .next (onWord true isProtectedWord (fun _ a _ s => finishWord [] (absorbProtected a s)) s)

end Sys2Proof.Machine
end

