-- ==== Sys2Proof/Machine/Port.lean ====
section
/-! DEFINITION. The system bus port (chapter 1): commands TRANSFER_ARRIVAL, PLAIN_WORD_WRITE, PLAIN_WORD_READ and
TRANSFER_END. -/

namespace Sys2Proof.Machine

/-! ## Arrival (R1, R5, R6, R18) -/

/-- The CAU's boot load is in progress: BOOT after memory initialisation has ended (R36). -/
def State.bootLoading (s : State) : Bool :=
  !s.resetHeld && s.mct.bus != .initialising && s.cau.config == .boot

/-- At least one word of a transfer lies in the control area (R6). -/
def touchesControl (casel : BitVec 2) (t : Transfer) : Bool :=
  (List.range t.wordCount).any fun i =>
    decide (controlBase casel ≤ wordAddress t i ∧ wordAddress t i < controlBase casel + Config.controlBytes)

/-- The SBP answers RETRY without consulting the arbiter (R6). -/
def portRetries (t : Transfer) (s : State) : Bool :=
  s.resetHeld || s.mct.bus == .initialising || (s.bootLoading && touchesControl s.cau.casel t)

/-- The own-access wait: the time since the head entry joined (R15). -/
def ownAccessWait (now : Word) (e : QueueEntry) : Nat := elapsed now e.joinTime

/-- RETRY is the answer on the port (R5). -/
def answerRetry (s : State) : State := { s with answers := [.retry] }

/-- The transfer is taken: it is in hand, with the regions of this moment, and holds the bus (R1, R7, R18). -/
def takeTransfer (t : Transfer) (s : State) : State :=
  { s with
    answers := []
    inHand := some
      { transfer := t, snapshot := s.snapshot, handled := 0, readData := [], commit := false, protect := none,
        tear := none, frameDone := none, scanDone := none }
    mct := { s.mct with bus := .transfer } }

/-- What the arbiter does with a transfer that finds the bus free (R18). -/
def arbitrate (t : Transfer) (s : State) : State :=
  if s.mct.refreshOwed = Config.refreshMax then answerRetry (startRefresh s)
  else
    match s.mct.queue with
    | e :: rest =>
      if Config.ownAccessWaitLimit ≤ ownAccessWait s.timebase e then answerRetry (startOwnAccess e rest s)
      else takeTransfer t s
    | [] => takeTransfer t s

/-- The decision on an arrival (R6, R18). -/
def arrive (t : Transfer) (s : State) : State :=
  if portRetries t s then answerRetry s
  else if s.mct.bus = .free then arbitrate t s
  else answerRetry s

/-- A request at the port is an arrival at once while no transfer is in hand; otherwise it waits on the pins until that one is
answered (R1; log 11). -/
def presentRequest (t : Transfer) (s : State) : State :=
  match s.inHand with
  | none => arrive t s
  | some _ => { s with request := some t }

/-- TRANSFER_ARRIVAL (R1, R5, R6, R7, R18). An ill-formed request is none (log 23). -/
def execTransferArrival (t : Transfer) (s : State) : Result := .next (whenReady t.wellFormed (presentRequest t) s)

/-! ## Plain words (R3, R9) -/

/-- The word is a plain or report ring word. -/
def isPlainWrite (_be : BitVec 4) : WordKind → Bool
  | .plain => true
  | .ring _ => true
  | _ => false

/-- The word is read from memory at its own address: plain, report ring, parameter (R9). -/
def isPlainRead (_be : BitVec 4) : WordKind → Bool
  | .plain => true
  | .ring _ => true
  | .parameter _ => true
  | _ => false

/-- PLAIN_WORD_WRITE: to memory under its byte enables (R3, R9). -/
def execPlainWordWrite (s : State) : Result :=
  .next (onWord true isPlainWrite
    (fun h a _ s => finishWord [] (storeWord a (enablesOf h.transfer) (currentData h) s)) s)

/-- PLAIN_WORD_READ: from memory, unchanged (R9). -/
def execPlainWordRead (s : State) : Result :=
  .next (onWord false isPlainRead (fun _ a _ s => serveOwnAddress a s) s)

/-! ## The end of a transfer (R4) -/

/-- The next word is a read of a status word other than the acknowledge word. -/
def isQuietStatus (_be : BitVec 4) : WordKind → Bool
  | .status offset => offset != acknowledgeOffset
  | _ => false

/-- Status words of a read that no command has handled yet are answered now, up to the first word of another kind: they
have no row of their own (log 12). -/
def answerRest : Nat → State → State
  | 0, s => s
  | n + 1, s => answerRest n (onWord false isQuietStatus answerStatus s)

/-- The frame completion that the transfer caused (R76). -/
def endFrame (h : InHand) (s : State) : State :=
  match h.frameDone with
  | some (sd, b) => completeFrame sd b s
  | none => s

/-- The scan completion that the transfer caused (R117). -/
def endScan (h : InHand) (s : State) : State :=
  match h.scanDone with
  | some sd => completeScan sd s
  | none => s

/-- The commit that the transfer carried (R39). -/
def endCommit (h : InHand) (s : State) : State := if h.commit then commit s else s

/-- One PROTECT with the address of the first absorbed word (R27). -/
def endProtect (h : InHand) (s : State) : State :=
  match h.protect with
  | some a => raiseDevice .protect (toWord a) s
  | none => s

/-- One TEAR_WRITE with the address of the first absorbed word, naming the SHOWING frame (R75). -/
def endTear (h : InHand) (s : State) : State :=
  match h.tear with
  | some (sd, b, a) => raiseSide sd .tearWrite (some (frameOf (s.side sd) b)) (toWord a) s
  | none => s

/-- The effects that wait for the transfer's last word, all in place before COMPLETE (R4; log 21). -/
def deferredEffects (h : InHand) (s : State) : State :=
  endTear h (endProtect h (endCommit h (endScan h (endFrame h s))))

/-- COMPLETE is given with the words of a read, and the bus is free (R4, R19). -/
def answerComplete (h : InHand) (s : State) : State :=
  { s with answers := [.complete h.readData], inHand := none, mct := { s.mct with bus := .free } }

/-- The bus as a request that waited finds it: the grant may be taken before its arrival, a free choice (R18; log 29). -/
def grantOrNot (s : State) : State :=
  let t := { s with freeDraws := s.freeDraws + 1 }
  if Config.grantBeforeRequest s.freeDraws then whenReady (grantReady s) grantBus t else t

/-- A request that waited is an arrival like any other; its own answer, if it is RETRY, follows the one just given (R1). -/
def arriveWaiting (t : Transfer) (s : State) : State :=
  let u := arrive t (grantOrNot { s with request := none })
  { u with answers := s.answers ++ u.answers }

/-- The request that waited for the transfer in hand to be answered, if there is one, is taken (R1). -/
def takeRequest (s : State) : State :=
  match s.request with
  | some t => arriveWaiting t s
  | none => s

/-- The last word of the burst order has been handled (R4). -/
def InHand.allHandled (h : InHand) : Bool := decide (h.transfer.wordCount ≤ h.handled)

/-- The transfer in hand of r ends once its last word has been handled, and a request that waits is taken (R1); otherwise
its end is not ready, and the state is s (log 3). -/
def endTransfer (s r : State) : State :=
  match r.inHand with
  | some h => if h.allHandled then takeRequest (answerComplete h (deferredEffects h r)) else s
  | none => s

/-- TRANSFER_END (R4): the status words that are left of a read are answered first (log 12). -/
def execTransferEnd (s : State) : Result := .next (endTransfer s (answerRest 16 s))

end Sys2Proof.Machine
end

