-- ==== Sys2Proof/Machine/Reset.lean ====
section
/-! DEFINITION. RESET and memory initialisation (section 1.9): commands RESET_ASSERTED, RESET_RELEASED and
MEMORY_INITIALISATION_END. -/

namespace Sys2Proof.Machine

/-- The words of a record write in progress that reached memory before RESET ended it: a free number from the first on
(R21, R158; log 8). -/
def memoryAtReset (s : State) : List Host.Cell :=
  match s.mct.bus with
  | .own (.recordWrite a words) =>
    Memory.writeWords s.mem a (words.take (Config.recordWordsWritten s.freeDraws % 5))
  | _ => s.mem

/-- A request that waits for the transfer in hand when RESET ends that transfer is presented while RESET is held, and is
answered RETRY (R1, R6, R21; log 11). -/
def answersAtReset (s : State) : List Answer :=
  match s.request with
  | some _ => [.retry]
  | none => []

/-- Every block at its reset values, with RESET held (R21, R47, R65, R88, R103, R122, R142, R158). Frame memory is kept,
and the commands that wait are not the part's. -/
def assertReset (s : State) : State :=
  { State.reset with
    pending := s.pending, answers := answersAtReset s, mem := memoryAtReset s, freeDraws := s.freeDraws + 1 }

/-- RESET_ASSERTED (R21). -/
def execResetAsserted (s : State) : Result := .next (assertReset s)

/-- Frame memory at the release: kept, unless RESET was held longer than 64 ms (R21; log 7). -/
def memoryAtRelease (heldMicros : Nat) (s : State) : List Host.Cell :=
  if Config.retentionMicros < heldMicros then Memory.ofCells (Config.memoryAfterLongReset s.freeDraws) else s.mem

/-- CASEL is sampled, the timebase starts from 0 and memory initialisation holds the bus (R20, R22, R23, R123). -/
def releaseReset (casel : BitVec 2) (heldMicros : Nat) (s : State) : State :=
  updateLines
    { s with
      resetHeld := false
      timebase := 0
      cau := { s.cau with casel := casel }
      mct := { s.mct with bus := .initialising }
      mem := memoryAtRelease heldMicros s
      freeDraws := s.freeDraws + 1 }

/-- RESET_RELEASED: taken while RESET is held (R20). -/
def execResetReleased (casel : BitVec 2) (heldMicros : Nat) (s : State) : Result :=
  .next (whenReady s.resetHeld (releaseReset casel heldMicros) s)

/-- Initialisation may end: it holds the bus, and its 200 us wait has passed (R20; log 14). -/
def initialisationReady (s : State) : Bool :=
  s.mct.bus == .initialising && decide (Config.initialisationWait ≤ s.timebase.toNat)

/-- All banks closed, no refresh owed, the refresh interval starts, the bus is free, and the boot load begins (R20, R36). -/
def endInitialisation (s : State) : State :=
  askBootLoad
    { s with
      mct := { s.mct with bus := .free, banks := closedBanks, refreshOwed := 0, intervalRunning := true } }

/-- MEMORY_INITIALISATION_END (R20). -/
def execMemoryInitialisationEnd (s : State) : Result :=
  .next (whenReady (initialisationReady s) endInitialisation s)

end Sys2Proof.Machine
end

