-- ==== Sys2Proof/Machine/Dispatch.lean ====
section
/-! DEFINITION. The effect of a command on everything but the queue: one arm for each row of the opcode table. -/

namespace Sys2Proof.Machine

def exec (i : Instr) (s : State) : Host.Outcome State Fault Refusal :=
  match i with
  | .resetAsserted => Sys2Proof.Machine.execResetAsserted s
  | .resetReleased casel heldMicros => Sys2Proof.Machine.execResetReleased casel heldMicros s
  | .memoryInitialisationEnd => Sys2Proof.Machine.execMemoryInitialisationEnd s
  | .timebaseTick => Sys2Proof.Machine.execTimebaseTick s
  | .refreshIntervalEnd => Sys2Proof.Machine.execRefreshIntervalEnd s
  | .grant => Sys2Proof.Machine.execGrant s
  | .refreshEnd => Sys2Proof.Machine.execRefreshEnd s
  | .bootLoadReadDone => Sys2Proof.Machine.execBootLoadReadDone s
  | .recordWriteDone => Sys2Proof.Machine.execRecordWriteDone s
  | .transferArrival t => Sys2Proof.Machine.execTransferArrival t s
  | .plainWordWrite => Sys2Proof.Machine.execPlainWordWrite s
  | .plainWordRead => Sys2Proof.Machine.execPlainWordRead s
  | .parameterWordWrite => Sys2Proof.Machine.execParameterWordWrite s
  | .commitWordWrite => Sys2Proof.Machine.execCommitWordWrite s
  | .reportReadIndexWrite => Sys2Proof.Machine.execReportReadIndexWrite s
  | .acknowledgeRead => Sys2Proof.Machine.execAcknowledgeRead s
  | .acknowledgeWrite => Sys2Proof.Machine.execAcknowledgeWrite s
  | .statusWordWrite => Sys2Proof.Machine.execStatusWordWrite s
  | .bufferWordWrite => Sys2Proof.Machine.execBufferWordWrite s
  | .bufferWordRead => Sys2Proof.Machine.execBufferWordRead s
  | .transferEnd => Sys2Proof.Machine.execTransferEnd s
  | .watchdogExpiry side => Sys2Proof.Machine.execWatchdogExpiry side s
  | .holdTimerExpiry side => Sys2Proof.Machine.execHoldTimerExpiry side s

end Sys2Proof.Machine
end

