-- ==== Sys2Proof/Safety.lean ====
section
/-! DEFINITION. The laws that the rules of spec/ state of the part's state, and the words in which the statements about
commands are put. -/

namespace Sys2Proof.Safety

open Sys2Proof.Machine

/-! ## How laws are stated -/

/-- Every step that answers a next state keeps a law. -/
def Kept (law : State → Prop) : Prop := ∀ s t, law s → step s = .next t → law t

/-- A law of a side, of both sides. -/
def OfSides (law : SideState → Prop) (s : State) : Prop := ∀ sd, law (s.side sd)

/-! ## Laws of a side -/

/-- A side has at most one FILLING and at most one SHOWING buffer (R69). -/
def RingLaw (x : SideState) : Prop :=
  ∀ b c, ((x.ring.buf b).state = .filling → (x.ring.buf c).state = .filling → b = c) ∧
    ((x.ring.buf b).state = .showing → (x.ring.buf c).state = .showing → b = c)

/-- The frame profile is the profile index of the FILLING buffer's record, absent when there is none (R49). -/
def FrameProfileLaw (x : SideState) : Prop :=
  (∀ b, (x.ring.buf b).state = .filling → x.frameProfile = some (x.ring.buf b).profile) ∧
    ((∀ b, (x.ring.buf b).state ≠ .filling) → x.frameProfile = none)

/-- A side in LIVE, MARKED or HOLDING has a SHOWING buffer (R107, R130). -/
def ViewShown (x : SideState) : Prop :=
  (x.view.state = .live ∨ x.view.state = .marked ∨ x.view.state = .holding) → ∃ b, (x.ring.buf b).state = .showing

/-- A redirect target is a SHOWING buffer and differs from the scan buffer (R111). -/
def RedirectLaw (x : SideState) : Prop :=
  ∀ r b, x.scan.record = some r → r.redirect = some b → (x.ring.buf b).state = .showing ∧ b ≠ r.buf

/-- The hold timer runs in HOLDING and only there (R128). -/
def HoldLaw (x : SideState) : Prop := x.view.hold.isSome = true ↔ x.view.state = .holding

/-- A side is in OFF exactly when no enabling set is in force, and then the ring, the glare state, the scan record, the
timers and the marks hold their OFF values (R130, R131). -/
def OffLaw (x : SideState) : Prop :=
  (x.view.state = .off ↔ x.inForce = none) ∧ (x.inForce = none → x = .off x.active)

/-- The recovery run is 0 in OFF, WAITING, LIVE and HOLDING, and at most 14 (R133). -/
def RunLaw (x : SideState) : Prop :=
  x.view.recovery ≤ 14 ∧ (x.view.state ≠ .marked → x.view.state ≠ .lost → x.view.recovery = 0)

/-- The counters of a side stay in their ranges (R67, R68, R105). -/
def CounterLaw (x : SideState) : Prop :=
  (∀ b, (x.ring.buf b).count ≤ 16777215) ∧ x.ring.equalRun ≤ 255 ∧ x.ring.dropped ≤ 65535 ∧ x.scan.unchecked ≤ 65535 ∧
    ∀ r, x.scan.record = some r → r.wordsRead ≤ 16777215

/-- Every buffer record names one of the four profiles (R67). -/
def ProfileIndexLaw (x : SideState) : Prop := ∀ b, (x.ring.buf b).profile ≤ 3

/-- A tile accumulator's quantities stay in their ranges (R89). -/
def TileLaw (t : TileAcc) : Prop := t.hot ≤ t.n ∧ t.lumaSum ≤ t.n * 4095 ∧ t.maximum ≤ 4095

/-- The Glare Unit holds 48 accumulators, 48 factors in 0..256 and 48 summaries with codes in 0..63, and accumulation stops
at 16,777,215 words (R89, R91, R97, R98). -/
def GlareLaw (x : SideState) : Prop :=
  (x.glare.acc.length = 48 ∧ ∀ t ∈ x.glare.acc, TileLaw t) ∧ x.glare.pixelCount ≤ 16777215 ∧
    (x.glare.map.length = 48 ∧ ∀ d ∈ x.glare.map, d ≤ 256) ∧
    (x.glare.summary.length = 48 ∧ ∀ t ∈ x.glare.summary, t.code ≤ 63)

/-! ## Laws of the settings -/

/-- A descriptor's clamped fields lie in their ranges, N_ENTER below N_LEAVE (R33, R42), and its profile indices passed the
check of R40. -/
def DescriptorLaw (d : Descriptor) : Prop :=
  (d.dayProfile ≤ 3 ∧ d.nightProfile ≤ 3) ∧ (1000 ≤ d.intervalMax ∧ d.intervalMax ≤ 200000) ∧
    (1000 ≤ d.latencyMax ∧ d.latencyMax ≤ 100000) ∧ d.holdMax ≤ 2000000 ∧
    (2 ≤ d.frozenRun ∧ d.frozenRun ≤ 255) ∧ (1 ≤ d.recoverRun ∧ d.recoverRun ≤ 15) ∧
    (d.nEnter < d.nLeave ∧ d.nLeave ≤ 4095) ∧ (1 ≤ d.stepDown ∧ d.stepDown ≤ 256) ∧ (1 ≤ d.stepUp ∧ d.stepUp ≤ 256)

/-- A profile's fields lie in their ranges (R34, R42). -/
def ProfileLaw (p : Profile) : Prop :=
  (p.bor ≤ 1023 ∧ p.bog ≤ 1023 ∧ p.bob ≤ 1023) ∧ (p.gr ≤ 4095 ∧ p.gg ≤ 4095 ∧ p.gb ≤ 4095) ∧ p.k ≤ 4095 ∧ p.dmin ≤ 256 ∧
    p.gt ≤ 4095 ∧ p.hfOn ≤ 256 ∧ p.tone.length = 33 ∧ ∀ v ∈ p.tone, v ≤ 255

/-- All four profiles are in range. -/
def ProfilesLaw (p : Profiles) : Prop := ∀ i, ProfileLaw (p.get i)

/-- The accepted set and every active set are clamped (R35, R42). -/
def SettingsLaw (s : State) : Prop :=
  (∀ acc, s.cau.accepted = some acc →
      acc.device.borderWidth ≤ 32 ∧ (∀ sd, DescriptorLaw (acc.descriptor sd)) ∧ ProfilesLaw acc.profiles) ∧
    ∀ sd a, (s.side sd).active = some a → DescriptorLaw a.desc ∧ ProfilesLaw a.profiles

/-! ## Laws of the device -/

/-- FAULT and ATTN stand as their conditions do (R139, R150). -/
def LinesLaw (s : State) : Prop := s.faultLine = s.faultCondition ∧ s.flu.attn = s.attnCondition

/-- 25 entries with counts in 0..255, at most 8 records, and their sequences in order up to the next one (R145, R151). -/
def FaultUnitLaw (s : State) : Prop :=
  (s.flu.entries.length = 25 ∧ ∀ n ∈ s.flu.entries, n ≤ 255) ∧ s.flu.queue.length ≤ 8 ∧
    ∀ i r, s.flu.queue[i]? = some r → r.seq = s.flu.seq - BitVec.ofNat 16 (s.flu.queue.length - i)

/-- The write index lies in 0..capacity - 1, and is 0 while there is no ring (R29, R153). -/
def WriteIndexLaw (s : State) : Prop :=
  match s.cau.device with
  | some d => s.flu.writeIndex < d.ringCapacity
  | none => s.flu.writeIndex = 0

/-- The refresh-owed count is at most 8, and four banks are each closed or open on a row 0..8191 (R12, R13). -/
def MemoryControllerLaw (s : State) : Prop :=
  s.mct.refreshOwed ≤ 8 ∧ s.mct.banks.length = 4 ∧ ∀ r, some r ∈ s.mct.banks → r < 8192

/-- Frame memory is in its canonical form. -/
def MemoryLaw (s : State) : Prop := Memory.wf s.mem

/-! ## Laws of the transfer path and the boot load -/

/-- An own access is a boot-load read. -/
def isBootRead (a : OwnAccess) : Bool := !a.isRecordWrite

/-- The own access that holds the bus. -/
def runningAccess (m : Mct) : List OwnAccess :=
  match m.bus with
  | .own a => [a]
  | _ => []

/-- The own accesses asked for and not yet ended: the one that runs, and those that wait. -/
def ownAccesses (m : Mct) : List OwnAccess := runningAccess m ++ m.queue.map (·.access)

/-- RESET is held, or memory initialisation has not ended. -/
def NotStarted (s : State) : Prop := s.resetHeld = true ∨ s.mct.bus = .initialising

/-- At most one own access of each kind is asked for at a time (R15). -/
def OwnAccessLaw (s : State) : Prop :=
  ((ownAccesses s.mct).filter OwnAccess.isRecordWrite).length ≤ 1 ∧ ((ownAccesses s.mct).filter isBootRead).length ≤ 1

/-- While RESET is held or memory initialisation runs nothing has begun: no own access, an empty pending set, BOOT, no
transfer, a timebase of 0 while held; the refresh interval runs from then on (R6, R13, R20, R21, R22, R47, R123). That the
bus is free while RESET is held is the model's choice (log 20). -/
def StartLaw (s : State) : Prop :=
  (s.mct.intervalRunning = true ↔ ¬NotStarted s) ∧ (s.resetHeld = true → s.mct.bus = .free ∧ s.timebase = 0) ∧
    (NotStarted s →
      ownAccesses s.mct = [] ∧ s.cau.config = .boot ∧ s.cau.pendingSet = [] ∧ s.inHand = none)

/-- In BOOT there is no configuration, and once started exactly one boot-load read is asked for, of the word that comes next;
after BOOT none is, and the pending set is complete (R36, R37, R38, R47). -/
def BootLaw (s : State) : Prop :=
  (s.cau.config ≠ .configured → s.cau.accepted = none ∧ s.cau.device = none ∧ s.left.active = none ∧ s.right.active = none) ∧
    (s.cau.config = .boot → ¬NotStarted s →
      s.cau.pendingSet.length < 128 ∧
        (ownAccesses s.mct).filter isBootRead =
          [.bootLoadRead (controlBase s.cau.casel + 4 * s.cau.pendingSet.length)]) ∧
    (s.cau.config ≠ .boot →
      s.cau.pendingSet.length = 128 ∧ (ownAccesses s.mct).filter isBootRead = [])

/-- A transfer is in hand exactly while it holds the bus. Its words are classified by the regions in force, and during the
boot load it carries no commit and touches no word of the control area (R6, R7, R19). A request waits only for a transfer in
hand (R1). -/
def TransferLaw (s : State) : Prop :=
  (s.inHand.isSome = true ↔ s.mct.bus = .transfer) ∧
    (∀ t, s.request = some t → s.inHand.isSome = true ∧ t.wellFormed = true) ∧
    ∀ h, s.inHand = some h →
      h.snapshot = s.snapshot ∧ h.transfer.wellFormed = true ∧
        (s.cau.config = .boot → h.commit = false ∧ touchesControl s.cau.casel h.transfer = false)

/-- The laws of the transfer path together. -/
def PathLaw (s : State) : Prop := OwnAccessLaw s ∧ StartLaw s ∧ BootLaw s ∧ TransferLaw s

/-! ## Laws of the regions -/

/-- A region of frame memory: its first byte and the byte after its last. -/
def inRegion (r : Nat × Nat) (x : Nat) : Prop := r.1 ≤ x ∧ x < r.1 + r.2

/-- The device-wide active copy is the accepted set's, and the accepted set passed the checks of placement of R40: its eight
regions lie in frame memory and share no byte (R35, R43). -/
def AcceptedLaw (s : State) : Prop :=
  s.cau.device = s.cau.accepted.map (·.device) ∧
    ∀ acc, s.cau.accepted = some acc →
      geometryOk acc.left.geometry = true ∧ geometryOk acc.right.geometry = true ∧ ringOk acc.device = true ∧
        profilesOk acc.left = true ∧ profilesOk acc.right = true ∧
        (regions (controlBase s.cau.casel) acc.device acc.left.geometry acc.right.geometry).Pairwise
          fun r q => ∀ x, ¬(inRegion r x ∧ inRegion q x)

/-- A side in force is enabled in the accepted set too, with the same geometry, and a side that waits is in force (R44, R46). -/
def InForceLaw (s : State) : Prop :=
  ∀ sd, (∀ a, (s.side sd).inForce = some a →
      ∃ acc, s.cau.accepted = some acc ∧ (acc.descriptor sd).enabled = true ∧
        (acc.descriptor sd).geometry = a.desc.geometry) ∧
    ((s.side sd).takeWaiting = true → (s.side sd).inForce.isSome = true)

/-- While nothing has started no set is accepted or active (R47). -/
def EmptyLaw (s : State) : Prop :=
  NotStarted s → s.cau.accepted = none ∧ s.cau.device = none ∧ ∀ sd, (s.side sd).active = none

/-- The regions in force are always those of the latest accepted set, and disjoint (R35, R46). -/
def RegionLaw (s : State) : Prop := AcceptedLaw s ∧ InForceLaw s ∧ EmptyLaw s

/-- A record write that waits or runs is that of the head record, into the slot at the write index of a ring that is not
full (R152, R153). -/
def RecordWriteLaw (s : State) : Prop :=
  ∀ a ws, OwnAccess.recordWrite a ws ∈ ownAccesses s.mct →
    ∃ d r rest, s.cau.device = some d ∧ s.flu.queue = r :: rest ∧ a = d.ringBase + s.flu.writeIndex * 16 ∧ ws = r.words ∧
      s.flu.writeIndex < d.ringCapacity ∧ ringFull s.flu d = false

/-- The pending set holds at each loaded offset what frame memory holds there (R24, R25, R36). -/
def MirrorLaw (s : State) : Prop :=
  ∀ i w, s.cau.pendingSet[i]? = some w → Memory.readWord s.mem (controlBase s.cau.casel + 4 * i) = w

/-- The laws that keep the pending set equal to memory, together. -/
def StoreLaw (s : State) : Prop :=
  MemoryLaw s ∧ PathLaw s ∧ OfSides OffLaw s ∧ RegionLaw s ∧ WriteIndexLaw s ∧ RecordWriteLaw s ∧ MirrorLaw s

/-! ## The values after reset -/

/-- A side's values after reset: OFF, no active set, an empty ring, no scan, stopped timers (R47, R65, R88, R103, R122,
R142). -/
def SideReset (x : SideState) : Prop :=
  x.active = none ∧ x.takeWaiting = false ∧ x.frameProfile = none ∧
    (∀ b, x.ring.buf b =
        { state := .free, seq := 0, captureTime := 0, completionTime := 0, count := 0, signature := 0, profile := 0,
          verified := false, cut := false }) ∧
    x.ring.nextSeq = 0 ∧ x.ring.lastVerified = none ∧ x.ring.equalRun = 0 ∧ x.ring.frozenMark = false ∧ x.ring.dropped = 0 ∧
    x.glare.night = .day ∧ x.glare.map = List.replicate 48 256 ∧
    x.glare.summary = List.replicate 48 { hot := false, code := 0 } ∧
    x.glare.acc = List.replicate 48 { n := 0, lumaSum := 0, hot := 0, maximum := 0 } ∧ x.glare.frameGt = 0 ∧
    x.scan.record = none ∧ x.scan.lastLatency = 0 ∧ x.scan.unchecked = 0 ∧
    x.view.state = .off ∧ x.view.watchdog = none ∧ x.view.hold = none ∧ x.view.recovery = 0

/-- The device's values after reset: no transfer in hand, closed banks, nothing owed or queued, BOOT with empty copies, both
sides reset, no fault pending, no record, FAULT asserted and ATTN released (R22, R47, R142, R158). -/
def ResetValues (s : State) : Prop :=
  s.inHand = none ∧
    (s.mct.banks = [none, none, none, none] ∧ s.mct.refreshOwed = 0 ∧ s.mct.intervalRunning = false ∧ s.mct.queue = []) ∧
    (s.cau.config = .boot ∧ s.cau.pendingSet = [] ∧ s.cau.accepted = none ∧ s.cau.device = none) ∧
    SideReset s.left ∧ SideReset s.right ∧ s.timebase = 0 ∧ s.faultLine = true ∧
    (s.flu.entries = List.replicate 25 0 ∧ s.flu.attn = false ∧ s.flu.queue = [] ∧ s.flu.seq = 0 ∧ s.flu.writeIndex = 0 ∧
      s.flu.readIndex = none)

/-! ## How the effects of commands are stated -/

/-- Memory after a word is written at a word address under byte enables: the enabled bytes are the word's, and every other
byte of memory reads as before (R3). Lane k lies at the word's address plus k (log 1). -/
def Stored (m m' : List Host.Cell) (a : Nat) (be : BitVec 4) (w : Word) : Prop :=
  (∀ k, k < 4 → Memory.readByte m' (a + k) = if be.getLsbD k then byteOf w k else Memory.readByte m (a + k)) ∧
    ∀ x, x < a ∨ a + 4 ≤ x → Memory.readByte m' x = Memory.readByte m x

/-- The banks after an access to an address: the word's bank is open on the word's row (R12). -/
def openedBanks (banks : List (Option Nat)) (a : Nat) : List (Option Nat) := banks.set (a / 2 ^ 11 % 4) (some (a / 2 ^ 13 % 8192))

/-- The transfer in hand with one more word handled and the data read for it. -/
def handled (h : InHand) (data : List Word) : InHand :=
  { h with handled := h.handled + 1, readData := h.readData ++ data }

/-- The next word of the transfer in hand is a write, or a read, at an address, and of a kind. -/
def NextWord (s : State) (write : Bool) (h : InHand) (a : Nat) (k : WordKind) : Prop :=
  s.currentWord = some (h, a, k) ∧ h.transfer.write = write

/-- The word the next write brings (R1). -/
def writeData (h : InHand) : Word := h.transfer.data.getD h.handled 0

/-- The port of R6 passes a transfer on to the arbiter. -/
def PassedOn (s : State) (t : Transfer) : Prop :=
  s.inHand = none ∧ t.wellFormed = true ∧ s.resetHeld = false ∧ s.mct.bus ≠ .initialising ∧
    (s.cau.config = .boot → ∀ i, i < t.wordCount →
      wordAddress t i < controlBase s.cau.casel ∨ controlBase s.cau.casel + 0x1000 ≤ wordAddress t i)

/-- The row whose command handles the next word of a transfer, by its direction, kind and byte enables (R9, R26, R27, R28,
R39, R148). -/
def rowFor (write : Bool) (be : BitVec 4) : WordKind → Instr
  | .plain => if write then .plainWordWrite else .plainWordRead
  | .ring _ => if write then .plainWordWrite else .plainWordRead
  | .parameter o =>
    if write then
      if o = 0x1C then .reportReadIndexWrite
      else if o = 0x04 ∧ be ≠ 0 then .commitWordWrite
      else .parameterWordWrite
    else .plainWordRead
  | .status o => if write then (if o = 0xE00 then .acknowledgeWrite else .statusWordWrite) else .acknowledgeRead
  | .buffer _ _ _ => if write then .bufferWordWrite else .bufferWordRead

/-- The commands that handle one word. -/
def wordCommands : List Instr :=
  [.plainWordWrite, .plainWordRead, .parameterWordWrite, .commitWordWrite, .reportReadIndexWrite, .acknowledgeRead,
   .acknowledgeWrite, .statusWordWrite, .bufferWordWrite, .bufferWordRead]

/-- The geometry that a snapshot holds for a side. -/
def geometryIn (sn : Snapshot) : Side → Option Geometry
  | .left => sn.left
  | .right => sn.right

/-- The regions of a snapshot, each a first byte and a length: the control area, the buffers of both sides, the ring. -/
def snapshotRegions (sn : Snapshot) : List (Nat × Nat) :=
  [(sn.controlBase, 0x1000)] ++
    (match sn.left with
     | some g => bufferRegions g
     | none => []) ++
    (match sn.right with
     | some g => bufferRegions g
     | none => []) ++
    (match sn.ring with
     | some (base, capacity) => [(base, capacity * 16)]
     | none => [])

/-- Offset of a side's status words (R163). -/
def sideStatusBase : Side → Nat
  | .left => 0xE40
  | .right => 0xEC0

/-- Two tiles share an edge in the grid of 6 rows and 8 columns (R96). -/
def adjacent (i j : Nat) : Prop :=
  i < 48 ∧ j < 48 ∧ (j + 8 = i ∨ i + 8 = j ∨ (i / 8 = j / 8 ∧ (j + 1 = i ∨ i + 1 = j)))

/-! ## How scans and configuration sets are stated -/

/-- The marker word: the three low bytes of the marker colour in force, the top byte zero (R113, R160). -/
def markerOf (s : State) : Word :=
  match s.cau.device with
  | some d => BitVec.ofNat 32 (d.markerColour.toNat % 2 ^ 24)
  | none => 0

/-- The pixel of a word offset lies in the border of the width in force (R113). -/
def borderedBy (s : State) (g : Geometry) (o : Nat) : Bool :=
  let bw := match s.cau.device with
    | some d => d.borderWidth
    | none => 0
  decide (o % g.w < bw ∨ g.w - bw ≤ o % g.w ∨ o / g.w < bw ∨ g.h - bw ≤ o / g.w)

/-- The state after the next word is served as a scan word at an offset: memory is not read in WAITING and LOST; elsewhere
the served buffer is read, the signature takes the word, and in MARKED and HOLDING the border shows the marker word
(R111 to R115). -/
def scanWordServed (sd : Side) (g : Geometry) (h : InHand) (r : ScanRecord) (o : Nat) (s : State) : State :=
  let last := o + 1 = g.w * g.h
  let counted := { r with
    wordsRead := min 16777215 (r.wordsRead + 1)
    readLast := if last then true else r.readLast }
  let a := g.base (r.redirect.getD r.buf) + o * 4
  let word := Memory.readWord s.mem a
  let fill := (s.side sd).view.state = .waiting ∨ (s.side sd).view.state = .lost
  let border := (s.side sd).view.state = .marked ∨ (s.side sd).view.state = .holding
  let served := if fill ∨ (border ∧ borderedBy s g o = true) then markerOf s else word
  let record :=
    if fill then { counted with fillServed := true }
    else { counted with signature := r.signature ^^^ word.rotateLeft (o % 32) }
  setSide sd { s.side sd with scan := { (s.side sd).scan with record := some record } }
    { s with
      inHand := some { handled h [served] with scanDone := if last then some sd else h.scanDone }
      mct := if fill then s.mct else { s.mct with banks := openedBanks s.mct.banks a } }

/-- The unchecked-scan count after a scan in progress, if there is one, has ended (R106). -/
def uncheckedAfterStart (c : Scan) : Nat :=
  match c.record with
  | some r => if r.complete then c.unchecked else min 65535 (c.unchecked + 1)
  | none => c.unchecked

/-- A value kept in a range: its nearest bound where it lies outside (R42). -/
def Bounded (lo hi raw out : Nat) : Prop :=
  (raw < lo → out = lo) ∧ (hi < raw → out = hi) ∧ (lo ≤ raw → raw ≤ hi → out = raw)

/-- Word n of the part of a pending set that begins at a byte offset (R161, R162). -/
def fieldWord (ps : List Word) (offset n : Nat) : Word := ps.getD (offset / 4 + n) 0

/-- Two regions share no byte. -/
def Apart (r q : Nat × Nat) : Prop := ∀ x, ¬(inRegion r x ∧ inRegion q x)

/-- W, H and the buffer bases of a side meet R40. -/
def Placed (g : Geometry) : Prop :=
  64 ≤ g.w ∧ g.w ≤ 1920 ∧ g.w % 16 = 0 ∧ 64 ≤ g.h ∧ g.h ≤ 1080 ∧
    ∀ b : Fin 3, g.base b % 64 = 0 ∧ g.base b + g.w * g.h * 4 ≤ 0x4000000

/-- The ring of an active device copy holds unread records (R40, R153). -/
def Unread (f : Flu) (d : DeviceCopy) : Prop := f.writeIndex ≠ (f.readIndex.getD 0).toNat % d.ringCapacity

/-- A set has a ring base or capacity that the active device copy has not, or there is no active device copy (R43). -/
def RingChanges (device : Option DeviceCopy) (new : DeviceCopy) : Prop :=
  ∀ d, device = some d → d.ringBase ≠ new.ringBase ∨ d.ringCapacity ≠ new.ringCapacity

/-- A record write of the FLU is outstanding (R152). -/
def RecordOutstanding (m : Mct) : Prop := ∃ a ws, OwnAccess.recordWrite a ws ∈ ownAccesses m

end Sys2Proof.Safety
end

