-- ==== Sys2Proof/Certificates/Slice0/Obligations.lean ====
section
/-! DEFINITION. The statements for the provers, in the order of the spec's chapters. -/

section Statements

open Sys2Proof Sys2Proof.Machine Sys2Proof.Safety

/-! ## The step, reset and the clock -/

/-- A step takes the command at the front of the queue; on an empty queue the block idles (the model's choice, log 4). -/
def Obligations.StepTakesFrontCommand : Prop :=
  (∀ c rest s, s.pending = c :: rest → step s = exec c { s with pending := rest }) ∧
    ∀ s, s.pending = [] → step s = .next s

/-- R88, R103, R122, R158: at RESET every block takes its reset values, and the release keeps them. What a record write in
progress leaves in memory is a free number of its words, from the first on (R21, log 8). R1, R6: a request that waited for
the transfer in hand is answered RETRY (log 11). The model's choices: the bus is free while RESET is held (log 20), the pins
show no older answer (log 19), and RESET asserted while it is held resets again (log 24). -/
def Obligations.ResetLeavesResetValues : Prop :=
  (∀ s, ∃ t n, exec .resetAsserted s = .next t ∧ ResetValues t ∧ t.resetHeld = true ∧ t.mct.bus = .free ∧
      t.pending = s.pending ∧ t.request = none ∧ (s.request = none → t.answers = []) ∧
      (s.request ≠ none → t.answers = [.retry]) ∧ n ≤ 4 ∧
      t.mem = match s.mct.bus with
        | .own (.recordWrite a words) => Memory.writeWords s.mem a (words.take n)
        | _ => s.mem) ∧
    ∀ s casel held t, ResetValues s → exec (.resetReleased casel held) s = .next t → ResetValues t

/-- R20, R21, R23: at the release CASEL is sampled, the timebase starts from 0 and memory initialisation holds the bus;
memory is kept unless RESET was held longer than 64 ms (free contents then, log 7). -/
def Obligations.ReleaseStartsInitialisation : Prop :=
  ∀ s casel held, s.resetHeld = true →
    ∃ t, exec (.resetReleased casel held) s = .next t ∧ LinesLaw t ∧
      (held ≤ 64000 → t.mem = s.mem) ∧ (MemoryLaw s → MemoryLaw t) ∧
      t = { s with
        resetHeld := false
        timebase := 0
        cau := { s.cau with casel := casel }
        mct := { s.mct with bus := .initialising }
        mem := t.mem
        faultLine := t.faultLine
        flu := { s.flu with attn := t.flu.attn }
        freeDraws := s.freeDraws + 1 }

/-- R20, R36: at the end of memory initialisation the banks are closed, no refresh is owed, the interval starts, and the
boot load asks for its first read. It ends only after its 200 us wait (log 14). -/
def Obligations.InitialisationEndStartsBootLoad : Prop :=
  ∀ s, s.mct.bus = .initialising → 200 ≤ s.timebase.toNat →
    exec .memoryInitialisationEnd s = .next
      { s with
        mct :=
          { bus := .free
            banks := [none, none, none, none]
            refreshOwed := 0
            intervalRunning := true
            queue := s.mct.queue ++
              [{ access := .bootLoadRead (controlBase s.cau.casel + 4 * s.cau.pendingSet.length)
                 joinTime := s.timebase }] } }

/-- R123: the timebase advances by 1 at each microsecond, wrapping, and stays while RESET is held. Nothing else changes. -/
def Obligations.TimebaseCounts : Prop :=
  ∀ s, exec .timebaseTick s = .next (if s.resetHeld then s else { s with timebase := s.timebase + 1 })

/-- R13, R14: the end of an interval adds 1 to the refresh-owed count below 8 and leaves 8; the end of a refresh leaves all
four banks closed and the bus free. -/
def Obligations.RefreshIsOwedAndEnds : Prop :=
  (∀ s, s.mct.intervalRunning = true →
      exec .refreshIntervalEnd s = .next
        { s with
          mct := { s.mct with refreshOwed := if s.mct.refreshOwed < 8 then s.mct.refreshOwed + 1 else s.mct.refreshOwed } }) ∧
    ∀ s, s.mct.bus = .refresh →
      exec .refreshEnd s = .next { s with mct := { s.mct with bus := .free, banks := [none, none, none, none] } }

/-- R17: with the bus free and RESET not held, a refresh starts if any is owed, else the own access at the head of the
queue, else nothing. Otherwise the grant is not ready, and the state stays as it is (the model's choice, log 3). -/
def Obligations.GrantGivesTheFreeBus : Prop :=
  (∀ s, s.resetHeld = false → s.mct.bus = .free →
      exec .grant s = .next
        (if 0 < s.mct.refreshOwed then
          { s with
            mct := { s.mct with
              bus := .refresh, refreshOwed := s.mct.refreshOwed - 1, banks := [none, none, none, none] } }
        else
          match s.mct.queue with
          | e :: rest => { s with mct := { s.mct with bus := .own e.access, queue := rest } }
          | [] => s)) ∧
    ∀ s, s.resetHeld = true ∨ s.mct.bus ≠ .free → exec .grant s = .next s

/-- R36: a word returned by the boot load goes to the next offset of the pending set, that of 001Ch also to the live read
index, and the next read is asked for. R37: after the word of 01FCh the implicit commit is made. There is no device copy in
BOOT (R47). -/
def Obligations.BootLoadFillsThePendingSet : Prop :=
  ∀ s a, s.mct.bus = .own (.bootLoadRead a) → s.cau.device = none →
    ∃ u, u = { s with
          cau := { s.cau with pendingSet := s.cau.pendingSet ++ [Memory.readWord s.mem a] }
          flu := { s.flu with
            readIndex := if s.cau.pendingSet.length = 7 then some (Memory.readWord s.mem a) else s.flu.readIndex }
          mct := { s.mct with bus := .free, banks := openedBanks s.mct.banks a } } ∧
      (s.cau.pendingSet.length + 1 < 128 →
        exec .bootLoadReadDone s = .next
          { u with
            mct := { u.mct with
              queue := s.mct.queue ++
                [{ access := .bootLoadRead (controlBase s.cau.casel + 4 * (s.cau.pendingSet.length + 1))
                   joinTime := s.timebase }] } }) ∧
      (128 ≤ s.cau.pendingSet.length + 1 → exec .bootLoadReadDone s = .next (commit u))

/-- R16, R152: a record write puts its four words at its slot and changes no other byte; the head record leaves the queue,
the write index advances by 1 modulo the capacity, and the next record is presented if it may be. -/
def Obligations.RecordWriteReachesTheRing : Prop :=
  ∀ s a words, s.mct.bus = .own (.recordWrite a words) →
    ∃ u, exec .recordWriteDone s = .next (presentHead u) ∧
      u = { s with
        mem := u.mem
        mct := { s.mct with bus := .free, banks := openedBanks s.mct.banks a }
        flu := { s.flu with
          queue := s.flu.queue.tail
          writeIndex := match s.cau.device with
            | some d => (s.flu.writeIndex + 1) % d.ringCapacity
            | none => s.flu.writeIndex } } ∧
      (MemoryLaw s → a % 16 = 0 → a + 16 ≤ 0x4000000 → ∀ w0 w1 w2 w3, words = [w0, w1, w2, w3] →
        Memory.readWord u.mem a = w0 ∧ Memory.readWord u.mem (a + 4) = w1 ∧ Memory.readWord u.mem (a + 8) = w2 ∧
          Memory.readWord u.mem (a + 12) = w3 ∧
          ∀ x, x < a ∨ a + 16 ≤ x → Memory.readByte u.mem x = Memory.readByte s.mem x)

/-! ## Arrivals -/

/-- R6, R5: an arrival while RESET is held, during memory initialisation, or during the boot load with a word in the control
area is answered RETRY and changes nothing else. R1: a request presented while a transfer is in hand is no arrival yet; it
waits on the pins, and nothing else changes (log 11). -/
def Obligations.PortAnswersRetry : Prop :=
  (∀ s t, s.inHand.isSome = true → t.wellFormed = true → exec (.transferArrival t) s = .next { s with request := some t }) ∧
  ∀ s t, s.inHand = none → t.wellFormed = true →
    (s.resetHeld = true ∨ s.mct.bus = .initialising ∨
      (s.cau.config = .boot ∧ ∃ i, i < t.wordCount ∧ controlBase s.cau.casel ≤ wordAddress t i ∧
        wordAddress t i < controlBase s.cau.casel + 0x1000)) →
    exec (.transferArrival t) s = .next { s with answers := [.retry] }

/-- R18, R7, R1: the arbiter's table. A transfer that is taken is in hand with the regions of that moment, holds the bus, and
changes nothing else but the pins, which show no answer from then on (the model's choice, log 19). -/
def Obligations.ArbiterDecidesArrivals : Prop :=
  ∀ s t, PassedOn s t →
    (s.mct.bus ≠ .free → exec (.transferArrival t) s = .next { s with answers := [.retry] }) ∧
    (s.mct.bus = .free → s.mct.refreshOwed = 8 →
      exec (.transferArrival t) s = .next
        { s with
          answers := [.retry]
          mct := { s.mct with bus := .refresh, refreshOwed := 7, banks := [none, none, none, none] } }) ∧
    (∀ e rest, s.mct.bus = .free → s.mct.refreshOwed < 8 → s.mct.queue = e :: rest →
      20 ≤ (s.timebase - e.joinTime).toNat →
      exec (.transferArrival t) s = .next
        { s with answers := [.retry], mct := { s.mct with bus := .own e.access, queue := rest } }) ∧
    (s.mct.bus = .free → s.mct.refreshOwed < 8 →
      (∀ e rest, s.mct.queue = e :: rest → (s.timebase - e.joinTime).toNat < 20) →
      exec (.transferArrival t) s = .next
        { s with
          answers := []
          mct := { s.mct with bus := .transfer }
          inHand := some
            { transfer := t
              snapshot :=
                { controlBase := controlBase s.cau.casel
                  ring := s.cau.device.map fun d => (d.ringBase, d.ringCapacity)
                  left := s.left.inForce.map fun a => a.desc.geometry
                  right := s.right.inForce.map fun a => a.desc.geometry }
              handled := 0
              readData := []
              commit := false
              protect := none
              tear := none
              frameDone := none
              scanDone := none } })

/-- R9: each next word is handled by the command of one row (which row reads the status words is the model's choice, log 12):
it is one word further, of the same transfer, after it. The command is in wordCommands; any other of these, and any of them
where no word is next, is not taken (the model's choice, log 3). -/
def Obligations.EachWordHasOneRow : Prop :=
  (∀ s h a k, s.currentWord = some (h, a, k) → (∀ sd b o, k = .buffer sd b o → (s.side sd).inForce.isSome = true) →
    OfSides ViewShown s →
    ∃ t j, exec (rowFor h.transfer.write (enablesOf h.transfer) k) s = .next t ∧
      rowFor h.transfer.write (enablesOf h.transfer) k ∈ wordCommands ∧
      t.inHand = some j ∧ j.transfer = h.transfer ∧ j.handled = h.handled + 1) ∧
  ∀ s c, c ∈ wordCommands →
    (s.currentWord = none → exec c s = .next s) ∧
      ∀ h a k, s.currentWord = some (h, a, k) → c ≠ rowFor h.transfer.write (enablesOf h.transfer) k →
        exec c s = .next s

/-- An event that is not ready is not taken, and the state stays as it is (the model's choice, log 3), and an ill-formed request
is none (log 23). -/
def Obligations.UnreadyEventsAreNotTaken : Prop :=
  ∀ s,
    (∀ casel held, s.resetHeld = false → exec (.resetReleased casel held) s = .next s) ∧
    (s.mct.bus ≠ .initialising ∨ s.timebase.toNat < 200 → exec .memoryInitialisationEnd s = .next s) ∧
    (s.mct.intervalRunning = false → exec .refreshIntervalEnd s = .next s) ∧
    (s.mct.bus ≠ .refresh → exec .refreshEnd s = .next s) ∧
    ((∀ a, s.mct.bus ≠ .own (.bootLoadRead a)) → exec .bootLoadReadDone s = .next s) ∧
    ((∀ a ws, s.mct.bus ≠ .own (.recordWrite a ws)) → exec .recordWriteDone s = .next s) ∧
    (∀ t, t.wellFormed = false → exec (.transferArrival t) s = .next s) ∧
    (s.inHand = none → exec .transferEnd s = .next s) ∧
    (∀ sd, (∀ t, (s.side sd).view.watchdog = some t → (s.timebase - t.loadTime).toNat < t.duration) →
      exec (.watchdogExpiry sd) s = .next s) ∧
    (∀ sd, (∀ t, (s.side sd).view.hold = some t → (s.timebase - t.loadTime).toNat < t.duration) →
      exec (.holdTimerExpiry sd) s = .next s)

/-! ## Words and their kinds -/

/-- R2: a burst covers the aligned block that contains the address, visits each word of it once, begins at the addressed
word, runs upward and goes on from the block's first word. -/
def Obligations.BurstOrderCoversTheBlock : Prop :=
  ∀ t : Transfer, t.wordCount ∈ [1, 4, 8, 16] ∧
    (let n := t.wordCount
     let block := t.address.toNat / (4 * n) * (4 * n)
     let first := t.address.toNat / 4 % n
     (∀ i, i < n → wordAddress t i = block + 4 * ((first + i) % n)) ∧
       ((List.range n).map (wordAddress t)).Perm ((List.range n).map fun k => block + 4 * k))

/-- R11: column, bank and row are bits 10:2, 12:11 and 25:13 of a word address and give it back; every word of a transfer
shares one bank and one row. -/
def Obligations.TransferStaysInOneRow : Prop :=
  (∀ a, a % 4 = 0 → a < 0x4000000 →
      columnOf a < 512 ∧ bankOf a < 4 ∧ rowOf a < 8192 ∧ a = rowOf a * 2 ^ 13 + bankOf a * 2 ^ 11 + columnOf a * 4) ∧
    ∀ (t : Transfer) i j, i < t.wordCount → j < t.wordCount →
      bankOf (wordAddress t i) = bankOf (wordAddress t j) ∧ rowOf (wordAddress t i) = rowOf (wordAddress t j)

/-- R8: the kind of a word follows from the region its address lies in, where the regions share no byte (R35). -/
def Obligations.WordKindFollowsItsRegion : Prop :=
  ∀ sn a, (snapshotRegions sn).Pairwise (fun r q => ∀ x, ¬(inRegion r x ∧ inRegion q x)) →
    (inRegion (sn.controlBase, 0xE00) a → classify sn a = .parameter (a - sn.controlBase)) ∧
    (inRegion (sn.controlBase + 0xE00, 0x200) a → classify sn a = .status (a - sn.controlBase)) ∧
    (∀ sd g b, geometryIn sn sd = some g → inRegion (g.base b, g.w * g.h * 4) a →
      classify sn a = .buffer sd b ((a - g.base b) / 4)) ∧
    (∀ base capacity, sn.ring = some (base, capacity) → inRegion (base, capacity * 16) a →
      classify sn a = .ring ((a - base) / 16)) ∧
    ((∀ r ∈ snapshotRegions sn, ¬inRegion r a) → classify sn a = .plain)


/-! ## Words of plain memory and of the control area -/

/-- R3, R9: a write of a plain or report ring word goes to memory at its address under its byte enables (all four on a
burst), and changes nothing else but the open row (with no enable too, log 27). That lane k of a word lies at its address
plus k is the model's choice (log 1), here and in every statement that says what is stored. -/
def Obligations.PlainWordWriteStores : Prop :=
  ∀ s h a k, NextWord s true h a k → (k = .plain ∨ ∃ slot, k = .ring slot) →
    ∃ t, exec .plainWordWrite s = .next t ∧
      (MemoryLaw s → Stored s.mem t.mem a (if h.transfer.wordCount = 1 then h.transfer.enables else 0xF) (writeData h)) ∧
      t = { s with
        mem := t.mem
        inHand := some (handled h [])
        mct := { s.mct with banks := openedBanks s.mct.banks a } }

/-- R9: a read of a plain, report ring or parameter word returns memory's word at its address, unchanged. -/
def Obligations.MemoryWordReadReturnsMemory : Prop :=
  ∀ s h a k, NextWord s false h a k → (k = .plain ∨ (∃ slot, k = .ring slot) ∨ ∃ o, k = .parameter o) →
    exec .plainWordRead s = .next
      { s with
        inHand := some (handled h [Memory.readWord s.mem a])
        mct := { s.mct with banks := openedBanks s.mct.banks a } }

/-- R24, R25, R39: a write of a parameter word goes to memory and, below 0200h, into the pending set, byte by byte under its
enables. At 0004h with an enable set the transfer carries a commit. Nothing else changes but the open row (with no enable too: the
model's choice, log 27). -/
def Obligations.ParameterWordWriteCopies : Prop :=
  ∀ s h a o be, NextWord s true h a (.parameter o) → o ≠ 0x1C →
    be = (if h.transfer.wordCount = 1 then h.transfer.enables else 0xF) →
    ∃ t merged, exec (if o = 0x04 ∧ be ≠ 0 then .commitWordWrite else .parameterWordWrite) s = .next t ∧
      (∀ k, k < 4 → byteOf merged k =
        if be.getLsbD k then byteOf (writeData h) k else byteOf (s.cau.pendingSet.getD (o / 4) 0) k) ∧
      (MemoryLaw s → Stored s.mem t.mem a be (writeData h)) ∧
      t = { s with
        mem := t.mem
        cau := { s.cau with
          pendingSet := if o < 0x200 then s.cau.pendingSet.set (o / 4) merged else s.cau.pendingSet }
        inHand := some
          { handled h [] with commit := if o = 0x04 ∧ be ≠ 0 then true else h.commit }
        mct := { s.mct with banks := openedBanks s.mct.banks a } }

/-- R26, R154: the report read index is stored like any parameter word, and with an enable set the merged word is the live
read index at once: a ring it leaves full withdraws a waiting record write, and room presents the head record. With no enable the word's row still opens
(the model's choice, log 27). -/
def Obligations.ReadIndexWriteIsDelivered : Prop :=
  ∀ s h a be, s.cau.pendingSet.length = 128 → NextWord s true h a (.parameter 0x1C) →
    be = (if h.transfer.wordCount = 1 then h.transfer.enables else 0xF) →
    ∃ t u merged, exec .reportReadIndexWrite s = .next t ∧
      (∀ k, k < 4 → byteOf merged k =
        if be.getLsbD k then byteOf (writeData h) k else byteOf (s.cau.pendingSet.getD 7 0) k) ∧
      (MemoryLaw s → Stored s.mem u.mem a be (writeData h)) ∧
      u = { s with
        mem := u.mem
        cau := { s.cau with pendingSet := s.cau.pendingSet.set 7 merged }
        flu := { s.flu with readIndex := if be = 0 then s.flu.readIndex else some merged }
        inHand := some (handled h [])
        mct := { s.mct with banks := openedBanks s.mct.banks a } } ∧
      t = (if be = 0 then u
        else
          match s.cau.device with
          | none => u
          | some d =>
            if (s.flu.writeIndex + 1) % d.ringCapacity = merged.toNat % d.ringCapacity then
              { u with mct := { u.mct with queue := u.mct.queue.filter fun e => !e.access.isRecordWrite } }
            else presentHead u)

/-- R147, R146, R165: a read of the acknowledge word takes the pending entry of highest priority: it returns its count,
source and code, clears it, and brings ATTN up to date; with nothing pending it returns 0 and changes nothing. FAULT stands
as its condition, which no entry bears on (R139). -/
def Obligations.AcknowledgeReadTakesTheHighest : Prop :=
  ∀ s h a, NextWord s false h a (.status 0xE00) →
    (∀ i n e, s.flu.entries[i]? = some n → 0 < n → (∀ j, j < i → s.flu.entries[j]? = some 0) → entryOrder[i]? = some e →
      ∃ t, exec .acknowledgeRead s = .next t ∧ t.flu.attn = t.attnCondition ∧
        t = { s with
          inHand := some (handled h [BitVec.ofNat 32 (n * 2 ^ 24 + e.source * 2 ^ 16 + e.code)])
          faultLine := s.faultCondition
          flu := { s.flu with entries := s.flu.entries.set i 0, attn := t.flu.attn } }) ∧
    ((∀ n ∈ s.flu.entries, n = 0) → exec .acknowledgeRead s = .next { s with inHand := some (handled h [0]) })

/-- R148: a write of the acknowledge word, whatever its data and enables, clears every entry and releases ATTN. Memory, the
records, the ring and the views stay, and FAULT stands as its condition, which no entry bears on (R139). -/
def Obligations.AcknowledgeWriteClearsAll : Prop :=
  ∀ s h a, NextWord s true h a (.status 0xE00) →
    exec .acknowledgeWrite s = .next
      { s with
        inHand := some (handled h [])
        faultLine := s.faultCondition
        flu := { s.flu with entries := List.replicate 25 0, attn := false } }

/-- R27: a write of any other status word is absorbed and marks its transfer with the first such word's address. -/
def Obligations.ProtectedWordWriteIsAbsorbed : Prop :=
  ∀ s h a o, NextWord s true h a (.status o) → o ≠ 0xE00 →
    exec .statusWordWrite s = .next
      { s with
        inHand := some
          { handled h [] with
            protect := match h.protect with
              | some first => some first
              | none => some a } }

/-- R28, R163: a read of any other status word returns the item's bits from the live state and changes nothing (its command
is the model's choice, log 12). -/
def Obligations.DeviceStatusShowsTheItems : Prop :=
  (∀ s h a o, NextWord s false h a (.status o) → o ≠ 0xE00 →
      exec .acknowledgeRead s = .next { s with inHand := some (handled h [statusWord s o]) }) ∧
    ∀ s,
      (bits (statusWord s 0xE04) 1 0 = s.cau.config.code ∧ bits (statusWord s 0xE04) 31 2 = 0) ∧
      (statusWord s 0xE08 = match s.cau.accepted with
        | some acc => acc.generation
        | none => 0) ∧
      statusWord s 0xE0C = s.timebase ∧
      ((statusWord s 0xE10).getLsbD 0 = s.faultLine ∧ (statusWord s 0xE10).getLsbD 1 = s.flu.attn ∧
        bits (statusWord s 0xE10) 31 2 = 0) ∧
      (s.flu.writeIndex < 256 →
        (statusWord s 0xE14).toNat = match s.cau.device with
          | some _ => s.flu.writeIndex
          | none => 0) ∧
      (statusWord s 0xE18).toNat = s.flu.seq.toNat ∧
      ∀ o, o % 4 = 0 → (0xE1C ≤ o ∧ o < 0xE40) ∨ o = 0xE5C ∨ o = 0xEDC ∨ (0xF40 ≤ o ∧ o < 0x1000) → statusWord s o = 0

/-- R163, R164: the eight status words and the 24 map words of a side show their items at their bits, and 0 elsewhere. -/
def Obligations.SideStatusShowsTheItems : Prop :=
  ∀ s sd,
    (let w := statusWord s (sideStatusBase sd)
     bits w 2 0 = (s.side sd).view.state.code ∧ bits w 7 3 = 0 ∧ bits w 8 8 = (s.side sd).glare.night.code ∧
       bits w 15 9 = 0 ∧ bits w 31 23 = 0 ∧ bits w 19 19 = 0 ∧
       match (s.side sd).scan.record with
       | none => bits w 22 16 = 0
       | some r => bits w 17 16 = r.buf.val ∧ bits w 18 18 = 1 ∧
         match r.redirect with
         | none => bits w 22 20 = 0
         | some b => bits w 21 20 = b.val ∧ bits w 22 22 = 1) ∧
    (statusWord s (sideStatusBase sd + 4) = match (s.side sd).active with
      | some a => a.generation
      | none => 0) ∧
    (∀ b : Fin 3, let r := (s.side sd).ring.buf b
      let w := statusWord s (sideStatusBase sd + 8 + 4 * b.val)
      r.profile ≤ 3 →
        bits w 15 0 = r.seq.toNat ∧ bits w 17 16 = r.state.code ∧ bits w 19 18 = 0 ∧ bits w 21 20 = r.profile ∧
          bits w 23 22 = 0 ∧ w.getLsbD 24 = r.verified ∧ w.getLsbD 25 = r.cut ∧ bits w 31 26 = 0) ∧
    statusWord s (sideStatusBase sd + 0x14) = (s.side sd).scan.lastLatency ∧
    (let w := statusWord s (sideStatusBase sd + 0x18)
     CounterLaw (s.side sd) → bits w 15 0 = (s.side sd).ring.dropped ∧ bits w 31 16 = (s.side sd).scan.unchecked) ∧
    ∀ tile, tile < 48 → GlareLaw (s.side sd) →
      let w := statusWord s (sideStatusBase sd + 0x20 + 4 * (tile / 2))
      let at' := tile % 2 * 16
      ∀ d t, (s.side sd).glare.map[tile]? = some d → (s.side sd).glare.summary[tile]? = some t →
        bits w (at' + 8) at' = d ∧ w.getLsbD (at' + 9) = t.hot ∧ bits w (at' + 15) (at' + 10) = t.code


/-! ## Development -/

/-- R52, R53, R54, R56: black offset, gain, knee and tone of a channel, with the ranges that their results keep. -/
def Obligations.ChannelStagesCompute : Prop :=
  (∀ bo c, c ≤ 1023 → (bo < c → offsetStage bo c = c - bo) ∧ (c ≤ bo → offsetStage bo c = 0) ∧ offsetStage bo c ≤ 1023) ∧
  (∀ g c1, (4095 < (c1 * g + 128) / 256 → gainStage g c1 = 4095) ∧
    ((c1 * g + 128) / 256 ≤ 4095 → gainStage g c1 = (c1 * g + 128) / 256)) ∧
  (∀ k d c2, d ≤ 256 → (c2 ≤ k → kneeStage k d c2 = c2) ∧
    (k < c2 → kneeStage k d c2 = k + ((c2 - k) * d + 128) / 256) ∧ kneeStage k d c2 ≤ c2 ∧
    (d = 256 → kneeStage k d c2 = c2)) ∧
  ∀ (tone : List Nat) c3 lo hi, c3 ≤ 4095 → tone[c3 / 128]? = some lo → tone[c3 / 128 + 1]? = some hi →
    toneStage tone c3 = (lo * (128 - c3 % 128) + hi * (c3 % 128) + 64) / 128 ∧
      min lo hi ≤ toneStage tone c3 ∧ toneStage tone c3 ≤ max lo hi ∧ (c3 % 128 = 0 → toneStage tone c3 = lo)

/-- R51, R57, R160: the channels lie in bits 29:20, 19:10 and 9:0 of the input word and its other bits count for nothing; the
three levels lie in bits 23:16, 15:8 and 7:0 of the output word, and its top byte is zero. -/
def Obligations.OutputWordPacksTheLevels : Prop :=
  ∀ p d w, ProfileLaw p → d ≤ 256 →
    (let level (g bo c : Nat) := outputLevel p d (gainStage g (offsetStage bo c))
     level p.gr p.bor (bits w 29 20) ≤ 255 ∧ level p.gg p.bog (bits w 19 10) ≤ 255 ∧ level p.gb p.bob (bits w 9 0) ≤ 255 ∧
       bits (outputWord p d w) 23 16 = level p.gr p.bor (bits w 29 20) ∧
       bits (outputWord p d w) 15 8 = level p.gg p.bog (bits w 19 10) ∧
       bits (outputWord p d w) 7 0 = level p.gb p.bob (bits w 9 0) ∧ bits (outputWord p d w) 31 24 = 0) ∧
    ∀ w', w' &&& 0x3FFFFFFF = w &&& 0x3FFFFFFF → outputWord p d w' = outputWord p d w ∧ luma p w' = luma p w

/-- R60, R61: the luma is the weighted mean of the channels after the gain, in 0..4095; the signature term is the word
rotated left by its offset modulo 32. -/
def Obligations.LumaAndSignatureTerm : Prop :=
  (∀ p w,
    (let c2 (g bo c : Nat) := gainStage g (offsetStage bo c)
     luma p w = (77 * c2 p.gr p.bor (bits w 29 20) + 150 * c2 p.gg p.bog (bits w 19 10)
       + 29 * c2 p.gb p.bob (bits w 9 0) + 128) / 256) ∧ luma p w ≤ 4095) ∧
    ∀ (w : Word) o, (∀ k, k < 32 → (signatureTerm w o).getLsbD ((k + o) % 32) = w.getLsbD k) ∧
      (o % 32 = 0 → signatureTerm w o = w)

/-- R58, R59: an offset's line and column, and its tile of 6 rows and 8 columns; the first word is in tile 0, the last in
tile 47. -/
def Obligations.OffsetsFallInTiles : Prop :=
  ∀ g o, geometryOk g = true → o < g.w * g.h →
    lineY g o < g.h ∧ columnX g o < g.w ∧ lineY g o * g.w + columnX g o = o ∧
      tileOf g o = lineY g o * 6 / g.h * 8 + columnX g o * 8 / g.w ∧ tileOf g o < 48 ∧
      columnX g o * 8 / g.w = columnX g o / (g.w / 8) ∧ tileOf g 0 = 0 ∧ tileOf g (g.w * g.h - 1) = 47

/-! ## Capture writes -/

/-- R71, R72, R73, R49, R90: a full-word write into a FREE or READY buffer starts a frame there: another FILLING frame is cut
with FRAME_CUT, a READY one counts as dropped, the record and the accumulators start anew, and the word is the frame's first,
developed with the profile that the night state chooses. Views, scans and the other side stay. -/
def Obligations.BufferWriteStartsFrame : Prop :=
  ∀ s h addr sd b o a, NextWord s true h addr (.buffer sd b o) → (h.transfer.wordCount = 1 → h.transfer.enables = 0xF) →
    (s.side sd).inForce = some a →
    (((s.side sd).ring.buf b).state = .free ∨ ((s.side sd).ring.buf b).state = .ready) →
    ∃ t ring,
      let x := s.side sd
      let profile := match x.glare.night with
        | .day => a.desc.dayProfile
        | .night => a.desc.nightProfile
      let p := a.profiles.get profile
      let tile := tileOf a.desc.geometry o
      let out := outputWord p (x.glare.map.getD tile 256) (writeData h)
      let y := luma p (writeData h)
      let cut := match x.ring.filling with
        | some c => raiseSide sd .frameCut (some ((x.ring.buf c).seq, c)) (toWord (x.ring.buf c).count) s
        | none => s
      exec .bufferWordWrite s = .next t ∧ (MemoryLaw s → Stored s.mem t.mem addr 0xF out) ∧
        t = setSide sd
          { x with
            frameProfile := some profile
            ring := ring
            glare := { x.glare with
              frameGt := p.gt
              acc := (List.replicate 48 { n := 0, lumaSum := 0, hot := 0, maximum := 0 }).set tile
                { n := 1, lumaSum := y, hot := if p.gt ≤ y then 1 else 0, maximum := y } } }
          { cut with
            mem := t.mem
            inHand := some
              { handled h [] with
                frameDone := if o + 1 = a.desc.geometry.w * a.desc.geometry.h then some (sd, b) else h.frameDone }
            mct := { cut.mct with banks := openedBanks s.mct.banks addr } } ∧
        ring.buf b =
          { state := .filling
            seq := x.ring.nextSeq
            captureTime := s.timebase
            completionTime := (x.ring.buf b).completionTime
            count := 1
            signature := out.rotateLeft (o % 32)
            profile := profile
            verified := true
            cut := false } ∧
        (∀ c, c ≠ b → ring.buf c =
          if x.ring.filling = some c then { x.ring.buf c with state := .free, cut := true, verified := false }
          else x.ring.buf c) ∧
        ring.nextSeq = x.ring.nextSeq + 1 ∧
        ring.dropped = (if (x.ring.buf b).state = .ready then min 65535 (x.ring.dropped + 1) else x.ring.dropped) ∧
        ring.lastVerified = x.ring.lastVerified ∧ ring.equalRun = x.ring.equalRun ∧ ring.frozenMark = x.ring.frozenMark

/-- R74, R91: a full-word write into the FILLING buffer is developed with the frame's profile and its tile's factor, written,
counted and folded into the signature, and its luma added to its tile. Nothing else of the side changes. -/
def Obligations.BufferWriteContinuesFrame : Prop :=
  ∀ s h addr sd b o a profile, NextWord s true h addr (.buffer sd b o) →
    (h.transfer.wordCount = 1 → h.transfer.enables = 0xF) → (s.side sd).inForce = some a →
    ((s.side sd).ring.buf b).state = .filling → (s.side sd).frameProfile = some profile →
    ∃ t,
      let x := s.side sd
      let r := x.ring.buf b
      let p := a.profiles.get profile
      let tile := tileOf a.desc.geometry o
      let acc := x.glare.acc.getD tile { n := 0, lumaSum := 0, hot := 0, maximum := 0 }
      let out := outputWord p (x.glare.map.getD tile 256) (writeData h)
      let y := luma p (writeData h)
      exec .bufferWordWrite s = .next t ∧ (MemoryLaw s → Stored s.mem t.mem addr 0xF out) ∧
        t = setSide sd
          { x with
            ring := x.ring.setBuf b
              { r with count := min 16777215 (r.count + 1), signature := r.signature ^^^ out.rotateLeft (o % 32) }
            glare := { x.glare with
              acc := if (x.glare.acc.map (·.n)).sum < 16777215 then
                  x.glare.acc.set tile
                    { n := acc.n + 1
                      lumaSum := acc.lumaSum + y
                      hot := if x.glare.frameGt ≤ y then acc.hot + 1 else acc.hot
                      maximum := max acc.maximum y }
                else x.glare.acc } }
          { s with
            mem := t.mem
            inHand := some
              { handled h [] with
                frameDone := if o + 1 = a.desc.geometry.w * a.desc.geometry.h then some (sd, b) else h.frameDone }
            mct := { s.mct with banks := openedBanks s.mct.banks addr } }

/-- R75: a full-word write into the SHOWING buffer is absorbed: it changes nothing but the mark of its transfer, which keeps
the first such word's address for TEAR_WRITE. -/
def Obligations.ShowingBufferAbsorbsWrites : Prop :=
  ∀ s h addr sd b o a, NextWord s true h addr (.buffer sd b o) → (h.transfer.wordCount = 1 → h.transfer.enables = 0xF) →
    (s.side sd).inForce = some a → ((s.side sd).ring.buf b).state = .showing →
    exec .bufferWordWrite s = .next
      { s with
        inHand := some
          { handled h [] with
            tear := match h.tear with
              | some first => some first
              | none => some (sd, b, addr) } }

/-- R62: a partial write into a buffer word is absorbed in every state of the buffer, raises PARTIAL_WRITE with the word's
address, and clears VERIFIED if the buffer is FILLING. -/
def Obligations.PartialBufferWriteIsAbsorbed : Prop :=
  ∀ s h addr sd b o a, NextWord s true h addr (.buffer sd b o) → h.transfer.wordCount = 1 → h.transfer.enables ≠ 0xF →
    (s.side sd).inForce = some a →
    (let r := (s.side sd).ring.buf b
     let u := modBuf sd b (fun r => if r.state = .filling then { r with verified := false } else r)
       (raiseSide sd .partialWrite (some (r.seq, b)) (toWord addr) s)
     exec .bufferWordWrite s = .next { u with inHand := some (handled h []) })

/-! ## Completion of a frame, and the glare update -/

/-- R77, R78, R82, R83: a completion checks the length, makes the buffer READY, moves the equal run, raises FROZEN at its
limit, updates the glare state, reloads the watchdog, and takes a waiting set last. -/
def Obligations.FrameCompletionRunsItsSteps : Prop :=
  ∀ s sd b a, (s.side sd).inForce = some a → ((s.side sd).ring.buf b).state = .filling →
    ((s.side sd).takeWaiting = false →
      let x := s.side sd
      let r := x.ring.buf b
      let whole := r.count = a.desc.geometry.w * a.desc.geometry.h
      let verified := r.verified = true ∧ whole
      let equal := x.ring.lastVerified = some r.signature
      let run := if verified then (if equal then min 255 (x.ring.equalRun + 1) else 0) else x.ring.equalRun
      let mark := if verified ∧ ¬equal then false else x.ring.frozenMark
      let frozen := verified ∧ a.desc.frozenRun - 1 ≤ run ∧ mark = false
      let s1 := if whole then s else raiseSide sd .shortFrame (some (r.seq, b)) (toWord r.count) s
      let s2 := if frozen then raiseSide sd .frozen (some (r.seq, b)) r.signature s1 else s1
      completeFrame sd b s = setSide sd
        { s2.side sd with
          frameProfile := none
          ring := { x.ring.setBuf b
              { r with state := .ready, completionTime := s.timebase, verified := decide verified } with
            lastVerified := if verified then some r.signature else x.ring.lastVerified
            equalRun := run
            frozenMark := if frozen then true else mark }
          glare := completionUpdate a.desc (a.profiles.get r.profile) x.glare
          view := { (s2.side sd).view with
            watchdog := some { loadTime := s.timebase, duration := a.desc.intervalMax } } } s2) ∧
    ∀ acc, s.cau.accepted = some acc → (s.side sd).takeWaiting = true →
      completeFrame sd b s =
        updateLines (modSide sd (takeSet s.timebase (acc.forSide sd))
          (completeFrame sd b (modSide sd (fun x => { x with takeWaiting := false }) s)))

/-- R94, R95, R96, R97, R98: the completion update of the night state, the map and the tile summary. -/
def Obligations.GlareUpdateFollowsTheTables : Prop :=
  ∀ d p g, g.acc.length = 48 → g.map.length = 48 →
    (let t := completionUpdate d p g
     let mean := (g.acc.map (·.lumaSum)).sum / (g.acc.map (·.n)).sum
     let hot (i : Nat) : Prop := 0 < (g.accOf i).n ∧ p.hfOn ≤ (g.accOf i).hot * 256 / (g.accOf i).n
     t.acc = g.acc ∧ t.frameGt = g.frameGt ∧
       (g.night = .day → t.night = if mean < d.nEnter then .night else .day) ∧
       (g.night = .night → t.night = if d.nLeave < mean then .day else .night) ∧
       t.map.length = 48 ∧ t.summary.length = 48 ∧
       ∀ i, i < 48 → ∃ target,
         (t.night = .day → target = 256) ∧
         (t.night = .night → hot i → target = p.dmin) ∧
         (t.night = .night → ¬hot i → (∃ j, adjacent i j ∧ hot j) → target = (p.dmin + 256) / 2) ∧
         (t.night = .night → ¬hot i → (∀ j, adjacent i j → ¬hot j) → target = 256) ∧
         (∀ old, g.map[i]? = some old →
           t.map[i]? = some (if target < old then max target (old - d.stepDown)
             else if old < target then min target (old + d.stepUp) else old)) ∧
         ∃ m, t.summary[i]? = some m ∧ (m.hot = true ↔ hot i) ∧ m.code = (g.accOf i).maximum / 64)

/-! ## The end of a transfer -/

/-- R4, R19: when the last word of the burst order has been handled, the effects that wait for it are made (the model's
order, log 21), then COMPLETE is given with the words of a read, and the bus is free. R1: a request that waited is then an
arrival like any other; R18: the grant may be taken before it, a free choice (log 29). Status words of a read that are left
are answered first (the model's choice, log 12); while another word is left the end is not taken (log 3). -/
def Obligations.TransferEndCompletes : Prop :=
  (∀ s h, s.inHand = some h → h.transfer.write = false → h.handled ≤ h.transfer.wordCount →
    (∀ i, h.handled ≤ i → i < h.transfer.wordCount →
      ∃ o, classify h.snapshot (wordAddress h.transfer i) = .status o ∧ o ≠ 0xE00) →
    exec .transferEnd s = exec .transferEnd
      { s with
        inHand := some
          { h with
            handled := h.transfer.wordCount
            readData := h.readData ++ ((List.range h.transfer.wordCount).drop h.handled).map fun i =>
              statusWord s (wordAddress h.transfer i - h.snapshot.controlBase) } }) ∧
  (∀ s h i, s.inHand = some h → h.handled ≤ i → i < h.transfer.wordCount →
    (h.transfer.write = true ∨ ∀ o, classify h.snapshot (wordAddress h.transfer i) = .status o → o = 0xE00) →
    exec .transferEnd s = .next s) ∧
  ∀ s h, s.inHand = some h → h.transfer.wordCount ≤ h.handled →
    let s1 := match h.frameDone with
      | some (sd, b) => completeFrame sd b s
      | none => s
    let s2 := match h.scanDone with
      | some sd => completeScan sd s1
      | none => s1
    let s3 := if h.commit then commit s2 else s2
    let s4 := match h.protect with
      | some a => raiseDevice .protect (toWord a) s3
      | none => s3
    let s5 := match h.tear with
      | some (sd, b, a) => raiseSide sd .tearWrite (some (((s4.side sd).ring.buf b).seq, b)) (toWord a) s4
      | none => s4
    let done := { s5 with answers := [.complete h.readData], inHand := none, mct := { s5.mct with bus := .free } }
    (s.request = none → exec .transferEnd s = .next done) ∧
      ∀ r, s.request = some r → r.wellFormed = true →
        let free := { done with request := none, freeDraws := s.freeDraws + 1 }
        ∃ u t, (Config.grantBeforeRequest s.freeDraws = false → u = free) ∧
          (Config.grantBeforeRequest s.freeDraws = true → exec .grant free = .next u) ∧
          exec (.transferArrival r) u = .next t ∧
          exec .transferEnd s = .next { t with answers := .complete h.readData :: t.answers }


/-! ## Scans -/

/-- R116, R9: a buffer word that starts no scan and is no word of a scan in progress is served from memory at its own
address, unchanged, in any view state; nothing is counted or raised. -/
def Obligations.BufferReadOutsideScan : Prop :=
  ∀ s h addr sd b o a, NextWord s false h addr (.buffer sd b o) → (s.side sd).inForce = some a →
    (h.handled ≠ 0 ∨ o ≠ 0) → (∀ r, (s.side sd).scan.record = some r → r.complete = true ∨ r.buf ≠ b) →
    exec .bufferWordRead s = .next
      { s with
        inHand := some (handled h [Memory.readWord s.mem addr])
        mct := { s.mct with banks := openedBanks s.mct.banks addr } }

/-- R111, R112, R113, R114, R115: a word of the scan in progress is served by the view state of that moment, from the served
buffer or as the marker word, and counted. -/
def Obligations.ScanWordFollowsTheView : Prop :=
  ∀ s h addr sd b o a r, NextWord s false h addr (.buffer sd b o) → (s.side sd).inForce = some a →
    (h.handled ≠ 0 ∨ o ≠ 0) → (s.side sd).scan.record = some r → r.complete = false → r.buf = b →
    (s.side sd).view.state ≠ .off →
    exec .bufferWordRead s = .next (scanWordServed sd a.desc.geometry h r o s)

/-- R106, R107, R108, R109, R79: a read transfer whose first word is word 0 of a READY buffer starts a scan there: an open
scan ends unchecked, the buffer becomes SHOWING and the one that was becomes FREE, the latency is stored, a late frame
raises LATENCY, a timely, verified, not frozen one is a good scan, and the word is then served in the new view state. -/
def Obligations.ScanStartOnReadyShowsTheFrame : Prop :=
  ∀ s h addr sd b a, NextWord s false h addr (.buffer sd b 0) → h.handled = 0 → (s.side sd).inForce = some a →
    (s.side sd).view.state ≠ .off → ((s.side sd).ring.buf b).state = .ready →
    ∃ u ring,
      let x := s.side sd
      let r := x.ring.buf b
      let latency := s.timebase - r.captureTime
      let late := a.desc.latencyMax < latency.toNat
      let good := r.verified = true ∧ x.ring.equalRun < a.desc.frozenRun - 1
      let record : ScanRecord :=
        { buf := b
          redirect := none
          fillServed := false
          startTime := s.timebase
          wordsRead := 0
          signature := 0
          readLast := false
          complete := false }
      let s1 :=
        if late then raiseSide sd .latency (some (r.seq, b)) latency s
        else if good then goodScan sd s
        else s
      exec .bufferWordRead s = .next (scanWordServed sd a.desc.geometry h record 0 u) ∧
        u = setSide sd
          { s1.side sd with
            ring := ring
            scan := { record := some record, lastLatency := latency, unchecked := uncheckedAfterStart x.scan } } s1 ∧
        ring.buf b = { r with state := .showing } ∧
        (∀ c, c ≠ b → ring.buf c =
          if x.ring.showing = some c then { x.ring.buf c with state := .free } else x.ring.buf c) ∧
        ring.nextSeq = x.ring.nextSeq ∧ ring.dropped = x.ring.dropped ∧ ring.lastVerified = x.ring.lastVerified ∧
        ring.equalRun = x.ring.equalRun ∧ ring.frozenMark = x.ring.frozenMark

/-- R106, R107, R110: a scan start on a SHOWING buffer is a repeat; on a FILLING or FREE one it is redirected to the SHOWING
buffer in LIVE, MARKED and HOLDING, and raises TEAR_SCAN or STALE_SCAN in LIVE and MARKED, with the sequence of the frame
shown instead. No buffer changes its state, and no latency is measured. The word is then served in the view state of that
moment: with HOLD_MAX 0 the expiry of the hold timer may be taken before it, a free choice (R129, log 28). -/
def Obligations.ScanStartElsewhereRedirects : Prop :=
  ∀ s h addr sd b a, NextWord s false h addr (.buffer sd b 0) → h.handled = 0 → (s.side sd).inForce = some a →
    (s.side sd).view.state ≠ .off → ((s.side sd).ring.buf b).state ≠ .ready → ViewShown (s.side sd) →
    ∃ target u,
      let x := s.side sd
      let r := x.ring.buf b
      let shown := x.view.state = .live ∨ x.view.state = .marked ∨ x.view.state = .holding
      let record : ScanRecord :=
        { buf := b
          redirect := if r.state ≠ .showing ∧ shown then some target else none
          fillServed := false
          startTime := s.timebase
          wordsRead := 0
          signature := 0
          readLast := false
          complete := false }
      let s1 :=
        if x.view.state = .live ∨ x.view.state = .marked then
          if r.state = .filling then
            raiseSide sd .tearScan (some (r.seq, b)) (BitVec.ofNat 32 (x.ring.buf target).seq.toNat) s
          else if r.state = .free then
            raiseSide sd .staleScan (some (r.seq, b)) (BitVec.ofNat 32 (x.ring.buf target).seq.toNat) s
          else s
        else s
      let started := setSide sd
        { s1.side sd with
          scan := { x.scan with record := some record, unchecked := uncheckedAfterStart x.scan } } s1
      let torn := r.state ≠ .showing ∧ (x.view.state = .live ∨ x.view.state = .marked)
      let y := started.side sd
      (shown → (x.ring.buf target).state = .showing) ∧
        exec .bufferWordRead s = .next (scanWordServed sd a.desc.geometry h record 0 u) ∧
        u = if torn ∧ a.desc.holdMax = 0 then
            if Config.expiryBeforeFirstWord s.freeDraws then
              raiseSide sd .holdExpired (some ((x.ring.buf target).seq, target)) 0
                (setSide sd { y with view := { y.view with hold := none } } { started with freeDraws := s.freeDraws + 1 })
            else { started with freeDraws := s.freeDraws + 1 }
          else started

/-- R117: a scan that completes with W*H words read, none in FILL, and a VERIFIED served frame is compared, and a difference
raises READBACK with it; any other is counted as unchecked. The record is complete, and keeps its fields. -/
def Obligations.ScanCompletionChecksTheReadback : Prop :=
  ∀ s sd a r, (s.side sd).inForce = some a → (s.side sd).scan.record = some r → r.complete = false →
    let x := s.side sd
    let i := r.redirect.getD r.buf
    let frame := x.ring.buf i
    let done := { x.scan with record := some { r with complete := true } }
    let t := setSide sd { x with scan := done } s
    let checked :=
      r.wordsRead = a.desc.geometry.w * a.desc.geometry.h ∧ r.fillServed = false ∧ frame.verified = true
    (checked → r.signature = frame.signature → completeScan sd s = t) ∧
      (checked → r.signature ≠ frame.signature →
        completeScan sd s = raiseSide sd .readback (some (frame.seq, i)) (r.signature ^^^ frame.signature) t) ∧
      (¬checked →
        completeScan sd s = setSide sd { x with scan := { done with unchecked := min 65535 (x.scan.unchecked + 1) } } s)

/-! ## Configuration -/

/-- R40: a commit passes exactly when no condition of the table holds for the pending set. -/
def Obligations.CommitPassesExactlyWhenNoConditionHolds : Prop :=
  ∀ s,
    let ps := s.cau.pendingSet
    let ring := pendingDevice ps
    let l := (pendingDescriptor ps 0x40).geometry
    let r := (pendingDescriptor ps 0x80).geometry
    commitPasses s = true ↔
      (fieldWord ps 0 0).toNat = 2 ∧ Placed l ∧ Placed r ∧
        ([(l.base0, l.w * l.h * 4), (l.base1, l.w * l.h * 4), (l.base2, l.w * l.h * 4),
          (r.base0, r.w * r.h * 4), (r.base1, r.w * r.h * 4), (r.base2, r.w * r.h * 4),
          (controlBase s.cau.casel, 0x1000), (ring.ringBase, ring.ringCapacity * 16)] : List (Nat × Nat)).Pairwise Apart ∧
        ring.ringCapacity ∈ [16, 32, 64, 128, 256] ∧ ring.ringBase % 64 = 0 ∧
        ring.ringBase + ring.ringCapacity * 16 ≤ 0x4000000 ∧
        (∀ sd, (pendingDescriptor ps (descriptorOffset sd)).dayProfile ≤ 3 ∧
          (pendingDescriptor ps (descriptorOffset sd)).nightProfile ≤ 3) ∧
        (∀ sd a, (s.side sd).active = some a → a.desc.enabled = true →
          (pendingDescriptor ps (descriptorOffset sd)).enabled = true →
            a.desc.geometry = (pendingDescriptor ps (descriptorOffset sd)).geometry) ∧
        ¬(RingChanges s.cau.device ring ∧ ∃ d, s.cau.device = some d ∧ Unread s.flu d)

/-- R42, R33, R34, R161, R162: the accepted copy holds each field from its bits of the pending set, clamped by the table. -/
def Obligations.AcceptedSetIsClamped : Prop :=
  ∀ ps generation,
    let acc := acceptedFrom ps generation
    acc.generation = generation ∧
    (acc.device.ringBase = (fieldWord ps 0 2).toNat ∧ acc.device.ringCapacity = (fieldWord ps 0 3).toNat ∧
      acc.device.attentionMask = fieldWord ps 0 4 ∧ acc.device.markerColour = fieldWord ps 0 5 ∧
      Bounded 0 32 (fieldWord ps 0 6).toNat acc.device.borderWidth) ∧
    (∀ sd offset, offset = (match sd with
        | .left => 0x40
        | .right => 0x80) →
      let word := fieldWord ps offset
      let d := acc.descriptor sd
      d.enabled = (word 0).getLsbD 0 ∧
      d.geometry =
        { w := (word 1).toNat
          h := (word 2).toNat
          base0 := (word 3).toNat
          base1 := (word 4).toNat
          base2 := (word 5).toNat } ∧
      d.dayProfile = bits (word 6) 15 0 ∧ d.nightProfile = bits (word 6) 31 16 ∧
      Bounded 1000 200000 (word 7).toNat d.intervalMax ∧ Bounded 1000 100000 (word 8).toNat d.latencyMax ∧
      Bounded 0 2000000 (word 9).toNat d.holdMax ∧ Bounded 2 255 (bits (word 10) 15 0) d.frozenRun ∧
      Bounded 1 15 (bits (word 10) 31 16) d.recoverRun ∧
      (let enter := min 4095 (bits (word 11) 15 0)
       let leave := min 4095 (bits (word 11) 31 16)
       (enter < leave → d.nEnter = enter ∧ d.nLeave = leave) ∧
         (leave ≤ enter → enter < 4095 → d.nEnter = enter ∧ d.nLeave = enter + 1) ∧
         (leave ≤ enter → enter = 4095 → d.nEnter = 4094 ∧ d.nLeave = 4095)) ∧
      Bounded 1 256 (bits (word 12) 15 0) d.stepDown ∧ Bounded 1 256 (bits (word 12) 31 16) d.stepUp) ∧
    ∀ i, i < 4 →
      let word := fieldWord ps (0x100 + i * 0x40)
      let p := acc.profiles.get i
      p.bor = bits (word 0) 9 0 ∧ p.bog = bits (word 0) 19 10 ∧ p.bob = bits (word 0) 29 20 ∧
      p.gr = bits (word 1) 11 0 ∧ p.gg = bits (word 1) 27 16 ∧ p.gb = bits (word 2) 11 0 ∧
      Bounded 0 4095 (bits (word 3) 15 0) p.k ∧ Bounded 0 256 (bits (word 3) 31 16) p.dmin ∧
      Bounded 0 4095 (bits (word 4) 15 0) p.gt ∧ Bounded 0 256 (bits (word 4) 31 16) p.hfOn ∧
      p.tone.length = 33 ∧
      ∀ k, k < 33 → p.tone[k]? = some (bits (word (5 + k / 4)) (8 * (k % 4) + 7) (8 * (k % 4)))

/-- R43, R155, R35: a commit that passes is accepted: the clamped set and the device copy are in force with the commit word
as generation, the state is CONFIGURED, each side takes the set or waits, the lines follow; a changed ring starts empty
at the read index in use, a record write aimed at the old ring is withdrawn, and the head record presented again. -/
def Obligations.AcceptedCommitTakesEffect : Prop :=
  ∀ s, commitPasses s = true →
    ∃ u,
      let acc := acceptedFrom s.cau.pendingSet (fieldWord s.cau.pendingSet 0 1)
      LinesLaw u ∧
      u = { s with
        cau := { s.cau with config := .configured, accepted := some acc, device := some acc.device }
        left := takeOrWait s.timebase { generation := acc.generation, desc := acc.left, profiles := acc.profiles } s.left
        right := takeOrWait s.timebase { generation := acc.generation, desc := acc.right, profiles := acc.profiles } s.right
        faultLine := u.faultLine
        flu := { s.flu with writeIndex := u.flu.writeIndex, attn := u.flu.attn } } ∧
      (RingChanges s.cau.device acc.device →
        u.flu.writeIndex = (s.flu.readIndex.getD 0).toNat % acc.device.ringCapacity ∧
          commit s = presentHead
            { u with mct := { u.mct with queue := u.mct.queue.filter fun e => !e.access.isRecordWrite } }) ∧
      (¬RingChanges s.cau.device acc.device → u.flu.writeIndex = s.flu.writeIndex ∧ commit s = u)

/-- R41, R38, R37: a commit that fails raises CONFIG_REJECT with its generation, takes BOOT to UNCONFIGURED, and changes
nothing else. -/
def Obligations.RejectedCommitRaisesConfigReject : Prop :=
  ∀ s, commitPasses s = false →
    commit s = raiseDevice .configReject (fieldWord s.cau.pendingSet 0 1)
      { s with cau := { s.cau with config := if s.cau.config = .boot then .unconfigured else s.cau.config } }

/-- R44, R45, R131, R141: what a side does at an accepted commit, and what taking a set does to it. -/
def Obligations.SideTakesTheSet : Prop :=
  (∀ now a x,
    ((∃ b, (x.ring.buf b).state = .filling) → a.desc.enabled = true →
      takeOrWait now a x = { x with takeWaiting := true }) ∧
    ((∀ b, (x.ring.buf b).state ≠ .filling) ∨ a.desc.enabled = false → takeOrWait now a x = takeSet now a x)) ∧
  ∀ now a x,
    let was := ∃ old, x.active = some old ∧ old.desc.enabled = true
    (a.desc.enabled = false → ¬was → takeSet now a x = { x with active := some a, takeWaiting := false }) ∧
    (a.desc.enabled = true → was → takeSet now a x = { x with active := some a, takeWaiting := false }) ∧
    (a.desc.enabled = false → was →
      (takeSet now a x).active = some a ∧ SideReset { takeSet now a x with active := none }) ∧
    (a.desc.enabled = true → ¬was →
      (takeSet now a x).active = some a ∧
        (takeSet now a x).view =
          { state := .waiting
            watchdog := some { loadTime := now, duration := a.desc.intervalMax }
            hold := none
            recovery := 0 } ∧
        SideReset { takeSet now a x with active := none, view := .off })

/-! ## Timers, views and faults -/

/-- R126, R129: an expiry stops its timer and raises FRAME_LATE with the FILLING frame, or HOLD_EXPIRED with the SHOWING one;
the detail is the duration loaded. An expiry may be taken late (the model's choice, log 13). -/
def Obligations.TimersExpire : Prop :=
  (∀ s sd tm, (s.side sd).view.watchdog = some tm → tm.duration ≤ (s.timebase - tm.loadTime).toNat →
    let x := s.side sd
    exec (.watchdogExpiry sd) s = .next
      (raiseSide sd .frameLate (x.ring.filling.map fun b => ((x.ring.buf b).seq, b)) (BitVec.ofNat 32 tm.duration)
        (setSide sd { x with view := { x.view with watchdog := none } } s))) ∧
  (∀ s sd tm, (s.side sd).view.hold = some tm → tm.duration ≤ (s.timebase - tm.loadTime).toNat →
    let x := s.side sd
    exec (.holdTimerExpiry sd) s = .next
      (raiseSide sd .holdExpired (x.ring.showing.map fun b => ((x.ring.buf b).seq, b)) (BitVec.ofNat 32 tm.duration)
        (setSide sd { x with view := { x.view with hold := none } } s))) ∧
  ∀ (r : BufferRing) b, (r.filling = some b → (r.buf b).state = .filling) ∧ (r.showing = some b → (r.buf b).state = .showing) ∧
    (r.filling = none → (r.buf b).state ≠ .filling) ∧ (r.showing = none → (r.buf b).state ≠ .showing)

/-- R132, R133, R134, R135, R128: what a fault and a good scan do to a side's view state, hold timer and recovery run. -/
def Obligations.ViewFollowsFaultsAndGoodScans : Prop :=
  (∀ now k x, k.classA = false → faultSide now k x = x) ∧
  (∀ now k x a, k.classA = true → x.active = some a → ∃ new hold,
    faultSide now k x = { x with view := { x.view with state := new, hold := hold, recovery := 0 } } ∧
    (new = .holding → hold = if x.view.state = .holding then x.view.hold
      else some { loadTime := now, duration := a.desc.holdMax }) ∧
    (new ≠ .holding → hold = none) ∧
    ∀ cell ∈
      ([(.frameLate, .waiting, .lost), (.frameLate, .live, .holding), (.frameLate, .marked, .holding),
        (.frameLate, .holding, .holding), (.frameLate, .lost, .lost),
        (.latency, .waiting, .waiting), (.latency, .live, .marked), (.latency, .marked, .marked),
        (.latency, .holding, .holding), (.latency, .lost, .lost),
        (.tearScan, .live, .holding), (.tearScan, .marked, .holding),
        (.staleScan, .live, .holding), (.staleScan, .marked, .holding),
        (.frozen, .waiting, .lost), (.frozen, .live, .lost), (.frozen, .marked, .lost), (.frozen, .holding, .lost),
        (.frozen, .lost, .lost),
        (.readback, .live, .marked), (.readback, .marked, .marked), (.readback, .holding, .lost), (.readback, .lost, .lost),
        (.holdExpired, .holding, .lost)] : List (SideKind × ViewState × ViewState)),
      k = cell.1 → x.view.state = cell.2.1 → new = cell.2.2) ∧
  ∀ s sd a, (s.side sd).active = some a → ∃ t,
    let v := (s.side sd).view
    let run := v.recovery + 1
    goodScan sd s = t ∧ LinesLaw t ∧
      t = setSide sd
        { s.side sd with
          view :=
            match v.state with
            | .off => v
            | .waiting => { v with state := .live, recovery := 0 }
            | .live => v
            | .marked =>
              if a.desc.recoverRun ≤ run then { v with state := .live, recovery := 0 } else { v with recovery := run }
            | .holding => { v with state := .marked, hold := none, recovery := 0 }
            | .lost =>
              if a.desc.recoverRun ≤ run then { v with state := .marked, recovery := 0 } else { v with recovery := run } }
        { s with faultLine := t.faultLine, flu := { s.flu with attn := t.flu.attn } }

/-- R144, R145, R136, R150, R151: a raise of any kind but RECORD_DROPPED lets the side's view act first, adds 1 to its entry's
count up to 255, joins the record queue with the next sequence, or at a full queue is discarded and raises RECORD_DROPPED,
which makes no record, brings both lines up to date, and has the head record presented. -/
def Obligations.RaiseReachesTheFaultUnit : Prop :=
  ∀ s e frame detail i, entryOrder[i]? = some e → e ≠ .device .recordDropped → s.flu.entries.length = 25 →
    ∃ u v,
      let count (j : Nat) (l : List Nat) := l.set j (min 255 (l.getD j 0 + 1))
      let t := match e with
        | .device k => raiseDevice k detail s
        | .side sd k => raiseSide sd k frame detail s
      let moved := match e with
        | .device _ => s
        | .side sd k => setSide sd (faultSide s.timebase k (s.side sd)) s
      t = presentHead u ∧ LinesLaw u ∧
        u = { moved with faultLine := u.faultLine, flu := u.flu } ∧
        v = (match e with
          | .device _ => none
          | .side sd _ => some (u.side sd).view.state) ∧
        u.flu.readIndex = s.flu.readIndex ∧ u.flu.writeIndex = s.flu.writeIndex ∧
        (s.flu.queue.length < 8 →
          u.flu.entries = count i s.flu.entries ∧ u.flu.seq = s.flu.seq + 1 ∧
            u.flu.queue = s.flu.queue ++
              [{ seq := s.flu.seq
                 entry := e
                 time := s.timebase
                 frame := (match e with
                   | .device _ => none
                   | .side _ _ => frame)
                 view := v
                 detail := detail }]) ∧
        (8 ≤ s.flu.queue.length →
          u.flu.entries = count 24 (count i s.flu.entries) ∧ u.flu.seq = s.flu.seq ∧ u.flu.queue = s.flu.queue)

/-- R152, R153, R156, R166: the head record is presented, at the tail of the own-access queue, exactly when a ring exists, is
not full, and no record write is outstanding; and the four words of a record. -/
def Obligations.HeadRecordIsPresented : Prop :=
  (∀ s d r rest, s.cau.device = some d → s.flu.queue = r :: rest →
    ((s.flu.writeIndex + 1) % d.ringCapacity ≠ (s.flu.readIndex.getD 0).toNat % d.ringCapacity →
      ¬RecordOutstanding s.mct →
      presentHead s =
        { s with
          mct := { s.mct with
            queue := s.mct.queue ++
              [{ access := .recordWrite (d.ringBase + s.flu.writeIndex * 16) r.words, joinTime := s.timebase }] } }) ∧
    ((s.flu.writeIndex + 1) % d.ringCapacity = (s.flu.readIndex.getD 0).toNat % d.ringCapacity ∨ RecordOutstanding s.mct →
      presentHead s = s)) ∧
  (∀ s, s.cau.device = none ∨ s.flu.queue = [] → presentHead s = s) ∧
  ∀ r : FaultRecord, ∃ w0 w2, r.words = [w0, r.time, w2, r.detail] ∧
    bits w0 31 16 = r.seq.toNat ∧ bits w0 15 8 = r.entry.source ∧ bits w0 7 0 = r.entry.code ∧
    (∀ seq b, r.frame = some (seq, b) → bits w2 15 0 = seq.toNat ∧ bits w2 19 16 = b.val) ∧
    (r.frame = none → bits w2 15 0 = 0 ∧ bits w2 19 16 = 0xF) ∧
    (∀ v, r.view = some v → bits w2 27 24 = v.code) ∧ (r.view = none → bits w2 27 24 = 0xF) ∧
    bits w2 23 20 = 0 ∧ bits w2 31 28 = 0

/-! ## Laws that every step keeps -/

/-- After reset the state holds the values of R22, R47, R88, R103, R122, R142 and R158, and every law below holds (memory at
power-on is the model's choice, log 2, and so is RESET held then, log 5). -/
def Obligations.ResetStateMeetsTheLaws : Prop :=
  ResetValues State.reset ∧ State.reset.mem = [] ∧ State.reset.pending = [] ∧
    OfSides (fun x => RingLaw x ∧ FrameProfileLaw x ∧ ViewShown x ∧ RedirectLaw x ∧ OffLaw x ∧ HoldLaw x ∧ RunLaw x ∧
      CounterLaw x ∧ ProfileIndexLaw x ∧ GlareLaw x) State.reset ∧
    SettingsLaw State.reset ∧ LinesLaw State.reset ∧ FaultUnitLaw State.reset ∧ MemoryControllerLaw State.reset ∧
    StoreLaw State.reset

/-- R69, R49: every step keeps at most one FILLING and at most one SHOWING buffer a side, and the frame profile that of the
FILLING buffer. -/
def Obligations.RingLawsKept : Prop :=
  Kept (OfSides fun x => RingLaw x ∧ FrameProfileLaw x)

/-- R107, R130, R111: every step keeps a SHOWING buffer in LIVE, MARKED and HOLDING, and a redirect target SHOWING and not the
scan buffer; and under the first law no step stops: the model's one fault (log 17) is never reached. -/
def Obligations.ShownLawsKeptAndNoStepStops : Prop :=
  Kept (OfSides ViewShown) ∧ Kept (OfSides RedirectLaw) ∧ ∀ s, OfSides ViewShown s → ∃ t, step s = .next t

/-- R130, R131, R128, R133, R42: every step keeps a side in OFF exactly when no enabling set is in force, with its OFF values;
the hold timer running exactly in HOLDING; the accepted and active sets clamped; and with them the recovery run in 0..14,
and 0 outside MARKED and LOST. -/
def Obligations.ViewLawsKept : Prop :=
  Kept (OfSides OffLaw) ∧ Kept (OfSides HoldLaw) ∧ Kept SettingsLaw ∧ Kept fun s => SettingsLaw s ∧ OfSides RunLaw s

/-- R67, R68, R89, R97, R98, R105: every step keeps the counters, the accumulators, the dimming map and the summary in their
ranges, and every buffer record's profile index in 0..3, under clamped settings. -/
def Obligations.RangeLawsKept : Prop :=
  Kept (OfSides CounterLaw) ∧ (Kept fun s => SettingsLaw s ∧ OfSides ProfileIndexLaw s) ∧
    Kept fun s => SettingsLaw s ∧ OfSides GlareLaw s

/-- R139, R150: every step keeps FAULT and ATTN as their conditions stand. -/
def Obligations.LinesLawKept : Prop := Kept LinesLaw

/-- R145, R151: every step keeps 25 counts in 0..255, at most 8 records, and their sequences in order. -/
def Obligations.FaultUnitLawKept : Prop := Kept FaultUnitLaw

/-- R12, R13: every step keeps the refresh-owed count at most 8 and the four banks closed or open on a row; and frame memory
keeps its canonical form. -/
def Obligations.MemoryControllerLawKept : Prop := Kept MemoryControllerLaw ∧ Kept MemoryLaw

/-- R24, R31, R6, R15, R19, R35, R46, R152, R153: every step keeps the pending set equal to frame memory at each loaded offset,
with the laws of the transfer path, of the regions and of the record write that this rests on. Among them is that the bus is
free while RESET is held, the model's choice (log 20). -/
def Obligations.PendingSetMirrorsMemory : Prop := Kept StoreLaw

/-- R75, R79: no step changes a byte of a SHOWING buffer of a side in force. -/
def Obligations.ShowingBufferIsNeverWritten : Prop :=
  ∀ s t sd a b, StoreLaw s → step s = .next t → (s.side sd).inForce = some a → ((s.side sd).ring.buf b).state = .showing →
    ∀ x, inRegion (a.desc.geometry.base b, a.desc.geometry.w * a.desc.geometry.h * 4) x →
      Memory.readByte t.mem x = Memory.readByte s.mem x

end Statements
end

