-- ==== Sys2Proof/Laws/Configure.lean ====
section
/-! SUPPORT. The commit check as propositions, and the ranges of clamped fields. -/

namespace Sys2Proof.Machine

open Sys2Proof.Safety

/-! ## The commit check (R40) -/

theorem shareByte_eq_false_iff (r q : Nat × Nat) : shareByte r q = false ↔ Apart r q := by
  unfold shareByte Apart inRegion
  rw [decide_eq_false_iff_not]
  constructor
  · intro h x hx; apply h; omega
  · intro h hx
    exact h (max r.1 q.1) (by omega)

theorem allDisjoint_iff (l : List (Nat × Nat)) : allDisjoint l = true ↔ l.Pairwise Apart := by
  induction l with
  | nil => simp [allDisjoint]
  | cons r rs ih =>
    rw [allDisjoint, List.pairwise_cons, Bool.and_eq_true, ih, List.all_eq_true]
    simp [shareByte_eq_false_iff]

theorem geometryOk_iff (g : Geometry) : geometryOk g = true ↔ Placed g := by
  unfold geometryOk Placed bufferPlaced
  have each : (∀ b : Fin 3, g.base b % 64 = 0 ∧ g.base b + g.w * g.h * 4 ≤ 0x4000000) ↔
      (g.base0 % 64 = 0 ∧ g.base0 + g.w * g.h * 4 ≤ 0x4000000) ∧
        (g.base1 % 64 = 0 ∧ g.base1 + g.w * g.h * 4 ≤ 0x4000000) ∧
        (g.base2 % 64 = 0 ∧ g.base2 + g.w * g.h * 4 ≤ 0x4000000) := by
    constructor
    · intro h; exact ⟨h 0, h 1, h 2⟩
    · rintro ⟨h0, h1, h2⟩ b
      match b with
      | 0 => exact h0
      | 1 => exact h1
      | 2 => exact h2
  rw [each]
  simp only [and_assoc, Bool.and_eq_true, decide_eq_true_eq, beq_iff_eq]
  rfl

theorem ringOk_iff (d : DeviceCopy) :
    ringOk d = true ↔ d.ringCapacity ∈ [16, 32, 64, 128, 256] ∧ d.ringBase % 64 = 0 ∧
      d.ringBase + d.ringCapacity * 16 ≤ 0x4000000 := by
  unfold ringOk
  rw [Bool.and_eq_true, Bool.and_eq_true, List.contains_iff_mem]
  simp only [and_assoc, decide_eq_true_eq, beq_iff_eq]
  rfl

theorem ringCapacity_pos {d : DeviceCopy} (h : ringOk d = true) : 0 < d.ringCapacity := by
  have := ((ringOk_iff d).mp h).1
  simp at this
  omega

theorem ringChanged_iff (old : Option DeviceCopy) (new : DeviceCopy) :
    ringChanged old new = true ↔ RingChanges old new := by
  unfold ringChanged RingChanges
  cases old <;> simp

theorem unreadRecords_iff (s : State) : s.unreadRecords = true ↔ ∃ d, s.cau.device = some d ∧ Unread s.flu d := by
  unfold State.unreadRecords Unread ringUnread readIndexInUse
  cases s.cau.device <;> simp

theorem geometryKept_iff (active : Option ActiveSet) (d : Descriptor) :
    geometryKept active d = true ↔
      ∀ a, active = some a → a.desc.enabled = true → d.enabled = true → a.desc.geometry = d.geometry := by
  unfold geometryKept
  cases active with
  | none => simp
  | some a =>
    simp only [Option.some.injEq, forall_eq']
    cases a.desc.enabled <;> cases d.enabled <;> simp

/-! ## Clamping (R42) -/

theorem clamp_bounded (lo hi n : Nat) (h : lo ≤ hi) : Bounded lo hi n (clamp lo hi n) := by
  unfold Bounded clamp; omega

theorem clamp_le (lo hi n : Nat) (h : lo ≤ hi) : lo ≤ clamp lo hi n ∧ clamp lo hi n ≤ hi := by unfold clamp; omega

theorem bits_le (w : Word) (hi lo : Nat) : bits w hi lo ≤ 2 ^ (hi + 1 - lo) - 1 := by
  have : bits w hi lo < 2 ^ (hi + 1 - lo) := Nat.mod_lt _ (by positivity)
  omega

theorem clampDescriptor_law (d : Descriptor) (h : profilesOk d = true) : DescriptorLaw (clampDescriptor d) := by
  refine ⟨by simpa [profilesOk, clampDescriptor] using h, clamp_le _ _ _ (by decide), clamp_le _ _ _ (by decide),
    (clamp_le _ _ _ (by decide)).2, clamp_le _ _ _ (by decide),
    clamp_le _ _ _ (by decide), ?_, clamp_le _ _ _ (by decide), clamp_le _ _ _ (by decide)⟩
  show (orderNight d.nEnter d.nLeave).1 < (orderNight d.nEnter d.nLeave).2 ∧ (orderNight d.nEnter d.nLeave).2 ≤ 4095
  have h1 := clamp_le 0 4095 d.nEnter (by decide)
  have h2 := clamp_le 0 4095 d.nLeave (by decide)
  unfold orderNight
  dsimp only
  split
  · exact ⟨by assumption, h2.2⟩
  · split <;> omega

/-- Which part of a descriptor clamping leaves. -/
theorem clampDescriptor_leaves (d : Descriptor) :
    (clampDescriptor d).enabled = d.enabled ∧ (clampDescriptor d).geometry = d.geometry ∧
      (clampDescriptor d).dayProfile = d.dayProfile ∧ (clampDescriptor d).nightProfile = d.nightProfile :=
  ⟨rfl, rfl, rfl, rfl⟩

/-- A profile read from the pending set and clamped is in range (R34, R42). -/
theorem clampProfile_law (ps : List Word) (n : Nat) : ProfileLaw (clampProfile (pendingProfile ps n)) := by
  refine ⟨⟨bits_le _ _ _, bits_le _ _ _, bits_le _ _ _⟩, ⟨bits_le _ _ _, bits_le _ _ _, bits_le _ _ _⟩,
    (clamp_le _ _ _ (by decide)).2, (clamp_le _ _ _ (by decide)).2, (clamp_le _ _ _ (by decide)).2,
    (clamp_le _ _ _ (by decide)).2, by simp [clampProfile, pendingProfile], ?_⟩
  intro v hv
  simp only [clampProfile, pendingProfile, List.mem_map, List.mem_range] at hv
  obtain ⟨i, _, rfl⟩ := hv
  have := bits_le (wordAt ps (n + 4 * (5 + i / 4))) (8 * (i % 4) + 7) (8 * (i % 4))
  rw [show 8 * (i % 4) + 7 + 1 - 8 * (i % 4) = 8 by omega] at this
  exact this

/-- The accepted copy is clamped (R35, R42). -/
theorem acceptedFrom_law (ps : List Word) (g : Word)
    (h : ∀ sd, profilesOk (pendingDescriptor ps (descriptorOffset sd)) = true) :
    (acceptedFrom ps g).device.borderWidth ≤ 32 ∧ (∀ sd, DescriptorLaw ((acceptedFrom ps g).descriptor sd)) ∧
      ProfilesLaw (acceptedFrom ps g).profiles := by
  refine ⟨(clamp_le _ _ _ (by decide)).2, fun sd => by cases sd <;> exact clampDescriptor_law _ (h _), fun i => ?_⟩
  unfold Profiles.get acceptedFrom
  split <;> exact clampProfile_law _ _

/-- How a side's active set stands after it takes a set (R45). -/
theorem takeSet_active (now : Word) (a : ActiveSet) (x : SideState) :
    (takeSet now a x).active = some a ∧ (takeSet now a x).takeWaiting = false := by
  unfold takeSet
  (repeat' split) <;> exact ⟨rfl, rfl⟩

theorem inForce_some {x : SideState} {a : ActiveSet} (h : x.inForce = some a) : x.active = some a ∧ a.desc.enabled = true := by
  unfold SideState.inForce at h
  split at h
  · split at h
    · next e he => cases h; exact ⟨e, he⟩
    · cases h
  · cases h

end Sys2Proof.Machine
end

