-- ==== Sys2Proof/Laws/State.lean ====
section
/-! SUPPORT. What each shared operation leaves of the state: one lemma for each field an operation does not touch, so that
no later proof unfolds an operation to see that a field is kept. -/

namespace Sys2Proof.Machine

/-! ## openRow -/

@[simp] theorem openRow_pending (a : Nat) (s : State) :
    (openRow a s).pending = s.pending := rfl

@[simp] theorem openRow_resetHeld (a : Nat) (s : State) :
    (openRow a s).resetHeld = s.resetHeld := rfl

@[simp] theorem openRow_timebase (a : Nat) (s : State) :
    (openRow a s).timebase = s.timebase := rfl

@[simp] theorem openRow_inHand (a : Nat) (s : State) :
    (openRow a s).inHand = s.inHand := rfl

@[simp] theorem openRow_answers (a : Nat) (s : State) :
    (openRow a s).answers = s.answers := rfl

@[simp] theorem openRow_request (a : Nat) (s : State) :
    (openRow a s).request = s.request := rfl

@[simp] theorem openRow_cau (a : Nat) (s : State) :
    (openRow a s).cau = s.cau := rfl

@[simp] theorem openRow_left (a : Nat) (s : State) :
    (openRow a s).left = s.left := rfl

@[simp] theorem openRow_right (a : Nat) (s : State) :
    (openRow a s).right = s.right := rfl

@[simp] theorem openRow_faultLine (a : Nat) (s : State) :
    (openRow a s).faultLine = s.faultLine := rfl

@[simp] theorem openRow_flu (a : Nat) (s : State) :
    (openRow a s).flu = s.flu := rfl

@[simp] theorem openRow_mem (a : Nat) (s : State) :
    (openRow a s).mem = s.mem := rfl

@[simp] theorem openRow_freeDraws (a : Nat) (s : State) :
    (openRow a s).freeDraws = s.freeDraws := rfl

/-! ## storeWord -/

@[simp] theorem storeWord_pending (a : Nat) (be : BitVec 4) (w : Word) (s : State) :
    (storeWord a be w s).pending = s.pending := rfl

@[simp] theorem storeWord_resetHeld (a : Nat) (be : BitVec 4) (w : Word) (s : State) :
    (storeWord a be w s).resetHeld = s.resetHeld := rfl

@[simp] theorem storeWord_timebase (a : Nat) (be : BitVec 4) (w : Word) (s : State) :
    (storeWord a be w s).timebase = s.timebase := rfl

@[simp] theorem storeWord_inHand (a : Nat) (be : BitVec 4) (w : Word) (s : State) :
    (storeWord a be w s).inHand = s.inHand := rfl

@[simp] theorem storeWord_answers (a : Nat) (be : BitVec 4) (w : Word) (s : State) :
    (storeWord a be w s).answers = s.answers := rfl

@[simp] theorem storeWord_request (a : Nat) (be : BitVec 4) (w : Word) (s : State) :
    (storeWord a be w s).request = s.request := rfl

@[simp] theorem storeWord_cau (a : Nat) (be : BitVec 4) (w : Word) (s : State) :
    (storeWord a be w s).cau = s.cau := rfl

@[simp] theorem storeWord_left (a : Nat) (be : BitVec 4) (w : Word) (s : State) :
    (storeWord a be w s).left = s.left := rfl

@[simp] theorem storeWord_right (a : Nat) (be : BitVec 4) (w : Word) (s : State) :
    (storeWord a be w s).right = s.right := rfl

@[simp] theorem storeWord_faultLine (a : Nat) (be : BitVec 4) (w : Word) (s : State) :
    (storeWord a be w s).faultLine = s.faultLine := rfl

@[simp] theorem storeWord_flu (a : Nat) (be : BitVec 4) (w : Word) (s : State) :
    (storeWord a be w s).flu = s.flu := rfl

@[simp] theorem storeWord_freeDraws (a : Nat) (be : BitVec 4) (w : Word) (s : State) :
    (storeWord a be w s).freeDraws = s.freeDraws := rfl

/-! ## modInHand -/

@[simp] theorem modInHand_pending (f : InHand → InHand) (s : State) :
    (modInHand f s).pending = s.pending := rfl

@[simp] theorem modInHand_resetHeld (f : InHand → InHand) (s : State) :
    (modInHand f s).resetHeld = s.resetHeld := rfl

@[simp] theorem modInHand_timebase (f : InHand → InHand) (s : State) :
    (modInHand f s).timebase = s.timebase := rfl

@[simp] theorem modInHand_answers (f : InHand → InHand) (s : State) :
    (modInHand f s).answers = s.answers := rfl

@[simp] theorem modInHand_request (f : InHand → InHand) (s : State) :
    (modInHand f s).request = s.request := rfl

@[simp] theorem modInHand_mct (f : InHand → InHand) (s : State) :
    (modInHand f s).mct = s.mct := rfl

@[simp] theorem modInHand_cau (f : InHand → InHand) (s : State) :
    (modInHand f s).cau = s.cau := rfl

@[simp] theorem modInHand_left (f : InHand → InHand) (s : State) :
    (modInHand f s).left = s.left := rfl

@[simp] theorem modInHand_right (f : InHand → InHand) (s : State) :
    (modInHand f s).right = s.right := rfl

@[simp] theorem modInHand_faultLine (f : InHand → InHand) (s : State) :
    (modInHand f s).faultLine = s.faultLine := rfl

@[simp] theorem modInHand_flu (f : InHand → InHand) (s : State) :
    (modInHand f s).flu = s.flu := rfl

@[simp] theorem modInHand_mem (f : InHand → InHand) (s : State) :
    (modInHand f s).mem = s.mem := rfl

@[simp] theorem modInHand_freeDraws (f : InHand → InHand) (s : State) :
    (modInHand f s).freeDraws = s.freeDraws := rfl

/-! ## finishWord -/

@[simp] theorem finishWord_pending (d : List Word) (s : State) :
    (finishWord d s).pending = s.pending := rfl

@[simp] theorem finishWord_resetHeld (d : List Word) (s : State) :
    (finishWord d s).resetHeld = s.resetHeld := rfl

@[simp] theorem finishWord_timebase (d : List Word) (s : State) :
    (finishWord d s).timebase = s.timebase := rfl

@[simp] theorem finishWord_answers (d : List Word) (s : State) :
    (finishWord d s).answers = s.answers := rfl

@[simp] theorem finishWord_request (d : List Word) (s : State) :
    (finishWord d s).request = s.request := rfl

@[simp] theorem finishWord_mct (d : List Word) (s : State) :
    (finishWord d s).mct = s.mct := rfl

@[simp] theorem finishWord_cau (d : List Word) (s : State) :
    (finishWord d s).cau = s.cau := rfl

@[simp] theorem finishWord_left (d : List Word) (s : State) :
    (finishWord d s).left = s.left := rfl

@[simp] theorem finishWord_right (d : List Word) (s : State) :
    (finishWord d s).right = s.right := rfl

@[simp] theorem finishWord_faultLine (d : List Word) (s : State) :
    (finishWord d s).faultLine = s.faultLine := rfl

@[simp] theorem finishWord_flu (d : List Word) (s : State) :
    (finishWord d s).flu = s.flu := rfl

@[simp] theorem finishWord_mem (d : List Word) (s : State) :
    (finishWord d s).mem = s.mem := rfl

@[simp] theorem finishWord_freeDraws (d : List Word) (s : State) :
    (finishWord d s).freeDraws = s.freeDraws := rfl

/-! ## setSide -/

@[simp] theorem setSide_pending (sd : Side) (x : SideState) (s : State) :
    (setSide sd x s).pending = s.pending := by cases sd <;> rfl

@[simp] theorem setSide_resetHeld (sd : Side) (x : SideState) (s : State) :
    (setSide sd x s).resetHeld = s.resetHeld := by cases sd <;> rfl

@[simp] theorem setSide_timebase (sd : Side) (x : SideState) (s : State) :
    (setSide sd x s).timebase = s.timebase := by cases sd <;> rfl

@[simp] theorem setSide_inHand (sd : Side) (x : SideState) (s : State) :
    (setSide sd x s).inHand = s.inHand := by cases sd <;> rfl

@[simp] theorem setSide_answers (sd : Side) (x : SideState) (s : State) :
    (setSide sd x s).answers = s.answers := by cases sd <;> rfl

@[simp] theorem setSide_request (sd : Side) (x : SideState) (s : State) :
    (setSide sd x s).request = s.request := by cases sd <;> rfl

@[simp] theorem setSide_mct (sd : Side) (x : SideState) (s : State) :
    (setSide sd x s).mct = s.mct := by cases sd <;> rfl

@[simp] theorem setSide_cau (sd : Side) (x : SideState) (s : State) :
    (setSide sd x s).cau = s.cau := by cases sd <;> rfl

@[simp] theorem setSide_faultLine (sd : Side) (x : SideState) (s : State) :
    (setSide sd x s).faultLine = s.faultLine := by cases sd <;> rfl

@[simp] theorem setSide_flu (sd : Side) (x : SideState) (s : State) :
    (setSide sd x s).flu = s.flu := by cases sd <;> rfl

@[simp] theorem setSide_mem (sd : Side) (x : SideState) (s : State) :
    (setSide sd x s).mem = s.mem := by cases sd <;> rfl

@[simp] theorem setSide_freeDraws (sd : Side) (x : SideState) (s : State) :
    (setSide sd x s).freeDraws = s.freeDraws := by cases sd <;> rfl

/-! ## modSide -/

@[simp] theorem modSide_pending (sd : Side) (f : SideState → SideState) (s : State) :
    (modSide sd f s).pending = s.pending := by cases sd <;> rfl

@[simp] theorem modSide_resetHeld (sd : Side) (f : SideState → SideState) (s : State) :
    (modSide sd f s).resetHeld = s.resetHeld := by cases sd <;> rfl

@[simp] theorem modSide_timebase (sd : Side) (f : SideState → SideState) (s : State) :
    (modSide sd f s).timebase = s.timebase := by cases sd <;> rfl

@[simp] theorem modSide_inHand (sd : Side) (f : SideState → SideState) (s : State) :
    (modSide sd f s).inHand = s.inHand := by cases sd <;> rfl

@[simp] theorem modSide_answers (sd : Side) (f : SideState → SideState) (s : State) :
    (modSide sd f s).answers = s.answers := by cases sd <;> rfl

@[simp] theorem modSide_request (sd : Side) (f : SideState → SideState) (s : State) :
    (modSide sd f s).request = s.request := by cases sd <;> rfl

@[simp] theorem modSide_mct (sd : Side) (f : SideState → SideState) (s : State) :
    (modSide sd f s).mct = s.mct := by cases sd <;> rfl

@[simp] theorem modSide_cau (sd : Side) (f : SideState → SideState) (s : State) :
    (modSide sd f s).cau = s.cau := by cases sd <;> rfl

@[simp] theorem modSide_faultLine (sd : Side) (f : SideState → SideState) (s : State) :
    (modSide sd f s).faultLine = s.faultLine := by cases sd <;> rfl

@[simp] theorem modSide_flu (sd : Side) (f : SideState → SideState) (s : State) :
    (modSide sd f s).flu = s.flu := by cases sd <;> rfl

@[simp] theorem modSide_mem (sd : Side) (f : SideState → SideState) (s : State) :
    (modSide sd f s).mem = s.mem := by cases sd <;> rfl

@[simp] theorem modSide_freeDraws (sd : Side) (f : SideState → SideState) (s : State) :
    (modSide sd f s).freeDraws = s.freeDraws := by cases sd <;> rfl

/-! ## modRing -/

@[simp] theorem modRing_pending (sd : Side) (f : BufferRing → BufferRing) (s : State) :
    (modRing sd f s).pending = s.pending := by cases sd <;> rfl

@[simp] theorem modRing_resetHeld (sd : Side) (f : BufferRing → BufferRing) (s : State) :
    (modRing sd f s).resetHeld = s.resetHeld := by cases sd <;> rfl

@[simp] theorem modRing_timebase (sd : Side) (f : BufferRing → BufferRing) (s : State) :
    (modRing sd f s).timebase = s.timebase := by cases sd <;> rfl

@[simp] theorem modRing_inHand (sd : Side) (f : BufferRing → BufferRing) (s : State) :
    (modRing sd f s).inHand = s.inHand := by cases sd <;> rfl

@[simp] theorem modRing_answers (sd : Side) (f : BufferRing → BufferRing) (s : State) :
    (modRing sd f s).answers = s.answers := by cases sd <;> rfl

@[simp] theorem modRing_request (sd : Side) (f : BufferRing → BufferRing) (s : State) :
    (modRing sd f s).request = s.request := by cases sd <;> rfl

@[simp] theorem modRing_mct (sd : Side) (f : BufferRing → BufferRing) (s : State) :
    (modRing sd f s).mct = s.mct := by cases sd <;> rfl

@[simp] theorem modRing_cau (sd : Side) (f : BufferRing → BufferRing) (s : State) :
    (modRing sd f s).cau = s.cau := by cases sd <;> rfl

@[simp] theorem modRing_faultLine (sd : Side) (f : BufferRing → BufferRing) (s : State) :
    (modRing sd f s).faultLine = s.faultLine := by cases sd <;> rfl

@[simp] theorem modRing_flu (sd : Side) (f : BufferRing → BufferRing) (s : State) :
    (modRing sd f s).flu = s.flu := by cases sd <;> rfl

@[simp] theorem modRing_mem (sd : Side) (f : BufferRing → BufferRing) (s : State) :
    (modRing sd f s).mem = s.mem := by cases sd <;> rfl

@[simp] theorem modRing_freeDraws (sd : Side) (f : BufferRing → BufferRing) (s : State) :
    (modRing sd f s).freeDraws = s.freeDraws := by cases sd <;> rfl

/-! ## modBuf -/

@[simp] theorem modBuf_pending (sd : Side) (b : Fin 3) (f : BufRecord → BufRecord) (s : State) :
    (modBuf sd b f s).pending = s.pending := by cases sd <;> rfl

@[simp] theorem modBuf_resetHeld (sd : Side) (b : Fin 3) (f : BufRecord → BufRecord) (s : State) :
    (modBuf sd b f s).resetHeld = s.resetHeld := by cases sd <;> rfl

@[simp] theorem modBuf_timebase (sd : Side) (b : Fin 3) (f : BufRecord → BufRecord) (s : State) :
    (modBuf sd b f s).timebase = s.timebase := by cases sd <;> rfl

@[simp] theorem modBuf_inHand (sd : Side) (b : Fin 3) (f : BufRecord → BufRecord) (s : State) :
    (modBuf sd b f s).inHand = s.inHand := by cases sd <;> rfl

@[simp] theorem modBuf_answers (sd : Side) (b : Fin 3) (f : BufRecord → BufRecord) (s : State) :
    (modBuf sd b f s).answers = s.answers := by cases sd <;> rfl

@[simp] theorem modBuf_request (sd : Side) (b : Fin 3) (f : BufRecord → BufRecord) (s : State) :
    (modBuf sd b f s).request = s.request := by cases sd <;> rfl

@[simp] theorem modBuf_mct (sd : Side) (b : Fin 3) (f : BufRecord → BufRecord) (s : State) :
    (modBuf sd b f s).mct = s.mct := by cases sd <;> rfl

@[simp] theorem modBuf_cau (sd : Side) (b : Fin 3) (f : BufRecord → BufRecord) (s : State) :
    (modBuf sd b f s).cau = s.cau := by cases sd <;> rfl

@[simp] theorem modBuf_faultLine (sd : Side) (b : Fin 3) (f : BufRecord → BufRecord) (s : State) :
    (modBuf sd b f s).faultLine = s.faultLine := by cases sd <;> rfl

@[simp] theorem modBuf_flu (sd : Side) (b : Fin 3) (f : BufRecord → BufRecord) (s : State) :
    (modBuf sd b f s).flu = s.flu := by cases sd <;> rfl

@[simp] theorem modBuf_mem (sd : Side) (b : Fin 3) (f : BufRecord → BufRecord) (s : State) :
    (modBuf sd b f s).mem = s.mem := by cases sd <;> rfl

@[simp] theorem modBuf_freeDraws (sd : Side) (b : Fin 3) (f : BufRecord → BufRecord) (s : State) :
    (modBuf sd b f s).freeDraws = s.freeDraws := by cases sd <;> rfl

/-! ## modView -/

@[simp] theorem modView_pending (sd : Side) (f : View → View) (s : State) :
    (modView sd f s).pending = s.pending := by cases sd <;> rfl

@[simp] theorem modView_resetHeld (sd : Side) (f : View → View) (s : State) :
    (modView sd f s).resetHeld = s.resetHeld := by cases sd <;> rfl

@[simp] theorem modView_timebase (sd : Side) (f : View → View) (s : State) :
    (modView sd f s).timebase = s.timebase := by cases sd <;> rfl

@[simp] theorem modView_inHand (sd : Side) (f : View → View) (s : State) :
    (modView sd f s).inHand = s.inHand := by cases sd <;> rfl

@[simp] theorem modView_answers (sd : Side) (f : View → View) (s : State) :
    (modView sd f s).answers = s.answers := by cases sd <;> rfl

@[simp] theorem modView_request (sd : Side) (f : View → View) (s : State) :
    (modView sd f s).request = s.request := by cases sd <;> rfl

@[simp] theorem modView_mct (sd : Side) (f : View → View) (s : State) :
    (modView sd f s).mct = s.mct := by cases sd <;> rfl

@[simp] theorem modView_cau (sd : Side) (f : View → View) (s : State) :
    (modView sd f s).cau = s.cau := by cases sd <;> rfl

@[simp] theorem modView_faultLine (sd : Side) (f : View → View) (s : State) :
    (modView sd f s).faultLine = s.faultLine := by cases sd <;> rfl

@[simp] theorem modView_flu (sd : Side) (f : View → View) (s : State) :
    (modView sd f s).flu = s.flu := by cases sd <;> rfl

@[simp] theorem modView_mem (sd : Side) (f : View → View) (s : State) :
    (modView sd f s).mem = s.mem := by cases sd <;> rfl

@[simp] theorem modView_freeDraws (sd : Side) (f : View → View) (s : State) :
    (modView sd f s).freeDraws = s.freeDraws := by cases sd <;> rfl

/-! ## updateLines -/

@[simp] theorem updateLines_pending (s : State) :
    (updateLines s).pending = s.pending := rfl

@[simp] theorem updateLines_resetHeld (s : State) :
    (updateLines s).resetHeld = s.resetHeld := rfl

@[simp] theorem updateLines_timebase (s : State) :
    (updateLines s).timebase = s.timebase := rfl

@[simp] theorem updateLines_inHand (s : State) :
    (updateLines s).inHand = s.inHand := rfl

@[simp] theorem updateLines_answers (s : State) :
    (updateLines s).answers = s.answers := rfl

@[simp] theorem updateLines_request (s : State) :
    (updateLines s).request = s.request := rfl

@[simp] theorem updateLines_mct (s : State) :
    (updateLines s).mct = s.mct := rfl

@[simp] theorem updateLines_cau (s : State) :
    (updateLines s).cau = s.cau := rfl

@[simp] theorem updateLines_left (s : State) :
    (updateLines s).left = s.left := rfl

@[simp] theorem updateLines_right (s : State) :
    (updateLines s).right = s.right := rfl

@[simp] theorem updateLines_mem (s : State) :
    (updateLines s).mem = s.mem := rfl

@[simp] theorem updateLines_freeDraws (s : State) :
    (updateLines s).freeDraws = s.freeDraws := rfl

/-! ## joinOwnQueue -/

@[simp] theorem joinOwnQueue_pending (a : OwnAccess) (s : State) :
    (joinOwnQueue a s).pending = s.pending := rfl

@[simp] theorem joinOwnQueue_resetHeld (a : OwnAccess) (s : State) :
    (joinOwnQueue a s).resetHeld = s.resetHeld := rfl

@[simp] theorem joinOwnQueue_timebase (a : OwnAccess) (s : State) :
    (joinOwnQueue a s).timebase = s.timebase := rfl

@[simp] theorem joinOwnQueue_inHand (a : OwnAccess) (s : State) :
    (joinOwnQueue a s).inHand = s.inHand := rfl

@[simp] theorem joinOwnQueue_answers (a : OwnAccess) (s : State) :
    (joinOwnQueue a s).answers = s.answers := rfl

@[simp] theorem joinOwnQueue_request (a : OwnAccess) (s : State) :
    (joinOwnQueue a s).request = s.request := rfl

@[simp] theorem joinOwnQueue_cau (a : OwnAccess) (s : State) :
    (joinOwnQueue a s).cau = s.cau := rfl

@[simp] theorem joinOwnQueue_left (a : OwnAccess) (s : State) :
    (joinOwnQueue a s).left = s.left := rfl

@[simp] theorem joinOwnQueue_right (a : OwnAccess) (s : State) :
    (joinOwnQueue a s).right = s.right := rfl

@[simp] theorem joinOwnQueue_faultLine (a : OwnAccess) (s : State) :
    (joinOwnQueue a s).faultLine = s.faultLine := rfl

@[simp] theorem joinOwnQueue_flu (a : OwnAccess) (s : State) :
    (joinOwnQueue a s).flu = s.flu := rfl

@[simp] theorem joinOwnQueue_mem (a : OwnAccess) (s : State) :
    (joinOwnQueue a s).mem = s.mem := rfl

@[simp] theorem joinOwnQueue_freeDraws (a : OwnAccess) (s : State) :
    (joinOwnQueue a s).freeDraws = s.freeDraws := rfl

/-! ## withdrawRecord -/

@[simp] theorem withdrawRecord_pending (s : State) :
    (withdrawRecord s).pending = s.pending := rfl

@[simp] theorem withdrawRecord_resetHeld (s : State) :
    (withdrawRecord s).resetHeld = s.resetHeld := rfl

@[simp] theorem withdrawRecord_timebase (s : State) :
    (withdrawRecord s).timebase = s.timebase := rfl

@[simp] theorem withdrawRecord_inHand (s : State) :
    (withdrawRecord s).inHand = s.inHand := rfl

@[simp] theorem withdrawRecord_answers (s : State) :
    (withdrawRecord s).answers = s.answers := rfl

@[simp] theorem withdrawRecord_request (s : State) :
    (withdrawRecord s).request = s.request := rfl

@[simp] theorem withdrawRecord_cau (s : State) :
    (withdrawRecord s).cau = s.cau := rfl

@[simp] theorem withdrawRecord_left (s : State) :
    (withdrawRecord s).left = s.left := rfl

@[simp] theorem withdrawRecord_right (s : State) :
    (withdrawRecord s).right = s.right := rfl

@[simp] theorem withdrawRecord_faultLine (s : State) :
    (withdrawRecord s).faultLine = s.faultLine := rfl

@[simp] theorem withdrawRecord_flu (s : State) :
    (withdrawRecord s).flu = s.flu := rfl

@[simp] theorem withdrawRecord_mem (s : State) :
    (withdrawRecord s).mem = s.mem := rfl

@[simp] theorem withdrawRecord_freeDraws (s : State) :
    (withdrawRecord s).freeDraws = s.freeDraws := rfl

/-! ## presentHead -/

@[simp] theorem presentHead_pending (s : State) :
    (presentHead s).pending = s.pending := by unfold presentHead; (repeat' split) <;> rfl

@[simp] theorem presentHead_resetHeld (s : State) :
    (presentHead s).resetHeld = s.resetHeld := by unfold presentHead; (repeat' split) <;> rfl

@[simp] theorem presentHead_timebase (s : State) :
    (presentHead s).timebase = s.timebase := by unfold presentHead; (repeat' split) <;> rfl

@[simp] theorem presentHead_inHand (s : State) :
    (presentHead s).inHand = s.inHand := by unfold presentHead; (repeat' split) <;> rfl

@[simp] theorem presentHead_answers (s : State) :
    (presentHead s).answers = s.answers := by unfold presentHead; (repeat' split) <;> rfl

@[simp] theorem presentHead_request (s : State) :
    (presentHead s).request = s.request := by unfold presentHead; (repeat' split) <;> rfl

@[simp] theorem presentHead_cau (s : State) :
    (presentHead s).cau = s.cau := by unfold presentHead; (repeat' split) <;> rfl

@[simp] theorem presentHead_left (s : State) :
    (presentHead s).left = s.left := by unfold presentHead; (repeat' split) <;> rfl

@[simp] theorem presentHead_right (s : State) :
    (presentHead s).right = s.right := by unfold presentHead; (repeat' split) <;> rfl

@[simp] theorem presentHead_faultLine (s : State) :
    (presentHead s).faultLine = s.faultLine := by unfold presentHead; (repeat' split) <;> rfl

@[simp] theorem presentHead_flu (s : State) :
    (presentHead s).flu = s.flu := by unfold presentHead; (repeat' split) <;> rfl

@[simp] theorem presentHead_mem (s : State) :
    (presentHead s).mem = s.mem := by unfold presentHead; (repeat' split) <;> rfl

@[simp] theorem presentHead_freeDraws (s : State) :
    (presentHead s).freeDraws = s.freeDraws := by unfold presentHead; (repeat' split) <;> rfl

/-! ## viewFault -/

@[simp] theorem viewFault_pending (sd : Side) (k : SideKind) (s : State) :
    (viewFault sd k s).pending = s.pending := by simp [viewFault]

@[simp] theorem viewFault_resetHeld (sd : Side) (k : SideKind) (s : State) :
    (viewFault sd k s).resetHeld = s.resetHeld := by simp [viewFault]

@[simp] theorem viewFault_timebase (sd : Side) (k : SideKind) (s : State) :
    (viewFault sd k s).timebase = s.timebase := by simp [viewFault]

@[simp] theorem viewFault_inHand (sd : Side) (k : SideKind) (s : State) :
    (viewFault sd k s).inHand = s.inHand := by simp [viewFault]

@[simp] theorem viewFault_answers (sd : Side) (k : SideKind) (s : State) :
    (viewFault sd k s).answers = s.answers := by simp [viewFault]

@[simp] theorem viewFault_request (sd : Side) (k : SideKind) (s : State) :
    (viewFault sd k s).request = s.request := by simp [viewFault]

@[simp] theorem viewFault_mct (sd : Side) (k : SideKind) (s : State) :
    (viewFault sd k s).mct = s.mct := by simp [viewFault]

@[simp] theorem viewFault_cau (sd : Side) (k : SideKind) (s : State) :
    (viewFault sd k s).cau = s.cau := by simp [viewFault]

@[simp] theorem viewFault_faultLine (sd : Side) (k : SideKind) (s : State) :
    (viewFault sd k s).faultLine = s.faultLine := by simp [viewFault]

@[simp] theorem viewFault_flu (sd : Side) (k : SideKind) (s : State) :
    (viewFault sd k s).flu = s.flu := by simp [viewFault]

@[simp] theorem viewFault_mem (sd : Side) (k : SideKind) (s : State) :
    (viewFault sd k s).mem = s.mem := by simp [viewFault]

@[simp] theorem viewFault_freeDraws (sd : Side) (k : SideKind) (s : State) :
    (viewFault sd k s).freeDraws = s.freeDraws := by simp [viewFault]

/-! ## fluRaise -/

@[simp] theorem fluRaise_pending (e : FaultEntry) (f : Option (BitVec 16 × Fin 3)) (v : Option ViewState) (d : Word) (s : State) :
    (fluRaise e f v d s).pending = s.pending := by simp [fluRaise]

@[simp] theorem fluRaise_resetHeld (e : FaultEntry) (f : Option (BitVec 16 × Fin 3)) (v : Option ViewState) (d : Word) (s : State) :
    (fluRaise e f v d s).resetHeld = s.resetHeld := by simp [fluRaise]

@[simp] theorem fluRaise_timebase (e : FaultEntry) (f : Option (BitVec 16 × Fin 3)) (v : Option ViewState) (d : Word) (s : State) :
    (fluRaise e f v d s).timebase = s.timebase := by simp [fluRaise]

@[simp] theorem fluRaise_inHand (e : FaultEntry) (f : Option (BitVec 16 × Fin 3)) (v : Option ViewState) (d : Word) (s : State) :
    (fluRaise e f v d s).inHand = s.inHand := by simp [fluRaise]

@[simp] theorem fluRaise_answers (e : FaultEntry) (f : Option (BitVec 16 × Fin 3)) (v : Option ViewState) (d : Word) (s : State) :
    (fluRaise e f v d s).answers = s.answers := by simp [fluRaise]

@[simp] theorem fluRaise_request (e : FaultEntry) (f : Option (BitVec 16 × Fin 3)) (v : Option ViewState) (d : Word) (s : State) :
    (fluRaise e f v d s).request = s.request := by simp [fluRaise]

@[simp] theorem fluRaise_cau (e : FaultEntry) (f : Option (BitVec 16 × Fin 3)) (v : Option ViewState) (d : Word) (s : State) :
    (fluRaise e f v d s).cau = s.cau := by simp [fluRaise]

@[simp] theorem fluRaise_left (e : FaultEntry) (f : Option (BitVec 16 × Fin 3)) (v : Option ViewState) (d : Word) (s : State) :
    (fluRaise e f v d s).left = s.left := by simp [fluRaise]

@[simp] theorem fluRaise_right (e : FaultEntry) (f : Option (BitVec 16 × Fin 3)) (v : Option ViewState) (d : Word) (s : State) :
    (fluRaise e f v d s).right = s.right := by simp [fluRaise]

@[simp] theorem fluRaise_mem (e : FaultEntry) (f : Option (BitVec 16 × Fin 3)) (v : Option ViewState) (d : Word) (s : State) :
    (fluRaise e f v d s).mem = s.mem := by simp [fluRaise]

@[simp] theorem fluRaise_freeDraws (e : FaultEntry) (f : Option (BitVec 16 × Fin 3)) (v : Option ViewState) (d : Word) (s : State) :
    (fluRaise e f v d s).freeDraws = s.freeDraws := by simp [fluRaise]

/-! ## raiseSide -/

@[simp] theorem raiseSide_pending (sd : Side) (k : SideKind) (f : Option (BitVec 16 × Fin 3)) (d : Word) (s : State) :
    (raiseSide sd k f d s).pending = s.pending := by simp [raiseSide]

@[simp] theorem raiseSide_resetHeld (sd : Side) (k : SideKind) (f : Option (BitVec 16 × Fin 3)) (d : Word) (s : State) :
    (raiseSide sd k f d s).resetHeld = s.resetHeld := by simp [raiseSide]

@[simp] theorem raiseSide_timebase (sd : Side) (k : SideKind) (f : Option (BitVec 16 × Fin 3)) (d : Word) (s : State) :
    (raiseSide sd k f d s).timebase = s.timebase := by simp [raiseSide]

@[simp] theorem raiseSide_inHand (sd : Side) (k : SideKind) (f : Option (BitVec 16 × Fin 3)) (d : Word) (s : State) :
    (raiseSide sd k f d s).inHand = s.inHand := by simp [raiseSide]

@[simp] theorem raiseSide_answers (sd : Side) (k : SideKind) (f : Option (BitVec 16 × Fin 3)) (d : Word) (s : State) :
    (raiseSide sd k f d s).answers = s.answers := by simp [raiseSide]

@[simp] theorem raiseSide_request (sd : Side) (k : SideKind) (f : Option (BitVec 16 × Fin 3)) (d : Word) (s : State) :
    (raiseSide sd k f d s).request = s.request := by simp [raiseSide]

@[simp] theorem raiseSide_cau (sd : Side) (k : SideKind) (f : Option (BitVec 16 × Fin 3)) (d : Word) (s : State) :
    (raiseSide sd k f d s).cau = s.cau := by simp [raiseSide]

@[simp] theorem raiseSide_mem (sd : Side) (k : SideKind) (f : Option (BitVec 16 × Fin 3)) (d : Word) (s : State) :
    (raiseSide sd k f d s).mem = s.mem := by simp [raiseSide]

@[simp] theorem raiseSide_freeDraws (sd : Side) (k : SideKind) (f : Option (BitVec 16 × Fin 3)) (d : Word) (s : State) :
    (raiseSide sd k f d s).freeDraws = s.freeDraws := by simp [raiseSide]

/-! ## raiseDevice -/

@[simp] theorem raiseDevice_pending (k : DeviceKind) (d : Word) (s : State) :
    (raiseDevice k d s).pending = s.pending := by simp [raiseDevice]

@[simp] theorem raiseDevice_resetHeld (k : DeviceKind) (d : Word) (s : State) :
    (raiseDevice k d s).resetHeld = s.resetHeld := by simp [raiseDevice]

@[simp] theorem raiseDevice_timebase (k : DeviceKind) (d : Word) (s : State) :
    (raiseDevice k d s).timebase = s.timebase := by simp [raiseDevice]

@[simp] theorem raiseDevice_inHand (k : DeviceKind) (d : Word) (s : State) :
    (raiseDevice k d s).inHand = s.inHand := by simp [raiseDevice]

@[simp] theorem raiseDevice_answers (k : DeviceKind) (d : Word) (s : State) :
    (raiseDevice k d s).answers = s.answers := by simp [raiseDevice]

@[simp] theorem raiseDevice_request (k : DeviceKind) (d : Word) (s : State) :
    (raiseDevice k d s).request = s.request := by simp [raiseDevice]

@[simp] theorem raiseDevice_cau (k : DeviceKind) (d : Word) (s : State) :
    (raiseDevice k d s).cau = s.cau := by simp [raiseDevice]

@[simp] theorem raiseDevice_left (k : DeviceKind) (d : Word) (s : State) :
    (raiseDevice k d s).left = s.left := by simp [raiseDevice]

@[simp] theorem raiseDevice_right (k : DeviceKind) (d : Word) (s : State) :
    (raiseDevice k d s).right = s.right := by simp [raiseDevice]

@[simp] theorem raiseDevice_mem (k : DeviceKind) (d : Word) (s : State) :
    (raiseDevice k d s).mem = s.mem := by simp [raiseDevice]

@[simp] theorem raiseDevice_freeDraws (k : DeviceKind) (d : Word) (s : State) :
    (raiseDevice k d s).freeDraws = s.freeDraws := by simp [raiseDevice]

/-! ## goodScan -/

@[simp] theorem goodScan_pending (sd : Side) (s : State) :
    (goodScan sd s).pending = s.pending := by simp [goodScan]

@[simp] theorem goodScan_resetHeld (sd : Side) (s : State) :
    (goodScan sd s).resetHeld = s.resetHeld := by simp [goodScan]

@[simp] theorem goodScan_timebase (sd : Side) (s : State) :
    (goodScan sd s).timebase = s.timebase := by simp [goodScan]

@[simp] theorem goodScan_inHand (sd : Side) (s : State) :
    (goodScan sd s).inHand = s.inHand := by simp [goodScan]

@[simp] theorem goodScan_answers (sd : Side) (s : State) :
    (goodScan sd s).answers = s.answers := by simp [goodScan]

@[simp] theorem goodScan_request (sd : Side) (s : State) :
    (goodScan sd s).request = s.request := by simp [goodScan]

@[simp] theorem goodScan_mct (sd : Side) (s : State) :
    (goodScan sd s).mct = s.mct := by simp [goodScan]

@[simp] theorem goodScan_cau (sd : Side) (s : State) :
    (goodScan sd s).cau = s.cau := by simp [goodScan]

@[simp] theorem goodScan_mem (sd : Side) (s : State) :
    (goodScan sd s).mem = s.mem := by simp [goodScan]

@[simp] theorem goodScan_freeDraws (sd : Side) (s : State) :
    (goodScan sd s).freeDraws = s.freeDraws := by simp [goodScan]

/-! ## Sides -/

@[simp] theorem side_setSide (sd sd' : Side) (x : SideState) (s : State) :
    (setSide sd x s).side sd' = if sd' = sd then x else s.side sd' := by
  cases sd <;> cases sd' <;> rfl

@[simp] theorem side_modSide (sd sd' : Side) (f : SideState → SideState) (s : State) :
    (modSide sd f s).side sd' = if sd' = sd then f (s.side sd) else s.side sd' := by
  simp [modSide]

@[simp] theorem side_modRing (sd sd' : Side) (f : BufferRing → BufferRing) (s : State) :
    (modRing sd f s).side sd' =
      if sd' = sd then { s.side sd with ring := f (s.side sd).ring } else s.side sd' := by
  simp [modRing]

@[simp] theorem side_modBuf (sd sd' : Side) (b : Fin 3) (f : BufRecord → BufRecord) (s : State) :
    (modBuf sd b f s).side sd' =
      if sd' = sd then { s.side sd with ring := (s.side sd).ring.setBuf b (f ((s.side sd).ring.buf b)) }
      else s.side sd' := by
  simp [modBuf]

@[simp] theorem side_modView (sd sd' : Side) (f : View → View) (s : State) :
    (modView sd f s).side sd' =
      if sd' = sd then { s.side sd with view := f (s.side sd).view } else s.side sd' := by
  simp [modView]

@[simp] theorem side_viewFault (sd sd' : Side) (k : SideKind) (s : State) :
    (viewFault sd k s).side sd' = if sd' = sd then faultSide s.timebase k (s.side sd) else s.side sd' := by
  simp [viewFault]

/-- The sides are seen through their two fields. -/
theorem side_congr {s t : State} (hl : t.left = s.left) (hr : t.right = s.right) (sd : Side) : t.side sd = s.side sd := by
  cases sd
  · exact hl
  · exact hr

@[simp] theorem side_openRow (a : Nat) (s : State) (sd' : Side) :
    (openRow a s).side sd' = s.side sd' := side_congr (by simp) (by simp) sd'

@[simp] theorem side_storeWord (a : Nat) (be : BitVec 4) (w : Word) (s : State) (sd' : Side) :
    (storeWord a be w s).side sd' = s.side sd' := side_congr (by simp) (by simp) sd'

@[simp] theorem side_modInHand (f : InHand → InHand) (s : State) (sd' : Side) :
    (modInHand f s).side sd' = s.side sd' := side_congr (by simp) (by simp) sd'

@[simp] theorem side_finishWord (d : List Word) (s : State) (sd' : Side) :
    (finishWord d s).side sd' = s.side sd' := side_congr (by simp) (by simp) sd'

@[simp] theorem side_updateLines (s : State) (sd' : Side) :
    (updateLines s).side sd' = s.side sd' := side_congr (by simp) (by simp) sd'

@[simp] theorem side_joinOwnQueue (a : OwnAccess) (s : State) (sd' : Side) :
    (joinOwnQueue a s).side sd' = s.side sd' := side_congr (by simp) (by simp) sd'

@[simp] theorem side_withdrawRecord (s : State) (sd' : Side) :
    (withdrawRecord s).side sd' = s.side sd' := side_congr (by simp) (by simp) sd'

@[simp] theorem side_presentHead (s : State) (sd' : Side) :
    (presentHead s).side sd' = s.side sd' := side_congr (by simp) (by simp) sd'

@[simp] theorem side_fluRaise (e : FaultEntry) (f : Option (BitVec 16 × Fin 3)) (v : Option ViewState) (d : Word) (s : State) (sd' : Side) :
    (fluRaise e f v d s).side sd' = s.side sd' := side_congr (by simp) (by simp) sd'

@[simp] theorem side_raiseDevice (k : DeviceKind) (d : Word) (s : State) (sd' : Side) :
    (raiseDevice k d s).side sd' = s.side sd' := side_congr (by simp) (by simp) sd'

@[simp] theorem side_raiseSide (sd sd' : Side) (k : SideKind) (f : Option (BitVec 16 × Fin 3)) (d : Word) (s : State) :
    (raiseSide sd k f d s).side sd' = if sd' = sd then faultSide s.timebase k (s.side sd) else s.side sd' := by
  simp [raiseSide]

@[simp] theorem side_goodScan (sd sd' : Side) (s : State) :
    (goodScan sd s).side sd' = if sd' = sd then goodScanSide (s.side sd) else s.side sd' := by
  simp [goodScan]

/-! ## The buffers of a ring -/

@[simp] theorem buf_setBuf (r : BufferRing) (b c : Fin 3) (x : BufRecord) :
    (r.setBuf b x).buf c = if c = b then x else r.buf c := by
  match b, c with
  | 0, 0 | 0, 1 | 0, 2 | 1, 0 | 1, 1 | 1, 2 | 2, 0 | 2, 1 | 2, 2 => rfl

@[simp] theorem setBuf_nextSeq (r : BufferRing) (b : Fin 3) (x : BufRecord) : (r.setBuf b x).nextSeq = r.nextSeq := by
  match b with
  | 0 | 1 | 2 => rfl

@[simp] theorem setBuf_lastVerified (r : BufferRing) (b : Fin 3) (x : BufRecord) : (r.setBuf b x).lastVerified = r.lastVerified := by
  match b with
  | 0 | 1 | 2 => rfl

@[simp] theorem setBuf_equalRun (r : BufferRing) (b : Fin 3) (x : BufRecord) : (r.setBuf b x).equalRun = r.equalRun := by
  match b with
  | 0 | 1 | 2 => rfl

@[simp] theorem setBuf_frozenMark (r : BufferRing) (b : Fin 3) (x : BufRecord) : (r.setBuf b x).frozenMark = r.frozenMark := by
  match b with
  | 0 | 1 | 2 => rfl

@[simp] theorem setBuf_dropped (r : BufferRing) (b : Fin 3) (x : BufRecord) : (r.setBuf b x).dropped = r.dropped := by
  match b with
  | 0 | 1 | 2 => rfl

/-! ## The parts of the bus and of the fault unit that a raise keeps -/

@[simp] theorem presentHead_bus (s : State) : (presentHead s).mct.bus = s.mct.bus := by unfold presentHead; (repeat' split) <;> rfl

@[simp] theorem presentHead_banks (s : State) : (presentHead s).mct.banks = s.mct.banks := by unfold presentHead; (repeat' split) <;> rfl

@[simp] theorem presentHead_refreshOwed (s : State) : (presentHead s).mct.refreshOwed = s.mct.refreshOwed := by unfold presentHead; (repeat' split) <;> rfl

@[simp] theorem presentHead_intervalRunning (s : State) : (presentHead s).mct.intervalRunning = s.mct.intervalRunning := by unfold presentHead; (repeat' split) <;> rfl

@[simp] theorem fluRaise_bus (e : FaultEntry) (f : Option (BitVec 16 × Fin 3)) (v : Option ViewState) (d : Word) (s : State) : (fluRaise e f v d s).mct.bus = s.mct.bus := by simp [fluRaise]

@[simp] theorem fluRaise_banks (e : FaultEntry) (f : Option (BitVec 16 × Fin 3)) (v : Option ViewState) (d : Word) (s : State) : (fluRaise e f v d s).mct.banks = s.mct.banks := by simp [fluRaise]

@[simp] theorem fluRaise_refreshOwed (e : FaultEntry) (f : Option (BitVec 16 × Fin 3)) (v : Option ViewState) (d : Word) (s : State) : (fluRaise e f v d s).mct.refreshOwed = s.mct.refreshOwed := by simp [fluRaise]

@[simp] theorem fluRaise_intervalRunning (e : FaultEntry) (f : Option (BitVec 16 × Fin 3)) (v : Option ViewState) (d : Word) (s : State) : (fluRaise e f v d s).mct.intervalRunning = s.mct.intervalRunning := by simp [fluRaise]

@[simp] theorem raiseSide_bus (sd : Side) (k : SideKind) (f : Option (BitVec 16 × Fin 3)) (d : Word) (s : State) : (raiseSide sd k f d s).mct.bus = s.mct.bus := by simp [raiseSide]

@[simp] theorem raiseSide_banks (sd : Side) (k : SideKind) (f : Option (BitVec 16 × Fin 3)) (d : Word) (s : State) : (raiseSide sd k f d s).mct.banks = s.mct.banks := by simp [raiseSide]

@[simp] theorem raiseSide_refreshOwed (sd : Side) (k : SideKind) (f : Option (BitVec 16 × Fin 3)) (d : Word) (s : State) : (raiseSide sd k f d s).mct.refreshOwed = s.mct.refreshOwed := by simp [raiseSide]

@[simp] theorem raiseSide_intervalRunning (sd : Side) (k : SideKind) (f : Option (BitVec 16 × Fin 3)) (d : Word) (s : State) : (raiseSide sd k f d s).mct.intervalRunning = s.mct.intervalRunning := by simp [raiseSide]

@[simp] theorem raiseDevice_bus (k : DeviceKind) (d : Word) (s : State) : (raiseDevice k d s).mct.bus = s.mct.bus := by simp [raiseDevice]

@[simp] theorem raiseDevice_banks (k : DeviceKind) (d : Word) (s : State) : (raiseDevice k d s).mct.banks = s.mct.banks := by simp [raiseDevice]

@[simp] theorem raiseDevice_refreshOwed (k : DeviceKind) (d : Word) (s : State) : (raiseDevice k d s).mct.refreshOwed = s.mct.refreshOwed := by simp [raiseDevice]

@[simp] theorem raiseDevice_intervalRunning (k : DeviceKind) (d : Word) (s : State) : (raiseDevice k d s).mct.intervalRunning = s.mct.intervalRunning := by simp [raiseDevice]

@[simp] theorem joinRecordQueue_writeIndex (r : FaultRecord) (f : Flu) :
    (joinRecordQueue r f).writeIndex = f.writeIndex := by
  unfold joinRecordQueue; split <;> rfl

@[simp] theorem joinRecordQueue_readIndex (r : FaultRecord) (f : Flu) :
    (joinRecordQueue r f).readIndex = f.readIndex := by
  unfold joinRecordQueue; split <;> rfl

@[simp] theorem fluRaise_writeIndex (e : FaultEntry) (f : Option (BitVec 16 × Fin 3)) (v : Option ViewState) (d : Word)
    (s : State) : (fluRaise e f v d s).flu.writeIndex = s.flu.writeIndex := by
  simp [fluRaise, updateLines]

@[simp] theorem fluRaise_readIndex (e : FaultEntry) (f : Option (BitVec 16 × Fin 3)) (v : Option ViewState) (d : Word)
    (s : State) : (fluRaise e f v d s).flu.readIndex = s.flu.readIndex := by
  simp [fluRaise, updateLines]

end Sys2Proof.Machine
end

