-- ==== Sys2Proof/Laws/Raise.lean ====
section
/-! SUPPORT. A raise said as one update of the state: which fields it writes, from which fields, so that a raise and a
change of another field can be put in either order. -/

namespace Sys2Proof.Machine

/-- The Memory Controller after the FLU has looked at its three conditions (R152). -/
def presentedMct (device : Option DeviceCopy) (f : Flu) (now : Word) (m : Mct) : Mct :=
  match device, f.queue with
  | some d, r :: _ =>
    if ringFull f d || recordWriteOutstanding m then m
    else { m with queue := m.queue ++ [{ access := .recordWrite (recordSlot d f) r.words, joinTime := now }] }
  | _, _ => m

theorem presentHead_eq (s : State) :
    presentHead s = { s with mct := presentedMct s.cau.device s.flu s.timebase s.mct } := by
  unfold presentHead presentedMct
  cases s.cau.device with
  | none => rfl
  | some d =>
    cases s.flu.queue with
    | nil => rfl
    | cons r rest =>
      simp only
      split <;> rfl

/-- The Fault Unit after a raise (R144, R145, R150, R151). -/
def raisedFlu (e : FaultEntry) (frame : Option (BitVec 16 × Fin 3)) (view : Option ViewState) (detail now mask : Word)
    (f : Flu) : Flu :=
  let g := joinRecordQueue { seq := 0, entry := e, time := now, frame := frame, view := view, detail := detail }
    { f with entries := countRaise e f.entries }
  { g with attn := anyEnabledPending mask g.entries }

theorem fluRaise_eq (e : FaultEntry) (frame : Option (BitVec 16 × Fin 3)) (view : Option ViewState) (detail : Word)
    (s : State) :
    fluRaise e frame view detail s =
      { s with
        faultLine := s.faultCondition
        flu := raisedFlu e frame view detail s.timebase s.maskInForce s.flu
        mct := presentedMct s.cau.device (raisedFlu e frame view detail s.timebase s.maskInForce s.flu) s.timebase s.mct } := by
  unfold fluRaise
  rw [presentHead_eq]
  rfl

/-- A class B fault leaves its side as it is (R135). -/
theorem raiseSide_of_classB (sd : Side) {k : SideKind} (hk : k.classA = false) (frame : Option (BitVec 16 × Fin 3))
    (detail : Word) (s : State) :
    raiseSide sd k frame detail s = fluRaise (.side sd k) frame (some (s.side sd).view.state) detail s := by
  have : viewFault sd k s = s := by
    unfold viewFault modSide faultSide
    rw [hk]
    cases sd <;> rfl
  unfold raiseSide
  rw [this]

/-- A change of a side that keeps its view state keeps the condition of the FAULT line (R139). -/
theorem faultCondition_setSide (sd : Side) (x : SideState) (s : State) (h : x.view.state = (s.side sd).view.state) :
    (setSide sd x s).faultCondition = s.faultCondition := by
  cases sd <;> simp_all [State.faultCondition, setSide, State.side]

/-- A raise and a change of a side that keeps its view state come in either order. -/
theorem fluRaise_setSide (e : FaultEntry) (frame : Option (BitVec 16 × Fin 3)) (view : Option ViewState) (detail : Word)
    (sd : Side) (x : SideState) (s : State) (h : x.view.state = (s.side sd).view.state) :
    fluRaise e frame view detail (setSide sd x s) = setSide sd x (fluRaise e frame view detail s) := by
  rw [fluRaise_eq, fluRaise_eq, faultCondition_setSide sd x s h]
  cases sd <;> rfl

/-- A class B raise and a change of its side that keeps the view come in either order. -/
theorem raiseSide_setSide (sd : Side) {k : SideKind} (hk : k.classA = false) (frame : Option (BitVec 16 × Fin 3))
    (detail : Word) (x : SideState) (s : State) (h : x.view.state = (s.side sd).view.state) :
    raiseSide sd k frame detail (setSide sd x s) = setSide sd x (raiseSide sd k frame detail s) := by
  rw [raiseSide_of_classB sd hk, raiseSide_of_classB sd hk, fluRaise_setSide _ _ _ _ sd x s h]
  simp [h]

theorem setSide_setSide (sd : Side) (x y : SideState) (s : State) : setSide sd y (setSide sd x s) = setSide sd y s := by
  cases sd <;> rfl

theorem setSide_self (sd : Side) (s : State) : setSide sd (s.side sd) s = s := by cases sd <;> rfl

theorem find_spec {r : BufferRing} {st : BufState} {b : Fin 3} (h : r.find st = some b) : (r.buf b).state = st := by
  unfold BufferRing.find at h
  split at h
  · next h0 => cases h; exact h0
  · split at h
    · next h1 => cases h; exact h1
    · split at h
      · next h2 => cases h; exact h2
      · cases h

theorem find_none {r : BufferRing} {st : BufState} (h : r.find st = none) (b : Fin 3) : (r.buf b).state ≠ st := by
  unfold BufferRing.find at h
  split at h
  · cases h
  · split at h
    · cases h
    · split at h
      · cases h
      · match b with
        | 0 => assumption
        | 1 => assumption
        | 2 => assumption

/-- A raise and a change of its side that keeps the view and the active set come in either order. -/
theorem raiseSide_setSide_of_view (sd : Side) (k : SideKind) (frame : Option (BitVec 16 × Fin 3)) (detail : Word)
    (x : SideState) (s : State) (hv : x.view = (s.side sd).view) (ha : x.active = (s.side sd).active) :
    raiseSide sd k frame detail (setSide sd x s) =
      setSide sd { x with view := (faultSide s.timebase k (s.side sd)).view } (raiseSide sd k frame detail s) := by
  have hvf : viewFault sd k (setSide sd x s) =
      setSide sd { x with view := (faultSide s.timebase k (s.side sd)).view } (viewFault sd k s) := by
    unfold viewFault modSide
    rw [setSide_setSide, setSide_setSide]
    simp only [side_setSide, if_true, setSide_timebase]
    congr 1
    cases k <;> simp [faultSide, SideKind.classA, hv, SideState.holdMax, ha] <;> (cases x; simp_all)
  unfold raiseSide
  rw [hvf, fluRaise_setSide]
  · congr 1
    simp
  · simp

/-- A good-scan notice and a change of its side that keeps the view and the active set come in either order. -/
theorem goodScan_setSide_of_view (sd : Side) (x : SideState) (s : State) (hv : x.view = (s.side sd).view)
    (ha : x.active = (s.side sd).active) :
    goodScan sd (setSide sd x s) = setSide sd { x with view := (goodScanSide (s.side sd)).view } (goodScan sd s) := by
  have hvf : modSide sd goodScanSide (setSide sd x s) =
      setSide sd { x with view := (goodScanSide (s.side sd)).view } (modSide sd goodScanSide s) := by
    unfold modSide
    rw [setSide_setSide, setSide_setSide]
    simp only [side_setSide, if_true]
    congr 1
    simp [goodScanSide, hv, SideState.recoverRun, ha]
  unfold goodScan
  rw [hvf]
  unfold updateLines
  rw [faultCondition_setSide]
  · cases sd <;> rfl
  · simp [modSide]

theorem raiseSide_side_self (sd : Side) (k : SideKind) (frame : Option (BitVec 16 × Fin 3)) (detail : Word) (s : State) :
    (raiseSide sd k frame detail s).side sd =
      { s.side sd with view := (faultSide s.timebase k (s.side sd)).view } := by
  have := raiseSide_setSide_of_view sd k frame detail (s.side sd) s rfl rfl
  rw [setSide_self] at this
  rw [this]; simp

theorem goodScan_side_self (sd : Side) (s : State) :
    (goodScan sd s).side sd = { s.side sd with view := (goodScanSide (s.side sd)).view } := by
  have := goodScan_setSide_of_view sd (s.side sd) s rfl rfl
  rw [setSide_self] at this
  rw [this]; simp

/-- An entry stands at its place in the priority order (R146). -/
theorem place_of_entryOrder {e : FaultEntry} {i : Nat} (h : entryOrder[i]? = some e) : e.place = i := by
  have hi : i < 25 := (List.getElem?_eq_some_iff.mp h).1
  have all : ∀ i : Fin 25, ∀ e, entryOrder[i.val]? = some e → e.place = i.val := by decide +kernel
  exact all ⟨i, hi⟩ e h

end Sys2Proof.Machine
end

