-- ==== Sys2Proof/Laws/Side.lean ====
section
/-! SUPPORT. Everything a step can do to a side, said once: `exec_side` shows that each command moves a side by the moves
of `SideMove`, so that an invariant of a side is proved move by move. -/

namespace Sys2Proof.Machine

/-- The side's part of a cut: the other FILLING buffer becomes FREE with CUT set (R72). -/
def cutOtherSide (b : Fin 3) (x : SideState) : SideState :=
  match x.ring.filling with
  | some c => if c = b then x else { x with ring := x.ring.setBuf c (cutRecord (x.ring.buf c)) }
  | none => x

/-- The side's part of step 4 of a scan start on a READY buffer (R108, R109). -/
def judgeReadySide (now : Word) (a : ActiveSet) (b : Fin 3) (x : SideState) : SideState :=
  let latency := latencyOf now b x
  let y := { x with scan := { x.scan with lastLatency := latency } }
  if a.desc.latencyMax < latency.toNat then faultSide now .latency y
  else if freshFrame a b x then goodScanSide y
  else y

/-- The side's part of step 4 of a scan start (R106). -/
def judgeSide (now : Word) (a : ActiveSet) (b : Fin 3) (st : BufState) (x : SideState) : SideState :=
  if st = .ready then judgeReadySide now a b x
  else
    match scanStartFault st x.view.state with
    | some k => faultSide now k x
    | none => x

/-- The side's part of a scan start (R106). -/
def scanStartSide (now : Word) (a : ActiveSet) (b : Fin 3) (x : SideState) : SideState :=
  let y := judgeSide now a b (x.ring.buf b).state (noticeSide b x)
  { y with scan := { y.scan with record := some (newScanRecord b (scanRedirect b x) now) } }

/-- The moves of a side. `offered` says which active sets a side may take. -/
inductive SideMove (offered : ActiveSet → Prop) (now : Word) : SideState → SideState → Prop where
  | reset (x) : SideMove offered now x (.off none)
  | take (x a) (h : offered a) : SideMove offered now x (takeSet now a x)
  | wait (x a) (hf : x.ring.filling.isSome = true) (h : offered a) (he : a.desc.enabled = true) :
      SideMove offered now x { x with takeWaiting := true }
  | frameStart (x a b) (h : x.inForce = some a) (hb : (x.ring.buf b).state = .free ∨ (x.ring.buf b).state = .ready) :
      SideMove offered now x (startSide now a b (cutOtherSide b x))
  | continueFrame (x a b o w) (h : x.inForce = some a) (hb : (x.ring.buf b).state = .filling) :
      SideMove offered now x (continueSide a b o w x)
  | partialWrite (x a b) (h : x.inForce = some a) :
      SideMove offered now x { x with ring := x.ring.setBuf b (partialRecord (x.ring.buf b)) }
  | scanStart (x a b) (h : x.inForce = some a) : SideMove offered now x (scanStartSide now a b x)
  | serve (x r r') (h : x.scan.record = some r) (hb : r'.buf = r.buf) (hr : r'.redirect = r.redirect)
      (hw : r'.wordsRead = r.wordsRead ∨ r'.wordsRead ≤ Config.wordCountMax) :
      SideMove offered now x { x with scan := { x.scan with record := some r' } }
  | unchecked (x a) (h : x.inForce = some a) : SideMove offered now x { x with scan := countUnchecked x.scan }
  | fault (x k) : SideMove offered now x (faultSide now k x)
  | watchdogStop (x) : SideMove offered now x { x with view := { x.view with watchdog := none } }
  | holdExpiry (x t) (h : x.view.hold = some t) :
      SideMove offered now x (faultSide now .holdExpired { x with view := { x.view with hold := none } })
  | lengthFail (x a b) (h : x.inForce = some a) :
      SideMove offered now x { x with ring := x.ring.setBuf b { x.ring.buf b with verified := false } }
  | ready (x a b) (h : x.inForce = some a) (hb : (x.ring.buf b).state = .filling) :
      SideMove offered now x (readySide now b x)
  | run (x a sig) (h : x.inForce = some a) : SideMove offered now x { x with ring := stepRun sig x.ring }
  | markFrozen (x a) (h : x.inForce = some a) :
      SideMove offered now x { x with ring := { x.ring with frozenMark := true } }
  | glare (x a b) (h : x.inForce = some a) : SideMove offered now x (updateGlare a b x)
  | reload (x a) (h : x.inForce = some a) : SideMove offered now x { x with view := reloadWatchdog now a x.view }

/-- Any number of moves. -/
abbrev SideMoves (offered : ActiveSet → Prop) (now : Word) : SideState → SideState → Prop :=
  Relation.ReflTransGen (SideMove offered now)

/-- The active set that a side would take from a pending set whose profile indices pass the commit check (R40, R45). -/
def FromCommit (a : ActiveSet) : Prop :=
  ∃ ps g sd, profilesOk (pendingDescriptor ps (descriptorOffset sd)) = true ∧ a = (acceptedFrom ps g).forSide sd

/-- The active sets that a step at a state can offer a side: from a commit that passes, or from the accepted set in force. -/
def Offered (s : State) (a : ActiveSet) : Prop :=
  FromCommit a ∨ ∃ acc sd, s.cau.accepted = some acc ∧ a = acc.forSide sd

/-- Every side moves by the moves of a side. -/
def SidesMove (offered : ActiveSet → Prop) (now : Word) (s t : State) : Prop :=
  ∀ sd, SideMoves offered now (s.side sd) (t.side sd)

theorem SidesMove.refl {O : ActiveSet → Prop} {now : Word} {s t : State} (h : ∀ sd, t.side sd = s.side sd) : SidesMove O now s t :=
  fun sd => h sd ▸ .refl

theorem SidesMove.trans {O : ActiveSet → Prop} {now : Word} {s t u : State} (h : SidesMove O now s t) (h' : SidesMove O now t u) :
    SidesMove O now s u := fun sd => (h sd).trans (h' sd)

/-- One side makes one move. -/
theorem SidesMove.one {O : ActiveSet → Prop} {now : Word} {s t : State} (sd : Side) (y : SideState)
    (h : ∀ sd', t.side sd' = if sd' = sd then y else s.side sd') (m : SideMove O now (s.side sd) y) : SidesMove O now s t := by
  intro sd'
  rw [h sd']
  split
  · next e => exact e ▸ .single m
  · exact .refl

/-- A side's moves while the state changes by a side-wise function. -/
theorem SidesMove.modSide {O : ActiveSet → Prop} {now : Word} (sd : Side) (f : SideState → SideState) (s : State)
    (m : SideMove O now (s.side sd) (f (s.side sd))) : SidesMove O now s (modSide sd f s) :=
  .one sd _ (fun sd' => by simp) m

/-! ## Ingest -/

theorem frameStart_side (sd : Side) (a : ActiveSet) (b : Fin 3) (s : State) (sd' : Side) :
    (frameStart sd a b s).side sd' =
      if sd' = sd then startSide s.timebase a b (cutOtherSide b (s.side sd)) else s.side sd' := by
  unfold frameStart cutOther cutOtherSide
  cases hf : (s.side sd).ring.filling with
  | none => simp
  | some c =>
    by_cases hc : c = b
    · simp [hc]
    · by_cases h : sd' = sd <;> simp [cutFrame, faultSide, SideKind.classA, h, hc]

/-- After a frame start the buffer is FILLING. -/
theorem startSide_state (now : Word) (a : ActiveSet) (b : Fin 3) (x : SideState) :
    ((startSide now a b x).ring.buf b).state = .filling := by
  match b with
  | 0 | 1 | 2 => rfl

theorem startSide_inForce (now : Word) (a : ActiveSet) (b : Fin 3) (x : SideState) :
    (startSide now a b x).inForce = x.inForce := rfl

theorem cutOtherSide_inForce (b : Fin 3) (x : SideState) : (cutOtherSide b x).inForce = x.inForce := by
  unfold cutOtherSide
  (repeat' split) <;> rfl

@[simp] theorem markFrameDone_side (sd : Side) (a : ActiveSet) (b : Fin 3) (o : Nat) (s : State) (sd' : Side) :
    (markFrameDone sd a b o s).side sd' = s.side sd' := by
  unfold markFrameDone
  split <;> simp

theorem continueFrame_side (sd : Side) (a : ActiveSet) (b : Fin 3) (o addr : Nat) (w : Word) (s : State) (sd' : Side) :
    (continueFrame sd a b o addr w s).side sd' =
      if sd' = sd then continueSide a b o w (s.side sd) else s.side sd' := by
  simp [continueFrame]

@[simp] theorem frameStart_timebase (sd : Side) (a : ActiveSet) (b : Fin 3) (s : State) :
    (frameStart sd a b s).timebase = s.timebase := by
  unfold frameStart cutOther cutFrame
  (repeat' split) <;> simp

theorem fullWrite_moves {O : ActiveSet → Prop} (sd : Side) (a : ActiveSet) (b : Fin 3) (o addr : Nat) (w : Word) (s : State)
    (h : (s.side sd).inForce = some a) : SidesMove O s.timebase s (fullWrite sd a b o addr w s) := by
  have start : (((s.side sd).ring.buf b).state = .free ∨ ((s.side sd).ring.buf b).state = .ready) →
      SidesMove O s.timebase s (continueFrame sd a b o addr w (frameStart sd a b s)) := fun hb => by
    have m1 : SidesMove O s.timebase s (frameStart sd a b s) :=
      .one sd _ (frameStart_side sd a b s) (.frameStart _ a b h hb)
    refine m1.trans (.one sd _ (continueFrame_side sd a b o addr w _) (.continueFrame _ a b o w ?_ ?_))
    · simpa [frameStart_side, startSide_inForce, cutOtherSide_inForce] using h
    · simpa [frameStart_side] using startSide_state _ _ _ _
  unfold fullWrite
  split
  · next hb => exact start (.inl hb)
  · next hb => exact start (.inr hb)
  · next hb => exact .one sd _ (continueFrame_side sd a b o addr w s) (.continueFrame _ a b o w h hb)
  · exact .refl fun sd' => by simp [absorbTear]

theorem absorbPartial_moves {O : ActiveSet → Prop} (sd : Side) (a : ActiveSet) (b : Fin 3) (addr : Nat) (s : State)
    (h : (s.side sd).inForce = some a) : SidesMove O s.timebase s (absorbPartial sd b addr s) :=
  .one sd _ (fun sd' => by by_cases e : sd' = sd <;> simp [absorbPartial, faultSide, SideKind.classA, e])
    (.partialWrite _ a b h)

theorem bufferWrite_moves {O : ActiveSet → Prop} (h : InHand) (addr : Nat) (k : WordKind) (s : State) :
    SidesMove O s.timebase s (bufferWrite h addr k s) := by
  unfold bufferWrite
  split
  · next sd b o =>
    split
    · next a ha =>
      split
      · have m := fullWrite_moves (O := O) sd a b o addr (currentData h) s ha
        exact m.trans (.refl fun _ => by simp)
      · have m := absorbPartial_moves (O := O) sd a b addr s ha
        exact m.trans (.refl fun _ => by simp)
    · exact .refl fun _ => rfl
  · exact .refl fun _ => rfl

/-- A word of a transfer moves the sides as its handling does. -/
theorem onWord_moves {O : ActiveSet → Prop} (write : Bool) (accepts : BitVec 4 → WordKind → Bool)
    (effect : InHand → Nat → WordKind → State → State) (s : State)
    (he : ∀ h a k, SidesMove O s.timebase s (effect h a k s)) : SidesMove O s.timebase s (onWord write accepts effect s) := by
  unfold onWord
  split
  · split
    · exact he _ _ _
    · exact .refl fun _ => rfl
  · exact .refl fun _ => rfl

theorem whenReady_moves {O : ActiveSet → Prop} {now : Word} (ready : Bool) (effect : State → State) (s : State)
    (he : SidesMove O now s (effect s)) : SidesMove O now s (whenReady ready effect s) := by
  unfold whenReady
  split
  · exact he
  · exact .refl fun _ => rfl

/-! ## Scans -/

theorem judgeScanStart_side (sd : Side) (a : ActiveSet) (b : Fin 3) (st : BufState) (s : State) (sd' : Side) :
    (judgeScanStart sd a b st s).side sd' =
      if sd' = sd then judgeSide s.timebase a b st (s.side sd) else s.side sd' := by
  unfold judgeScanStart judgeSide
  split
  · unfold judgeReady judgeReadySide
    dsimp only
    split
    · simp; split <;> simp_all
    · split
      · simp; split <;> simp_all
      · simp
  · cases scanStartFault st (s.side sd).view.state with
    | none => simp; rintro rfl; rfl
    | some k => simp [raiseScanStart]

theorem scanStart_side (sd : Side) (a : ActiveSet) (b : Fin 3) (s : State) (sd' : Side) :
    (scanStart sd a b s).side sd' =
      if sd' = sd then scanStartSide s.timebase a b (s.side sd) else s.side sd' := by
  by_cases h : sd' = sd <;> simp [scanStart, scanStartSide, judgeScanStart_side, h]

theorem scanStart_moves {O : ActiveSet → Prop} (sd : Side) (a : ActiveSet) (b : Fin 3) (s : State)
    (h : (s.side sd).inForce = some a) : SidesMove O s.timebase s (scanStart sd a b s) :=
  .one sd _ (scanStart_side sd a b s) (.scanStart _ a b h)

@[simp] theorem judgeScanStart_timebase (sd : Side) (a : ActiveSet) (b : Fin 3) (st : BufState) (s : State) :
    (judgeScanStart sd a b st s).timebase = s.timebase := by
  unfold judgeScanStart judgeReady raiseScanStart
  dsimp only
  (repeat' split) <;> simp

@[simp] theorem scanStart_timebase (sd : Side) (a : ActiveSet) (b : Fin 3) (s : State) :
    (scanStart sd a b s).timebase = s.timebase := by
  simp [scanStart]

/-- An expiry of a running hold timer, as a move (R129). -/
theorem expireHold_moves {O : ActiveSet → Prop} (sd : Side) (tm : Timer) (s : State) (h : (s.side sd).view.hold = some tm) :
    SidesMove O s.timebase s (expireHold sd tm s) := by
  unfold expireHold
  exact .one sd _ (fun sd' => by by_cases e : sd' = sd <;> simp [e]) (.holdExpiry _ tm h)

/-- The timer whose expiry is ready at a scan start is the side's hold timer. -/
theorem hold_of_expiryReadyAtStart {sd : Side} {s t : State} {tm : Timer} (h : expiryReadyAtStart sd s t = some tm) :
    (t.side sd).view.hold = some tm := by
  unfold expiryReadyAtStart at h
  split at h
  · exact (Option.filter_eq_some_iff.mp h).1
  · cases h

theorem expireAtStart_moves {O : ActiveSet → Prop} (sd : Side) (tm : Timer) (s : State)
    (h : (s.side sd).view.hold = some tm) : SidesMove O s.timebase s (expireAtStart sd tm s) := by
  unfold expireAtStart
  dsimp only
  split
  · exact expireHold_moves sd tm { s with freeDraws := s.freeDraws + 1 } (by cases sd <;> exact h)
  · exact .refl fun sd => by cases sd <;> rfl

theorem openScan_moves {O : ActiveSet → Prop} (sd : Side) (a : ActiveSet) (b : Fin 3) (s : State)
    (h : (s.side sd).inForce = some a) : SidesMove O s.timebase s (openScan sd a b s) := by
  unfold openScan
  dsimp only
  split
  · next tm htm =>
    refine (scanStart_moves sd a b s h).trans ?_
    simpa using expireAtStart_moves (O := O) sd tm (scanStart sd a b s) (hold_of_expiryReadyAtStart htm)
  · exact scanStart_moves sd a b s h

theorem setScanRecord_moves {O : ActiveSet → Prop} {now : Word} (sd : Side) (r r' : ScanRecord) (s : State)
    (h : (s.side sd).scan.record = some r) (hb : r'.buf = r.buf) (hr : r'.redirect = r.redirect)
    (hw : r'.wordsRead = r.wordsRead ∨ r'.wordsRead ≤ Config.wordCountMax) :
    SidesMove O now s (setScanRecord sd r' s) :=
  .one sd _ (fun sd' => by simp [setScanRecord]) (.serve _ r r' h hb hr hw)

theorem countScanWord_le (g : Geometry) (o : Nat) (r : ScanRecord) :
    (countScanWord g o r).wordsRead ≤ Config.wordCountMax := Nat.min_le_left _ _

theorem scanWordRecord_eq {b : Fin 3} {x : SideState} {r : ScanRecord} (h : scanWordRecord b x = some r) :
    x.scan.record = some r := by
  unfold scanWordRecord at h
  split at h
  · split at h <;> simp_all
  · simp at h

@[simp] theorem markScanDone_side (sd : Side) (g : Geometry) (o : Nat) (s : State) (sd' : Side) :
    (markScanDone sd g o s).side sd' = s.side sd' := by
  unfold markScanDone
  split <;> simp

theorem serveBufferWord_moves {O : ActiveSet → Prop} {now : Word} (sd : Side) (a : ActiveSet) (b : Fin 3) (o addr : Nat)
    (s : State) : SidesMove O now s (serveBufferWord sd a b o addr s) := by
  unfold serveBufferWord
  split
  · next r hr =>
    have hr := scanWordRecord_eq hr
    have memory : ∀ m, SidesMove O now s (serveMemory sd a.desc.geometry r m o s) := fun m => by
      unfold serveMemory
      intro sd'
      have m := fun r' hb hr' hw => setScanRecord_moves (O := O) (now := now) sd r r'
        (openRow (a.desc.geometry.base r.served + o * 4) s) (by simpa using hr) hb hr' hw sd'
      simpa using m _ (by rfl) (by rfl) (.inr (countScanWord_le _ _ _))
    unfold serveScanWord
    split
    · exact memory _
    · exact memory _
    · unfold serveFill
      intro sd'
      have m := fun r' hb hr' hw => setScanRecord_moves (O := O) (now := now) sd r r' s hr hb hr' hw sd'
      simpa using m (countScanWord a.desc.geometry o { r with fillServed := true }) rfl rfl (.inr (countScanWord_le _ _ _))
  · exact .refl fun _ => by simp [serveOwnAddress]

theorem bufferRead_moves {O : ActiveSet → Prop} (h : InHand) (addr : Nat) (k : WordKind) (s : State) :
    SidesMove O s.timebase s (bufferRead h addr k s) := by
  unfold bufferRead
  split
  · split
    · next a ha =>
      refine SidesMove.trans ?_ (serveBufferWord_moves _ a _ _ _ _)
      split
      · exact openScan_moves _ a _ s ha
      · exact .refl fun _ => rfl
    · exact .refl fun _ => rfl
  · exact .refl fun _ => rfl

theorem completeScan_moves {O : ActiveSet → Prop} (sd : Side) (s : State) : SidesMove O s.timebase s (completeScan sd s) := by
  unfold completeScan
  split
  · next a r ha hr =>
    split
    · exact .refl fun _ => rfl
    · refine SidesMove.trans (setScanRecord_moves sd r { r with complete := true } s hr rfl rfl (.inl rfl)) ?_
      unfold judgeScan
      dsimp only
      split
      · split
        · exact .refl fun _ => rfl
        · refine .one sd _ (side_raiseSide sd · .readback _ _ _) ?_
          simpa [setScanRecord] using SideMove.fault _ .readback
      · exact .modSide sd _ _ (.unchecked _ a (by simpa [setScanRecord, SideState.inForce] using ha))
  · exact .refl fun _ => rfl

/-! ## Frame completion -/

theorem lengthCheck_moves {O : ActiveSet → Prop} (sd : Side) (a : ActiveSet) (b : Fin 3) (s : State)
    (h : (s.side sd).inForce = some a) :
    SidesMove O s.timebase s (lengthCheck sd a b s) := by
  unfold lengthCheck
  dsimp only
  split
  · exact .refl fun _ => rfl
  · exact .one sd _ (fun sd' => by by_cases e : sd' = sd <;> simp [faultSide, SideKind.classA, e]) 
      (.lengthFail _ a b h)

/-- The length check leaves a buffer's state and the set in force. -/
theorem lengthCheck_keeps (sd : Side) (a : ActiveSet) (b : Fin 3) (s : State) :
    (((lengthCheck sd a b s).side sd).ring.buf b).state = ((s.side sd).ring.buf b).state ∧
      ((lengthCheck sd a b s).side sd).inForce = (s.side sd).inForce ∧ (lengthCheck sd a b s).timebase = s.timebase ∧
      (lengthCheck sd a b s).cau = s.cau := by
  unfold lengthCheck
  dsimp only
  split
  · simp
  · simp [faultSide, SideKind.classA]
    rfl

theorem runCheck_moves {O : ActiveSet → Prop} (sd : Side) (a : ActiveSet) (b : Fin 3) (s : State)
    (h : (s.side sd).inForce = some a) :
    SidesMove O s.timebase s (runCheck sd a b s) := by
  unfold runCheck
  dsimp only
  split
  · have step : SidesMove O s.timebase s
        (Machine.modRing sd (stepRun ((s.side sd).ring.buf b).signature) s) :=
      .one sd _ (side_modRing sd · _ _) (.run _ a _ h)
    refine SidesMove.trans step ?_
    unfold frozenCheck
    dsimp only
    split
    · have mark : ∀ u : State, (u.side sd).inForce = some a →
          SidesMove O s.timebase u (Machine.modRing sd (fun r => { r with frozenMark := true }) u) :=
        fun u hu => .one sd _ (side_modRing sd · _ u) (.markFrozen _ a hu)
      refine SidesMove.trans (mark _ (by simpa [SideState.inForce] using h)) ?_
      refine .one sd _ (side_raiseSide sd · .frozen _ _ _) ?_
      simpa using SideMove.fault _ .frozen
    · exact .refl fun _ => rfl
  · exact .refl fun _ => rfl

/-- The equal run and its FROZEN leave the set in force, the timebase and the CAU. -/
theorem runCheck_keeps (sd : Side) (a : ActiveSet) (b : Fin 3) (s : State) :
    ((runCheck sd a b s).side sd).inForce = (s.side sd).inForce ∧ (runCheck sd a b s).timebase = s.timebase ∧
      (runCheck sd a b s).cau = s.cau := by
  unfold runCheck frozenCheck
  dsimp only
  (repeat' split) <;> simp [faultSide] <;> (repeat' split) <;> rfl

theorem takeWaitingSet_moves {O : ActiveSet → Prop} (sd : Side) (s : State)
    (hO : ∀ acc, s.cau.accepted = some acc → O (acc.forSide sd)) : SidesMove O s.timebase s (takeWaitingSet sd s) := by
  unfold takeWaitingSet
  split
  · next acc h =>
    split
    · exact .one sd _ (fun sd' => by simp) (.take _ _ (hO acc h))
    · exact .refl fun _ => rfl
  · exact .refl fun _ => rfl

theorem completeFrame_moves (sd : Side) (b : Fin 3) (s : State) :
    SidesMove (Offered s) s.timebase s (completeFrame sd b s) := by
  unfold completeFrame
  split
  · next a ha =>
    split
    · next hb =>
      obtain ⟨k1, k2, k3, k4⟩ := lengthCheck_keeps sd a b s
      refine SidesMove.trans (lengthCheck_moves sd a b s ha) ?_
      generalize lengthCheck sd a b s = u at *
      rw [hb] at k1
      rw [ha] at k2
      rw [← k3]
      unfold finishFrame
      refine SidesMove.trans (SidesMove.modSide sd _ _ (.ready _ a b k2 k1)) ?_
      have kf : ((modSide sd (readySide u.timebase b) u).side sd).inForce = some a := by
        simpa [readySide, SideState.inForce] using k2
      have k4' : (modSide sd (readySide u.timebase b) u).cau = s.cau := by simpa using k4
      have kt : (modSide sd (readySide u.timebase b) u).timebase = u.timebase := by simp
      generalize modSide sd (readySide u.timebase b) u = v at *
      rw [← kt]
      refine SidesMove.trans (runCheck_moves sd a b v kf) ?_
      obtain ⟨r1, r2, r3⟩ := runCheck_keeps sd a b v
      rw [kf] at r1
      rw [k4'] at r3
      rw [← r2]
      generalize runCheck sd a b v = p at *
      refine SidesMove.trans (SidesMove.modSide sd _ _ (.glare _ a b r1)) ?_
      refine SidesMove.trans (.one sd _ (side_modView sd · _ _) (.reload _ a ?_)) ?_
      · simpa [updateGlare, SideState.inForce] using r1
      · have := takeWaitingSet_moves (O := Offered s) sd (modView sd (reloadWatchdog p.timebase a) (modSide sd (updateGlare a b) p))
          (fun acc hacc => .inr ⟨acc, sd, by simpa [r3] using hacc, rfl⟩)
        simpa using this
    · exact .refl fun _ => rfl
  · exact .refl fun _ => rfl

/-! ## Commits -/

theorem takeOrWait_move {O : ActiveSet → Prop} (now : Word) (a : ActiveSet) (x : SideState) (h : O a) :
    SideMove O now x (takeOrWait now a x) := by
  unfold takeOrWait
  split
  · next hw =>
    rw [Bool.and_eq_true] at hw
    exact .wait x a hw.1 h hw.2
  · exact .take x a h

@[simp] theorem moveRing_left (c : Bool) (s : State) : (moveRing c s).left = s.left := by unfold moveRing; split <;> simp
@[simp] theorem moveRing_right (c : Bool) (s : State) : (moveRing c s).right = s.right := by unfold moveRing; split <;> simp

/-- A commit that passes has passed the check of both sides' profile indices (R40). -/
theorem profilesOk_of_commitPasses {s : State} (h : commitPasses s = true) (sd : Side) :
    profilesOk (pendingDescriptor s.cau.pendingSet (descriptorOffset sd)) = true := by
  simp only [commitPasses, Bool.and_eq_true] at h
  cases sd <;> tauto

theorem commit_moves (s u : State) (hu : ∀ a, FromCommit a → Offered u a) :
    SidesMove (Offered u) s.timebase s (commit s) := by
  unfold commit
  dsimp only
  split
  · next hp =>
    intro sd
    refine .single ?_
    cases sd
    · have : (acceptCommit (wordAt s.cau.pendingSet 4) s).side .left = takeOrWait s.timebase
          ((acceptedFrom s.cau.pendingSet (wordAt s.cau.pendingSet 4)).forSide .left) s.left := by
        simp [acceptCommit, offerSet, installSet, State.side]
      rw [this]
      exact takeOrWait_move _ _ _ (hu _ ⟨_, _, _, profilesOk_of_commitPasses hp _, rfl⟩)
    · have : (acceptCommit (wordAt s.cau.pendingSet 4) s).side .right = takeOrWait s.timebase
          ((acceptedFrom s.cau.pendingSet (wordAt s.cau.pendingSet 4)).forSide .right) s.right := by
        simp [acceptCommit, offerSet, installSet, State.side]
      rw [this]
      exact takeOrWait_move _ _ _ (hu _ ⟨_, _, _, profilesOk_of_commitPasses hp _, rfl⟩)
  · refine .refl fun sd => ?_
    cases sd <;> simp [rejectCommit, State.side]

@[simp] theorem deliverReadIndex_left (w : Word) (s : State) : (deliverReadIndex w s).left = s.left := by
  unfold deliverReadIndex; dsimp only; (repeat' split) <;> simp
@[simp] theorem deliverReadIndex_right (w : Word) (s : State) : (deliverReadIndex w s).right = s.right := by
  unfold deliverReadIndex; dsimp only; (repeat' split) <;> simp
@[simp] theorem deliverReadIndex_timebase (w : Word) (s : State) : (deliverReadIndex w s).timebase = s.timebase := by
  unfold deliverReadIndex; dsimp only; (repeat' split) <;> simp
@[simp] theorem side_deliverReadIndex (w : Word) (s : State) (sd : Side) : (deliverReadIndex w s).side sd = s.side sd :=
  side_congr (by simp) (by simp) sd

@[simp] theorem parameterWrite_side (h : InHand) (a : Nat) (k : WordKind) (s : State) (sd : Side) :
    (parameterWrite h a k s).side sd = s.side sd := by
  unfold parameterWrite storeParameter mergePending
  split
  · cases sd <;> simp [State.side]
  · simp

@[simp] theorem deliverMerged_side (be : BitVec 4) (s : State) (sd : Side) : (deliverMerged be s).side sd = s.side sd := by
  unfold deliverMerged
  split <;> simp

/-! ## The deferred effects of a transfer -/

/-- One word of a status burst changes no side. -/
theorem answerStatus_side (h : InHand) (a : Nat) (k : WordKind) (s : State) (sd : Side) :
    (answerStatus h a k s).side sd = s.side sd := by
  unfold answerStatus
  split
  · simp only [side_finishWord]
    unfold readStatus
    split
    · unfold takeEntry
      split
      · cases sd <;> simp [State.side]
      · rfl
    · rfl
  · rfl

/-- A word of a status burst changes the transfer in hand and the fault unit only. -/
theorem answerStatus_keeps (h : InHand) (a : Nat) (k : WordKind) (s : State) :
    (answerStatus h a k s).timebase = s.timebase ∧ (answerStatus h a k s).cau = s.cau := by
  unfold answerStatus
  split
  · unfold readStatus
    split
    · unfold takeEntry
      split <;> simp
    · simp
  · simp

theorem answerRest_keeps (n : Nat) (s : State) :
    (∀ sd, (answerRest n s).side sd = s.side sd) ∧ (answerRest n s).timebase = s.timebase ∧ (answerRest n s).cau = s.cau := by
  induction n generalizing s with
  | zero => exact ⟨fun _ => rfl, rfl, rfl⟩
  | succ n ih =>
    obtain ⟨i1, i2, i3⟩ := ih (onWord false isQuietStatus answerStatus s)
    have base : (∀ sd, (onWord false isQuietStatus answerStatus s).side sd = s.side sd) ∧
        (onWord false isQuietStatus answerStatus s).timebase = s.timebase ∧
        (onWord false isQuietStatus answerStatus s).cau = s.cau := by
      unfold onWord
      split
      · split
        · exact ⟨answerStatus_side _ _ _ s, answerStatus_keeps _ _ _ s⟩
        · exact ⟨fun _ => rfl, rfl, rfl⟩
      · exact ⟨fun _ => rfl, rfl, rfl⟩
    exact ⟨fun sd => (i1 sd).trans (base.1 sd), i2.trans base.2.1, i3.trans base.2.2⟩

@[simp] theorem completeFrame_timebase (sd : Side) (b : Fin 3) (s : State) :
    (completeFrame sd b s).timebase = s.timebase := by
  unfold completeFrame
  split
  · split
    · unfold finishFrame takeWaitingSet
      have h1 := lengthCheck_keeps sd ‹_› b s
      have h2 := fun u => runCheck_keeps sd ‹_› b u
      (repeat' split) <;> simp [h1, h2]
    · rfl
  · rfl

@[simp] theorem completeScan_timebase (sd : Side) (s : State) : (completeScan sd s).timebase = s.timebase := by
  unfold completeScan judgeScan setScanRecord
  dsimp only
  (repeat' split) <;> simp

@[simp] theorem endFrame_timebase (h : InHand) (s : State) : (endFrame h s).timebase = s.timebase := by
  unfold endFrame; split <;> simp

@[simp] theorem endScan_timebase (h : InHand) (s : State) : (endScan h s).timebase = s.timebase := by
  unfold endScan; split <;> simp

@[simp] theorem commit_timebase (s : State) : (commit s).timebase = s.timebase := by
  unfold commit acceptCommit rejectCommit moveRing
  dsimp only
  (repeat' split) <;> simp [offerSet, installSet]

@[simp] theorem endCommit_timebase (h : InHand) (s : State) : (endCommit h s).timebase = s.timebase := by
  unfold endCommit; split <;> simp

@[simp] theorem endProtect_timebase (h : InHand) (s : State) : (endProtect h s).timebase = s.timebase := by
  unfold endProtect; split <;> simp

/-- Every side moves by the moves of a side while a transfer's deferred effects are made. -/
theorem deferredEffects_moves (h : InHand) (s : State) : SidesMove (Offered s) s.timebase s (deferredEffects h s) := by
  have frame : SidesMove (Offered s) s.timebase s (endFrame h s) := by
    unfold endFrame
    split
    · exact completeFrame_moves _ _ s
    · exact .refl fun _ => rfl
  have scan := completeScan_moves (O := Offered s) (s := endFrame h s)
  have scan : SidesMove (Offered s) s.timebase (endFrame h s) (endScan h (endFrame h s)) := by
    unfold endScan
    split
    · simpa using scan _
    · exact .refl fun _ => rfl
  have com : SidesMove (Offered s) s.timebase (endScan h (endFrame h s)) (endCommit h (endScan h (endFrame h s))) := by
    unfold endCommit
    split
    · simpa using commit_moves (endScan h (endFrame h s)) s (fun a ha => .inl ha)
    · exact .refl fun _ => rfl
  have pro : ∀ u : State, SidesMove (Offered s) s.timebase u (endProtect h u) := fun u => .refl fun sd => by
    unfold endProtect
    split <;> simp
  have tear : ∀ u : State, SidesMove (Offered s) s.timebase u (endTear h u) := fun u => .refl fun sd => by
    unfold endTear
    split
    · next sd' b a _ => by_cases e : sd = sd' <;> simp [faultSide, SideKind.classA, e]
    · rfl
  exact frame.trans (scan.trans (com.trans ((pro _).trans (tear _))))

/-! ## Arrivals -/

theorem grantBus_side (s : State) (sd : Side) : (grantBus s).side sd = s.side sd := by
  unfold grantBus
  (repeat' split) <;> cases sd <;> rfl

theorem arrive_side (t : Transfer) (s : State) (sd : Side) : (arrive t s).side sd = s.side sd := by
  unfold arrive arbitrate
  (repeat' split) <;> cases sd <;> rfl

theorem grantOrNot_side (s : State) (sd : Side) : (grantOrNot s).side sd = s.side sd := by
  unfold grantOrNot whenReady
  dsimp only
  split
  · split
    · exact (grantBus_side _ sd).trans (by cases sd <;> rfl)
    · cases sd <;> rfl
  · cases sd <;> rfl

theorem takeRequest_side (s : State) (sd : Side) : (takeRequest s).side sd = s.side sd := by
  unfold takeRequest arriveWaiting
  split
  · next t _ =>
    have e : ∀ u : State, ∀ l, ({ u with answers := l } : State).side sd = u.side sd := fun u l => by cases sd <;> rfl
    dsimp only
    rw [e, arrive_side, grantOrNot_side]
    cases sd <;> rfl
  · rfl

/-! ## The inversion of a step, for a side -/

/-- Everything a command can do to a side: it moves it by the moves of `SideMove`, offering it the sets of `Offered`. -/
theorem exec_side {c : Instr} {s t : State} (h : exec c s = .next t) : SidesMove (Offered s) s.timebase s t := by
  cases c <;> simp only [exec, execResetAsserted, execResetReleased, execMemoryInitialisationEnd, execTimebaseTick,
    execRefreshIntervalEnd, execGrant, execRefreshEnd, execTransferArrival, execPlainWordWrite, execPlainWordRead,
    execParameterWordWrite, execCommitWordWrite, execReportReadIndexWrite, execAcknowledgeRead, execAcknowledgeWrite,
    execStatusWordWrite, execBufferWordWrite, Host.Outcome.next.injEq] at h
  case resetAsserted =>
    subst h
    intro sd
    cases sd <;> exact .single (.reset _)
  case resetReleased =>
    subst h
    exact whenReady_moves _ _ _ (.refl fun sd => by cases sd <;> simp [releaseReset, State.side])
  case memoryInitialisationEnd =>
    subst h
    exact whenReady_moves _ _ _ (.refl fun sd => by cases sd <;> simp [endInitialisation, askBootLoad, State.side])
  case timebaseTick =>
    subst h
    exact whenReady_moves _ _ _ (.refl fun sd => by cases sd <;> rfl)
  case refreshIntervalEnd =>
    subst h
    exact whenReady_moves _ _ _ (.refl fun sd => by cases sd <;> rfl)
  case grant =>
    subst h
    refine whenReady_moves _ _ _ (.refl fun sd => ?_)
    unfold grantBus
    (repeat' split) <;> cases sd <;> rfl
  case refreshEnd =>
    subst h
    exact whenReady_moves _ _ _ (.refl fun sd => by cases sd <;> rfl)
  case bootLoadReadDone =>
    unfold execBootLoadReadDone at h
    split at h
    · next a _ =>
      simp only [Host.Outcome.next.injEq] at h
      subst h
      have keep : ∀ u w, (∀ sd, (deliverLoaded w u).side sd = u.side sd) ∧ (deliverLoaded w u).timebase = u.timebase :=
        fun u w => by unfold deliverLoaded; split <;> simp
      have first : SidesMove (Offered s) s.timebase s (deliverLoaded (Memory.readWord s.mem a)
          (loadWord (Memory.readWord s.mem a) (endBootRead a s))) :=
        .refl fun sd => by rw [(keep _ _).1]; cases sd <;> rfl
      refine first.trans ?_
      have ht : (deliverLoaded (Memory.readWord s.mem a) (loadWord (Memory.readWord s.mem a) (endBootRead a s))).timebase
          = s.timebase := (keep _ _).2
      generalize deliverLoaded (Memory.readWord s.mem a) (loadWord (Memory.readWord s.mem a) (endBootRead a s)) = u at *
      unfold continueLoad
      split
      · exact .refl fun sd => by simp [askBootLoad]
      · exact ht ▸ commit_moves u s fun a ha => .inl ha
    · simp only [Host.Outcome.next.injEq] at h
      exact h ▸ .refl fun _ => rfl
  case recordWriteDone =>
    unfold execRecordWriteDone at h
    split at h <;> simp only [Host.Outcome.next.injEq] at h <;> subst h
    · exact .refl fun sd => by cases sd <;> simp [retireRecord, endRecordWrite, State.side]
    · exact .refl fun _ => rfl
  case transferArrival t =>
    subst h
    refine whenReady_moves _ _ _ (.refl fun sd => ?_)
    unfold presentRequest
    split
    · exact arrive_side t s sd
    · cases sd <;> rfl
  case plainWordWrite =>
    subst h
    exact onWord_moves _ _ _ _ fun _ _ _ => .refl fun _ => by simp
  case plainWordRead =>
    subst h
    exact onWord_moves _ _ _ _ fun _ _ _ => .refl fun _ => by simp [serveOwnAddress]
  case parameterWordWrite =>
    subst h
    exact onWord_moves _ _ _ _ fun _ _ _ => .refl fun _ => by simp
  case commitWordWrite =>
    subst h
    exact onWord_moves _ _ _ _ fun _ _ _ => .refl fun _ => by simp
  case reportReadIndexWrite =>
    subst h
    exact onWord_moves _ _ _ _ fun _ _ _ => .refl fun _ => by simp
  case acknowledgeRead =>
    subst h
    exact onWord_moves _ _ _ _ fun _ _ _ => .refl fun sd => answerStatus_side _ _ _ _ sd
  case acknowledgeWrite =>
    subst h
    exact onWord_moves _ _ _ _ fun _ _ _ => .refl fun sd => by cases sd <;> simp [clearEntries, State.side]
  case statusWordWrite =>
    subst h
    exact onWord_moves _ _ _ _ fun _ _ _ => .refl fun _ => by simp [absorbProtected]
  case bufferWordWrite =>
    subst h
    exact onWord_moves _ _ _ _ fun _ _ _ => bufferWrite_moves _ _ _ _
  case bufferWordRead =>
    unfold execBufferWordRead at h
    split at h
    · cases h
    · simp only [Host.Outcome.next.injEq] at h
      subst h
      exact onWord_moves _ _ _ _ fun _ _ _ => bufferRead_moves _ _ _ _
  case transferEnd =>
    obtain ⟨k1, k2, k3⟩ := answerRest_keeps 16 s
    have hO : Offered (answerRest 16 s) = Offered s := by
      funext a
      simp [Offered, k3]
    unfold execTransferEnd at h
    generalize answerRest 16 s = r at *
    simp only [Host.Outcome.next.injEq] at h
    subst h
    unfold endTransfer
    split
    · next ih _ =>
      split
      · have d := deferredEffects_moves ih r
        rw [k2, hO] at d
        exact (SidesMove.refl k1).trans (d.trans (.refl fun sd => (takeRequest_side _ sd).trans (by cases sd <;> rfl)))
      · exact .refl fun _ => rfl
    · exact .refl fun _ => rfl
  case watchdogExpiry sd =>
    unfold execWatchdogExpiry at h
    split at h
    · simp only [Host.Outcome.next.injEq] at h
      subst h
      refine whenReady_moves _ _ _ ?_
      unfold expireWatchdog
      dsimp only
      have stop : SidesMove (Offered s) s.timebase s (Machine.modView sd (fun v => { v with watchdog := none }) s) :=
        .one sd _ (side_modView sd · _ _) (.watchdogStop _)
      refine SidesMove.trans stop ?_
      refine .one sd _ (side_raiseSide sd · .frameLate _ _ _) ?_
      simpa using SideMove.fault _ .frameLate
    · simp only [Host.Outcome.next.injEq] at h
      exact h ▸ .refl fun _ => rfl
  case holdTimerExpiry sd =>
    unfold execHoldTimerExpiry at h
    split at h
    · next tm htm =>
      simp only [Host.Outcome.next.injEq] at h
      subst h
      refine whenReady_moves _ _ _ ?_
      exact expireHold_moves sd tm s htm
    · simp only [Host.Outcome.next.injEq] at h
      exact h ▸ .refl fun _ => rfl

/-- An invariant of a side that every move keeps is kept by every step: the induction, once. -/
theorem exec_side_invariant {P : SideState → Prop} {c : Instr} {s t : State} (h : exec c s = .next t)
    (hP : ∀ x y, SideMove (Offered s) s.timebase x y → P x → P y) (sd : Side) (hs : P (s.side sd)) : P (t.side sd) := by
  have m := exec_side h sd
  generalize t.side sd = y at m
  induction m with
  | refl => exact hs
  | tail _ m ih => exact hP _ _ m ih

end Sys2Proof.Machine
end

