-- ==== Sys2Proof/Laws/Device.lean ====
section
/-! SUPPORT. What the effects on the sides leave of the device: `Quiet` says once what raises, good scans, frames and scans
do to the fault unit and to the own-access queue, and leave everywhere else. -/

namespace Sys2Proof.Machine

open Sys2Proof.Safety

/-- What the own-access queue gains: nothing, or the record write of the head record, which may be presented (R152). -/
def QueueGains (s t : State) : Prop :=
  t.mct.queue = s.mct.queue ∨
    ∃ d r rest, s.cau.device = some d ∧ t.flu.queue = r :: rest ∧ ringFull s.flu d = false ∧
      recordWriteOutstanding s.mct = false ∧
      t.mct.queue = s.mct.queue ++ [{ access := .recordWrite (recordSlot d s.flu) r.words, joinTime := s.timebase }]

/-- A change of the sides and the fault unit only: raises join the record queue and present the head record. -/
structure Quiet (s t : State) : Prop where
  pending : t.pending = s.pending
  resetHeld : t.resetHeld = s.resetHeld
  timebase : t.timebase = s.timebase
  inHand : t.inHand = s.inHand
  answers : t.answers = s.answers
  request : t.request = s.request
  cau : t.cau = s.cau
  mem : t.mem = s.mem
  bus : t.mct.bus = s.mct.bus
  banks : t.mct.banks = s.mct.banks
  refreshOwed : t.mct.refreshOwed = s.mct.refreshOwed
  intervalRunning : t.mct.intervalRunning = s.mct.intervalRunning
  writeIndex : t.flu.writeIndex = s.flu.writeIndex
  readIndex : t.flu.readIndex = s.flu.readIndex
  records : ∃ more, t.flu.queue = s.flu.queue ++ more
  queue : QueueGains s t
  sides : ∀ sd, (t.side sd).active = (s.side sd).active ∧ (t.side sd).takeWaiting = (s.side sd).takeWaiting

theorem Quiet.refl (s : State) : Quiet s s :=
  ⟨rfl, rfl, rfl, rfl, rfl, rfl, rfl, rfl, rfl, rfl, rfl, rfl, rfl, rfl, ⟨[], by simp⟩, .inl rfl, fun _ => ⟨rfl, rfl⟩⟩

theorem ringFull_congr {f g : Flu} (hw : g.writeIndex = f.writeIndex) (hr : g.readIndex = f.readIndex) (d : DeviceCopy) :
    ringFull g d = ringFull f d := by
  unfold ringFull readIndexInUse
  rw [hw, hr]

theorem outstanding_congr {m n : Mct} (hb : n.bus = m.bus) (hq : n.queue = m.queue) :
    recordWriteOutstanding n = recordWriteOutstanding m := by
  unfold recordWriteOutstanding recordWriteWaiting recordWriteRunning
  rw [hb, hq]

theorem Quiet.trans {s t u : State} (h : Quiet s t) (k : Quiet t u) : Quiet s u where
  pending := k.pending.trans h.pending
  resetHeld := k.resetHeld.trans h.resetHeld
  timebase := k.timebase.trans h.timebase
  inHand := k.inHand.trans h.inHand
  answers := k.answers.trans h.answers
  request := k.request.trans h.request
  cau := k.cau.trans h.cau
  mem := k.mem.trans h.mem
  bus := k.bus.trans h.bus
  banks := k.banks.trans h.banks
  refreshOwed := k.refreshOwed.trans h.refreshOwed
  intervalRunning := k.intervalRunning.trans h.intervalRunning
  writeIndex := k.writeIndex.trans h.writeIndex
  readIndex := k.readIndex.trans h.readIndex
  records := by
    obtain ⟨a, ha⟩ := h.records
    obtain ⟨b, hb⟩ := k.records
    exact ⟨a ++ b, by rw [hb, ha, List.append_assoc]⟩
  queue := by
    obtain ⟨more, hm⟩ := k.records
    rcases h.queue with hq | ⟨d, r, rest, h1, h2, h3, h4, h5⟩
    · rcases k.queue with kq | ⟨d, r, rest, k1, k2, k3, k4, k5⟩
      · exact .inl (kq.trans hq)
      · refine .inr ⟨d, r, rest, by rw [← h.cau]; exact k1, k2, ?_, ?_, ?_⟩
        · rw [← ringFull_congr h.writeIndex h.readIndex]; exact k3
        · rw [← outstanding_congr h.bus hq]; exact k4
        · rw [k5, hq, h.timebase]
          unfold recordSlot
          rw [h.writeIndex]
    · rcases k.queue with kq | ⟨d', r', rest', k1, k2, k3, k4, k5⟩
      · exact .inr ⟨d, r, rest ++ more, h1, by rw [hm, h2]; rfl, h3, h4, by rw [kq]; exact h5⟩
      · exfalso
        have : recordWriteOutstanding t.mct = true := by
          unfold recordWriteOutstanding recordWriteWaiting
          rw [h5]
          simp [OwnAccess.isRecordWrite]
        rw [this] at k4
        cases k4
  sides := fun sd => ⟨(k.sides sd).1.trans (h.sides sd).1, (k.sides sd).2.trans (h.sides sd).2⟩

/-- A change of one side that keeps its active set and its mark. -/
theorem Quiet.setSide (sd : Side) (x : SideState) (s : State) (ha : x.active = (s.side sd).active)
    (hw : x.takeWaiting = (s.side sd).takeWaiting) : Quiet s (setSide sd x s) where
  pending := by simp
  resetHeld := by simp
  timebase := by simp
  inHand := by simp
  answers := by simp
  request := by simp
  cau := by simp
  mem := by simp
  bus := by simp
  banks := by simp
  refreshOwed := by simp
  intervalRunning := by simp
  writeIndex := by simp
  readIndex := by simp
  records := ⟨[], by simp⟩
  queue := .inl (by simp)
  sides := fun sd' => by
    by_cases e : sd' = sd
    · subst e
      simp [ha, hw]
    · simp [e]

theorem Quiet.modSide (sd : Side) (f : SideState → SideState) (s : State) (ha : ∀ x, (f x).active = x.active)
    (hw : ∀ x, (f x).takeWaiting = x.takeWaiting) : Quiet s (modSide sd f s) := .setSide sd _ s (ha _) (hw _)

theorem Quiet.modRing (sd : Side) (f : BufferRing → BufferRing) (s : State) : Quiet s (modRing sd f s) :=
  .modSide sd _ s (fun _ => by rfl) fun _ => by rfl

theorem Quiet.modBuf (sd : Side) (b : Fin 3) (f : BufRecord → BufRecord) (s : State) : Quiet s (modBuf sd b f s) :=
  .modRing sd _ s

theorem Quiet.modView (sd : Side) (f : View → View) (s : State) : Quiet s (modView sd f s) :=
  .modSide sd _ s (fun _ => by rfl) fun _ => by rfl

theorem Quiet.updateLines (s : State) : Quiet s (updateLines s) :=
  ⟨rfl, rfl, rfl, rfl, rfl, rfl, rfl, rfl, rfl, rfl, rfl, rfl, rfl, rfl, ⟨[], by simp [Machine.updateLines]⟩, .inl rfl,
    fun sd => by cases sd <;> exact ⟨rfl, rfl⟩⟩

theorem Quiet.presentHead (s : State) : Quiet s (presentHead s) where
  pending := by simp
  resetHeld := by simp
  timebase := by simp
  inHand := by simp
  answers := by simp
  request := by simp
  cau := by simp
  mem := by simp
  bus := by simp
  banks := by simp
  refreshOwed := by simp
  intervalRunning := by simp
  writeIndex := by simp
  readIndex := by simp
  records := ⟨[], by simp⟩
  queue := by
    rw [presentHead_eq]
    unfold presentedMct
    split
    · next d r rest hd hq =>
      split
      · exact .inl rfl
      · next hn =>
        rw [Bool.or_eq_true, not_or, Bool.not_eq_true, Bool.not_eq_true] at hn
        exact .inr ⟨d, r, rest, hd, hq, hn.1, hn.2, rfl⟩
    · exact .inl rfl
  sides := fun sd => by simp

theorem joinRecordQueue_records (r : FaultRecord) (f : Flu) : ∃ more, (joinRecordQueue r f).queue = f.queue ++ more := by
  unfold joinRecordQueue
  split
  · exact ⟨_, rfl⟩
  · exact ⟨[], by simp⟩

theorem Quiet.fluRaise (e : FaultEntry) (frame : Option (BitVec 16 × Fin 3)) (view : Option ViewState) (detail : Word)
    (s : State) : Quiet s (fluRaise e frame view detail s) := by
  unfold Machine.fluRaise
  refine Quiet.trans ?_ (Quiet.presentHead _)
  refine Quiet.trans ?_ (Quiet.updateLines _)
  refine ⟨rfl, rfl, rfl, rfl, rfl, rfl, rfl, rfl, rfl, rfl, rfl, rfl, by simp, by simp, ?_, .inl rfl,
    fun sd => by cases sd <;> exact ⟨rfl, rfl⟩⟩
  exact joinRecordQueue_records _ _

theorem faultSide_keeps (now : Word) (k : SideKind) (x : SideState) :
    (faultSide now k x).active = x.active ∧ (faultSide now k x).takeWaiting = x.takeWaiting := by
  unfold faultSide
  split <;> exact ⟨rfl, rfl⟩

theorem Quiet.raiseSide (sd : Side) (k : SideKind) (frame : Option (BitVec 16 × Fin 3)) (detail : Word) (s : State) :
    Quiet s (raiseSide sd k frame detail s) := by
  unfold Machine.raiseSide
  exact .trans (.setSide sd _ s (faultSide_keeps _ _ _).1 (faultSide_keeps _ _ _).2) (.fluRaise _ _ _ _ _)

theorem Quiet.raiseDevice (k : DeviceKind) (detail : Word) (s : State) : Quiet s (raiseDevice k detail s) := .fluRaise _ _ _ _ _

theorem Quiet.goodScan (sd : Side) (s : State) : Quiet s (goodScan sd s) := by
  unfold Machine.goodScan
  exact .trans (.modSide sd goodScanSide s (fun _ => by rfl) fun _ => by rfl) (.updateLines _)

/-! ## Frames -/

theorem Quiet.cutOther (sd : Side) (b : Fin 3) (s : State) : Quiet s (cutOther sd b s) := by
  unfold Machine.cutOther
  split
  · split
    · exact .refl _
    · unfold cutFrame
      exact .trans (.modBuf _ _ _ s) (.raiseSide _ _ _ _ _)
  · exact .refl _

theorem startSide_keeps (now : Word) (a : ActiveSet) (b : Fin 3) (x : SideState) :
    (startSide now a b x).active = x.active ∧ (startSide now a b x).takeWaiting = x.takeWaiting := ⟨rfl, rfl⟩

theorem Quiet.frameStart (sd : Side) (a : ActiveSet) (b : Fin 3) (s : State) : Quiet s (frameStart sd a b s) := by
  unfold Machine.frameStart
  exact .trans (.cutOther sd b s) (.modSide _ _ _ (fun _ => by rfl) fun _ => by rfl)

theorem Quiet.absorbPartial (sd : Side) (b : Fin 3) (addr : Nat) (s : State) : Quiet s (absorbPartial sd b addr s) := by
  unfold Machine.absorbPartial
  exact .trans (.modBuf _ _ _ s) (.raiseSide _ _ _ _ _)

theorem Quiet.lengthCheck (sd : Side) (a : ActiveSet) (b : Fin 3) (s : State) : Quiet s (lengthCheck sd a b s) := by
  unfold Machine.lengthCheck
  dsimp only
  split
  · exact .refl _
  · exact .trans (.modBuf _ _ _ s) (.raiseSide _ _ _ _ _)

theorem Quiet.runCheck (sd : Side) (a : ActiveSet) (b : Fin 3) (s : State) : Quiet s (runCheck sd a b s) := by
  unfold Machine.runCheck frozenCheck
  dsimp only
  split
  · split
    · exact .trans (.modRing _ _ s) (.trans (.modRing _ _ _) (.raiseSide _ _ _ _ _))
    · exact .modRing _ _ s
  · exact .refl _

/-- The completion of a frame is quiet, but for a waiting side's taking of the accepted set (R77). -/
theorem completeFrame_quiet (sd : Side) (b : Fin 3) (s : State) :
    ∃ u, Quiet s u ∧ (completeFrame sd b s = u ∨ completeFrame sd b s = takeWaitingSet sd u) := by
  unfold completeFrame
  split
  · next a _ =>
    split
    · refine ⟨_, ?_, .inr rfl⟩
      refine .trans (.lengthCheck sd a b s)
        (.trans (.modSide sd (readySide (lengthCheck sd a b s).timebase b) _ (fun _ => by rfl) fun _ => by rfl)
          (.trans (.runCheck sd a b _) ?_))
      exact .trans (.modSide sd (updateGlare a b) _ (fun _ => by rfl) fun _ => by rfl) (.modView _ _ _)
    · exact ⟨s, .refl _, .inl rfl⟩
  · exact ⟨s, .refl _, .inl rfl⟩

/-! ## Scans -/

theorem Quiet.judgeReady (sd : Side) (a : ActiveSet) (b : Fin 3) (s : State) : Quiet s (judgeReady sd a b s) := by
  unfold Machine.judgeReady
  dsimp only
  split
  · exact .trans (.modSide sd _ s (fun _ => by rfl) fun _ => by rfl) (.raiseSide _ _ _ _ _)
  · split
    · exact .trans (.modSide sd _ s (fun _ => by rfl) fun _ => by rfl) (.goodScan _ _)
    · exact .modSide sd _ s (fun _ => by rfl) fun _ => by rfl

theorem Quiet.judgeScanStart (sd : Side) (a : ActiveSet) (b : Fin 3) (st : BufState) (s : State) :
    Quiet s (judgeScanStart sd a b st s) := by
  unfold Machine.judgeScanStart
  split
  · exact .judgeReady _ _ _ _
  · split
    · exact .raiseSide _ _ _ _ _
    · exact .refl _

theorem Quiet.scanStart (sd : Side) (a : ActiveSet) (b : Fin 3) (s : State) : Quiet s (scanStart sd a b s) := by
  unfold Machine.scanStart
  exact .trans (.modSide sd (noticeSide b) s (fun _ => by rfl) fun _ => by rfl)
    (.trans (.judgeScanStart _ _ _ _ _) (.modSide sd _ _ (fun _ => by rfl) fun _ => by rfl))

theorem Quiet.setScanRecord (sd : Side) (r : ScanRecord) (s : State) : Quiet s (setScanRecord sd r s) :=
  .modSide sd _ s (fun _ => by rfl) fun _ => by rfl

theorem Quiet.completeScan (sd : Side) (s : State) : Quiet s (completeScan sd s) := by
  unfold Machine.completeScan
  split
  · next r _ _ =>
    split
    · exact .refl _
    · refine .trans (.setScanRecord sd { r with complete := true } s) ?_
      unfold judgeScan
      dsimp only
      split
      · split
        · exact .refl _
        · exact .raiseSide _ _ _ _ _
      · exact .modSide sd _ _ (fun _ => by rfl) fun _ => by rfl
  · exact .refl _

end Sys2Proof.Machine
end

