-- ==== Sys2Proof/Laws/Invariant.lean ====
section
/-! SUPPORT. From what one command does to what one step keeps: the inversion of a step, and the laws of a side that every
move of `SideMove` keeps. -/

namespace Sys2Proof.Machine

open Sys2Proof.Safety

/-- A step idles or runs the command at the front of the queue. -/
theorem step_cases {s t : State} (h : step s = .next t) :
    t = s ∨ ∃ c rest, s.pending = c :: rest ∧ exec c { s with pending := rest } = .next t := by
  unfold step at h
  split at h
  · next c rest hp => exact .inr ⟨c, rest, hp, h⟩
  · simp only [Host.Outcome.next.injEq] at h; exact .inl h.symm

/-- A law of a side that every move keeps is kept by every step. -/
theorem kept_sides {P : SideState → Prop}
    (hP : ∀ s : State, ∀ x y, SideMove (Offered s) s.timebase x y → P x → P y) : Kept (OfSides P) := by
  intro s t hs h sd
  rcases step_cases h with rfl | ⟨c, rest, hp, h⟩
  · exact hs sd
  · exact exec_side_invariant h (hP _) sd (by have := hs sd; cases sd <;> exact this)

/-- The same under a law of the state that the queue does not bear on. -/
theorem kept_sides_of {Q : State → Prop} {P : SideState → Prop} (hQ : ∀ s r, Q s → Q { s with pending := r })
    (hP : ∀ s : State, Q s → ∀ x y, SideMove (Offered s) s.timebase x y → P x → P y) {s t : State} (hq : Q s)
    (hs : OfSides P s) (h : step s = .next t) : OfSides P t := by
  intro sd
  rcases step_cases h with rfl | ⟨c, rest, hp, h⟩
  · exact hs sd
  · exact exec_side_invariant h (hP _ (hQ s rest hq)) sd (by have := hs sd; cases sd <;> exact this)

end Sys2Proof.Machine
end

