-- ==== Sys2Proof/Laws/Memory.lean ====
section
/-! SUPPORT. The laws of frame memory: every operation keeps the canonical form, and a read after a write gives what was
written there and what stood there elsewhere. -/

namespace Sys2Proof.Machine

/-- What writeByte lists: the new cell where it is not blank, and the old cells at other addresses. -/
theorem Memory.mem_writeByte {m : List Host.Cell} (hm : m.Pairwise fun x y => x.1 < y.1) (a : Nat) (v : Byte)
    (c : Host.Cell) :
    c ∈ Memory.writeByte m a v ↔ (c = (a, v) ∧ v ≠ Config.blankByte) ∨ (c ∈ m ∧ c.1 ≠ a) := by
  induction m with
  | nil => by_cases hv : v = Config.blankByte <;> simp [Memory.writeByte, hv]
  | cons d m ih =>
    obtain ⟨hd, hm'⟩ := List.pairwise_cons.mp hm
    have ne_of_tail : ∀ e ∈ m, a ≤ d.1 → e.1 ≠ a := fun e he had heq => by
      have := hd e he
      omega
    unfold Memory.writeByte
    split
    · next h =>
      have : d.1 ≠ a := by omega
      have tail := fun e he => ne_of_tail e he h.le
      split <;> simp_all <;> grind
    · split
      · next h' =>
        have tail := fun e he => ne_of_tail e he h'.ge
        split <;> simp_all <;> grind
      · next h h' =>
        simp only [List.mem_cons, ih hm']
        grind

/-- A written byte keeps the addresses rising. -/
theorem Memory.writeByte_pairwise {m : List Host.Cell} (hm : m.Pairwise fun x y => x.1 < y.1) (a : Nat) (v : Byte) :
    (Memory.writeByte m a v).Pairwise fun x y => x.1 < y.1 := by
  induction m with
  | nil => unfold Memory.writeByte; split <;> simp
  | cons d m ih =>
    obtain ⟨hd, hm'⟩ := List.pairwise_cons.mp hm
    unfold Memory.writeByte
    split
    · split
      · exact hm
      · refine List.pairwise_cons.mpr ⟨fun e he => ?_, hm⟩
        rcases List.mem_cons.mp he with rfl | he
        · assumption
        · have := hd e he
          simp only
          omega
    · split
      · split
        · exact hm'
        · next h _ => exact List.pairwise_cons.mpr ⟨fun e he => by simpa [h] using hd e he, hm'⟩
      · refine List.pairwise_cons.mpr ⟨fun e he => ?_, ih hm'⟩
        rcases (Memory.mem_writeByte hm' a v e).mp he with ⟨rfl, _⟩ | ⟨he, _⟩
        · simp only
          omega
        · exact hd e he

/-- A written byte keeps the canonical form. -/
theorem Memory.writeByte_wf {m : List Host.Cell} (hm : Memory.wf m) {a : Nat} (ha : a < Config.memoryBytes) (v : Byte) :
    Memory.wf (Memory.writeByte m a v) := by
  refine ⟨Memory.writeByte_pairwise hm.1 a v, fun c hc => ?_⟩
  rcases (Memory.mem_writeByte hm.1 a v c).mp hc with ⟨rfl, hv⟩ | ⟨hc, _⟩
  · exact ⟨ha, hv⟩
  · exact hm.2 c hc

theorem Memory.readByte_of_lt {m : List Host.Cell} {a : Nat} (h : ∀ c ∈ m, a < c.1) :
    Memory.readByte m a = Config.blankByte := by
  induction m with
  | nil => rfl
  | cons d m ih =>
    have hd := h d (by simp)
    rw [Memory.readByte, if_neg (by omega)]
    exact ih fun c hc => h c (by simp [hc])

/-- A byte read after a byte is written, in memory with rising addresses. -/
theorem Memory.readByte_writeByte {m : List Host.Cell} (hm : m.Pairwise fun x y => x.1 < y.1) (a b : Nat) (v : Byte) :
    Memory.readByte (Memory.writeByte m a v) b = if b = a then v else Memory.readByte m b := by
  induction m with
  | nil =>
    by_cases hv : v = Config.blankByte <;> by_cases hb : b = a <;>
      simp [Memory.writeByte, Memory.readByte, hv, hb, eq_comm]
    omega
  | cons d m ih =>
    obtain ⟨hd, hm'⟩ := List.pairwise_cons.mp hm
    have blank : ∀ x, x ≤ d.1 → Memory.readByte m x = Config.blankByte := fun x hx =>
      Memory.readByte_of_lt fun c hc => lt_of_le_of_lt hx (hd c hc)
    unfold Memory.writeByte
    split
    · next h =>
      split
      · next hv =>
        by_cases hb : b = a
        · subst hb
          simp [Memory.readByte, blank b h.le, hv, show ¬ d.1 = b by omega]
        · simp [hb]
      · by_cases hb : b = a
        · simp [Memory.readByte, hb]
        · simp [Memory.readByte, hb, show ¬ a = b by omega]
    · split
      · next h h' =>
        split
        · next hv =>
          by_cases hb : b = a
          · subst hb
            simp [blank b h'.ge, hv]
          · simp [Memory.readByte, hb, show ¬ d.1 = b by omega]
        · by_cases hb : b = a
          · simp [Memory.readByte, hb]
          · simp [Memory.readByte, hb, show ¬ a = b by omega, show ¬ d.1 = b by omega]
      · by_cases hb : b = a
        · subst hb
          simp [Memory.readByte, ih hm', show ¬ d.1 = b by omega]
        · simp [Memory.readByte, ih hm', hb]

/-! ## Words -/

theorem wordBase_lt (a k : Nat) (hk : k < 4) : wordBase a + k < Config.memoryBytes := by
  unfold wordBase Config.memoryBytes
  omega

/-- A word of the 64 MiB at a multiple of four is its own base. -/
theorem wordBase_of_aligned {a : Nat} (h : a % 4 = 0) (ha : a < Config.memoryBytes) : wordBase a = a := by
  unfold wordBase
  rw [Nat.mod_eq_of_lt ha]
  omega

theorem Memory.writeLane_wf {m : List Host.Cell} (hm : Memory.wf m) (a : Nat) (be : BitVec 4) (w : Word) (k : Nat)
    (hk : k < 4) : Memory.wf (Memory.writeLane m a be w k) := by
  unfold Memory.writeLane
  split
  · exact Memory.writeByte_wf hm (wordBase_lt a k hk) _
  · exact hm

/-- A written word keeps the canonical form. -/
theorem Memory.writeWord_wf {m : List Host.Cell} (hm : Memory.wf m) (a : Nat) (be : BitVec 4) (w : Word) :
    Memory.wf (Memory.writeWord m a be w) :=
  Memory.writeLane_wf (Memory.writeLane_wf (Memory.writeLane_wf (Memory.writeLane_wf hm a be w 0 (by omega)) a be w 1
    (by omega)) a be w 2 (by omega)) a be w 3 (by omega)

/-- Written words keep the canonical form. -/
theorem Memory.writeWords_wf {m : List Host.Cell} (hm : Memory.wf m) (a : Nat) (ws : List Word) :
    Memory.wf (Memory.writeWords m a ws) := by
  induction ws generalizing m a with
  | nil => exact hm
  | cons w ws ih => exact ih (Memory.writeWord_wf hm a 0xF w) (a + 4)

/-- Memory made from any cells has the canonical form. -/
theorem Memory.ofCells_wf (cells : List Host.Cell) : Memory.wf (Memory.ofCells cells) := by
  unfold Memory.ofCells
  have : ∀ m : List Host.Cell, Memory.wf m →
      Memory.wf (cells.foldl (fun m c => Memory.writeByte m (c.1 % Config.memoryBytes) c.2) m) := by
    induction cells with
    | nil => exact fun m hm => hm
    | cons c cells ih =>
      exact fun m hm => ih _ (Memory.writeByte_wf hm (Nat.mod_lt _ (by decide)) _)
  exact this [] ⟨List.Pairwise.nil, by simp⟩

theorem Memory.readByte_writeLane {m : List Host.Cell} (hm : Memory.wf m) (a : Nat) (be : BitVec 4) (w : Word) (k x : Nat) :
    Memory.readByte (Memory.writeLane m a be w k) x =
      if be.getLsbD k = true ∧ x = wordBase a + k then byteOf w k else Memory.readByte m x := by
  unfold Memory.writeLane
  split
  · next h => simp [Memory.readByte_writeByte hm.1, h]
  · next h => simp [h]

/-- A byte read after a word is written: the enabled bytes of the word, and every other byte as it was. -/
theorem Memory.readByte_writeWord {m : List Host.Cell} (hm : Memory.wf m) (a : Nat) (be : BitVec 4) (w : Word) (x : Nat) :
    Memory.readByte (Memory.writeWord m a be w) x =
      if wordBase a ≤ x ∧ x < wordBase a + 4 ∧ be.getLsbD (x - wordBase a) = true then byteOf w (x - wordBase a)
      else Memory.readByte m x := by
  have h0 := Memory.writeLane_wf hm a be w 0 (by omega)
  have h1 := Memory.writeLane_wf h0 a be w 1 (by omega)
  have h2 := Memory.writeLane_wf h1 a be w 2 (by omega)
  unfold Memory.writeWord
  rw [Memory.readByte_writeLane h2, Memory.readByte_writeLane h1, Memory.readByte_writeLane h0, Memory.readByte_writeLane hm]
  by_cases hx : wordBase a ≤ x ∧ x < wordBase a + 4
  · obtain ⟨k, rfl⟩ : ∃ k, x = wordBase a + k := ⟨x - wordBase a, by omega⟩
    have hk : k < 4 := by omega
    interval_cases k <;> simp
  · have : ∀ k < 4, x ≠ wordBase a + k := fun k hk h => hx (by omega)
    simp [this 1, this 2, this 3, show x ≠ wordBase a from this 0 (by omega)]
    grind

theorem byteOf_ofBytes (b0 b1 b2 b3 : Byte) :
    byteOf (ofBytes b0 b1 b2 b3) 0 = b0 ∧ byteOf (ofBytes b0 b1 b2 b3) 1 = b1 ∧ byteOf (ofBytes b0 b1 b2 b3) 2 = b2 ∧
      byteOf (ofBytes b0 b1 b2 b3) 3 = b3 := by
  refine ⟨?_, ?_, ?_, ?_⟩ <;> (unfold byteOf ofBytes; ext i hi; simp; grind)

theorem ofBytes_byteOf (w : Word) : ofBytes (byteOf w 0) (byteOf w 1) (byteOf w 2) (byteOf w 3) = w := by
  unfold byteOf ofBytes
  ext i hi
  simp only [BitVec.getElem_append, BitVec.getElem_extractLsb']
  grind

/-- A word read after a word is written at the same word: the merge of the two under the byte enables (R3, R25). -/
theorem Memory.readWord_writeWord_same {m : List Host.Cell} (hm : Memory.wf m) (a a' : Nat) (h : wordBase a' = wordBase a)
    (be : BitVec 4) (w : Word) :
    Memory.readWord (Memory.writeWord m a be w) a' = mergeWord (Memory.readWord m a') w be := by
  unfold Memory.readWord mergeWord mergeLane
  rw [h]
  simp only [Memory.readByte_writeWord hm]
  obtain ⟨h0, h1, h2, h3⟩ := byteOf_ofBytes (Memory.readByte m (wordBase a)) (Memory.readByte m (wordBase a + 1))
    (Memory.readByte m (wordBase a + 2)) (Memory.readByte m (wordBase a + 3))
  rw [h0, h1, h2, h3]
  simp

/-- A word read after another word is written is as it was. -/
theorem Memory.readWord_writeWord_other {m : List Host.Cell} (hm : Memory.wf m) (a a' : Nat) (h : wordBase a' ≠ wordBase a)
    (be : BitVec 4) (w : Word) : Memory.readWord (Memory.writeWord m a be w) a' = Memory.readWord m a' := by
  unfold Memory.readWord
  have h4 : wordBase a' % 4 = 0 ∧ wordBase a % 4 = 0 := by unfold wordBase; omega
  have : ∀ k < 4, Memory.readByte (Memory.writeWord m a be w) (wordBase a' + k) = Memory.readByte m (wordBase a' + k) := by
    intro k hk
    rw [Memory.readByte_writeWord hm, if_neg]
    rintro ⟨h1, h2, -⟩
    omega
  rw [this 1 (by omega), this 2 (by omega), this 3 (by omega)]
  have h0 := this 0 (by omega)
  rw [Nat.add_zero] at h0
  rw [h0]

/-- All four bytes written is the new word. -/
theorem mergeWord_full (old w : Word) : mergeWord old w 0xF = w := by
  have h : ∀ k < 4, mergeLane old w 0xF k = byteOf w k := by
    intro k hk
    unfold mergeLane
    interval_cases k <;> simp
  unfold mergeWord
  rw [h 0 (by omega), h 1 (by omega), h 2 (by omega), h 3 (by omega), ofBytes_byteOf]

/-- No byte written leaves the old word. -/
theorem mergeWord_none (old w : Word) : mergeWord old w 0 = old := by
  unfold mergeWord mergeLane
  simpa using ofBytes_byteOf old

end Sys2Proof.Machine
end

