-- ==== Sys2Proof/Laws/Ring.lean ====
section
/-! SUPPORT. Each buffer record after each change of a ring, and what the moves of a side leave of it. -/

namespace Sys2Proof.Machine

open Sys2Proof.Safety

theorem off_buf (a : Option ActiveSet) (b : Fin 3) : (SideState.off a).ring.buf b = .cleared := by
  match b with
  | 0 => rfl
  | 1 => rfl
  | 2 => rfl

theorem setBuf_self (r : BufferRing) (b : Fin 3) : r.setBuf b (r.buf b) = r := by
  match b with
  | 0 => rfl
  | 1 => rfl
  | 2 => rfl

theorem setBuf_setBuf (r : BufferRing) (b : Fin 3) (x y : BufRecord) : (r.setBuf b x).setBuf b y = r.setBuf b y := by
  match b with
  | 0 => rfl
  | 1 => rfl
  | 2 => rfl

theorem buf_of_marks (r : BufferRing) (n : BitVec 16) (l : Option Word) (e : Nat) (m : Bool) (d : Nat) (c : Fin 3) :
    ({ r with nextSeq := n, lastVerified := l, equalRun := e, frozenMark := m, dropped := d } : BufferRing).buf c =
      r.buf c := by
  match c with
  | 0 => rfl
  | 1 => rfl
  | 2 => rfl

theorem stepRun_buf (sig : Word) (r : BufferRing) (c : Fin 3) : (stepRun sig r).buf c = r.buf c := by
  unfold stepRun
  split
  · exact buf_of_marks r _ _ _ _ _ c
  · exact buf_of_marks r _ _ _ _ _ c

theorem startRing_buf (now : Word) (p : Nat) (b : Fin 3) (r : BufferRing) (c : Fin 3) :
    (startRing now p b r).buf c = if c = b then startRecord now r.nextSeq p (r.buf b) else r.buf c := by
  unfold startRing
  rw [buf_of_marks, buf_setBuf]

/-- The cut of another FILLING frame (R72). -/
theorem cutOtherSide_buf (b c : Fin 3) (x : SideState) :
    (cutOtherSide b x).ring.buf c =
      if x.ring.filling = some c ∧ c ≠ b then cutRecord (x.ring.buf c) else x.ring.buf c := by
  unfold cutOtherSide
  cases hf : x.ring.filling with
  | none => simp
  | some d =>
    simp only
    split
    · next e => subst e; rw [if_neg]; rintro ⟨h1, h2⟩; cases h1; exact h2 rfl
    · next e =>
      rw [buf_setBuf]
      by_cases hc : c = d
      · subst hc; simp [e]
      · rw [if_neg hc, if_neg]; rintro ⟨h1, _⟩; cases h1; exact hc rfl

theorem freeShowing_buf (r : BufferRing) (c : Fin 3) :
    (freeShowing r).buf c = if r.showing = some c then withState .free (r.buf c) else r.buf c := by
  unfold freeShowing
  cases hs : r.showing with
  | none => simp
  | some d =>
    simp only [buf_setBuf]
    by_cases hc : c = d
    · subst hc; simp
    · rw [if_neg hc, if_neg (by simpa using fun h : d = c => hc h.symm)]

/-- The scan-start notice (R79). -/
theorem scanNotice_buf (b : Fin 3) (r : BufferRing) (c : Fin 3) :
    (scanNotice b r).buf c =
      if (r.buf b).state = .ready then
        (if c = b then withState .showing (r.buf b)
         else if r.showing = some c then withState .free (r.buf c)
         else r.buf c)
      else r.buf c := by
  unfold scanNotice
  split
  · rw [buf_setBuf, freeShowing_buf]
  · rfl

theorem find_unique {r : BufferRing} {st : BufState} {b : Fin 3} (h : (r.buf b).state = st)
    (hu : ∀ c, (r.buf c).state = st → c = b) : r.find st = some b := by
  cases hf : r.find st with
  | none => exact absurd h (find_none hf b)
  | some c => rw [hu c (find_spec hf)]

theorem filling_some {x : SideState} (hr : RingLaw x) {b : Fin 3} (h : (x.ring.buf b).state = .filling) :
    x.ring.filling = some b :=
  find_unique h fun c hc => (hr c b).1 hc h

theorem showing_some {x : SideState} (hr : RingLaw x) {b : Fin 3} (h : (x.ring.buf b).state = .showing) :
    x.ring.showing = some b :=
  find_unique h fun c hc => (hr c b).2 hc h

theorem filling_isSome (r : BufferRing) : r.filling.isSome = true ↔ ∃ b, (r.buf b).state = .filling := by
  constructor
  · intro h
    obtain ⟨b, hb⟩ := Option.isSome_iff_exists.mp h
    exact ⟨b, find_spec hb⟩
  · rintro ⟨b, hb⟩
    cases h : r.filling with
    | some _ => rfl
    | none => exact absurd hb (find_none h b)

/-! ## What the moves of a side leave -/

theorem faultSide_leaves (now : Word) (k : SideKind) (x : SideState) :
    (faultSide now k x).ring = x.ring ∧ (faultSide now k x).frameProfile = x.frameProfile ∧
      (faultSide now k x).scan = x.scan ∧ (faultSide now k x).glare = x.glare ∧ (faultSide now k x).active = x.active ∧
      (faultSide now k x).takeWaiting = x.takeWaiting := by
  unfold faultSide
  split <;> exact ⟨rfl, rfl, rfl, rfl, rfl, rfl⟩

theorem judgeSide_leaves (now : Word) (a : ActiveSet) (b : Fin 3) (st : BufState) (x : SideState) :
    (judgeSide now a b st x).ring = x.ring ∧ (judgeSide now a b st x).frameProfile = x.frameProfile ∧
      (judgeSide now a b st x).glare = x.glare ∧ (judgeSide now a b st x).active = x.active ∧
      (judgeSide now a b st x).takeWaiting = x.takeWaiting ∧
      (judgeSide now a b st x).scan.unchecked = x.scan.unchecked := by
  unfold judgeSide judgeReadySide
  dsimp only
  split
  · split
    · obtain ⟨h1, h2, h3, h4, h5, h6⟩ :=
        faultSide_leaves now .latency { x with scan := { x.scan with lastLatency := latencyOf now b x } }
      exact ⟨h1, h2, h4, h5, h6, by rw [h3]⟩
    · split <;> exact ⟨rfl, rfl, rfl, rfl, rfl, rfl⟩
  · split
    · next k _ =>
      obtain ⟨h1, h2, h3, h4, h5, h6⟩ := faultSide_leaves now k x
      exact ⟨h1, h2, h4, h5, h6, by rw [h3]⟩
    · exact ⟨rfl, rfl, rfl, rfl, rfl, rfl⟩

theorem scanStartSide_leaves (now : Word) (a : ActiveSet) (b : Fin 3) (x : SideState) :
    (scanStartSide now a b x).ring = scanNotice b x.ring ∧ (scanStartSide now a b x).frameProfile = x.frameProfile ∧
      (scanStartSide now a b x).glare = x.glare ∧ (scanStartSide now a b x).active = x.active ∧
      (scanStartSide now a b x).takeWaiting = x.takeWaiting ∧
      (scanStartSide now a b x).scan.record = some (newScanRecord b (scanRedirect b x) now) ∧
      (scanStartSide now a b x).view = (judgeSide now a b (x.ring.buf b).state (noticeSide b x)).view ∧
      (scanStartSide now a b x).scan.unchecked = (endOpenScan x.scan).unchecked := by
  obtain ⟨h1, h2, h3, h4, h5, h6⟩ := judgeSide_leaves now a b (x.ring.buf b).state (noticeSide b x)
  exact ⟨h1, h2, h3, h4, h5, rfl, rfl, h6⟩

/-- The four ways a side takes a set end in three forms (R45). -/
theorem takeSet_cases (now : Word) (a : ActiveSet) (x : SideState) (P : SideState → Prop)
    (h1 : P { x with active := some a, takeWaiting := false }) (h2 : P (.off (some a))) (h3 : P (enabledSide now a)) :
    P (takeSet now a x) := by
  unfold takeSet
  (repeat' split) <;> assumption

end Sys2Proof.Machine
end

