-- ==== Sys2Proof/Laws/Words.lean ====
section
/-! SUPPORT. The words of a transfer, the numbers that words hold, and what handling the next word comes down to. -/

namespace Sys2Proof.Machine

open Sys2Proof.Safety

/-! ## Burst order -/

theorem wordCount_cases (t : Transfer) :
    t.wordCount = 1 ∨ t.wordCount = 4 ∨ t.wordCount = 8 ∨ t.wordCount = 16 := by
  unfold Transfer.wordCount
  split <;> simp

theorem wordAddress_eq (t : Transfer) (i : Nat) :
    wordAddress t i = t.address.toNat / (4 * t.wordCount) * (4 * t.wordCount) +
      4 * ((t.address.toNat / 4 % t.wordCount + i) % t.wordCount) := by
  unfold wordAddress
  rcases wordCount_cases t with h | h | h | h <;> simp only [h] <;> omega

theorem wordAddress_aligned (t : Transfer) (i : Nat) : wordAddress t i % 4 = 0 := by
  rw [wordAddress_eq]
  rcases wordCount_cases t with h | h | h | h <;> rw [h] <;> omega

theorem wordAddress_lt (t : Transfer) (i : Nat) : wordAddress t i < Config.memoryBytes := by
  have := t.address.isLt
  rw [wordAddress_eq]
  unfold Config.memoryBytes
  rcases wordCount_cases t with h | h | h | h <;> rw [h] <;> omega

/-- Every word of a transfer lies in the aligned 64 bytes of its address. -/
theorem wordAddress_block (t : Transfer) (i : Nat) : wordAddress t i / 64 = t.address.toNat / 64 := by
  rw [wordAddress_eq]
  rcases wordCount_cases t with h | h | h | h <;> rw [h] <;> omega

/-! ## The next word -/

/-- All that a next word says: its transfer, its place, its address and its kind. -/
theorem currentWord_spec {s : State} {h : InHand} {a : Nat} {k : WordKind} (hw : s.currentWord = some (h, a, k)) :
    s.inHand = some h ∧ h.handled < h.transfer.wordCount ∧ a = wordAddress h.transfer h.handled ∧
      k = classify h.snapshot a ∧ a % 4 = 0 ∧ a < Config.memoryBytes := by
  unfold State.currentWord at hw
  split at hw
  · next h' hh =>
    split at hw
    · next hl =>
      cases hw
      exact ⟨hh, hl, rfl, rfl, wordAddress_aligned _ _, wordAddress_lt _ _⟩
    · cases hw
  · cases hw

/-- The command whose direction and kind the next word has handles it. -/
theorem onWord_of_next {s : State} {w : Bool} {h : InHand} {a : Nat} {k : WordKind} {accepts : BitVec 4 → WordKind → Bool}
    {effect : InHand → Nat → WordKind → State → State} (hw : NextWord s w h a k)
    (ha : accepts (enablesOf h.transfer) k = true) : onWord w accepts effect s = effect h a k s := by
  unfold onWord
  rw [hw.1]
  simp [hw.2, ha]

/-- A command whose direction or kind the next word has not is not taken. -/
theorem onWord_of_other {s : State} {w : Bool} {h : InHand} {a : Nat} {k : WordKind} {accepts : BitVec 4 → WordKind → Bool}
    {effect : InHand → Nat → WordKind → State → State} (hw : s.currentWord = some (h, a, k))
    (ha : h.transfer.write = w → accepts (enablesOf h.transfer) k = false) : onWord w accepts effect s = s := by
  unfold onWord
  rw [hw]
  by_cases e : h.transfer.write = w <;> simp [e, ha]

theorem onWord_of_none {s : State} {w : Bool} {accepts : BitVec 4 → WordKind → Bool}
    {effect : InHand → Nat → WordKind → State → State} (hw : s.currentWord = none) : onWord w accepts effect s = s := by
  unfold onWord
  rw [hw]

/-- Where no quiet status word is next, TRANSFER_END answers none first. -/
theorem answerRest_of_not_quiet {s : State}
    (h : s.currentWord = none ∨ ∃ i a k, s.currentWord = some (i, a, k) ∧
      (i.transfer.write = true ∨ isQuietStatus (enablesOf i.transfer) k = false)) (n : Nat) : answerRest n s = s := by
  have e : onWord false isQuietStatus answerStatus s = s := by
    rcases h with h | ⟨i, a, k, h, hw⟩
    · exact onWord_of_none h
    · exact onWord_of_other h fun hf => by simpa [hf] using hw
  induction n with
  | zero => rfl
  | succ n ih => rw [answerRest, e, ih]

theorem currentWord_of_allHandled {s : State} {h : InHand} (hh : s.inHand = some h) (ha : h.allHandled = true) :
    s.currentWord = none := by
  unfold State.currentWord InHand.allHandled at *
  rw [hh]
  simp only [decide_eq_true_eq] at ha
  exact if_neg (by omega)

/-- Where the last word has been handled, TRANSFER_END makes the deferred effects and answers COMPLETE. -/
theorem execTransferEnd_of_allHandled {s : State} {h : InHand} (hh : s.inHand = some h) (ha : h.allHandled = true) :
    execTransferEnd s = .next (takeRequest (answerComplete h (deferredEffects h s))) := by
  unfold execTransferEnd
  rw [answerRest_of_not_quiet (.inl (currentWord_of_allHandled hh ha))]
  simp [endTransfer, hh, ha]

/-! ## Words written -/

/-- A word written at a word address is stored as `Stored` says. -/
theorem stored_writeWord {m : List Host.Cell} (hm : Memory.wf m) {a : Nat} (h4 : a % 4 = 0) (hl : a < Config.memoryBytes)
    (be : BitVec 4) (w : Word) : Stored m (Memory.writeWord m a be w) a be w := by
  have hb := wordBase_of_aligned h4 hl
  refine ⟨fun k hk => ?_, fun x hx => ?_⟩
  · rw [Memory.readByte_writeWord hm, hb, Nat.add_sub_cancel_left]
    by_cases hbe : be.getLsbD k = true
    · rw [if_pos ⟨by omega, by omega, hbe⟩, if_pos hbe]
    · rw [if_neg (by tauto), if_neg hbe]
  · rw [Memory.readByte_writeWord hm, hb, if_neg (by omega)]

theorem byteOf_mergeWord (old new : Word) (be : BitVec 4) (k : Nat) (hk : k < 4) :
    byteOf (mergeWord old new be) k = if be.getLsbD k then byteOf new k else byteOf old k := by
  obtain ⟨h0, h1, h2, h3⟩ := byteOf_ofBytes (mergeLane old new be 0) (mergeLane old new be 1) (mergeLane old new be 2)
    (mergeLane old new be 3)
  unfold mergeWord
  rcases k with _ | _ | _ | _ | k
  · exact h0
  · exact h1
  · exact h2
  · exact h3
  · omega

theorem anyEnabled_iff (be : BitVec 4) : anyEnabled be = true ↔ be ≠ 0 := by simp [anyEnabled]

theorem anyEnabled_eq_false_iff (be : BitVec 4) : anyEnabled be = false ↔ be = 0 := by simp [anyEnabled]

/-! ## Numbers in words -/

theorem toNat_toWord (n : Nat) : (toWord n).toNat = n % 4294967296 := by simp [toWord]

theorem getLsbD_toWord (n k : Nat) (hk : k < 32) : (toWord n).getLsbD k = decide (n / 2 ^ k % 2 = 1) := by
  rw [toWord, BitVec.getLsbD_ofNat]
  simp [hk, Nat.testBit_eq_decide_div_mod_eq]

theorem flag_le (b : Bool) : flag b ≤ 1 := by unfold flag; split <;> omega

/-! ## Status words -/

theorem statusWord_side (s : State) (sd : Side) (n : Nat) (hn : n < 8) :
    statusWord s (sideStatusBase sd + 4 * n) = sideStatusWord (s.side sd) n := by
  unfold statusWord
  have e : (3648 + 4 * n - 3648) / 4 = n ∧ (3776 + 4 * n - 3776) / 4 = n := by omega
  cases sd
  · rw [show sideStatusBase .left = 3648 from rfl, if_neg (by omega), if_pos (by omega), e.1]
    rfl
  · rw [show sideStatusBase .right = 3776 from rfl, if_neg (by omega), if_neg (by omega), if_neg (by omega),
      if_pos (by omega), e.2]
    rfl

theorem statusWord_map (s : State) (sd : Side) (n : Nat) (hn : n < 24) :
    statusWord s (sideStatusBase sd + 0x20 + 4 * n) = mapWord (s.side sd).glare n := by
  unfold statusWord
  have e : (3648 + 0x20 + 4 * n - 3680) / 4 = n ∧ (3776 + 0x20 + 4 * n - 3808) / 4 = n := by omega
  cases sd
  · rw [show sideStatusBase .left = 3648 from rfl, if_neg (by omega), if_neg (by omega), if_pos (by omega), e.1]
    rfl
  · rw [show sideStatusBase .right = 3776 from rfl, if_neg (by omega), if_neg (by omega), if_neg (by omega),
      if_neg (by omega), if_pos (by omega), e.2]
    rfl

/-! ## The pending set of faults -/

theorem firstPending_of_first {l : List Nat} {i n : Nat} (h1 : l[i]? = some n) (h2 : 0 < n)
    (h3 : ∀ j, j < i → l[j]? = some 0) : firstPending l = some i := by
  induction l generalizing i with
  | nil => simp at h1
  | cons c r ih =>
    unfold firstPending
    cases i with
    | zero =>
      simp only [List.getElem?_cons_zero, Option.some.injEq] at h1
      subst h1
      simp [h2]
    | succ i =>
      have hc : c = 0 := by simpa using h3 0 (by omega)
      subst hc
      rw [if_neg (by omega), ih (by simpa using h1) (fun j hj => by simpa using h3 (j + 1) (by omega))]
      rfl

theorem firstPending_of_clear {l : List Nat} (h : ∀ n ∈ l, n = 0) : firstPending l = none := by
  induction l with
  | nil => rfl
  | cons c r ih =>
    unfold firstPending
    have := h c (.head _)
    rw [if_neg (by omega), ih fun n hn => h n (.tail _ hn)]
    rfl

theorem firstPending_lt {l : List Nat} {i : Nat} (h : firstPending l = some i) : i < l.length := by
  induction l generalizing i with
  | nil => cases h
  | cons c r ih =>
    unfold firstPending at h
    split at h
    · cases h
      simp
    · cases hr : firstPending r with
      | none => simp [hr] at h
      | some j =>
        simp only [hr, Option.map_some, Option.some.injEq] at h
        have := ih hr
        simp only [List.length_cons]
        omega

/-! ## Buffers -/

theorem bufferOf_of_inRegion {g : Geometry} {a : Nat} {b : Fin 3}
    (hd : (bufferRegions g).Pairwise fun r q => ∀ x, ¬(inRegion r x ∧ inRegion q x))
    (h : inRegion (g.base b, g.w * g.h * 4) a) : bufferOf g a = some (b, (a - g.base b) / 4) := by
  unfold bufferOf Geometry.size
  simp only [bufferRegions, Geometry.size, List.pairwise_cons, List.mem_cons, List.not_mem_nil, or_false,
    forall_eq_or_imp, forall_eq, inRegion] at hd h
  obtain ⟨⟨h01, h02⟩, h12, _⟩ := hd
  match b with
  | 0 => simp only [Geometry.base] at h ⊢; rw [if_pos h]
  | 1 => simp only [Geometry.base] at h ⊢; rw [if_neg (fun c => h01 a ⟨c, h⟩), if_pos h]
  | 2 =>
    simp only [Geometry.base] at h ⊢
    rw [if_neg (fun c => h02 a ⟨c, h⟩), if_neg (fun c => h12 a ⟨c, h⟩), if_pos h]

theorem bufferOf_spec {g : Geometry} {a : Nat} {b : Fin 3} {o : Nat} (h : bufferOf g a = some (b, o)) :
    (g.base b, g.size * 4) ∈ bufferRegions g ∧ inRegion (g.base b, g.size * 4) a ∧ o = (a - g.base b) / 4 := by
  unfold bufferOf at h
  unfold bufferRegions
  split at h
  · cases h
    exact ⟨.head _, by assumption, rfl⟩
  · split at h
    · cases h
      exact ⟨.tail _ (.head _), by assumption, rfl⟩
    · split at h
      · cases h
        exact ⟨.tail _ (.tail _ (.head _)), by assumption, rfl⟩
      · cases h

end Sys2Proof.Machine
end

