-- ==== Sys2Proof/Laws/Scan.lean ====
section
/-! SUPPORT. What BUFFER_WORD_READ does, and a served scan word in the words of the statements. -/

namespace Sys2Proof.Machine

open Sys2Proof.Safety

/-- A buffer read is served, after a scan start where it makes one that is not stuck (R106, R111). -/
theorem exec_bufferWordRead {s : State} {h : InHand} {addr : Nat} {sd : Side} {b : Fin 3} {o : Nat} {a : ActiveSet}
    (hw : NextWord s false h addr (.buffer sd b o)) (ha : (s.side sd).inForce = some a)
    (hs : startsScan h o = false ∨ scanStartStuck b (s.side sd) = false) :
    exec .bufferWordRead s =
      .next (serveBufferWord sd a b o addr (if startsScan h o then openScan sd a b s else s)) := by
  simp only [exec, execBufferWordRead]
  have : s.readStuck = false := by
    unfold State.readStuck
    rw [hw.1]
    simp only [ha]
    rcases hs with hs | hs <;> simp [hs]
  rw [this, onWord_of_next hw rfl]
  simp only [bufferRead, ha]
  simp

/-- A scan start that does not take the view to HOLDING leaves no expiry to be taken before the first word (R129). -/
theorem openScan_eq_scanStart {sd : Side} {a : ActiveSet} {b : Fin 3} {s : State}
    (h : (s.side sd).view.state ≠ .holding → ((scanStart sd a b s).side sd).view.state ≠ .holding) :
    openScan sd a b s = scanStart sd a b s := by
  unfold openScan expiryReadyAtStart
  dsimp only
  rw [if_neg fun e => h e.1 e.2]

/-- A scan start that takes the view to HOLDING leaves the expiry of the hold timer it loads, if that is due (R129). -/
theorem openScan_of_holding {sd : Side} {a : ActiveSet} {b : Fin 3} {s : State} {tm : Timer}
    (h : (s.side sd).view.state ≠ .holding) (h' : ((scanStart sd a b s).side sd).view.state = .holding)
    (ht : ((scanStart sd a b s).side sd).view.hold = some tm) :
    openScan sd a b s =
      if tm.due s.timebase then expireAtStart sd tm (scanStart sd a b s) else scanStart sd a b s := by
  unfold openScan expiryReadyAtStart
  dsimp only
  rw [if_pos ⟨h, h'⟩, ht, scanStart_timebase, Option.filter_some]
  cases tm.due s.timebase <;> rfl

theorem startsScan_eq_false {h : InHand} {o : Nat} (hh : h.handled ≠ 0 ∨ o ≠ 0) : startsScan h o = false := by
  unfold startsScan
  rcases hh with hh | hh <;> simp [hh]

theorem markerWord_eq (s : State) : s.markerWord = markerOf s := by
  unfold State.markerWord markerOf
  cases s.cau.device with
  | none => rfl
  | some d =>
    simp only
    apply BitVec.eq_of_toNat_eq
    rw [BitVec.toNat_and]
    have : (0x00FFFFFF : Word).toNat = 2 ^ 24 - 1 := by decide
    rw [this, Nat.and_two_pow_sub_one_eq_mod, BitVec.toNat_ofNat]
    omega

theorem inBorder_eq (s : State) (g : Geometry) (o : Nat) : inBorder g s.borderWidth o = borderedBy s g o := by
  unfold inBorder borderedBy State.borderWidth columnX lineY
  cases s.cau.device with
  | none => simp
  | some d => simp

/-- The end of a served scan word. -/
theorem finishWord_markScanDone (sd : Side) (g : Geometry) (h : InHand) (o : Nat) (w : Word) {t : State}
    (ht : t.inHand = some h) :
    finishWord [w] (markScanDone sd g o t) =
      { t with
        inHand := some { handled h [w] with scanDone := if o + 1 = g.w * g.h then some sd else h.scanDone } } := by
  unfold markScanDone finishWord modInHand
  by_cases hl : o + 1 = g.w * g.h
  · rw [if_pos (by exact hl), if_pos hl]; simp [ht, handled]
  · rw [if_neg (by exact hl), if_neg hl]; simp [ht, handled]

theorem endOpenScan_eq (c : Scan) : endOpenScan c = { c with unchecked := uncheckedAfterStart c } := by
  unfold endOpenScan uncheckedAfterStart
  cases hr : c.record with
  | none => cases c; simp_all
  | some r =>
    simp only
    split
    · cases c; simp_all
    · simp [countUnchecked, saturate, hr]

/-- A scan start on a READY buffer sets no redirect target (R107). -/
theorem scanRedirect_of_ready {b : Fin 3} {x : SideState} (h : (x.ring.buf b).state = .ready) : scanRedirect b x = none := by
  unfold scanRedirect; rw [h]; rfl

theorem scanNotice_of_not_ready {b : Fin 3} {r : BufferRing} (h : (r.buf b).state ≠ .ready) : scanNotice b r = r := by
  unfold scanNotice; rw [if_neg h]

end Sys2Proof.Machine
end

