-- ==== Sys2Proof/Laws/Store.lean ====
section
/-! SUPPORT. The laws that keep the pending set equal to memory, apart from those of the sides and of the transfer in hand,
and what each shared operation does to them. -/

namespace Sys2Proof.Machine

open Sys2Proof.Safety

/-- The laws of `StoreLaw` but those of the sides and of the transfer in hand. -/
structure StoreCore (s : State) : Prop where
  mem : MemoryLaw s
  own : OwnAccessLaw s
  start : StartLaw s
  boot : BootLaw s
  acc : AcceptedLaw s
  inf : InForceLaw s
  emp : EmptyLaw s
  wi : WriteIndexLaw s
  record : RecordWriteLaw s
  mir : MirrorLaw s

theorem storeLaw_iff (s : State) : StoreLaw s ↔ StoreCore s ∧ OfSides OffLaw s ∧ TransferLaw s := by
  constructor
  · rintro ⟨h1, ⟨h2, h3, h4, h5⟩, h6, ⟨h7, h8, h9⟩, h10, h11, h12⟩
    exact ⟨⟨h1, h2, h3, h4, h7, h8, h9, h10, h11, h12⟩, h6, h5⟩
  · rintro ⟨⟨h1, h2, h3, h4, h7, h8, h9, h10, h11, h12⟩, h6, h5⟩
    exact ⟨h1, ⟨h2, h3, h4, h5⟩, h6, ⟨h7, h8, h9⟩, h10, h11, h12⟩

theorem recordWriteOutstanding_iff (m : Mct) :
    recordWriteOutstanding m = true ↔ ∃ x ∈ ownAccesses m, x.isRecordWrite = true := by
  obtain ⟨bus, banks, n, i, q⟩ := m
  unfold recordWriteOutstanding recordWriteWaiting recordWriteRunning ownAccesses runningAccess
  cases bus <;> simp [or_comm]

theorem recordWrites_of_not_outstanding (m : Mct) (h : recordWriteOutstanding m = false) :
    (ownAccesses m).filter OwnAccess.isRecordWrite = [] := by
  rw [List.filter_eq_nil_iff]
  intro x hx hr
  have := (recordWriteOutstanding_iff m).mpr ⟨x, hx, hr⟩
  rw [h] at this; cases this

theorem side_inForce_congr {x y : SideState} (h : y.active = x.active) : y.inForce = x.inForce := by
  unfold SideState.inForce; rw [h]

theorem notStarted_congr {s t : State} (h1 : t.resetHeld = s.resetHeld)
    (h2 : t.mct.bus = s.mct.bus) : NotStarted t ↔ NotStarted s := by
  unfold NotStarted; rw [h1, h2]

theorem runningAccess_congr {s t : State}
    (h : t.mct.bus = s.mct.bus) : runningAccess t.mct = runningAccess s.mct := by
  unfold runningAccess; rw [h]

theorem device_none_of_not_started {s : State} (h : StoreCore s) (hn : NotStarted s) : s.cau.device = none :=
    (h.emp hn).2.1

/-- What touches only the sides and the fault unit keeps them (R152). -/
theorem core_quiet {s t : State} (h : StoreCore s) (q : Quiet s t) : StoreCore t := by
  have hns := notStarted_congr q.resetHeld q.bus
  have hrun := runningAccess_congr q.bus
  obtain ⟨more, hmore⟩ := q.records
  have hact : ∀ sd, (t.side sd).active = (s.side sd).active := fun sd => (q.sides sd).1
  have hinf : ∀ sd, (t.side sd).inForce = (s.side sd).inForce := fun sd => side_inForce_congr (hact sd)
  -- the accesses
  have hacc : (ownAccesses t.mct = ownAccesses s.mct) ∨ ∃ d r rest, s.cau.device = some d ∧ t.flu.queue = r :: rest ∧ ringFull s.flu d = false ∧ recordWriteOutstanding s.mct = false ∧ ownAccesses t.mct = ownAccesses s.mct ++ [.recordWrite (recordSlot d s.flu) r.words] := by
    rcases q.queue with hq | ⟨d, r, rest, h1, h2, h3, h4, h5⟩
    · left; unfold ownAccesses; rw [hrun, hq]
    · right; refine ⟨d, r, rest, h1, h2, h3, h4, ?_⟩
      unfold ownAccesses; rw [hrun, h5]; simp
  have hboot : (ownAccesses t.mct).filter isBootRead = (ownAccesses s.mct).filter isBootRead := by
    rcases hacc with e | ⟨d, r, rest, h1, h2, h3, h4, h5⟩
    · rw [e]
    · rw [h5]; simp [isBootRead, OwnAccess.isRecordWrite]
  refine ⟨?_, ?_, ?_, ?_, ?_, ?_, ?_, ?_, ?_, ?_⟩
  · have := h.mem; unfold MemoryLaw at *; rw [q.mem]; exact this
  · refine ⟨?_, by rw [hboot]; exact h.own.2⟩
    rcases hacc with e | ⟨d, r, rest, h1, h2, h3, h4, h5⟩
    · rw [e]; exact h.own.1
    · rw [h5, List.filter_append, recordWrites_of_not_outstanding _ h4]; exact List.length_filter_le _ _
  · refine ⟨by rw [q.intervalRunning, hns]; exact h.start.1, by rw [q.resetHeld, q.bus, q.timebase]; exact h.start.2.1, fun hn => ?_⟩
    have hn := hns.mp hn
    obtain ⟨a1, a2, a3, a4⟩ := h.start.2.2 hn
    refine ⟨?_, by rw [q.cau]; exact a2, by rw [q.cau]; exact a3, by rw [q.inHand]; exact a4⟩
    rcases hacc with e | ⟨d, r, rest, h1, _⟩
    · rw [e]; exact a1
    · rw [device_none_of_not_started h hn] at h1; cases h1
  · obtain ⟨b1, b2, b3⟩ := h.boot
    refine ⟨?_, ?_, ?_⟩
    · rw [q.cau]; intro hc
      obtain ⟨c1, c2, c3, c4⟩ := b1 hc
      exact ⟨c1, c2, (hact .left).trans c3, (hact .right).trans c4⟩
    · rw [q.cau, hns, hboot]; exact b2
    · rw [q.cau, hboot]; exact b3
  · have := h.acc; unfold AcceptedLaw at *; rw [q.cau]; exact this
  · intro sd
    obtain ⟨i1, i2⟩ := h.inf sd
    rw [hinf, q.cau, (q.sides sd).2]
    refine ⟨i1, i2⟩
  · intro hn
    obtain ⟨e1, e2, e3⟩ := h.emp (hns.mp hn)
    rw [q.cau]
    exact ⟨e1, e2, fun sd => (hact sd).trans (e3 sd)⟩
  · have := h.wi; unfold WriteIndexLaw at *; rw [q.cau, q.writeIndex]; exact this
  · intro a ws ha
    have old : OwnAccess.recordWrite a ws ∈ ownAccesses s.mct → ∃ d r rest, t.cau.device = some d ∧ t.flu.queue = r :: rest ∧ a = d.ringBase + t.flu.writeIndex * 16 ∧ ws = r.words ∧
      t.flu.writeIndex < d.ringCapacity ∧ ringFull t.flu d = false := by
      intro ha
      obtain ⟨d, r, rest, r1, r2, r3, r4, r5, r6⟩ := h.record a ws ha
      exact ⟨d, r, rest ++ more, by rw [q.cau]; exact r1, by rw [hmore, r2]; rfl, by rw [q.writeIndex]; exact r3, r4, by rw [q.writeIndex]; exact r5, by rw [ringFull_congr q.writeIndex q.readIndex]; exact r6⟩
    rcases hacc with e | ⟨d, r, rest, h1, h2, h3, h4, h5⟩
    · rw [e] at ha; exact old ha
    · rw [h5, List.mem_append] at ha
      rcases ha with ha | ha
      · exact old ha
      · simp only [List.mem_singleton, OwnAccess.recordWrite.injEq] at ha
        obtain ⟨rfl, rfl⟩ := ha
        have hw := h.wi
        unfold WriteIndexLaw at hw
        rw [h1] at hw
        exact ⟨d, r, rest, by rw [q.cau]; exact h1, h2, by rw [q.writeIndex]; rfl, rfl, by rw [q.writeIndex]; exact hw, by rw [ringFull_congr q.writeIndex q.readIndex]; exact h3⟩
  · have := h.mir; unfold MirrorLaw at *; rw [q.cau, q.mem]; exact this

/-- So does a change of the fields that none of them names. -/
theorem core_of {s t : State} (h : StoreCore s) (h1 : t.resetHeld = s.resetHeld)
    (h2 : t.timebase = s.timebase ∨ s.resetHeld = false) (h3 : t.mct.bus = s.mct.bus)
    (h4 : t.mct.queue = s.mct.queue) (h5 : t.mct.intervalRunning = s.mct.intervalRunning) (h6 : t.cau = s.cau)
    (h7 : t.left = s.left) (h8 : t.right = s.right) (h9 : t.flu = s.flu) (h10 : t.mem = s.mem)
    (h11 : s.inHand = none → t.inHand = none) : StoreCore t := by
  have hns := notStarted_congr h1 h3
  have hacc : ownAccesses t.mct = ownAccesses s.mct := by unfold ownAccesses; rw [runningAccess_congr h3, h4]
  have hside : ∀ sd, t.side sd = s.side sd := fun sd => side_congr h7 h8 sd
  refine ⟨?_, ?_, ?_, ?_, ?_, ?_, ?_, ?_, ?_, ?_⟩
  · have := h.mem; unfold MemoryLaw at *; rw [h10]; exact this
  · have := h.own; unfold OwnAccessLaw at *; rw [hacc]; exact this
  · obtain ⟨a1, a2, a3⟩ := h.start
    refine ⟨by rw [h5, hns]; exact a1, ?_, ?_⟩
    · rw [h1, h3]; intro hr; refine ⟨(a2 hr).1, ?_⟩
      rcases h2 with h2 | h2
      · rw [h2]; exact (a2 hr).2
      · rw [hr] at h2; cases h2
    · rw [hns, hacc, h6]; intro hn; obtain ⟨b1, b2, b3, b4⟩ := a3 hn; exact ⟨b1, b2, b3, h11 b4⟩
  · have := h.boot; unfold BootLaw at *; rw [hns, hacc, h6, h7, h8]; exact this
  · have := h.acc; unfold AcceptedLaw at *; rw [h6]; exact this
  · intro sd; rw [hside, h6]; exact h.inf sd
  · intro hn; obtain ⟨e1, e2, e3⟩ := h.emp (hns.mp hn); rw [h6]; exact ⟨e1, e2, fun sd => by rw [hside]; exact e3 sd⟩
  · have := h.wi; unfold WriteIndexLaw at *; rw [h6, h9]; exact this
  · have := h.record; unfold RecordWriteLaw at *; rw [hacc, h6, h9]; exact this
  · have := h.mir; unfold MirrorLaw at *; rw [h6, h10]; exact this

theorem core_modInHand {s : State} (h : StoreCore s) (f : InHand → InHand) : StoreCore (modInHand f s) :=
  core_of h rfl (.inl rfl) rfl rfl rfl rfl rfl rfl rfl rfl (by intro e; simp [modInHand, e])

theorem core_finishWord {s : State} (h : StoreCore s) (d : List Word) : StoreCore (finishWord d s) :=
  core_modInHand h _

theorem core_openRow {s : State} (h : StoreCore s) (a : Nat) : StoreCore (openRow a s) :=
  core_of h rfl (.inl rfl) rfl rfl rfl rfl rfl rfl rfl rfl (fun e => e)

theorem controlBase_facts (c : BitVec 2) : controlBase c % 4096 = 0 ∧ controlBase c + 4096 ≤ 0x4000000 := by
  unfold controlBase
  split <;> decide

theorem pendingSet_length_le {s : State} (h : StoreCore s) : s.cau.pendingSet.length ≤ 128 := by
  by_cases hc : s.cau.config = .boot
  · by_cases hn : NotStarted s
    · rw [(h.start.2.2 hn).2.2.1]; simp
    · exact Nat.le_of_lt (h.boot.2.1 hc hn).1
  · exact Nat.le_of_eq (h.boot.2.2 hc).1

theorem wordBase_control (c : BitVec 2) (i : Nat) (hi : i < 1024) :
    wordBase (controlBase c + 4 * i) = controlBase c + 4 * i := by
  obtain ⟨h1, h2⟩ := controlBase_facts c
  exact wordBase_of_aligned (by omega) (by unfold Config.memoryBytes; omega)

/-- A change of memory away from the loaded words keeps them (R24). -/
theorem core_mem {s t : State} (h : StoreCore s) (m : List Host.Cell) (ht : t = { s with mem := m })
    (hm : MemoryLaw t)
   (hw : ∀ i, i < s.cau.pendingSet.length → Memory.readWord m (controlBase s.cau.casel + 4 * i) = Memory.readWord s.mem (controlBase s.cau.casel + 4 * i)) : StoreCore t := by
  subst ht
  refine ⟨hm, h.own, h.start, h.boot, h.acc, ?_, ?_, h.wi, h.record, ?_⟩
  · intro sd; have := h.inf sd; cases sd <;> exact this
  · intro hn; obtain ⟨a, b, c⟩ := h.emp hn; exact ⟨a, b, fun sd => by have := c sd; cases sd <;> exact this⟩
  · intro i w hi
    have hl : i < s.cau.pendingSet.length := (List.getElem?_eq_some_iff.mp hi).1
    exact (hw i hl).trans (h.mir i w hi)

/-- A word stored outside the control area keeps them. -/
theorem core_store {s : State} (h : StoreCore s) (a : Nat) (be : BitVec 4) (w : Word) (h4 : a % 4 = 0)
    (hl : a < Config.memoryBytes)
   (hc : a < controlBase s.cau.casel ∨ controlBase s.cau.casel + 4096 ≤ a) : StoreCore (storeWord a be w s) := by
  unfold storeWord
  refine core_openRow (core_mem h _ rfl (Memory.writeWord_wf h.mem _ _ _) fun i hi => ?_) a
  have := pendingSet_length_le h
  refine Memory.readWord_writeWord_other h.mem _ _ ?_ _ _
  rw [wordBase_control _ _ (by omega), wordBase_of_aligned h4 hl]
  omega

/-- A parameter word stored in memory and merged into the pending set keeps them (R24, R25). -/
theorem core_parameter {s : State} (h : StoreCore s) (o : Nat) (be : BitVec 4) (w : Word) (h4 : o % 4 = 0)
    (ho : o < 4096) (hb : s.cau.config ≠ .boot) :
   StoreCore (storeParameter (controlBase s.cau.casel + o) o be w s) := by
  obtain ⟨c1, c2⟩ := controlBase_facts s.cau.casel
  have hlen := (h.boot.2.2 hb).1
  have hwf := Memory.writeWord_wf h.mem (controlBase s.cau.casel + o) be w
  have hoff : ∀ i, i < 128 → 4 * i ≠ o → Memory.readWord (Memory.writeWord s.mem (controlBase s.cau.casel + o) be w) (controlBase s.cau.casel + 4 * i) = Memory.readWord s.mem (controlBase s.cau.casel + 4 * i) := by
    intro i hi hne
    refine Memory.readWord_writeWord_other h.mem _ _ ?_ _ _
    rw [wordBase_control _ _ (by omega), wordBase_of_aligned (by omega) (by unfold Config.memoryBytes; omega)]
    omega
  unfold storeParameter mergePending
  split
  · next h2 =>
    have hx : StoreCore { s with mem := Memory.writeWord s.mem (controlBase s.cau.casel + o) be w, cau := { s.cau with pendingSet := s.cau.pendingSet.set (o / 4) (mergeWord (wordAt s.cau.pendingSet o) w be) } } := by
      have hns : ¬NotStarted s := by
        intro hn; exact hb (h.start.2.2 hn).2.1
      refine ⟨hwf, h.own, ⟨h.start.1, h.start.2.1, fun hn => absurd hn hns⟩, ⟨h.boot.1, fun hc => absurd hc hb, fun hc => ?_⟩, h.acc, ?_, ?_, h.wi, h.record, ?_⟩
      · obtain ⟨b1, b2⟩ := h.boot.2.2 hc; exact ⟨by simpa using b1, b2⟩
      · intro sd; have := h.inf sd; cases sd <;> exact this
      · intro hn; exact absurd hn hns
      · intro i v hi
        have hil : i < 128 := by
          have := (List.getElem?_eq_some_iff.mp hi).1
          simp only [List.length_set] at this; omega
        simp only [List.getElem?_set] at hi
        by_cases he : o / 4 = i
        · rw [if_pos he, if_pos (by omega)] at hi
          simp only [Option.some.injEq] at hi
          subst hi
          have hoi : 4 * i = o := by omega
          have hold : Memory.readWord s.mem (controlBase s.cau.casel + 4 * i) = wordAt s.cau.pendingSet o := by
            refine h.mir i _ ?_
            unfold wordAt
            rw [he, List.getD_eq_getElem?_getD, List.getElem?_eq_getElem (by omega)]
            rfl
          show Memory.readWord (Memory.writeWord s.mem (controlBase s.cau.casel + o) be w) (controlBase s.cau.casel + 4 * i) = _
          rw [Memory.readWord_writeWord_same h.mem _ _ (by rw [hoi]), hoi]
          rw [hoi] at hold
          rw [hold]
        · rw [if_neg he] at hi
          exact (hoff i hil (by omega)).trans (h.mir i v hi)
    exact core_openRow hx _
  · next h2 =>
    unfold storeWord
    refine core_openRow (core_mem h _ rfl hwf fun i hi => hoff i (by have := pendingSet_length_le h; omega) (by have := pendingSet_length_le h; omega)) _

theorem not_outstanding_of {m : Mct}
    (h : ∀ x ∈ ownAccesses m, x.isRecordWrite = false) : recordWriteOutstanding m = false := by
  rw [← Bool.not_eq_true, recordWriteOutstanding_iff]
  rintro ⟨x, hx, hr⟩
  rw [h x hx] at hr; cases hr

theorem withdraw_accesses (s : State) (hr : ∀ x ∈ runningAccess s.mct, x.isRecordWrite = false) :
   ownAccesses (withdrawRecord s).mct = (ownAccesses s.mct).filter isBootRead := by
  unfold ownAccesses withdrawRecord
  dsimp only
  have : runningAccess { s.mct with queue := s.mct.queue.filter fun e => !e.access.isRecordWrite } = runningAccess s.mct := rfl
  rw [this, List.filter_append, List.filter_map]
  congr 1
  symm
  rw [List.filter_eq_self]
  intro x hx; simp [isBootRead, hr x hx]

/-- The withdrawal of a record write gives them, from all but the record write's own law (R152). -/
theorem core_withdraw {s : State} (h1 : MemoryLaw s) (h2 : OwnAccessLaw s) (h3 : StartLaw s) (h4 : BootLaw s)
    (h5 : AcceptedLaw s) (h6 : InForceLaw s) (h7 : EmptyLaw s) (h8 : WriteIndexLaw s) (h10 : MirrorLaw s)
    (hr : ∀ x ∈ runningAccess s.mct, x.isRecordWrite = false) : StoreCore (withdrawRecord s) := by
  have ha := withdraw_accesses s hr
  have hb : (ownAccesses (withdrawRecord s).mct).filter isBootRead = (ownAccesses s.mct).filter isBootRead := by
    rw [ha, List.filter_filter]; simp
  have hw : (ownAccesses (withdrawRecord s).mct).filter OwnAccess.isRecordWrite = [] := by
    rw [ha, List.filter_filter, List.filter_eq_nil_iff]
    intro x hx; simp [isBootRead]
  refine ⟨h1, ⟨by rw [hw]; simp, by rw [hb]; exact h2.2⟩, ⟨h3.1, h3.2.1, fun hn => ?_⟩, ⟨h4.1, fun hc hn => ?_, fun hc => ?_⟩, h5, ?_, ?_, h8, ?_, h10⟩
  · obtain ⟨a1, a2, a3, a4⟩ := h3.2.2 hn
    exact ⟨by rw [ha, a1]; rfl, a2, a3, a4⟩
  · rw [hb]; exact h4.2.1 hc hn
  · rw [hb]; exact h4.2.2 hc
  · intro sd; have := h6 sd; cases sd <;> exact this
  · intro hn; obtain ⟨a, b, c⟩ := h7 hn; exact ⟨a, b, fun sd => by have := c sd; cases sd <;> exact this⟩
  · intro a ws hx
    have : OwnAccess.recordWrite a ws ∈ (ownAccesses (withdrawRecord s).mct).filter OwnAccess.isRecordWrite := List.mem_filter.mpr ⟨hx, rfl⟩
    rw [hw] at this; cases this

/-- A new live read index keeps them, while no record write holds the bus (R26, R154). -/
theorem core_deliver {s : State} (h : StoreCore s) (w : Word)
    (hr : ∀ x ∈ runningAccess s.mct, x.isRecordWrite = false) : StoreCore (deliverReadIndex w s) := by
  have inf : InForceLaw { s with flu := { s.flu with readIndex := some w } } := by
    intro sd; have := h.inf sd; cases sd <;> exact this
  have emp : EmptyLaw { s with flu := { s.flu with readIndex := some w } } := by
    intro hn; obtain ⟨a, b, c⟩ := h.emp hn; exact ⟨a, b, fun sd => by have := c sd; cases sd <;> exact this⟩
  unfold deliverReadIndex
  dsimp only
  split
  · next d hd =>
    split
    · exact core_withdraw h.mem h.own h.start h.boot h.acc inf emp h.wi h.mir hr
    · next hf =>
      refine core_quiet ?_ (.presentHead _)
      refine ⟨h.mem, h.own, h.start, h.boot, h.acc, inf, emp, h.wi, ?_, h.mir⟩
      intro a ws ha
      obtain ⟨d', r, rest, r1, r2, r3, r4, r5, r6⟩ := h.record a ws ha
      have : d' = d := by have := r1.symm.trans hd; simpa using this
      subst this
      exact ⟨d', r, rest, r1, r2, r3, r4, r5, by simpa using hf⟩
  · next hd =>
    refine ⟨h.mem, h.own, h.start, h.boot, h.acc, inf, emp, h.wi, ?_, h.mir⟩
    intro a ws ha
    obtain ⟨d', r, rest, r1, _⟩ := h.record a ws ha
    have hd' : s.cau.device = none := hd
    rw [hd'] at r1; cases r1

/-- A side whose active set agrees with the accepted set may change (R46). -/
theorem core_setSide {s : State} (h : StoreCore s) (sd : Side) (x : SideState) (hns : ¬NotStarted s)
   (hcfg : s.cau.config = .configured)
   (hi : (∀ a, x.inForce = some a →
      ∃ acc, s.cau.accepted = some acc ∧ (acc.descriptor sd).enabled = true ∧
        (acc.descriptor sd).geometry = a.desc.geometry) ∧
    (x.takeWaiting = true → x.inForce.isSome = true)) : StoreCore (setSide sd x s) := by
  refine ⟨by have := h.mem; unfold MemoryLaw at *; simpa using this, by have := h.own; unfold OwnAccessLaw at *; simpa using this, ?_, ?_, by have := h.acc; unfold AcceptedLaw at *; simpa using this, ?_, ?_, by have := h.wi; unfold WriteIndexLaw at *; simpa using this, by have := h.record; unfold RecordWriteLaw at *; simpa using this, by have := h.mir; unfold MirrorLaw at *; simpa using this⟩
  · have := h.start; unfold StartLaw NotStarted at *; simpa using this
  · refine ⟨fun hc => absurd (by simpa using hcfg) hc, fun hc => ?_, ?_⟩
    · simp at hc; rw [hcfg] at hc; cases hc
    · have := h.boot.2.2; simpa using this
  · intro sd'
    by_cases e : sd' = sd
    · subst e; simpa using hi
    · have := h.inf sd'; simpa [e] using this
  · intro hn; exact absurd (by unfold NotStarted at *; simpa using hn) hns

theorem core_lines {s : State} (h : StoreCore s) : StoreCore (updateLines s) := core_quiet h (.updateLines s)

theorem accepted_started {s : State} (h : StoreCore s) {acc : AcceptedSet}
    (ha : s.cau.accepted = some acc) : ¬NotStarted s ∧ s.cau.config = .configured := by
  refine ⟨fun hn => ?_, ?_⟩
  · rw [(h.emp hn).1] at ha; cases ha
  · by_contra hc; rw [(h.boot.1 hc).1] at ha; cases ha

/-- A waiting side's taking of the accepted set keeps them (R44, R77). -/
theorem core_take {s : State} (h : StoreCore s) (sd : Side) : StoreCore (takeWaitingSet sd s) := by
  unfold takeWaitingSet
  split
  · next acc hacc =>
    split
    · refine core_lines ?_
      obtain ⟨h1, h2⟩ := accepted_started h hacc
      refine core_setSide h sd _ h1 h2 ?_
      obtain ⟨t1, t2⟩ := takeSet_active s.timebase (acc.forSide sd) (s.side sd)
      refine ⟨fun a ha => ?_, fun hw => by rw [t2] at hw; cases hw⟩
      obtain ⟨e1, e2⟩ := inForce_some ha
      rw [t1] at e1
      cases e1
      exact ⟨acc, hacc, e2, rfl⟩
    · exact h
  · exact h

/-- What a set that passes the commit check is once clamped (R35, R40). -/
theorem accepted_of_commitPasses {s : State} (h : commitPasses s = true) (g : Word) :
  let acc := acceptedFrom s.cau.pendingSet g
  geometryOk acc.left.geometry = true ∧ geometryOk acc.right.geometry = true ∧ ringOk acc.device = true ∧
        profilesOk acc.left = true ∧ profilesOk acc.right = true ∧
        (regions (controlBase s.cau.casel) acc.device acc.left.geometry acc.right.geometry).Pairwise
          (fun r q => ∀ x, ¬(inRegion r x ∧ inRegion q x)) ∧
    (∀ sd, geometryKept (s.side sd).active (acc.descriptor sd) = true) := by
  unfold commitPasses at h
  simp only [Bool.and_eq_true] at h
  obtain ⟨⟨⟨⟨⟨⟨⟨⟨⟨h1, h2⟩, h3⟩, h4⟩, h5⟩, h6⟩, h7⟩, h8⟩, h9⟩, h10⟩ := h
  exact ⟨h2, h3, h5, h6, h7, (allDisjoint_iff _).mp h4, fun sd => by cases sd <;> assumption⟩

theorem takeOrWait_spec {s : State} (hoff : OfSides OffLaw s) (acc : AcceptedSet)
    (sd : Side) (now : Word)
   (hk : geometryKept (s.side sd).active (acc.descriptor sd) = true) :
   (∀ a, (takeOrWait now (acc.forSide sd) (s.side sd)).inForce = some a → (acc.descriptor sd).enabled = true ∧
        (acc.descriptor sd).geometry = a.desc.geometry) ∧
    ((takeOrWait now (acc.forSide sd) (s.side sd)).takeWaiting = true → (takeOrWait now (acc.forSide sd) (s.side sd)).inForce.isSome = true) := by
  unfold takeOrWait
  split
  · next hw =>
    rw [Bool.and_eq_true] at hw
    have hin : (s.side sd).inForce ≠ none := by
      intro hn
      have := (hoff sd).2 hn
      rw [this] at hw
      exact absurd hw.1 (by show ¬(BufferRing.off.filling.isSome = true); decide)
    obtain ⟨o, ho⟩ := Option.ne_none_iff_exists'.mp hin
    refine ⟨fun a ha => ?_, fun _ => by show (s.side sd).inForce.isSome = true; rw [ho]; rfl⟩
    have ha : (s.side sd).inForce = some a := ha
    obtain ⟨e1, e2⟩ := inForce_some ha
    refine ⟨hw.2, ?_⟩
    unfold geometryKept at hk
    rw [e1] at hk
    have h2 : (acc.descriptor sd).enabled = true := hw.2
    simp [e2, h2] at hk
    exact hk.symm
  · obtain ⟨t1, t2⟩ := takeSet_active now (acc.forSide sd) (s.side sd)
    refine ⟨fun a ha => ?_, fun h => by rw [t2] at h; cases h⟩
    obtain ⟨e1, e2⟩ := inForce_some ha
    rw [t1] at e1; cases e1
    exact ⟨e2, rfl⟩

/-- A commit keeps them, when the pending set is complete and no record write holds the bus (R39 to R43). -/
theorem core_commit {s : State} (h : StoreCore s) (hns : ¬NotStarted s) (hlen : s.cau.pendingSet.length = 128)
   (hbf : (ownAccesses s.mct).filter isBootRead = []) (hr : ∀ x ∈ runningAccess s.mct, x.isRecordWrite = false) (hoff : OfSides OffLaw s) : StoreCore (commit s) := by
  unfold commit
  dsimp only
  split
  · next hp =>
    generalize wordAt s.cau.pendingSet 4 = g
    obtain ⟨p1, p2, p3, p4, p5, p6, p7⟩ := accepted_of_commitPasses hp g
    have hcap := ringCapacity_pos p3
    unfold acceptCommit
    dsimp only
    have t1 := takeOrWait_spec hoff (acceptedFrom s.cau.pendingSet g) .left s.timebase (p7 .left)
    have t2 := takeOrWait_spec hoff (acceptedFrom s.cau.pendingSet g) .right s.timebase (p7 .right)
    generalize hacc : acceptedFrom s.cau.pendingSet g = acc at *
    generalize ht : offerSet acc (installSet acc s) = t
    have htr : t.resetHeld = s.resetHeld := by rw [← ht]; rfl
    have htm : t.mct = s.mct := by rw [← ht]; rfl
    have htc : t.cau = { s.cau with config := .configured, accepted := some acc, device := some acc.device } := by rw [← ht]; rfl
    have htf : t.flu = { s.flu with writeIndex := writeIndexAfter s acc.device } := by rw [← ht]; rfl
    have hns' : ¬NotStarted t := by unfold NotStarted at *; rw [htr, htm]; exact hns
    have l1 : MemoryLaw t := by rw [← ht]; exact h.mem
    have l2 : OwnAccessLaw t := by unfold OwnAccessLaw; rw [htm]; exact h.own
    have l3 : StartLaw t := by
      refine ⟨?_, ?_, fun hn => absurd hn hns'⟩
      · unfold NotStarted; rw [htm, htr]; exact h.start.1
      · have : t.timebase = s.timebase := by rw [← ht]; rfl
        rw [htm, htr, this]; exact h.start.2.1
    have l4 : BootLaw t := by
      refine ⟨fun hc => ?_, fun hc => ?_, fun _ => ?_⟩
      · rw [htc] at hc; exact absurd rfl hc
      · rw [htc] at hc; cases hc
      · rw [htc, htm]; exact ⟨hlen, hbf⟩
    have l5 : AcceptedLaw t := by
      unfold AcceptedLaw; rw [htc]
      refine ⟨rfl, fun acc' he => ?_⟩
      cases he
      exact ⟨p1, p2, p3, p4, p5, p6⟩
    have l6 : InForceLaw t := by
      intro sd
      rw [htc]
      cases sd
      · rw [← ht]; exact ⟨fun a ha => ⟨acc, rfl, t1.1 a ha⟩, t1.2⟩
      · rw [← ht]; exact ⟨fun a ha => ⟨acc, rfl, t2.1 a ha⟩, t2.2⟩
    have l7 : EmptyLaw t := fun hn => absurd hn hns'
    have l8 : WriteIndexLaw t := by
      unfold WriteIndexLaw; rw [htc, htf]
      dsimp only
      unfold writeIndexAfter
      split
      · exact Nat.mod_lt _ hcap
      · next hc =>
        unfold ringChanged at hc
        split at hc
        · next d hd =>
          simp only [Bool.or_eq_true, bne_iff_ne, not_or, not_not, ne_eq] at hc
          have := h.wi
          unfold WriteIndexLaw at this; rw [hd] at this
          rw [← hc.2]; exact this
        · exact absurd rfl hc
    have l10 : MirrorLaw t := by
      unfold MirrorLaw; rw [htc]
      have : t.mem = s.mem := by rw [← ht]; rfl
      rw [this]; exact h.mir
    have core' : StoreCore (updateLines t) ∨ ringChanged s.cau.device acc.device = true := by
      by_cases hc : ringChanged s.cau.device acc.device = true
      · exact .inr hc
      · left
        refine core_lines ⟨l1, l2, l3, l4, l5, l6, l7, l8, ?_, l10⟩
        intro a ws ha
        rw [htm] at ha
        obtain ⟨d, r, rest, r1, r2, r3, r4, r5, r6⟩ := h.record a ws ha
        unfold ringChanged at hc
        rw [r1] at hc
        simp only [Bool.or_eq_true, bne_iff_ne, not_or, not_not, ne_eq] at hc
        have hwi : t.flu.writeIndex = s.flu.writeIndex := by
          rw [htf]; simp only [writeIndexAfter]; rw [if_neg]
          unfold ringChanged; rw [r1]; simp [hc]
        have hq : t.flu.queue = s.flu.queue := by rw [htf]
        have hri : t.flu.readIndex = s.flu.readIndex := by rw [htf]
        refine ⟨acc.device, r, rest, by rw [htc], by rw [hq]; exact r2, by rw [hwi, ← hc.1]; exact r3, r4, by rw [hwi, ← hc.2]; exact r5, ?_⟩
        unfold ringFull readIndexInUse at *
        rw [hwi, hri, ← hc.2]; exact r6
    unfold moveRing
    split
    · refine core_quiet ?_ (.presentHead _)
      have q := Quiet.updateLines t
      have hside : ∀ sd, (updateLines t).side sd = t.side sd := fun sd => by simp
      refine core_withdraw l1 l2 l3 l4 l5 ?_ ?_ l8 l10 ?_
      · intro sd; rw [hside]; exact l6 sd
      · intro hn; exact absurd hn hns'
      · show ∀ x ∈ runningAccess t.mct, _; rw [htm]; exact hr
    · next hc => exact core'.resolve_right hc
  · unfold rejectCommit
    refine core_quiet ?_ (.raiseDevice _ _ _)
    refine ⟨h.mem, h.own, ⟨h.start.1, h.start.2.1, fun hn => absurd hn hns⟩, ⟨fun hc => ?_, fun hc => ?_, fun _ => ⟨hlen, hbf⟩⟩, h.acc, ?_, fun hn => absurd hn hns, h.wi, h.record, h.mir⟩
    · refine h.boot.1 fun e => hc ?_
      show configAfterReject s.cau.config = _; rw [e]; rfl
    · exfalso
      change configAfterReject s.cau.config = .boot at hc
      cases e : s.cau.config <;> rw [e] at hc <;> cases hc
    · intro sd; have := h.inf sd; cases sd <;> exact this

end Sys2Proof.Machine
end

