-- ==== Sys2Proof/Tests/Slice0.lean ====
section
/-! SUPPORT. Tests: the well-formedness check, the worked cases of the spec, each command on a small state, and for each
statement a state and operands that meet its hypotheses. -/

namespace Sys2Proof.Tests

-- One test after another: elaborated side by side, a hundred kernel evaluations ask for a hundred thread stacks.
set_option Elab.async false

open Sys2Proof.Machine Sys2Proof.Safety

/-! ## Small states -/

/-- The smallest image, with its buffers from a base on. -/
def smallGeometry (base : Nat) : Geometry :=
  { w := 64, h := 64, base0 := base, base1 := base + 0x4000, base2 := base + 0x8000 }

def smallDescriptor (base : Nat) : Descriptor :=
  { enabled := true, geometry := smallGeometry base, dayProfile := 0, nightProfile := 1, intervalMax := 40000,
    latencyMax := 30000, holdMax := 500000, frozenRun := 3, recoverRun := 3, nEnter := 100, nLeave := 200, stepDown := 8,
    stepUp := 4 }

/-- The profile of the first worked case of chapter 3. -/
def caseProfile : Profile :=
  { bor := 64, bog := 64, bob := 64, gr := 520, gg := 400, gb := 560, k := 1600, dmin := 64, gt := 1536, hfOn := 64,
    tone := (List.range 32).map (8 * ·) ++ [255] }

/-- The night profile of the second. -/
def coreProfile : Profile := { caseProfile with gr := 1200, gg := 1000, gb := 1300 }

def smallProfiles : Profiles := { p0 := caseProfile, p1 := coreProfile, p2 := caseProfile, p3 := caseProfile }

def smallDevice : DeviceCopy :=
  { ringBase := 0x10000, ringCapacity := 16, attentionMask := 0x0000FFFF, markerColour := 0x12345678, borderWidth := 2 }

def smallSet : AcceptedSet :=
  { generation := 7, device := smallDevice, left := smallDescriptor 0x100000, right := smallDescriptor 0x200000,
    profiles := smallProfiles }

/-- A buffer in a state, with a frame of one word. -/
def bufferIn (st : BufState) (seq : BitVec 16) : BufRecord :=
  { BufRecord.cleared with state := st, seq := seq, count := 1, signature := 0x5A, verified := true }

/-- The left side in force, in a view state, with its buffers in three states. -/
def sideIn (v : ViewState) (st0 st1 st2 : BufState) : SideState :=
  { SideState.off (some (smallSet.forSide .left)) with
    frameProfile := if st0 = .filling ∨ st1 = .filling ∨ st2 = .filling then some 0 else none
    ring := { BufferRing.off with buf0 := bufferIn st0 1, buf1 := bufferIn st1 2, buf2 := bufferIn st2 3, nextSeq := 4 }
    view := { state := v, watchdog := none, hold := none, recovery := 0 } }

/-- The part in CONFIGURED, the bus free, the left side as given, the right side as after reset. -/
def configured (left : SideState) : State :=
  { State.reset with
    resetHeld := false
    timebase := 1000
    mct := { Mct.reset with intervalRunning := true }
    cau := { config := .configured, casel := 3, pendingSet := List.replicate 128 0, accepted := some smallSet,
             device := some smallDevice }
    left := left
    faultLine := false }

def liveState : State := configured (sideIn .live .showing .ready .free)

/-- A state with a transfer in hand, of which some words are handled. -/
def inHandOf (t : Transfer) (n : Nat) (s : State) : InHand :=
  { transfer := t, snapshot := s.snapshot, handled := n, readData := [], commit := false, protect := none, tear := none,
    frameDone := none, scanDone := none }

def withHand (t : Transfer) (n : Nat) (s : State) : State :=
  { s with inHand := some (inHandOf t n s), mct := { s.mct with bus := .transfer } }

def writeOf (a : BitVec 26) (be : BitVec 4) (w : Word) : Transfer :=
  { address := a, write := true, lengthCode := 0, enables := be, data := [w] }

def readOf (a : BitVec 26) : Transfer := { address := a, write := false, lengthCode := 0, enables := 0xF, data := [] }

def burstRead (a : BitVec 26) (code : BitVec 2) : Transfer :=
  { address := a, write := false, lengthCode := code, enables := 0, data := [] }

/-- The state after a command that takes one, or the state itself. -/
def after (c : Instr) (s : State) : State :=
  match exec c s with
  | .next t => t
  | .fault _ => s
  | .refused _ => s

/-! ## Well-formedness -/

theorem test_write_without_its_words_is_ill_formed :
    (Instr.transferArrival { writeOf 0x100 0xF 1 with data := [] }).wellFormed = false ∧
      (Instr.transferArrival { writeOf 0x100 0xF 1 with lengthCode := 1 }).wellFormed = false := by decide

theorem test_read_with_words_is_ill_formed :
    (Instr.transferArrival { readOf 0x100 with data := [1] }).wellFormed = false := by decide

theorem test_ill_formed_request_is_not_taken :
    exec (.transferArrival { readOf 0x100 with data := [1] }) liveState = .next liveState := by rfl

theorem test_well_formed_commands : Instr.resetAsserted.wellFormed = true ∧
    (Instr.transferArrival (writeOf 0x100 0xF 1)).wellFormed = true ∧
    (Instr.transferArrival (burstRead 0x100 3)).wellFormed = true := by decide

/-! ## Worked cases of the spec -/

/-- 03, "one pixel through every stage". -/
theorem test_worked_pixel :
    outputWord caseProfile 96 0x3E8F7BC0 = 0x006B5A6C ∧ luma caseProfile 0x3E8F7BC0 = 1642 ∧
      signatureTerm 0x006B5A6C 129000 = 0x6B5A6C00 ∧
      tileOf { smallGeometry 0 with w := 1280, h := 720 } 129000 = 6 := by decide +kernel

/-- 09, R160: bits 31:30 of an input word count for nothing. -/
theorem test_input_top_bits_ignored : outputWord caseProfile 96 0xFE8F7BC0 = 0x006B5A6C := by decide +kernel

/-- 03, "a saturated headlamp core". -/
theorem test_worked_core :
    outputWord coreProfile 64 0x3FFFFFFF = 0x008B868B ∧ luma coreProfile 0x3FFFFFFF = 3891 ∧
      outputWord coreProfile 256 0x3FFFFFFF = 0x00FFEAFF := by decide +kernel

/-- 03, "a pixel below black": (40, 64, 70). -/
theorem test_worked_shadow :
    outputWord caseProfile 96 (BitVec.ofNat 32 (40 * 2 ^ 20 + 64 * 2 ^ 10 + 70)) = 1 ∧
      luma caseProfile (BitVec.ofNat 32 (40 * 2 ^ 20 + 64 * 2 ^ 10 + 70)) = 1 := by decide +kernel

/-- 03, "tile boundaries". -/
theorem test_worked_tile_rows :
    [10, 11, 21, 22, 31, 32, 42, 43, 53, 54, 63].map (fun y => tileOf (smallGeometry 0) (y * 64) / 8) =
      [0, 1, 1, 2, 2, 3, 3, 4, 4, 5, 5] := by decide +kernel

theorem test_worked_tile_columns :
    tileOf { smallGeometry 0 with w := 208 } 25 = 0 ∧ tileOf { smallGeometry 0 with w := 208 } 26 = 1 := by
  decide +kernel

/-- R2: a burst from the third word of its block of eight wraps to the block's first word. -/
theorem test_burst_order :
    (List.range 8).map (wordAddress (burstRead 0x108 2)) =
      [0x108, 0x10C, 0x110, 0x114, 0x118, 0x11C, 0x100, 0x104] := by decide +kernel

/-- 09, R163: the left side of the held scan reads 00640004h. -/
theorem test_worked_side_status :
    statusWord
      (configured
        { sideIn .holding .showing .free .free with
          scan := { record := some { newScanRecord 0 (some 2) 0 with complete := true }, lastLatency := 0, unchecked := 0 } })
      0xE40 = 0x00640004 := by decide +kernel

/-- 09, R164: tiles 28 and 29 of the night episode. -/
theorem test_worked_map_word :
    mapWord
      { Glare.off with
        map := (Glare.off.map.set 28 160).set 29 64
        summary := (Glare.off.summary.set 28 { hot := false, code := 20 }).set 29 { hot := true, code := 60 } }
      14 = 0xF24050A0 := by decide +kernel

/-- 09, R165. -/
theorem test_worked_acknowledge_words :
    acknowledgeWord (.side .right .tearWrite) 8 = 0x08020008 ∧ acknowledgeWord (.device .recordDropped) 1 = 0x01000012 ∧
      acknowledgeWord (.device .configReject) 255 = 0xFF000010 ∧ acknowledgeWord (.side .left .holdExpired) 1 = 0x01010007 := by
  decide +kernel

/-- 09, R166: the TEAR_SCAN made as record 130. -/
theorem test_worked_record :
    FaultRecord.words
      { seq := 130, entry := .side .left .tearScan, time := 9000000, frame := some (501, 0), view := some .holding,
        detail := 500 } = [0x00820103, 0x00895440, 0x040001F5, 0x000001F4] := by decide +kernel

theorem test_device_record_word : recordWord2 none none = 0x0F0F0000 := by decide +kernel

/-- R42: N_ENTER and N_LEAVE put in order, at their ends. -/
theorem test_night_order :
    orderNight 100 200 = (100, 200) ∧ orderNight 200 200 = (200, 201) ∧ orderNight 4095 4095 = (4094, 4095) ∧
      orderNight 65535 0 = (4094, 4095) := by decide +kernel

/-- R146: the entries stand at their places. -/
theorem test_entry_places : entryOrder.map FaultEntry.place = List.range 25 := by decide +kernel

/-- R24: words in memory lie with byte lane 0 at the lowest address (log 1). -/
theorem test_memory_lanes :
    Memory.readWord (Memory.writeWord [] 0x100 0b0110 0x11223344) 0x100 = 0x00223300 ∧
      Memory.readByte (Memory.writeWord [] 0x100 0xF 0x11223344) 0x100 = 0x44 ∧
      Memory.writeWord (Memory.writeWord [] 0x100 0xF 0x11223344) 0x100 0xF 0 = [] := by decide +kernel

/-! ## Commands on small states -/

theorem test_reset_asserted_takes_reset_values :
    (after .resetAsserted liveState).resetHeld = true ∧ (after .resetAsserted liveState).left = .off none ∧
      (after .resetAsserted liveState).faultLine = true := by decide +kernel

theorem test_reset_released_starts_initialisation :
    (after (.resetReleased 2 10) State.reset).mct.bus = .initialising ∧
      (after (.resetReleased 2 10) State.reset).cau.casel = 2 := by decide +kernel

theorem test_initialisation_end_asks_for_the_first_word :
    (after .memoryInitialisationEnd { after (.resetReleased 1 10) State.reset with timebase := 200 }).mct.queue =
      [{ access := .bootLoadRead 0x0FFF000, joinTime := 200 }] := by decide +kernel

theorem test_timebase_wraps : (after .timebaseTick { liveState with timebase := 0xFFFFFFFF }).timebase = 0 := by
  decide +kernel

theorem test_interval_end_holds_at_eight :
    (after .refreshIntervalEnd { liveState with mct := { liveState.mct with refreshOwed := 8 } }).mct.refreshOwed = 8 := by
  decide +kernel

theorem test_grant_pays_a_refresh_first :
    (after .grant { liveState with
      mct := { liveState.mct with
        refreshOwed := 1, queue := [{ access := .recordWrite 0x10000 [], joinTime := 0 }] } }).mct.bus = .refresh := by
  decide +kernel

theorem test_refresh_end_frees_the_bus :
    (after .refreshEnd { liveState with mct := { liveState.mct with bus := .refresh } }).mct.bus = .free := by
  decide +kernel

/-- A state of the boot load in which word n is being read. -/
def bootState (n : Nat) : State :=
  { State.reset with
    resetHeld := false
    mct := { Mct.reset with intervalRunning := true, bus := .own (.bootLoadRead (controlBase 3 + 4 * n)) }
    cau := { Cau.reset with casel := 3, pendingSet := List.replicate n 0 } }

theorem test_boot_load_delivers_the_read_index :
    (after .bootLoadReadDone (bootState 7)).flu.readIndex = some 0 ∧
      (after .bootLoadReadDone (bootState 6)).flu.readIndex = none := by decide +kernel

theorem test_boot_load_of_zeros_is_rejected :
    (after .bootLoadReadDone (bootState 127)).cau.config = .unconfigured ∧
      (after .bootLoadReadDone (bootState 127)).flu.entries = 1 :: List.replicate 24 0 := by decide +kernel

/-- A record write that holds the bus. -/
def recordState : State :=
  { liveState with
    mct := { liveState.mct with bus := .own (.recordWrite 0x10000 [1, 2, 3, 4]) }
    flu := { Flu.reset with
      queue := [{ seq := 0, entry := .device .protect, time := 0, frame := none, view := none, detail := 0 }], seq := 1 } }

theorem test_record_write_done_fills_the_slot :
    Memory.readWord (after .recordWriteDone recordState).mem 0x10008 = 3 ∧
      (after .recordWriteDone recordState).flu.writeIndex = 1 := by decide +kernel

theorem test_arrival_is_taken : (after (.transferArrival (readOf 0x40)) liveState).mct.bus = .transfer := by decide +kernel

theorem test_arrival_at_eight_owed_is_retried :
    (after (.transferArrival (readOf 0x40))
      { liveState with mct := { liveState.mct with refreshOwed := 8 } }).answers = [.retry] := by decide +kernel

theorem test_plain_write_under_enables :
    Memory.readWord (after .plainWordWrite (withHand (writeOf 0x40 0b0001 0xAABBCCDD) 0 liveState)).mem 0x40 = 0xDD := by
  decide +kernel

theorem test_plain_read :
    ((after .plainWordRead (withHand (readOf 0x10004) 0 (after .recordWriteDone recordState))).inHand.map (·.readData)) =
      some [2] := by decide +kernel

theorem test_parameter_write_merges :
    (after .parameterWordWrite (withHand (writeOf 0x3FFF010 0b0010 0x12345678) 0 liveState)).cau.pendingSet.getD 4 0 =
      0x5600 := by decide +kernel

theorem test_commit_word_marks_its_transfer :
    ((after .commitWordWrite (withHand (writeOf 0x3FFF004 0xF 9) 0 liveState)).inHand.map (·.commit)) = some true ∧
      exec .commitWordWrite (withHand (writeOf 0x3FFF004 0 9) 0 liveState) =
        .next (withHand (writeOf 0x3FFF004 0 9) 0 liveState) := by
  refine ⟨by decide +kernel, by rfl⟩

/-- A ring that is full withdraws the record write that waits; room presents the head record again (R154). -/
theorem test_read_index_moves_the_ring :
    let waiting := { recordState with
      mct := { liveState.mct with queue := [{ access := .recordWrite 0x10000 [1, 2, 3, 4], joinTime := 0 }] } }
    (after .reportReadIndexWrite (withHand (writeOf 0x3FFF01C 0xF 1) 0 waiting)).mct.queue = [] ∧
      (after .reportReadIndexWrite
        (withHand (writeOf 0x3FFF01C 0xF 2) 0 { waiting with mct := liveState.mct })).mct.queue.length = 1 := by
  decide +kernel

/-- LATENCY of the left side twice and RECORD_DROPPED once are pending. -/
def pendingState : State :=
  { liveState with flu := { Flu.reset with entries := ((List.replicate 25 0).set 13 2).set 24 1, attn := true } }

theorem test_acknowledge_read_takes_the_highest :
    ((after .acknowledgeRead (withHand (readOf 0x3FFFE00) 0 pendingState)).inHand.map (·.readData)) =
        some [0x02010002] ∧
      (after .acknowledgeRead (withHand (readOf 0x3FFFE00) 0 pendingState)).flu.attn = false := by decide +kernel

theorem test_status_read_of_the_generation :
    ((after .acknowledgeRead (withHand (readOf 0x3FFFE08) 0 pendingState)).inHand.map (·.readData)) = some [7] := by
  decide +kernel

theorem test_acknowledge_write_clears_all :
    (after .acknowledgeWrite (withHand (writeOf 0x3FFFE00 0 0) 0 pendingState)).flu.entries = List.replicate 25 0 := by
  decide +kernel

theorem test_status_write_marks_the_first_address :
    ((after .statusWordWrite (withHand (writeOf 0x3FFFE40 0 0) 0 liveState)).inHand.bind (·.protect)) =
      some 0x3FFFE40 := by decide +kernel

theorem test_buffer_write_starts_a_frame :
    ((after .bufferWordWrite (withHand (writeOf 0x108000 0xF 0x3E8F7BC0) 0 liveState)).left.ring.buf 2).state = .filling ∧
      (after .bufferWordWrite (withHand (writeOf 0x108000 0xF 0x3E8F7BC0) 0 liveState)).left.ring.nextSeq = 5 := by
  decide +kernel

theorem test_partial_buffer_write_is_absorbed :
    (after .bufferWordWrite (withHand (writeOf 0x108000 7 0) 0 liveState)).mem = [] ∧
      (after .bufferWordWrite (withHand (writeOf 0x108000 7 0) 0 liveState)).flu.entries.getD 22 0 = 1 := by
  decide +kernel

theorem test_scan_start_shows_the_ready_frame :
    ((after .bufferWordRead (withHand (readOf 0x104000) 0 liveState)).left.ring.buf 1).state = .showing ∧
      ((after .bufferWordRead (withHand (readOf 0x104000) 0 liveState)).left.ring.buf 0).state = .free := by
  decide +kernel

theorem test_scan_start_on_free_buffer_redirects :
    let t := after .bufferWordRead (withHand (readOf 0x108000) 0 liveState)
    (t.left.scan.record.bind (·.redirect)) = some 0 ∧ t.left.view.state = .holding ∧
      (t.inHand.map (·.readData)) = some [0x00345678] := by decide +kernel

theorem test_transfer_end_answers_complete :
    (after .transferEnd (withHand (readOf 0x40) 1 liveState)).answers = [.complete []] ∧
      (after .transferEnd (withHand (readOf 0x40) 1 liveState)).mct.bus = .free := by decide +kernel

/-- A request that waits on the pins for the transfer in hand. -/
def requestState (s : State) : State := after (.transferArrival (readOf 0x80)) (withHand (readOf 0x40) 1 s)

/-- R1: a request that waited is taken when the transfer in hand has been answered; R18: or the grant goes before it. -/
theorem test_waiting_request_arrives_after_complete :
    ∃ f : Bool → State,
      after .transferEnd (requestState { liveState with mct := { liveState.mct with refreshOwed := 1 } }) =
        f (Config.grantBeforeRequest 0) ∧
      ((f false).answers = [.complete []] ∧ ((f false).inHand.map (·.transfer)) = some (readOf 0x80)) ∧
      (f true).answers = [.complete [], .retry] ∧ (f true).mct.bus = .refresh :=
  let s := answerComplete (inHandOf (readOf 0x40) 1 liveState)
    (requestState { liveState with mct := { liveState.mct with refreshOwed := 1 } })
  let free := { s with request := none, freeDraws := 1 }
  let u (b : Bool) := arrive (readOf 0x80) (if b then grantBus free else free)
  ⟨fun b => { u b with answers := s.answers ++ (u b).answers }, rfl, by decide +kernel, by decide +kernel, by decide +kernel⟩

/-- R6, R21: RESET ends the transfer in hand, and the request that waited for it is answered RETRY. -/
theorem test_waiting_request_is_retried_at_reset :
    (after .resetAsserted (requestState liveState)).answers = [.retry] ∧
      (after .resetAsserted (requestState liveState)).request = none := by decide +kernel

/-- The left side with a timer that is due. -/
def dueState (v : ViewState) : State :=
  configured
    { sideIn v .showing .filling .free with
      view := { state := v, watchdog := some { loadTime := 0, duration := 1000 },
                hold := if v = .holding then some { loadTime := 0, duration := 1000 } else none, recovery := 0 } }

theorem test_watchdog_expiry_holds_the_view :
    (after (.watchdogExpiry .left) (dueState .live)).left.view.state = .holding ∧
      ((after (.watchdogExpiry .left) (dueState .live)).flu.queue.map (·.frame)) = [some (2, 1)] := by decide +kernel

theorem test_hold_timer_expiry_loses_the_view :
    (after (.holdTimerExpiry .left) (dueState .holding)).left.view.state = .lost ∧
      (after (.holdTimerExpiry .left) (dueState .holding)).faultLine = true := by decide +kernel

/-- The one fault: R107 and R130 exclude a side in LIVE without a SHOWING buffer (log 17). -/
theorem test_scan_start_with_nothing_to_show_stops :
    exec .bufferWordRead (withHand (readOf 0x104000) 0 (configured (sideIn .live .free .free .free))) =
      .fault .noShowingBuffer := by rfl

/-- LIVE with HOLD_MAX 0, and buffer 2 FREE. -/
def zeroHoldState : State :=
  let a := smallSet.forSide .left
  configured
    { sideIn .live .showing .ready .free with active := some { a with desc := { a.desc with holdMax := 0 } } }

/-- R129: with HOLD_MAX 0 the first word of a stale scan is served in BORDER, or the expiry comes first and it is served in
FILL. -/
theorem test_zero_hold_expires_before_or_after_the_first_word :
    ∃ f : Bool → State,
      after .bufferWordRead (withHand (readOf 0x108000) 0 zeroHoldState) = f (Config.expiryBeforeFirstWord 0) ∧
      ((f false).left.view.state = .holding ∧ ((f false).left.scan.record.map (·.fillServed)) = some false) ∧
      (f true).left.view.state = .lost ∧ ((f true).left.scan.record.map (·.fillServed)) = some true :=
  let a := smallSet.forSide .left
  let s := scanStart .left { a with desc := { a.desc with holdMax := 0 } } 2 (withHand (readOf 0x108000) 0 zeroHoldState)
  let t := { s with freeDraws := 1 }
  ⟨fun b => serveBufferWord .left a 2 0 0x108000 (if b then expireHold .left { loadTime := 1000, duration := 0 } t else t),
    rfl, by decide +kernel, by decide +kernel, by decide +kernel⟩

/-! ## A state and operands for the hypotheses of each statement

`witness_<statement>` meets the hypotheses of Obligations.<statement>; a statement of several clauses has one part for each,
at the ends of its ranges. -/

theorem witness_StepTakesFrontCommand :
    { liveState with pending := [.grant, .timebaseTick] }.pending = .grant :: [.timebaseTick] ∧ liveState.pending = [] :=
  ⟨rfl, rfl⟩

theorem reset_side_values : SideReset (.off none) := by
  refine ⟨rfl, rfl, rfl, fun b => ?_, rfl, rfl, rfl, rfl, rfl, rfl, rfl, rfl, rfl, rfl, rfl, rfl, rfl, rfl, rfl, rfl, rfl⟩
  match b with
  | 0 => rfl
  | 1 => rfl
  | 2 => rfl

theorem witness_ResetLeavesResetValues :
    ResetValues (assertReset recordState) ∧
      exec (.resetReleased 3 64001) (assertReset recordState) = .next (releaseReset 3 64001 (assertReset recordState)) :=
  ⟨⟨rfl, ⟨rfl, rfl, rfl, rfl⟩, ⟨rfl, rfl, rfl, rfl⟩, reset_side_values, reset_side_values, rfl, rfl,
    ⟨rfl, rfl, rfl, rfl, rfl, rfl⟩⟩, rfl⟩

theorem witness_ReleaseStartsInitialisation :
    State.reset.resetHeld = true ∧ (64000 : Nat) ≤ 64000 ∧ ¬((64001 : Nat) ≤ 64000) ∧ MemoryLaw State.reset :=
  ⟨rfl, by decide, by decide, List.Pairwise.nil, by simp [State.reset]⟩

/-- Memory initialisation when its wait has just passed. -/
def initState : State := { after (.resetReleased 1 10) State.reset with timebase := 200 }

theorem witness_InitialisationEndStartsBootLoad : initState.mct.bus = .initialising ∧ 200 ≤ initState.timebase.toNat := by
  decide +kernel

/-- The bus held, and a refresh-owed count. -/
def busState (b : Bus) (owed : Nat) : State := { liveState with mct := { liveState.mct with bus := b, refreshOwed := owed } }

theorem witness_RefreshIsOwedAndEnds :
    (busState .transfer 7).mct.intervalRunning = true ∧ (busState .free 8).mct.intervalRunning = true ∧
      (busState .refresh 0).mct.bus = .refresh := by decide +kernel

theorem witness_GrantGivesTheFreeBus :
    ((busState .free 1).resetHeld = false ∧ (busState .free 1).mct.bus = .free) ∧
      ((busState .free 0).resetHeld = false ∧ (busState .free 0).mct.bus = .free) ∧
      State.reset.resetHeld = true ∧ (busState .refresh 0).mct.bus ≠ .free := by decide +kernel

theorem witness_BootLoadFillsThePendingSet :
    ((bootState 126).mct.bus = .own (.bootLoadRead 0x3FFF1F8) ∧ (bootState 126).cau.device = none ∧
        (bootState 126).cau.pendingSet.length + 1 < 128) ∧
      (bootState 127).mct.bus = .own (.bootLoadRead 0x3FFF1FC) ∧ (bootState 127).cau.device = none ∧
        128 ≤ (bootState 127).cau.pendingSet.length + 1 := by decide +kernel

theorem witness_RecordWriteReachesTheRing :
    recordState.mct.bus = .own (.recordWrite 0x10000 [1, 2, 3, 4]) ∧ MemoryLaw recordState ∧
      (0x3FFFFF0 % 16 = 0 ∧ 0x3FFFFF0 + 16 ≤ 0x4000000) ∧ 0x10000 % 16 = 0 :=
  ⟨rfl, ⟨List.Pairwise.nil, by simp [recordState, liveState, configured, State.reset]⟩, by decide, by decide⟩

theorem witness_PortAnswersRetry :
    ((withHand (readOf 0) 0 liveState).inHand.isSome = true ∧ (readOf 4).wellFormed = true) ∧
    (State.reset.inHand = none ∧ (readOf 0).wellFormed = true ∧ State.reset.resetHeld = true) ∧
      (initState.inHand = none ∧ initState.mct.bus = .initialising) ∧
      (bootState 0).inHand = none ∧ (bootState 0).cau.config = .boot ∧ 0 < (readOf 0x3FFFFFC).wordCount ∧
        controlBase (bootState 0).cau.casel ≤ wordAddress (readOf 0x3FFFFFC) 0 ∧
        wordAddress (readOf 0x3FFFFFC) 0 < controlBase (bootState 0).cau.casel + 0x1000 := by decide +kernel

/-- An own access that has waited some microseconds. -/
def waitingState (wait : Word) : State :=
  { liveState with
    mct := { liveState.mct with queue := [{ access := .recordWrite 0x10000 [0, 0, 0, 0], joinTime := 1000 - wait }] } }

theorem passed_on_configured (s : State) (t : Transfer) (h1 : s.inHand = none) (h2 : t.wellFormed = true)
    (h3 : s.resetHeld = false) (h4 : s.mct.bus ≠ .initialising) (h5 : s.cau.config = .configured) : PassedOn s t :=
  ⟨h1, h2, h3, h4, fun h => by rw [h5] at h; cases h⟩

theorem witness_ArbiterDecidesArrivals :
    (PassedOn (busState .refresh 0) (readOf 0) ∧ (busState .refresh 0).mct.bus ≠ .free) ∧
      (PassedOn (busState .free 8) (readOf 0) ∧ (busState .free 8).mct.bus = .free ∧ (busState .free 8).mct.refreshOwed = 8) ∧
      (PassedOn (waitingState 20) (readOf 0) ∧ (waitingState 20).mct.refreshOwed < 8 ∧
        20 ≤ ((waitingState 20).timebase - (1000 - 20)).toNat) ∧
      PassedOn (waitingState 19) (readOf 0) ∧ ((waitingState 19).timebase - (1000 - 19)).toNat < 20 := by
  refine ⟨⟨passed_on_configured _ _ rfl (by decide) rfl (by decide +kernel) rfl, by decide +kernel⟩,
    ⟨passed_on_configured _ _ rfl (by decide) rfl (by decide +kernel) rfl, by decide +kernel⟩,
    ⟨passed_on_configured _ _ rfl (by decide) rfl (by decide +kernel) rfl, by decide +kernel⟩,
    passed_on_configured _ _ rfl (by decide) rfl (by decide +kernel) rfl, by decide +kernel⟩

theorem witness_EachWordHasOneRow :
    (.plainWordRead ∈ wordCommands ∧ liveState.currentWord = none) ∧
      (withHand (readOf 0x40) 0 liveState).currentWord = some (inHandOf (readOf 0x40) 0 liveState, 0x40, .plain) ∧
      Instr.acknowledgeRead ∈ wordCommands ∧
      Instr.acknowledgeRead ≠ rowFor (readOf 0x40).write (enablesOf (readOf 0x40)) .plain ∧
      ((withHand (readOf 0x104000) 0 liveState).currentWord =
          some (inHandOf (readOf 0x104000) 0 liveState, 0x104000, .buffer .left 1 0) ∧
        ((withHand (readOf 0x104000) 0 liveState).side .left).inForce.isSome = true ∧
        OfSides ViewShown (withHand (readOf 0x104000) 0 liveState)) := by
  refine ⟨⟨by decide, rfl⟩, rfl, by decide, by decide, rfl, rfl, fun sd h => ?_⟩
  cases sd with
  | left => exact ⟨0, rfl⟩
  | right => rcases h with h | h | h <;> cases h

/-- HOLDING, with both timers a microsecond short of their duration. -/
def earlyState : State := { dueState .holding with timebase := 999 }

theorem witness_UnreadyEventsAreNotTaken :
    liveState.resetHeld = false ∧ liveState.mct.bus ≠ .initialising ∧
      { initState with timebase := 199 }.timebase.toNat < 200 ∧ State.reset.mct.intervalRunning = false ∧
      liveState.mct.bus ≠ .refresh ∧ (∀ a, liveState.mct.bus ≠ .own (.bootLoadRead a)) ∧
      (∀ a ws, liveState.mct.bus ≠ .own (.recordWrite a ws)) ∧
      { readOf 0 with data := [1] }.wellFormed = false ∧ liveState.inHand = none ∧
      (∀ t, (earlyState.side .left).view.watchdog = some t → (earlyState.timebase - t.loadTime).toNat < t.duration) ∧
      ∀ t, (earlyState.side .left).view.hold = some t → (earlyState.timebase - t.loadTime).toNat < t.duration := by
  refine ⟨rfl, ?_, ?_, rfl, ?_, fun a => ?_, fun a ws => ?_, rfl, rfl, fun t h => ?_, fun t h => ?_⟩
  · decide +kernel
  · decide +kernel
  · decide +kernel
  · exact nofun
  · exact nofun
  · cases h
    decide +kernel
  · cases h
    decide +kernel

theorem witness_TransferStaysInOneRow :
    (0x3FFFFFC % 4 = 0 ∧ 0x3FFFFFC < 0x4000000) ∧ 0 < (burstRead 0x1FFC 3).wordCount ∧ 15 < (burstRead 0x1FFC 3).wordCount := by
  decide +kernel

theorem snapshot_regions_apart :
    (snapshotRegions liveState.snapshot).Pairwise fun r q => ∀ x, ¬(inRegion r x ∧ inRegion q x) :=
  (allDisjoint_iff _).mp (by decide +kernel)

theorem witness_WordKindFollowsItsRegion :
    (snapshotRegions liveState.snapshot).Pairwise (fun r q => ∀ x, ¬(inRegion r x ∧ inRegion q x)) ∧
      inRegion (liveState.snapshot.controlBase, 0xE00) 0x3FFFDFC ∧
      inRegion (liveState.snapshot.controlBase + 0xE00, 0x200) 0x3FFFE00 ∧
      (geometryIn liveState.snapshot .left = some (smallGeometry 0x100000) ∧ inRegion (0x100000, 64 * 64 * 4) 0x103FFC) ∧
      (liveState.snapshot.ring = some (0x10000, 16) ∧ inRegion (0x10000, 16 * 16) 0x100FC) ∧
      ∀ r ∈ snapshotRegions liveState.snapshot, ¬inRegion r 0x10100 := by
  refine ⟨snapshot_regions_apart, by unfold inRegion; decide +kernel, by unfold inRegion; decide +kernel,
    ⟨rfl, by unfold inRegion; decide +kernel⟩, ⟨rfl, by unfold inRegion; decide +kernel⟩, by unfold inRegion; decide +kernel⟩

/-- The next word of a transfer over a state in which nothing else is in hand. -/
theorem next_word (t : Transfer) (n : Nat) (s : State) (hn : n < t.wordCount) :
    NextWord (withHand t n s) t.write (inHandOf t n s) (wordAddress t n) (classify s.snapshot (wordAddress t n)) := by
  refine ⟨?_, rfl⟩
  simp only [State.currentWord, withHand, inHandOf]
  rw [if_pos hn]

theorem witness_PlainWordWriteStores :
    (NextWord (withHand (writeOf 0x40 0b0101 9) 0 liveState) true (inHandOf (writeOf 0x40 0b0101 9) 0 liveState) 0x40 .plain ∧
        MemoryLaw (withHand (writeOf 0x40 0b0101 9) 0 liveState)) ∧
      NextWord (withHand (writeOf 0x100FC 0xF 9) 0 liveState) true (inHandOf (writeOf 0x100FC 0xF 9) 0 liveState) 0x100FC
        (.ring 15) := by
  refine ⟨⟨⟨rfl, rfl⟩, List.Pairwise.nil, by simp [withHand, liveState, configured, State.reset]⟩, ⟨rfl, rfl⟩⟩

theorem witness_MemoryWordReadReturnsMemory :
    NextWord (withHand (burstRead 0x40 1) 3 liveState) false (inHandOf (burstRead 0x40 1) 3 liveState) 0x4C .plain ∧
      NextWord (withHand (readOf 0x10000) 0 liveState) false (inHandOf (readOf 0x10000) 0 liveState) 0x10000 (.ring 0) ∧
      NextWord (withHand (readOf 0x3FFFDFC) 0 liveState) false (inHandOf (readOf 0x3FFFDFC) 0 liveState) 0x3FFFDFC
        (.parameter 0xDFC) := by
  refine ⟨⟨rfl, rfl⟩, ⟨rfl, rfl⟩, ⟨rfl, rfl⟩⟩

theorem witness_ParameterWordWriteCopies :
    (NextWord (withHand (writeOf 0x3FFF004 1 9) 0 liveState) true (inHandOf (writeOf 0x3FFF004 1 9) 0 liveState) 0x3FFF004
        (.parameter 4) ∧ (4 : Nat) ≠ 0x1C) ∧
      NextWord (withHand (writeOf 0x3FFF004 0 9) 0 liveState) true (inHandOf (writeOf 0x3FFF004 0 9) 0 liveState) 0x3FFF004
        (.parameter 4) ∧
      NextWord (withHand (writeOf 0x3FFF1FC 0xF 9) 0 liveState) true (inHandOf (writeOf 0x3FFF1FC 0xF 9) 0 liveState) 0x3FFF1FC
        (.parameter 0x1FC) ∧
      NextWord (withHand (writeOf 0x3FFF200 0xF 9) 0 liveState) true (inHandOf (writeOf 0x3FFF200 0xF 9) 0 liveState) 0x3FFF200
        (.parameter 0x200) := by
  refine ⟨⟨⟨rfl, rfl⟩, by decide⟩, ⟨rfl, rfl⟩, ⟨rfl, rfl⟩, ⟨rfl, rfl⟩⟩

theorem witness_ReadIndexWriteIsDelivered :
    liveState.cau.pendingSet.length = 128 ∧
      NextWord (withHand (writeOf 0x3FFF01C 0 9) 0 liveState) true (inHandOf (writeOf 0x3FFF01C 0 9) 0 liveState) 0x3FFF01C
        (.parameter 0x1C) ∧
      (NextWord (withHand (writeOf 0x3FFF01C 0xF 1) 0 liveState) true (inHandOf (writeOf 0x3FFF01C 0xF 1) 0 liveState)
          0x3FFF01C (.parameter 0x1C) ∧ (liveState.flu.writeIndex + 1) % 16 = (1 : Word).toNat % 16) ∧
      NextWord (withHand (writeOf 0x3FFF01C 0xF 2) 0 liveState) true (inHandOf (writeOf 0x3FFF01C 0xF 2) 0 liveState)
          0x3FFF01C (.parameter 0x1C) ∧ (liveState.flu.writeIndex + 1) % 16 ≠ (2 : Word).toNat % 16 ∧
        liveState.cau.device = some smallDevice ∧ State.reset.cau.device = none := by
  refine ⟨by decide +kernel, ⟨rfl, rfl⟩, ⟨⟨rfl, rfl⟩, by decide +kernel⟩, ⟨rfl, rfl⟩, by decide +kernel, rfl, rfl⟩

theorem witness_AcknowledgeReadTakesTheHighest :
    NextWord (withHand (readOf 0x3FFFE00) 0 pendingState) false (inHandOf (readOf 0x3FFFE00) 0 pendingState) 0x3FFFE00
        (.status 0xE00) ∧
      pendingState.flu.entries[13]? = some 2 ∧ (∀ j, j < 13 → pendingState.flu.entries[j]? = some 0) ∧
      entryOrder[13]? = some (.side .left .latency) ∧ ∀ n ∈ liveState.flu.entries, n = 0 := by
  refine ⟨⟨rfl, rfl⟩, by decide +kernel, by decide +kernel, by decide +kernel, by decide +kernel⟩

theorem witness_AcknowledgeWriteClearsAll :
    NextWord (withHand (writeOf 0x3FFFE00 0 5) 0 pendingState) true (inHandOf (writeOf 0x3FFFE00 0 5) 0 pendingState)
      0x3FFFE00 (.status 0xE00) := ⟨rfl, rfl⟩

theorem witness_ProtectedWordWriteIsAbsorbed :
    NextWord (withHand (writeOf 0x3FFFFFC 0 5) 0 liveState) true (inHandOf (writeOf 0x3FFFFFC 0 5) 0 liveState) 0x3FFFFFC
      (.status 0xFFC) ∧ (0xFFC : Nat) ≠ 0xE00 := ⟨⟨rfl, rfl⟩, by decide⟩

theorem witness_DeviceStatusShowsTheItems :
    NextWord (withHand (readOf 0x3FFFE04) 0 liveState) false (inHandOf (readOf 0x3FFFE04) 0 liveState) 0x3FFFE04
        (.status 0xE04) ∧ (0xE04 : Nat) ≠ 0xE00 ∧ liveState.flu.writeIndex < 256 ∧
      (0xE1C % 4 = 0 ∧ 0xE1C ≤ 0xE1C ∧ 0xE1C < 0xE40) ∧ 0xFFC % 4 = 0 ∧ 0xF40 ≤ 0xFFC ∧ 0xFFC < 0x1000 :=
  ⟨⟨rfl, rfl⟩, by decide, by decide +kernel, by decide, by decide⟩

theorem counter_law_live : CounterLaw liveState.left := by
  refine ⟨fun b => ?_, by decide +kernel, by decide +kernel, by decide +kernel, fun r h => by cases h⟩
  match b with
  | 0 => decide +kernel
  | 1 => decide +kernel
  | 2 => decide +kernel

theorem index_law_live : ProfileIndexLaw liveState.left := fun b => by
  match b with
  | 0 => decide +kernel
  | 1 => decide +kernel
  | 2 => decide +kernel

theorem glare_law_live : GlareLaw liveState.left := by
  unfold GlareLaw TileLaw
  decide +kernel

theorem witness_SideStatusShowsTheItems :
    (∀ b, ((liveState.side .left).ring.buf b).profile ≤ 3) ∧ CounterLaw (liveState.side .left) ∧
      GlareLaw (liveState.side .left) ∧ (liveState.side .left).glare.map[47]? = some 256 ∧
      (liveState.side .left).glare.summary[47]? = some { hot := false, code := 0 } := by
  exact ⟨index_law_live, counter_law_live, glare_law_live, by decide +kernel, by decide +kernel⟩

theorem profile_law_case : ProfileLaw caseProfile := by
  unfold ProfileLaw
  decide +kernel

theorem witness_ChannelStagesCompute :
    (1023 : Nat) ≤ 1023 ∧ (4095 : Nat) < (1023 * 1025 + 128) / 256 ∧ (256 : Nat) ≤ 256 ∧ (4095 : Nat) ≤ 4095 ∧
      caseProfile.tone[4095 / 128]? = some 248 ∧ caseProfile.tone[4095 / 128 + 1]? = some 255 := by decide +kernel

theorem witness_OutputWordPacksTheLevels :
    ProfileLaw caseProfile ∧ (256 : Nat) ≤ 256 ∧
      (0xFE8F7BC0 : Word) &&& 0x3FFFFFFF = (0x3E8F7BC0 : Word) &&& 0x3FFFFFFF := ⟨profile_law_case, by decide, by decide⟩

theorem witness_LumaAndSignatureTerm : (31 : Nat) < 32 ∧ 129024 % 32 = 0 := by decide

theorem witness_OffsetsFallInTiles : geometryOk (smallGeometry 0x100000) = true ∧ 4095 < 64 * 64 := by decide +kernel

/-- The left side with frame 2 FILLING in buffer 1. -/
def fillingState : State := configured (sideIn .live .showing .filling .ready)

theorem witness_BufferWriteStartsFrame :
    (NextWord (withHand (writeOf 0x10BFFC 0xF 9) 0 fillingState) true (inHandOf (writeOf 0x10BFFC 0xF 9) 0 fillingState)
        0x10BFFC (.buffer .left 2 4095) ∧ (writeOf 0x10BFFC 0xF 9).enables = 0xF ∧
        (fillingState.side .left).inForce = some (smallSet.forSide .left) ∧
        ((fillingState.side .left).ring.buf 2).state = .ready) ∧
      NextWord (withHand (writeOf 0x108000 0xF 9) 0 liveState) true (inHandOf (writeOf 0x108000 0xF 9) 0 liveState)
        0x108000 (.buffer .left 2 0) ∧ ((liveState.side .left).ring.buf 2).state = .free :=
  ⟨⟨⟨rfl, rfl⟩, rfl, rfl, rfl⟩, ⟨rfl, rfl⟩, rfl⟩

theorem witness_BufferWriteContinuesFrame :
    NextWord (withHand (writeOf 0x107FFC 0xF 9) 0 fillingState) true (inHandOf (writeOf 0x107FFC 0xF 9) 0 fillingState)
        0x107FFC (.buffer .left 1 4095) ∧ (writeOf 0x107FFC 0xF 9).enables = 0xF ∧
      (fillingState.side .left).inForce = some (smallSet.forSide .left) ∧
      ((fillingState.side .left).ring.buf 1).state = .filling ∧ (fillingState.side .left).frameProfile = some 0 :=
  ⟨⟨rfl, rfl⟩, rfl, rfl, rfl, rfl⟩

theorem witness_ShowingBufferAbsorbsWrites :
    NextWord (withHand (writeOf 0x100000 0xF 9) 0 fillingState) true (inHandOf (writeOf 0x100000 0xF 9) 0 fillingState)
        0x100000 (.buffer .left 0 0) ∧ (writeOf 0x100000 0xF 9).enables = 0xF ∧
      (fillingState.side .left).inForce = some (smallSet.forSide .left) ∧
      ((fillingState.side .left).ring.buf 0).state = .showing := ⟨⟨rfl, rfl⟩, rfl, rfl, rfl⟩

theorem witness_PartialBufferWriteIsAbsorbed :
    NextWord (withHand (writeOf 0x104000 0 9) 0 fillingState) true (inHandOf (writeOf 0x104000 0 9) 0 fillingState)
        0x104000 (.buffer .left 1 0) ∧ (writeOf 0x104000 0 9).wordCount = 1 ∧ (writeOf 0x104000 0 9).enables ≠ 0xF ∧
      (fillingState.side .left).inForce = some (smallSet.forSide .left) := ⟨⟨rfl, rfl⟩, by decide, by decide, rfl⟩

theorem witness_FrameCompletionRunsItsSteps :
    ((fillingState.side .left).inForce = some (smallSet.forSide .left) ∧
        ((fillingState.side .left).ring.buf 1).state = .filling ∧ (fillingState.side .left).takeWaiting = false) ∧
      fillingState.cau.accepted = some smallSet ∧
      ((configured { fillingState.left with takeWaiting := true }).side .left).takeWaiting = true :=
  ⟨⟨rfl, rfl, rfl⟩, rfl, rfl⟩

theorem witness_GlareUpdateFollowsTheTables :
    liveState.left.glare.acc.length = 48 ∧ liveState.left.glare.map.length = 48 ∧ liveState.left.glare.map[47]? = some 256 := by
  decide +kernel

theorem witness_TransferEndCompletes :
    (withHand (burstRead 0 3) 16 liveState).inHand = some (inHandOf (burstRead 0 3) 16 liveState) ∧
      (burstRead 0 3).wordCount ≤ 16 ∧ (withHand (burstRead 0 3) 16 liveState).request = none ∧
      ((requestState liveState).request = some (readOf 0x80) ∧ (readOf 0x80).wellFormed = true) ∧
      ((burstRead 0x3FFFE00 3).write = false ∧ 1 ≤ (burstRead 0x3FFFE00 3).wordCount ∧
        ∀ i, 1 ≤ i → i < 16 → ∃ o, classify liveState.snapshot (wordAddress (burstRead 0x3FFFE00 3) i) = .status o ∧ o ≠ 0xE00) ∧
      (∀ o, classify liveState.snapshot (wordAddress (burstRead 0x3FFFE00 3) 0) = .status o → o = 0xE00) ∧
      (writeOf 0x40 0xF 9).write = true := by
  have all : ∀ j, j < 16 → classify liveState.snapshot (wordAddress (burstRead 0x3FFFE00 3) j) = .status (0xE00 + 4 * j) := by
    decide +kernel
  refine ⟨rfl, by decide, rfl, ⟨rfl, rfl⟩, ⟨rfl, by decide, fun i h1 h2 => ⟨0xE00 + 4 * i, all i h2, by omega⟩⟩,
    fun o h => ?_, rfl⟩
  rw [all 0 (by decide)] at h
  cases h
  rfl

/-- A scan in progress on buffer 0. -/
def scanState (v : ViewState) : State :=
  configured
    { sideIn v .showing .ready .filling with
      scan := { record := some { newScanRecord 0 none 0 with wordsRead := 1 }, lastLatency := 0, unchecked := 0 } }

theorem witness_BufferReadOutsideScan :
    NextWord (withHand (readOf 0x107FFC) 0 (scanState .live)) false (inHandOf (readOf 0x107FFC) 0 (scanState .live))
        0x107FFC (.buffer .left 1 4095) ∧
      ((scanState .live).side .left).inForce = some (smallSet.forSide .left) ∧ (4095 : Nat) ≠ 0 ∧
      ∀ r, ((scanState .live).side .left).scan.record = some r → r.complete = true ∨ r.buf ≠ 1 :=
  ⟨⟨rfl, rfl⟩, rfl, by decide, fun r h => by cases h; exact .inr (by decide)⟩

theorem witness_ScanWordFollowsTheView :
    NextWord (withHand (readOf 0x103FFC) 0 (scanState .marked)) false (inHandOf (readOf 0x103FFC) 0 (scanState .marked))
        0x103FFC (.buffer .left 0 4095) ∧
      ((scanState .marked).side .left).inForce = some (smallSet.forSide .left) ∧ (4095 : Nat) ≠ 0 ∧
      ((scanState .marked).side .left).scan.record = some { newScanRecord 0 none 0 with wordsRead := 1 } ∧
      ((scanState .marked).side .left).view.state ≠ .off := ⟨⟨rfl, rfl⟩, rfl, by decide, rfl, by decide +kernel⟩

theorem witness_ScanStartOnReadyShowsTheFrame :
    NextWord (withHand (burstRead 0x104000 3) 0 (scanState .live)) false (inHandOf (burstRead 0x104000 3) 0 (scanState .live))
        0x104000 (.buffer .left 1 0) ∧
      ((scanState .live).side .left).inForce = some (smallSet.forSide .left) ∧
      ((scanState .live).side .left).view.state ≠ .off ∧ (((scanState .live).side .left).ring.buf 1).state = .ready :=
  ⟨⟨rfl, rfl⟩, rfl, by decide +kernel, rfl⟩

theorem view_shown_scan (v : ViewState) : ViewShown ((scanState v).side .left) := fun _ => ⟨0, rfl⟩

theorem witness_ScanStartElsewhereRedirects :
    NextWord (withHand (readOf 0x108000) 0 (scanState .holding)) false (inHandOf (readOf 0x108000) 0 (scanState .holding))
        0x108000 (.buffer .left 2 0) ∧
      ((scanState .holding).side .left).inForce = some (smallSet.forSide .left) ∧
      ((scanState .holding).side .left).view.state ≠ .off ∧
      (((scanState .holding).side .left).ring.buf 2).state ≠ .ready ∧ ViewShown ((scanState .holding).side .left) ∧
      (∃ a, (zeroHoldState.side .left).inForce = some a ∧ a.desc.holdMax = 0) ∧
      (zeroHoldState.side .left).view.state = .live ∧ ((zeroHoldState.side .left).ring.buf 2).state = .free :=
  ⟨⟨rfl, rfl⟩, rfl, by decide +kernel, by decide +kernel, view_shown_scan .holding, ⟨_, rfl, rfl⟩, rfl, rfl⟩

theorem witness_ScanCompletionChecksTheReadback :
    ((scanState .live).side .left).inForce = some (smallSet.forSide .left) ∧
      ((scanState .live).side .left).scan.record = some { newScanRecord 0 none 0 with wordsRead := 1 } := ⟨rfl, rfl⟩

theorem witness_AcceptedSetIsClamped :
    min 4095 4094 < min 4095 65535 ∧ min 4095 4094 ≤ min 4095 4094 ∧ min 4095 65535 = 4095 ∧ 3 < 4 ∧ 32 < 33 := by decide

/-- A pending set that passes: both sides of 64×64 at the bases of the small set, the ring of 16 at 10000h. -/
def goodSet : List Word :=
  let d (base : Nat) : List Word :=
    [1, 64, 64, BitVec.ofNat 32 base, BitVec.ofNat 32 (base + 0x4000), BitVec.ofNat 32 (base + 0x8000)] ++ List.replicate 10 0
  [2, 8, 0x10000, 16] ++ List.replicate 12 0 ++ d 0x100000 ++ d 0x200000 ++ List.replicate 80 0

def passingState : State := { liveState with cau := { liveState.cau with pendingSet := goodSet } }

/-- The same set in UNCONFIGURED, where there is no ring yet. -/
def firstCommitState : State :=
  { State.reset with
    resetHeld := false
    mct := { Mct.reset with intervalRunning := true }
    cau := { config := .unconfigured, casel := 3, pendingSet := goodSet, accepted := none, device := none } }

theorem test_commit_of_the_good_set :
    (commit firstCommitState).cau.config = .configured ∧ (commit firstCommitState).left.view.state = .waiting ∧
      (commit firstCommitState).left.view.watchdog = some { loadTime := 0, duration := 1000 } ∧
      (commit firstCommitState).faultLine = false := by decide +kernel

theorem witness_AcceptedCommitTakesEffect :
    (commitPasses passingState = true ∧
        ¬RingChanges passingState.cau.device (acceptedFrom passingState.cau.pendingSet 8).device) ∧
      commitPasses firstCommitState = true ∧
      RingChanges firstCommitState.cau.device (acceptedFrom firstCommitState.cau.pendingSet 8).device := by
  refine ⟨⟨by decide +kernel, fun h => ?_⟩, by decide +kernel, fun d h => by cases h⟩
  exact absurd (h smallDevice rfl) (by decide +kernel)

theorem witness_RejectedCommitRaisesConfigReject : commitPasses liveState = false := by decide +kernel

theorem witness_SideTakesTheSet :
    (fillingState.left.ring.buf 1).state = .filling ∧ (smallSet.forSide .left).desc.enabled = true ∧
      (∀ b, (liveState.left.ring.buf b).state ≠ .filling) ∧
      (∃ old, liveState.left.active = some old ∧ old.desc.enabled = true) ∧
      ¬∃ old, State.reset.left.active = some old ∧ old.desc.enabled = true := by
  refine ⟨rfl, rfl, fun b => ?_, ⟨_, rfl, rfl⟩, fun ⟨old, h, _⟩ => by cases h⟩
  match b with
  | 0 => decide +kernel
  | 1 => decide +kernel
  | 2 => decide +kernel

theorem witness_TimersExpire :
    ((dueState .live).side .left).view.watchdog = some { loadTime := 0, duration := 1000 } ∧
      ((dueState .holding).side .left).view.hold = some { loadTime := 0, duration := 1000 } ∧
      1000 ≤ ((dueState .holding).timebase - 0).toNat ∧
      fillingState.left.ring.filling = some 1 ∧ fillingState.left.ring.showing = some 0 ∧
      liveState.left.ring.filling = none := by decide +kernel

theorem witness_ViewFollowsFaultsAndGoodScans :
    SideKind.classA .tearWrite = false ∧ SideKind.classA .readback = true ∧
      liveState.left.active = some (smallSet.forSide .left) ∧ liveState.left.view.state = .live ∧
      (liveState.side .left).active = some (smallSet.forSide .left) := ⟨rfl, rfl, rfl, rfl, rfl⟩

/-- A full record queue. -/
def fullQueueState : State :=
  { liveState with
    flu := { Flu.reset with
      queue := (List.range 8).map fun i =>
        { seq := BitVec.ofNat 16 i, entry := .device .protect, time := 0, frame := none, view := none, detail := 0 }
      seq := 8
      readIndex := some 1 } }

theorem witness_RaiseReachesTheFaultUnit :
    (entryOrder[0]? = some (.device .configReject) ∧ FaultEntry.device .configReject ≠ .device .recordDropped ∧ liveState.flu.entries.length = 25 ∧ liveState.flu.queue.length < 8) ∧
      entryOrder[23]? = some (.side .right .partialWrite) ∧ fullQueueState.flu.entries.length = 25 ∧
      8 ≤ fullQueueState.flu.queue.length := by decide +kernel

theorem test_raise_at_a_full_queue_is_dropped :
    (raiseDevice .protect 0 fullQueueState).flu.entries.getD 24 0 = 1 ∧
      (raiseDevice .protect 0 fullQueueState).flu.entries.getD (FaultEntry.place (.device .protect)) 0 = 1 ∧
      (raiseDevice .protect 0 fullQueueState).flu.queue = fullQueueState.flu.queue ∧
      (raiseDevice .protect 0 fullQueueState).flu.seq = 8 := by decide +kernel

theorem not_outstanding (m : Mct) (h : ownAccesses m = []) : ¬RecordOutstanding m := by
  rintro ⟨a, ws, hm⟩
  rw [h] at hm
  cases hm

/-- One record in the queue, and a ring with room. -/
def oneRecordState : State := { recordState with mct := liveState.mct }

theorem witness_HeadRecordIsPresented :
    (oneRecordState.cau.device = some smallDevice ∧
        oneRecordState.flu.queue =
          [{ seq := 0, entry := .device .protect, time := 0, frame := none, view := none, detail := 0 }] ∧
        (oneRecordState.flu.writeIndex + 1) % 16 ≠ (oneRecordState.flu.readIndex.getD 0).toNat % 16 ∧
        ¬RecordOutstanding oneRecordState.mct) ∧
      (fullQueueState.flu.writeIndex + 1) % 16 = (fullQueueState.flu.readIndex.getD 0).toNat % 16 ∧
      RecordOutstanding recordState.mct ∧ State.reset.cau.device = none ∧ liveState.flu.queue = [] :=
  ⟨⟨rfl, rfl, by decide +kernel, not_outstanding _ rfl⟩, by decide +kernel, ⟨_, _, List.mem_cons_self⟩, rfl, rfl⟩

/-! ### A state that meets every law -/

/-- LIVE with buffer 0 SHOWING, and a command in front. -/
def lawfulState : State := { liveState with pending := [.timebaseTick] }

theorem witness_laws_step : step lawfulState = .next { liveState with timebase := 1001 } := rfl

/-- The hypotheses of RingLawsKept and ShownLawsKeptAndNoStepStops. -/
theorem witness_ring_laws : OfSides (fun x => (RingLaw x ∧ FrameProfileLaw x) ∧ ViewShown x ∧ RedirectLaw x) lawfulState := by
  have off : ∀ b, (SideState.off none).ring.buf b = .cleared := fun b => by
    match b with
    | 0 => rfl
    | 1 => rfl
    | 2 => rfl
  intro sd
  cases sd with
  | left =>
    refine ⟨⟨?_, ?_, ?_⟩, fun _ => ⟨0, rfl⟩, fun r b h => by cases h⟩
    · show ∀ b c, (((liveState.left.ring.buf b).state = .filling → (liveState.left.ring.buf c).state = .filling → b = c) ∧
        ((liveState.left.ring.buf b).state = .showing → (liveState.left.ring.buf c).state = .showing → b = c))
      decide +kernel
    · show ∀ b, (liveState.left.ring.buf b).state = .filling →
        liveState.left.frameProfile = some (liveState.left.ring.buf b).profile
      decide +kernel
    · exact fun _ => rfl
  | right =>
    show (RingLaw (.off none) ∧ FrameProfileLaw (.off none)) ∧ ViewShown (.off none) ∧ RedirectLaw (.off none)
    refine ⟨⟨fun b c => ?_, fun b h => ?_, fun _ => rfl⟩, fun h => ?_, fun r b h => by cases h⟩
    · rw [off, off]; exact ⟨(fun h => by cases h), fun h => by cases h⟩
    · rw [off] at h; cases h
    · rcases h with h | h | h <;> cases h

theorem descriptor_law_small (base : Nat) : DescriptorLaw (smallDescriptor base) := by
  unfold DescriptorLaw smallDescriptor
  simp

theorem profiles_law_small : ProfilesLaw smallProfiles := by
  intro i
  have core : ProfileLaw coreProfile := by unfold ProfileLaw; decide +kernel
  unfold Profiles.get
  split
  · exact profile_law_case
  · exact core
  · exact profile_law_case
  · exact profile_law_case

/-- The hypotheses of ViewLawsKept and RangeLawsKept. -/
theorem witness_view_laws :
    OfSides (fun x => OffLaw x ∧ HoldLaw x ∧ RunLaw x ∧ CounterLaw x ∧ ProfileIndexLaw x ∧ GlareLaw x) lawfulState ∧
      SettingsLaw lawfulState := by
  refine ⟨fun sd => ?_, fun acc h => ?_, fun sd a h => ?_⟩
  · cases sd with
    | left =>
      refine ⟨⟨?_, fun h => by cases h⟩, ?_, ?_, counter_law_live, index_law_live, glare_law_live⟩
      · exact ⟨(fun h => by cases h), fun h => by cases h⟩
      · exact ⟨(fun h => by cases h), fun h => by cases h⟩
      · exact ⟨by decide +kernel, fun _ _ => rfl⟩
    | right =>
      refine ⟨⟨⟨fun _ => rfl, fun _ => rfl⟩, fun _ => rfl⟩, ?_, ?_, ?_, ?_, ?_⟩
      · exact ⟨(fun h => by cases h), fun h => by cases h⟩
      · exact ⟨by decide +kernel, fun _ _ => rfl⟩
      · refine ⟨fun b => ?_, by decide +kernel, by decide +kernel, by decide +kernel, fun r h => by cases h⟩
        match b with
        | 0 => decide +kernel
        | 1 => decide +kernel
        | 2 => decide +kernel
      · exact fun b => by
          match b with
          | 0 => decide +kernel
          | 1 => decide +kernel
          | 2 => decide +kernel
      · show GlareLaw (.off none)
        unfold GlareLaw TileLaw
        decide +kernel
  · have : acc = smallSet := by
      change some smallSet = some acc at h
      cases h; rfl
    subst this
    exact ⟨by decide, fun sd => by cases sd <;> exact descriptor_law_small _, profiles_law_small⟩
  · cases sd with
    | left =>
      have : a = smallSet.forSide .left := by
        change some (smallSet.forSide .left) = some a at h
        cases h; rfl
      subst this
      exact ⟨descriptor_law_small _, profiles_law_small⟩
    | right => cases h

/-- The hypotheses of LinesLawKept, FaultUnitLawKept and MemoryControllerLawKept. -/
theorem witness_device_laws :
    LinesLaw lawfulState ∧ FaultUnitLaw lawfulState ∧ MemoryControllerLaw lawfulState ∧ MemoryLaw lawfulState := by
  refine ⟨by unfold LinesLaw; decide +kernel, ⟨by decide +kernel, by decide +kernel, fun i r h => ?_⟩,
    ⟨by decide +kernel, by decide +kernel, fun r h => ?_⟩, List.Pairwise.nil, fun c h => by cases h⟩
  · change ([] : List FaultRecord)[i]? = some r at h
    simp at h
  · change some r ∈ ([none, none, none, none] : List (Option Nat)) at h
    simp at h

/-- The hypotheses of PendingSetMirrorsMemory and ShowingBufferIsNeverWritten. -/
theorem witness_store_law :
    StoreLaw lawfulState ∧ (lawfulState.side .left).inForce = some (smallSet.forSide .left) ∧
      ((lawfulState.side .left).ring.buf 0).state = .showing ∧ inRegion (0x100000, 64 * 64 * 4) 0x103FFF := by
  have started : ¬NotStarted lawfulState := by
    rintro (h | h) <;> cases h
  refine ⟨⟨witness_device_laws.2.2.2, ⟨?_, ⟨?_, (fun h => by cases h), fun h => absurd h started⟩, ?_, ?_⟩,
    fun sd => (witness_view_laws.1 sd).1, ⟨?_, ?_, fun h => absurd h started⟩, ?_, ?_, ?_⟩, rfl, rfl, ?_⟩
  · exact ⟨Nat.zero_le _, Nat.zero_le _⟩
  · exact ⟨fun _ => started, fun _ => rfl⟩
  · exact ⟨fun h => absurd rfl h, (fun h => by cases h), fun _ => ⟨List.length_replicate, rfl⟩⟩
  · exact ⟨⟨(fun h => by cases h), fun h => by cases h⟩, (fun t h => by cases h), fun h hh => by cases hh⟩
  · refine ⟨rfl, fun acc h => ?_⟩
    have : acc = smallSet := by
      change some smallSet = some acc at h
      cases h; rfl
    subst this
    exact ⟨by decide +kernel, by decide +kernel, by decide +kernel, by decide +kernel, by decide +kernel,
      (allDisjoint_iff _).mp (by decide +kernel)⟩
  · intro sd
    cases sd with
    | left =>
      refine ⟨fun a h => ⟨smallSet, rfl, rfl, ?_⟩, fun h => by cases h⟩
      change some (smallSet.forSide .left) = some a at h
      cases h; rfl
    | right => exact ⟨fun a h => (by cases h), fun h => by cases h⟩
  · show (0 : Nat) < 16
    decide
  · intro a ws h
    cases h
  · intro i w h
    change (List.replicate 128 (0 : Word))[i]? = some w at h
    rw [List.getElem?_replicate] at h
    split at h
    · cases h
      show ofBytes 0 0 0 0 = 0
      decide
    · cases h
  · exact ⟨by decide, by decide⟩

end Sys2Proof.Tests
end

/-! PROOF. The commit: it passes exactly when no condition of R40 holds, and what a failed one does (R41). -/

namespace Sys2Proof.Safety

open Sys2Proof.Machine

/-! ## The commit check, as its conditions (R40) -/

theorem forall_side_iff (p : Side → Prop) : (∀ sd, p sd) ↔ p .left ∧ p .right :=
  ⟨fun h => ⟨h .left, h .right⟩, fun ⟨left, right⟩ sd => by cases sd <;> assumption⟩

theorem profilesOk_iff (d : Descriptor) : profilesOk d = true ↔ d.dayProfile ≤ 3 ∧ d.nightProfile ≤ 3 := by
  unfold profilesOk
  rw [Bool.and_eq_true, decide_eq_true_eq, decide_eq_true_eq]

/-- The last condition of R40: a set that changes the ring fails while the active ring holds unread records. -/
theorem ringFree_iff (s : State) (new : DeviceCopy) :
    (!(ringChanged s.cau.device new && s.unreadRecords)) = true ↔
      ¬(RingChanges s.cau.device new ∧ ∃ d, s.cau.device = some d ∧ Unread s.flu d) := by
  rw [Bool.not_eq_true', ← Bool.not_eq_true, Bool.and_eq_true, ringChanged_iff, unreadRecords_iff]

/-- The descriptor of a side in the pending set (R33). -/
def pendingSide (s : State) (sd : Side) : Descriptor := pendingDescriptor s.cau.pendingSet (descriptorOffset sd)

/-- The commit check with its two per-side checks, of the profile indices and of the kept geometry, over the sides. -/
theorem commitPasses_iff_checks (s : State) :
    commitPasses s = true ↔
      (wordAt s.cau.pendingSet 0x00).toNat = 2 ∧
        geometryOk (pendingSide s .left).geometry = true ∧ geometryOk (pendingSide s .right).geometry = true ∧
        allDisjoint (regions (controlBase s.cau.casel) (pendingDevice s.cau.pendingSet) (pendingSide s .left).geometry
          (pendingSide s .right).geometry) = true ∧
        ringOk (pendingDevice s.cau.pendingSet) = true ∧
        (∀ sd, profilesOk (pendingSide s sd) = true) ∧
        (∀ sd, geometryKept (s.side sd).active (pendingSide s sd) = true) ∧
        (!(ringChanged s.cau.device (pendingDevice s.cau.pendingSet) && s.unreadRecords)) = true := by
  unfold commitPasses
  rw [forall_side_iff, forall_side_iff]
  simp only [Bool.and_eq_true, beq_iff_eq, and_assoc]
  rfl

/-- Settles O42: each check of the commit is its condition of R40. -/
theorem commitPassesExactlyWhenNoConditionHolds : Obligations.CommitPassesExactlyWhenNoConditionHolds := by
  intro s ps ring l r
  rw [commitPasses_iff_checks, geometryOk_iff, geometryOk_iff, allDisjoint_iff, ringOk_iff, ringFree_iff]
  simp only [profilesOk_iff, geometryKept_iff, and_assoc]
  rfl

/-! ## A commit that fails (R37, R38, R41) -/

/-- A failed commit moves the configuration state out of BOOT only (R38). -/
theorem configAfterReject_eq (c : ConfigState) :
    configAfterReject c = if c = .boot then .unconfigured else c := by
  cases c <;> rfl

theorem commit_of_not_passes {s : State} (h : commitPasses s = false) :
    commit s = rejectCommit (wordAt s.cau.pendingSet 0x04) s := by
  unfold commit
  rw [h]
  rfl

/-- Settles O45: a commit that fails is rejected, and the rejection is the raise of CONFIG_REJECT. -/
theorem rejectedCommitRaisesConfigReject : Obligations.RejectedCommitRaisesConfigReject := by
  intro s fails
  rw [commit_of_not_passes fails, rejectCommit, configAfterReject_eq]
  rfl

end Sys2Proof.Safety

/-! PROOF. The stages of a channel (R52, R53, R54, R56) and what they keep of its range. -/

namespace Sys2Proof.Safety

open Sys2Proof.Machine

/-! ## Black offset and gain (R52, R53) -/

theorem offsetStage_of_lt {bo c : Nat} (h : bo < c) : offsetStage bo c = c - bo := if_pos h

theorem offsetStage_of_le {bo c : Nat} (h : c ≤ bo) : offsetStage bo c = 0 := if_neg (Nat.not_lt.mpr h)

/-- The black offset never raises a channel. -/
theorem offsetStage_le (bo c : Nat) : offsetStage bo c ≤ c := by
  unfold offsetStage
  split <;> omega

theorem gainStage_of_lt {g c1 : Nat} (h : 4095 < (c1 * g + 128) / 256) : gainStage g c1 = 4095 :=
  Nat.min_eq_left (Nat.le_of_lt h)

theorem gainStage_of_le {g c1 : Nat} (h : (c1 * g + 128) / 256 ≤ 4095) : gainStage g c1 = (c1 * g + 128) / 256 :=
  Nat.min_eq_right h

/-! ## The knee (R54) -/

/-- A level dimmed by a factor of at most one whole (256) and rounded is no higher than it was. -/
theorem dimmed_le {d : Nat} (x : Nat) (h : d ≤ 256) : (x * d + 128) / 256 ≤ x := by
  have : x * d ≤ x * 256 := Nat.mul_le_mul_left x h
  omega

theorem kneeStage_of_le {k c2 : Nat} (d : Nat) (h : c2 ≤ k) : kneeStage k d c2 = c2 := if_pos h

theorem kneeStage_of_lt {k c2 : Nat} (d : Nat) (h : k < c2) : kneeStage k d c2 = k + ((c2 - k) * d + 128) / 256 :=
  if_neg (Nat.not_le.mpr h)

/-- The knee never raises a level: the part above the knee is dimmed, the rest is kept. -/
theorem kneeStage_le {d : Nat} (k c2 : Nat) (hd : d ≤ 256) : kneeStage k d c2 ≤ c2 := by
  rcases le_or_gt c2 k with h | h
  · exact (kneeStage_of_le d h).le
  · have := dimmed_le (c2 - k) hd
    rw [kneeStage_of_lt d h]
    omega

/-- Without dimming the knee changes nothing. -/
theorem kneeStage_undimmed (k c2 : Nat) : kneeStage k 256 c2 = c2 := by
  rcases le_or_gt c2 k with h | h
  · exact kneeStage_of_le 256 h
  · rw [kneeStage_of_lt 256 h]
    omega

/-! ## The tone table (R56) -/

/-- The mean of two entries with the weights 128 - f and f, rounded to nearest. -/
def weightedMean (lo hi f : Nat) : Nat := (lo * (128 - f) + hi * f + 64) / 128

theorem toneStage_of_entries {tone : List Nat} {c3 lo hi : Nat} (hlo : tone[c3 / 128]? = some lo)
    (hhi : tone[c3 / 128 + 1]? = some hi) : toneStage tone c3 = weightedMean lo hi (c3 % 128) := by
  unfold toneStage weightedMean
  rw [List.getD_eq_getElem?_getD, List.getD_eq_getElem?_getD, hlo, hhi]
  rfl

theorem weightedMean_zero (lo hi : Nat) : weightedMean lo hi 0 = lo := by
  unfold weightedMean
  omega

/-- The weights add up to 128, so equal entries are their own mean. -/
theorem weights_sum (n : Nat) {f : Nat} (hf : f ≤ 128) : n * (128 - f) + n * f = n * 128 := by
  rw [← Nat.mul_add, Nat.sub_add_cancel hf]

theorem weightedMean_le {lo hi f n : Nat} (hf : f ≤ 128) (hlo : lo ≤ n) (hhi : hi ≤ n) : weightedMean lo hi f ≤ n := by
  have low : lo * (128 - f) ≤ n * (128 - f) := Nat.mul_le_mul_right _ hlo
  have high : hi * f ≤ n * f := Nat.mul_le_mul_right _ hhi
  have whole := weights_sum n hf
  unfold weightedMean
  omega

theorem le_weightedMean {lo hi f n : Nat} (hf : f ≤ 128) (hlo : n ≤ lo) (hhi : n ≤ hi) : n ≤ weightedMean lo hi f := by
  have low : n * (128 - f) ≤ lo * (128 - f) := Nat.mul_le_mul_right _ hlo
  have high : n * f ≤ hi * f := Nat.mul_le_mul_right _ hhi
  have whole := weights_sum n hf
  unfold weightedMean
  omega

/-- Settles O26: each stage is its formula; a rounded product with a factor of at most 256 does not exceed the level that it
dims, and a rounded weighted mean stays between its entries. -/
theorem channelStagesCompute : Obligations.ChannelStagesCompute := by
  refine ⟨fun bo c hc => ?offset, fun g c1 => ?gain, fun k d c2 hd => ?knee, fun tone c3 lo hi _ hlo hhi => ?tone⟩
  case offset => exact ⟨offsetStage_of_lt, offsetStage_of_le, (offsetStage_le bo c).trans hc⟩
  case gain => exact ⟨gainStage_of_lt, gainStage_of_le⟩
  case knee =>
    refine ⟨kneeStage_of_le d, kneeStage_of_lt d, kneeStage_le k c2 hd, ?_⟩
    rintro rfl
    exact kneeStage_undimmed k c2
  case tone =>
    have hf : c3 % 128 ≤ 128 := (Nat.mod_lt c3 (by decide)).le
    rw [toneStage_of_entries hlo hhi]
    refine ⟨rfl, le_weightedMean hf (min_le_left lo hi) (min_le_right lo hi),
      weightedMean_le hf (le_max_left lo hi) (le_max_right lo hi), fun h => ?_⟩
    rw [h, weightedMean_zero]

end Sys2Proof.Safety

/-! PROOF. Writes of a buffer word: the two ways BUFFER_WORD_WRITE takes, and the partial one in full (R62). -/

namespace Sys2Proof.Safety

open Sys2Proof.Machine

/-- Handling a word appends its data and changes nothing but the transfer in hand. -/
theorem finishWord_of_inHand {t : State} {h : InHand} (ht : t.inHand = some h) (data : List Word) :
    finishWord data t = { t with inHand := some (handled h data) } := by
  unfold finishWord modInHand
  rw [ht]
  rfl

/-- A buffer write whose word is not whole is absorbed, and the word is handled (R62). -/
theorem exec_bufferWordWrite_partial {s : State} {h : InHand} {addr : Nat} {sd : Side} {b : Fin 3} {o : Nat} {a : ActiveSet}
    (hw : NextWord s true h addr (.buffer sd b o)) (ha : (s.side sd).inForce = some a)
    (hp : fullWord (enablesOf h.transfer) = false) :
    exec .bufferWordWrite s = .next (finishWord [] (absorbPartial sd b addr s)) := by
  have taken : exec .bufferWordWrite s = .next (bufferWrite h addr (.buffer sd b o) s) :=
    congrArg Host.Outcome.next (onWord_of_next hw rfl)
  rw [taken]
  simp only [bufferWrite, ha, hp, Bool.false_eq_true, if_false]

/-- The enables of a one-word transfer are those of its word (R3). -/
theorem enablesOf_of_single {t : Transfer} (h : t.wordCount = 1) : enablesOf t = t.enables := if_pos h

theorem fullWord_eq_false_iff (be : BitVec 4) : fullWord be = false ↔ be ≠ 0xF := by simp [fullWord]

/-- A class B raise and a change of a buffer record of its side come in either order (R135). -/
theorem raiseSide_modBuf (sd : Side) {k : SideKind} (hk : k.classA = false) (frame : Option (BitVec 16 × Fin 3))
    (detail : Word) (b : Fin 3) (f : BufRecord → BufRecord) (s : State) :
    raiseSide sd k frame detail (modBuf sd b f s) = modBuf sd b f (raiseSide sd k frame detail s) := by
  have side : (raiseSide sd k frame detail s).side sd = s.side sd := by simp [faultSide, hk]
  unfold modBuf modRing modSide
  rw [side]
  exact raiseSide_setSide sd hk frame detail _ s rfl

/-- Settles O33: the partial write only raises PARTIAL_WRITE and clears VERIFIED, in either order, since the raise is of class
B and leaves the buffers alone. -/
theorem partialBufferWriteIsAbsorbed : Obligations.PartialBufferWriteIsAbsorbed := by
  intro s h addr sd b o a hw single notFull ha
  have hp : fullWord (enablesOf h.transfer) = false := by
    rwa [enablesOf_of_single single, fullWord_eq_false_iff]
  have inHand : (absorbPartial sd b addr s).inHand = some h := by
    simp [absorbPartial, (currentWord_spec hw.1).1]
  rw [exec_bufferWordWrite_partial hw ha hp, finishWord_of_inHand inHand]
  unfold absorbPartial
  rw [raiseSide_modBuf sd rfl]
  rfl

end Sys2Proof.Safety

/-! PROOF. The completion update of the Glare Unit: the hot judgement, the neighbours of a tile, the target factor, and what
the update makes of each tile (R93 to R98). -/

namespace Sys2Proof.Safety

open Sys2Proof.Machine

/-! ## The hot judgement (R95) -/

theorem tileHot_iff (hfOn : Nat) (t : TileAcc) : tileHot hfOn t = true ↔ 0 < t.n ∧ hfOn ≤ t.hot * 256 / t.n := by
  simp [tileHot]

theorem hotTiles_getD (hfOn : Nat) (g : Glare) {i : Nat} (hi : i < 48) :
    (hotTiles hfOn g).getD i false = tileHot hfOn (g.accOf i) := by
  simp [hotTiles, Config.tiles, hi]

/-! ## The neighbours of a tile (R96) -/

theorem mem_neighbours_iff {i j : Nat} :
    j ∈ neighbours i ↔ (8 ≤ i ∧ j = i - 8) ∨ (i < 40 ∧ j = i + 8) ∨ (i % 8 ≠ 0 ∧ j = i - 1) ∨ (i % 8 ≠ 7 ∧ j = i + 1) := by
  simp [neighbours]

/-- The listed neighbours of a tile of the grid are the tiles of the grid that share an edge with it. -/
theorem mem_neighbours_iff_adjacent {i j : Nat} (hi : i < 48) : j ∈ neighbours i ↔ adjacent i j := by
  rw [mem_neighbours_iff]
  unfold adjacent
  omega

/-- Some listed neighbour is hot exactly when some tile that shares an edge is. -/
theorem any_neighbour_hot_iff (hfOn : Nat) (g : Glare) {i : Nat} (hi : i < 48) :
    ((neighbours i).any fun j => (hotTiles hfOn g).getD j false) = true ↔
      ∃ j, adjacent i j ∧ tileHot hfOn (g.accOf j) = true := by
  rw [List.any_eq_true]
  refine exists_congr fun j => ?_
  rw [mem_neighbours_iff_adjacent hi]
  refine and_congr_right fun hij => ?_
  rw [hotTiles_getD hfOn g hij.2.1]

/-! ## The target factor, row by row of R96 -/

theorem targetFactor_day (dmin : Nat) (hot : List Bool) (i : Nat) : targetFactor .day dmin hot i = 256 := rfl

theorem targetFactor_of_hot (dmin : Nat) {hfOn i : Nat} {g : Glare} (hi : i < 48) (hot : tileHot hfOn (g.accOf i) = true) :
    targetFactor .night dmin (hotTiles hfOn g) i = dmin :=
  if_pos ((hotTiles_getD hfOn g hi).trans hot)

/-- At night the target of a tile that is not hot is decided by its neighbours alone. -/
theorem targetFactor_of_not_hot (dmin : Nat) {hfOn i : Nat} {g : Glare} (hi : i < 48)
    (cold : ¬tileHot hfOn (g.accOf i) = true) :
    targetFactor .night dmin (hotTiles hfOn g) i =
      if (neighbours i).any fun j => (hotTiles hfOn g).getD j false then (dmin + 256) / 2 else 256 :=
  if_neg (by rwa [hotTiles_getD hfOn g hi])

theorem targetFactor_of_hot_neighbour (dmin : Nat) {hfOn i : Nat} {g : Glare} (hi : i < 48)
    (cold : ¬tileHot hfOn (g.accOf i) = true) (near : ∃ j, adjacent i j ∧ tileHot hfOn (g.accOf j) = true) :
    targetFactor .night dmin (hotTiles hfOn g) i = (dmin + 256) / 2 := by
  rw [targetFactor_of_not_hot dmin hi cold, if_pos ((any_neighbour_hot_iff hfOn g hi).mpr near)]

theorem targetFactor_of_no_hot_neighbour (dmin : Nat) {hfOn i : Nat} {g : Glare} (hi : i < 48)
    (cold : ¬tileHot hfOn (g.accOf i) = true) (clear : ∀ j, adjacent i j → ¬tileHot hfOn (g.accOf j) = true) :
    targetFactor .night dmin (hotTiles hfOn g) i = 256 := by
  have none_near : ¬∃ j, adjacent i j ∧ tileHot hfOn (g.accOf j) = true := fun ⟨j, hij, hot⟩ => clear j hij hot
  rw [targetFactor_of_not_hot dmin hi cold, if_neg (mt (any_neighbour_hot_iff hfOn g hi).mp none_near)]

/-! ## The update, field by field (R93, R94, R97, R98) -/

section
variable (d : Descriptor) (p : Profile) (g : Glare)

@[simp] theorem completionUpdate_acc : (completionUpdate d p g).acc = g.acc := rfl

@[simp] theorem completionUpdate_frameGt : (completionUpdate d p g).frameGt = g.frameGt := rfl

theorem completionUpdate_night_of_day (h : g.night = .day) :
    (completionUpdate d p g).night = if sceneMean g < d.nEnter then .night else .day := by
  simp [completionUpdate, h, nightAfter]

theorem completionUpdate_night_of_night (h : g.night = .night) :
    (completionUpdate d p g).night = if d.nLeave < sceneMean g then .day else .night := by
  simp [completionUpdate, h, nightAfter]

@[simp] theorem completionUpdate_map_length : (completionUpdate d p g).map.length = 48 := by
  simp [completionUpdate, Config.tiles]

@[simp] theorem completionUpdate_summary_length : (completionUpdate d p g).summary.length = 48 := by
  simp [completionUpdate, Config.tiles]

/-- Each factor moves toward the target that its tile has under the night state after the update. -/
theorem completionUpdate_map_getElem? {i old : Nat} (hi : i < 48) (h : g.map[i]? = some old) :
    (completionUpdate d p g).map[i]? = some (moveFactor d.stepDown d.stepUp
      (targetFactor (completionUpdate d p g).night p.dmin (hotTiles p.hfOn g) i) old) := by
  simp [completionUpdate, Config.tiles, hi, h]

theorem completionUpdate_summary_getElem? {i : Nat} (hi : i < 48) :
    (completionUpdate d p g).summary[i]? = some (tileSummary (tileHot p.hfOn (g.accOf i)) (g.accOf i)) := by
  rw [← hotTiles_getD p.hfOn g hi]
  simp [completionUpdate, Config.tiles, hi]

end

/-- Settles O35: the fields of the update, and for each tile the target that R96 gives it, with one lemma for each row
of R96's table; the map's move and the summary follow. -/
theorem glareUpdateFollowsTheTables : Obligations.GlareUpdateFollowsTheTables := by
  intro d p g _ _
  simp only [← tileHot_iff]
  refine ⟨completionUpdate_acc d p g, completionUpdate_frameGt d p g, completionUpdate_night_of_day d p g,
    completionUpdate_night_of_night d p g, completionUpdate_map_length d p g, completionUpdate_summary_length d p g,
    fun i hi => ⟨targetFactor (completionUpdate d p g).night p.dmin (hotTiles p.hfOn g) i,
      fun day => ?day, fun night hot => ?hot, fun night cold near => ?near, fun night cold clear => ?clear,
      fun old => completionUpdate_map_getElem? d p g hi, _, completionUpdate_summary_getElem? d p g hi, Iff.rfl, rfl⟩⟩
  case day => rw [day, targetFactor_day]
  case hot => rw [night, targetFactor_of_hot p.dmin hi hot]
  case near => rw [night, targetFactor_of_hot_neighbour p.dmin hi cold near]
  case clear => rw [night, targetFactor_of_no_hot_neighbour p.dmin hi cold clear]

end Sys2Proof.Safety

/-! PROOF. The view supervisor: what a fault makes of a side by its class (R128, R133, R134, R135), and what a good scan
makes of it by its view state (R132). -/

namespace Sys2Proof.Safety

open Sys2Proof.Machine

/-! ## The hold timer over a move (R128) -/

theorem holdAfterMove_holding (old : ViewState) (now : Word) (holdMax : Nat) (hold : Option Timer) :
    holdAfterMove old .holding now holdMax hold = if old = .holding then hold else loaded now holdMax := rfl

/-- A move to any other state stops the hold timer. -/
theorem holdAfterMove_of_ne {new : ViewState} (h : new ≠ .holding) (old : ViewState) (now : Word) (holdMax : Nat)
    (hold : Option Timer) : holdAfterMove old new now holdMax hold = none := if_neg h

/-! ## A fault, by its class (R134, R135) -/

theorem faultSide_of_classB {k : SideKind} (hk : k.classA = false) (now : Word) (x : SideState) : faultSide now k x = x := by
  unfold faultSide
  rw [hk]
  rfl

/-- A class A fault moves the view by the table, under the HOLD_MAX of the active set. -/
theorem faultSide_of_classA {k : SideKind} {x : SideState} {a : ActiveSet} (hk : k.classA = true) (ha : x.active = some a)
    (now : Word) :
    faultSide now k x = { x with view := moveView now a.desc.holdMax (viewAfterFault k x.view.state) x.view } := by
  have holdMax : x.holdMax = a.desc.holdMax := by rw [SideState.holdMax, ha]
  unfold faultSide
  rw [if_pos hk, holdMax]

/-! ## A good scan (R132, R139) -/

theorem linesLaw_updateLines (s : State) : LinesLaw (updateLines s) := ⟨rfl, rfl⟩

/-- A good scan changes its side and, beside it, nothing but the two lines. -/
theorem goodScan_eq_setSide (sd : Side) (s : State) :
    goodScan sd s = setSide sd (goodScanSide (s.side sd))
      { s with faultLine := (goodScan sd s).faultLine, flu := { s.flu with attn := (goodScan sd s).flu.attn } } := by
  cases sd <;> rfl

theorem goodScanSide_of_active {x : SideState} {a : ActiveSet} (ha : x.active = some a) :
    goodScanSide x = { x with view := goodScanView a.desc.recoverRun x.view } := by
  have recoverRun : x.recoverRun = a.desc.recoverRun := by rw [SideState.recoverRun, ha]
  unfold goodScanSide
  rw [recoverRun]

/-- Settles O48: a class B fault changes nothing; a class A fault moves the view to the table's state, and the hold timer
follows the move; a good scan changes the view by its state, and the lines follow. -/
theorem viewFollowsFaultsAndGoodScans : Obligations.ViewFollowsFaultsAndGoodScans := by
  refine ⟨fun now k x hk => faultSide_of_classB hk now x, fun now k x a hk ha => ?classA, fun s sd a ha => ?goodScan⟩
  case classA =>
    refine ⟨viewAfterFault k x.view.state, _, faultSide_of_classA hk ha now, fun enters => ?_,
      fun leaves => holdAfterMove_of_ne leaves _ _ _ _, fun cell listed kind old => ?_⟩
    · rw [enters, holdAfterMove_holding]
      rfl
    · have table := (by decide : ∀ c ∈ _, viewAfterFault c.1 c.2.1 = c.2.2) cell listed
      rw [kind, old, table]
  case goodScan =>
    refine ⟨goodScan sd s, rfl, linesLaw_updateLines _, ?_⟩
    refine (goodScan_eq_setSide sd s).trans (congrArg (setSide sd · _) ?_)
    rw [goodScanSide_of_active ha]
    obtain ⟨state, watchdog, hold, recovery⟩ := (s.side sd).view
    -- one case for each row of R132's table
    cases state <;> rfl

end Sys2Proof.Safety

/-! PROOF. The acknowledge word: a read takes the pending entry of highest priority (R147, R165), a write clears them all
(R148), and ATTN follows what is left pending (R150). -/

namespace Sys2Proof.Safety

open Sys2Proof.Machine

/-! ## The lines after a change of the pending set (R139, R150) -/

/-- No entry bears on FAULT; ATTN shows the entries that the pending set now holds. -/
theorem updateLines_of_entries (entries : List Nat) (s : State) :
    updateLines { s with flu := { s.flu with entries := entries } } =
      { s with
        faultLine := s.faultCondition
        flu := { s.flu with entries := entries, attn := anyEnabledPending s.maskInForce entries } } := rfl

/-- With nothing pending no mask enables ATTN. -/
theorem anyEnabledPending_of_clear (mask : Word) {entries : List Nat} (clear : ∀ n ∈ entries, n = 0) :
    anyEnabledPending mask entries = false := by
  unfold anyEnabledPending
  rw [List.any_eq_false]
  rintro ⟨e, n⟩ member
  have zero : n = 0 := clear n (List.of_mem_zip member).2
  simp [zero]

/-- Clearing every entry releases ATTN, whatever the mask in force. -/
theorem clearEntries_eq (s : State) :
    clearEntries s =
      { s with
        faultLine := s.faultCondition
        flu := { s.flu with entries := List.replicate 25 0, attn := false } } := by
  unfold clearEntries
  rw [updateLines_of_entries, anyEnabledPending_of_clear s.maskInForce fun _ => List.eq_of_mem_replicate]

/-! ## The entry that a read takes (R147) -/

theorem takeEntry_of_first {s : State} {i n : Nat} {e : FaultEntry} (first : firstPending s.flu.entries = some i)
    (count : s.flu.entries[i]? = some n) (entry : entryOrder[i]? = some e) :
    takeEntry s =
      (acknowledgeWord e n, updateLines { s with flu := { s.flu with entries := s.flu.entries.set i 0 } }) := by
  unfold takeEntry
  rw [first]
  simp only [List.getD_eq_getElem?_getD, count, entry, Option.getD_some]

theorem takeEntry_of_clear {s : State} (clear : ∀ n ∈ s.flu.entries, n = 0) : takeEntry s = (0, s) := by
  unfold takeEntry
  rw [firstPending_of_clear clear]

theorem takeEntry_inHand (s : State) : (takeEntry s).2.inHand = s.inHand := by
  unfold takeEntry
  cases firstPending s.flu.entries with
  | none => rfl
  | some i => exact updateLines_inHand _

/-! ## The two commands -/

/-- A read of the acknowledge word brings what `takeEntry` answers. -/
theorem exec_acknowledgeRead_of_next {s : State} {h : InHand} {a : Nat}
    (hw : NextWord s false h a (.status acknowledgeOffset)) :
    exec .acknowledgeRead s =
      .next { (takeEntry s).2 with inHand := some (handled h [(takeEntry s).1]) } := by
  have taken : exec .acknowledgeRead s = .next (finishWord [(takeEntry s).1] (takeEntry s).2) :=
    congrArg Host.Outcome.next (onWord_of_next hw rfl)
  have inHand : (takeEntry s).2.inHand = some h := (takeEntry_inHand s).trans (currentWord_spec hw.1).1
  rw [taken, finishWord_of_inHand inHand]

/-- A write of the acknowledge word is taken whatever its data and enables. -/
theorem exec_acknowledgeWrite_of_next {s : State} {h : InHand} {a : Nat}
    (hw : NextWord s true h a (.status acknowledgeOffset)) :
    exec .acknowledgeWrite s = .next { clearEntries s with inHand := some (handled h []) } := by
  have taken : exec .acknowledgeWrite s = .next (finishWord [] (clearEntries s)) :=
    congrArg Host.Outcome.next (onWord_of_next hw rfl)
  have inHand : (clearEntries s).inHand = some h := (updateLines_inHand _).trans (currentWord_spec hw.1).1
  rw [taken, finishWord_of_inHand inHand]

/-- Settles O21: the first place that is not 0 is the one that the read takes, and the lines are brought up to date from
what is left. -/
theorem acknowledgeReadTakesTheHighest : Obligations.AcknowledgeReadTakesTheHighest := by
  intro s h a hw
  rw [exec_acknowledgeRead_of_next hw]
  refine ⟨fun i n e count pending before entry => ?taken, fun clear => ?nothing⟩
  case taken =>
    rw [takeEntry_of_first (firstPending_of_first count pending before) count entry, updateLines_of_entries]
    exact ⟨_, rfl, rfl, rfl⟩
  case nothing => rw [takeEntry_of_clear clear]

/-- Settles O22: the write is `clearEntries`, which releases ATTN and brings FAULT to its condition. -/
theorem acknowledgeWriteClearsAll : Obligations.AcknowledgeWriteClearsAll := by
  intro s h a hw
  rw [exec_acknowledgeWrite_of_next hw, clearEntries_eq]

end Sys2Proof.Safety

/-! PROOF. The frames of a side: what each move does to the states of the buffers, and the laws of the ring (R49, R69). -/

namespace Sys2Proof.Safety

open Sys2Proof.Machine

/-! ## What a move does to the frames -/

/-- The buffers' states and profiles and the frame profile are as before. -/
structure SameFrames (x y : SideState) : Prop where
  state : ∀ b, (y.ring.buf b).state = (x.ring.buf b).state
  profile : ∀ b, (y.ring.buf b).profile = (x.ring.buf b).profile
  frameProfile : y.frameProfile = x.frameProfile

/-- A side without a frame and without a scan, in OFF or WAITING. -/
structure Emptied (y : SideState) : Prop where
  buf : ∀ b, y.ring.buf b = .cleared
  frameProfile : y.frameProfile = none
  record : y.scan.record = none
  view : y.view.state = .off ∨ y.view.state = .waiting

theorem off_emptied (a : Option ActiveSet) : Emptied (.off a) := ⟨off_buf a, rfl, rfl, .inl rfl⟩

theorem enabledSide_emptied (now : Word) (a : ActiveSet) : Emptied (enabledSide now a) :=
  ⟨off_buf (some a), rfl, rfl, .inr rfl⟩

/-- A side that keeps its ring and its frame profile keeps its frames. -/
theorem SameFrames.of_ring {x y : SideState} (ring : y.ring = x.ring) (profile : y.frameProfile = x.frameProfile) :
    SameFrames x y := by
  refine ⟨fun b => ?_, fun b => ?_, profile⟩ <;> rw [ring]

/-- One record may change in all but its state and its profile. -/
theorem SameFrames.of_setBuf {x y : SideState} {b : Fin 3} {r : BufRecord} (ring : y.ring = x.ring.setBuf b r)
    (profile : y.frameProfile = x.frameProfile) (hs : r.state = (x.ring.buf b).state)
    (hp : r.profile = (x.ring.buf b).profile) : SameFrames x y := by
  refine ⟨fun c => ?_, fun c => ?_, profile⟩ <;>
    · rw [ring, buf_setBuf]
      split
      · next e => simp [e, hs, hp]
      · rfl

/-- Taking a set keeps the frames or empties the side (R45). -/
theorem takeSet_frames (now : Word) (a : ActiveSet) (x : SideState) :
    SameFrames x (takeSet now a x) ∨ Emptied (takeSet now a x) :=
  takeSet_cases now a x (fun y => SameFrames x y ∨ Emptied y) (.inl (.of_ring rfl rfl)) (.inr (off_emptied _))
    (.inr (enabledSide_emptied _ _))

theorem partialRecord_frame (r : BufRecord) :
    (partialRecord r).state = r.state ∧ (partialRecord r).profile = r.profile := by
  unfold partialRecord
  split <;> exact ⟨rfl, rfl⟩

/-- Four moves change the frames: the side is emptied, a frame starts, a scan starts, a frame is completed. -/
theorem frames_of_move {offered : ActiveSet → Prop} {now : Word} {x y : SideState} (m : SideMove offered now x y) :
    SameFrames x y ∨ Emptied y ∨
      (∃ a b, x.inForce = some a ∧ y = startSide now a b (cutOtherSide b x) ∧
        ((x.ring.buf b).state = .free ∨ (x.ring.buf b).state = .ready)) ∨
      (∃ a b, y = scanStartSide now a b x) ∨
      ∃ b, (x.ring.buf b).state = .filling ∧ y = readySide now b x := by
  cases m with
  | reset => exact .inr (.inl (off_emptied _))
  | take a _ => exact (takeSet_frames now a x).imp_right .inl
  | frameStart a b h hb => exact .inr (.inr (.inl ⟨a, b, h, rfl, hb⟩))
  | scanStart a b _ => exact .inr (.inr (.inr (.inl ⟨a, b, rfl⟩)))
  | ready a b _ hb => exact .inr (.inr (.inr (.inr ⟨b, hb, rfl⟩)))
  | wait => exact .inl (.of_ring rfl rfl)
  | continueFrame a b o w => exact .inl (.of_setBuf rfl rfl rfl rfl)
  | partialWrite a b =>
    obtain ⟨hs, hp⟩ := partialRecord_frame (x.ring.buf b)
    exact .inl (.of_setBuf rfl rfl hs hp)
  | lengthFail a b => exact .inl (.of_setBuf rfl rfl rfl rfl)
  | serve => exact .inl (.of_ring rfl rfl)
  | unchecked => exact .inl (.of_ring rfl rfl)
  | fault k =>
    obtain ⟨ring, profile, _⟩ := faultSide_leaves now k x
    exact .inl (.of_ring ring profile)
  | holdExpiry t _ =>
    obtain ⟨ring, profile, _⟩ := faultSide_leaves now .holdExpired { x with view := { x.view with hold := none } }
    exact .inl (.of_ring ring profile)
  | watchdogStop => exact .inl (.of_ring rfl rfl)
  | run a sig =>
    refine .inl ⟨fun b => ?_, fun b => ?_, rfl⟩ <;> rw [stepRun_buf]
  | markFrozen =>
    have kept := buf_of_marks x.ring x.ring.nextSeq x.ring.lastVerified x.ring.equalRun true x.ring.dropped
    exact .inl ⟨fun b => by rw [kept], fun b => by rw [kept], rfl⟩
  | glare => exact .inl (.of_ring rfl rfl)
  | reload => exact .inl (.of_ring rfl rfl)

/-! ## The records after the moves that change frames -/

theorem frameStart_buf (now : Word) (a : ActiveSet) (b c : Fin 3) (x : SideState) :
    (startSide now a b (cutOtherSide b x)).ring.buf c =
      if c = b then
        startRecord now (cutOtherSide b x).ring.nextSeq (chooseProfile a.desc (cutOtherSide b x).glare.night)
          ((cutOtherSide b x).ring.buf b)
      else if x.ring.filling = some c then cutRecord (x.ring.buf c)
      else x.ring.buf c := by
  simp only [startSide, startRing_buf]
  split
  · rfl
  · next ne => simp only [cutOtherSide_buf, ne, not_false_eq_true, and_true, ne_eq]

theorem readySide_buf (now : Word) (b c : Fin 3) (x : SideState) :
    (readySide now b x).ring.buf c =
      if c = b then { x.ring.buf b with state := .ready, completionTime := now } else x.ring.buf c := by
  simp only [readySide, buf_setBuf]

/-- A frame start leaves every other buffer that shows, and fills none but its own. -/
theorem frameStart_states {now : Word} {a : ActiveSet} {b c : Fin 3} {x : SideState} (hr : RingLaw x) (hc : c ≠ b) :
    ((startSide now a b (cutOtherSide b x)).ring.buf c).state ≠ .filling ∧
      (((startSide now a b (cutOtherSide b x)).ring.buf c).state = .showing ↔ (x.ring.buf c).state = .showing) := by
  rw [frameStart_buf, if_neg hc]
  split
  · next hf =>
    have := find_spec hf
    exact ⟨by simp [cutRecord], by simp [cutRecord, this]⟩
  · next hf => exact ⟨fun h => hf (filling_some hr h), Iff.rfl⟩

/-- A scan start on a READY buffer shows it and no other, and fills none. -/
theorem scanNotice_states {b c : Fin 3} {x : SideState} (hr : RingLaw x) (hb : (x.ring.buf b).state = .ready) :
    (((scanNotice b x.ring).buf c).state = .filling ↔ (x.ring.buf c).state = .filling) ∧
      (((scanNotice b x.ring).buf c).state = .showing ↔ c = b) := by
  rw [scanNotice_buf, if_pos hb]
  split
  · next e => simp [e, withState, hb]
  · next ne =>
    split
    · next hs =>
      have := find_spec hs
      simp [withState, this, ne]
    · next hs => exact ⟨Iff.rfl, ⟨fun h => absurd (showing_some hr h) hs, fun h => absurd h ne⟩⟩

/-- A scan start changes no profile of a record. -/
theorem scanNotice_profile (b c : Fin 3) (r : BufferRing) : ((scanNotice b r).buf c).profile = (r.buf c).profile := by
  rw [scanNotice_buf]
  split
  · split
    · next e => rw [e]; rfl
    · split <;> rfl
  · rfl

/-! ## The laws of the ring -/

/-- The two laws of a side's frames (R49, R69). -/
def FramesLaw (x : SideState) : Prop := RingLaw x ∧ FrameProfileLaw x

theorem framesLaw_of_same {x y : SideState} (same : SameFrames x y) : FramesLaw x → FramesLaw y := by
  rintro ⟨ring, filling, empty⟩
  refine ⟨fun b c => ?_, fun b => ?_, ?_⟩
  · rw [same.state, same.state]
    exact ring b c
  · rw [same.state, same.profile, same.frameProfile]
    exact filling b
  · rw [same.frameProfile]
    exact fun h => empty fun b => same.state b ▸ h b

theorem framesLaw_of_emptied {y : SideState} (h : Emptied y) : FramesLaw y := by
  have state : ∀ b, (y.ring.buf b).state = .free := fun b => by rw [h.buf]; rfl
  exact ⟨fun b c => by simp [state], fun b => by simp [state], fun _ => h.frameProfile⟩

theorem framesLaw_frameStart {now : Word} {a : ActiveSet} {b : Fin 3} {x : SideState} (h : FramesLaw x) :
    FramesLaw (startSide now a b (cutOtherSide b x)) := by
  have states := fun c (hc : c ≠ b) => frameStart_states (now := now) (a := a) h.1 hc
  have own := startSide_state now a b (cutOtherSide b x)
  have only : ∀ c, ((startSide now a b (cutOtherSide b x)).ring.buf c).state = .filling → c = b := fun c hc => by
    by_contra ne
    exact (states c ne).1 hc
  have shown : ∀ c, ((startSide now a b (cutOtherSide b x)).ring.buf c).state = .showing →
      (x.ring.buf c).state = .showing := fun c hc => by
    by_cases e : c = b
    · rw [e, own] at hc
      cases hc
    · exact (states c e).2.mp hc
  refine ⟨fun c d => ⟨fun hc hd => (only c hc).trans (only d hd).symm, fun hc hd => ?_⟩, fun c hc => ?_, fun none => ?_⟩
  · exact (h.1 c d).2 (shown c hc) (shown d hd)
  · rw [only c hc, frameStart_buf, if_pos rfl]
    rfl
  · exact absurd own (none b)

theorem framesLaw_scanNotice {b : Fin 3} {x y : SideState} (h : FramesLaw x) (ring : y.ring = scanNotice b x.ring)
    (profile : y.frameProfile = x.frameProfile) : FramesLaw y := by
  by_cases hb : (x.ring.buf b).state = .ready
  · obtain ⟨hr, filling, empty⟩ := h
    have states := fun c => scanNotice_states (c := c) hr hb
    rw [← ring] at states
    refine ⟨fun c d => ⟨fun hc hd => ?_, fun hc hd => ?_⟩, fun c hc => ?_, fun none => ?_⟩
    · exact (hr c d).1 ((states c).1.mp hc) ((states d).1.mp hd)
    · exact ((states c).2.mp hc).trans ((states d).2.mp hd).symm
    · rw [profile, ring, scanNotice_profile]
      exact filling c ((states c).1.mp hc)
    · rw [profile]
      exact empty fun c hc => none c ((states c).1.mpr hc)
  · rw [scanNotice_of_not_ready hb] at ring
    exact framesLaw_of_same (.of_ring ring profile) h

theorem framesLaw_ready {now : Word} {b : Fin 3} {x : SideState} (h : FramesLaw x) (hb : (x.ring.buf b).state = .filling) :
    FramesLaw (readySide now b x) := by
  have filling : ∀ c, ((readySide now b x).ring.buf c).state ≠ .filling := fun c hc => by
    rw [readySide_buf] at hc
    split at hc
    · cases hc
    · next ne => exact ne ((h.1 c b).1 hc hb)
  have shown : ∀ c, ((readySide now b x).ring.buf c).state = .showing → (x.ring.buf c).state = .showing := fun c hc => by
    rw [readySide_buf] at hc
    split at hc
    · cases hc
    · exact hc
  exact ⟨fun c d => ⟨fun hc => absurd hc (filling c), fun hc hd => (h.1 c d).2 (shown c hc) (shown d hd)⟩,
    fun c hc => absurd hc (filling c), fun _ => rfl⟩

/-- Every move keeps the two laws. -/
theorem framesLaw_of_move {offered : ActiveSet → Prop} {now : Word} {x y : SideState} (m : SideMove offered now x y)
    (h : FramesLaw x) : FramesLaw y := by
  rcases frames_of_move m with same | emptied | ⟨a, b, _, rfl, _⟩ | ⟨a, b, rfl⟩ | ⟨b, hb, rfl⟩
  · exact framesLaw_of_same same h
  · exact framesLaw_of_emptied emptied
  · exact framesLaw_frameStart h
  · obtain ⟨ring, profile, _⟩ := scanStartSide_leaves now a b x
    exact framesLaw_scanNotice h ring profile
  · exact framesLaw_ready h hb

/-- Settles O52: of a side's moves only an emptying, a frame start, a scan start and a completion change the frames, and each
keeps the two laws. -/
theorem ringLawsKept : Obligations.RingLawsKept :=
  kept_sides fun _ _ _ m => framesLaw_of_move m

end Sys2Proof.Safety

/-! PROOF. The frame on show: a SHOWING buffer behind LIVE, MARKED and HOLDING, the redirect target, and that no step stops
(R107, R111, R130). -/

namespace Sys2Proof.Safety

open Sys2Proof.Machine

/-! ## Views that show a frame -/

/-- The view states in which a frame is on show. -/
def Shows (v : ViewState) : Prop := v = .live ∨ v = .marked ∨ v = .holding

/-- No fault takes a view that shows nothing to one that shows a frame (R134). -/
theorem shows_of_viewAfterFault {k : SideKind} {v : ViewState} (h : Shows (viewAfterFault k v)) : Shows v := by
  cases v with
  | live => exact .inl rfl
  | marked => exact .inr (.inl rfl)
  | holding => exact .inr (.inr rfl)
  | off => cases k <;> simp [Shows, viewAfterFault] at h
  | waiting => cases k <;> simp [Shows, viewAfterFault] at h
  | lost => cases k <;> simp [Shows, viewAfterFault] at h

theorem shows_of_faultSide {now : Word} {k : SideKind} {x : SideState} (h : Shows (faultSide now k x).view.state) :
    Shows x.view.state := by
  unfold faultSide at h
  split at h
  · exact shows_of_viewAfterFault h
  · exact h

/-- Judging a scan start on a buffer that is not READY is at most a fault. -/
theorem shows_of_judgeSide {now : Word} {a : ActiveSet} {b : Fin 3} {st : BufState} {x : SideState} (hst : st ≠ .ready)
    (h : Shows (judgeSide now a b st x).view.state) : Shows x.view.state := by
  unfold judgeSide at h
  rw [if_neg hst] at h
  split at h
  · exact shows_of_faultSide h
  · exact h

/-- A view comes to show a frame only by a scan start on a READY buffer. -/
theorem shows_of_move {offered : ActiveSet → Prop} {now : Word} {x y : SideState} (m : SideMove offered now x y)
    (h : Shows y.view.state) :
    Shows x.view.state ∨ ∃ a b, (x.ring.buf b).state = .ready ∧ y = scanStartSide now a b x := by
  cases m with
  | reset => exact absurd h (by simp [Shows, SideState.off, View.off])
  | take a _ =>
    refine .inl (takeSet_cases now a x (fun y => Shows y.view.state → Shows x.view.state) id ?_ ?_ h)
    · exact fun shows => absurd shows (by simp [Shows, SideState.off, View.off])
    · exact fun shows => absurd shows (by simp [Shows, enabledSide])
  | scanStart a b _ =>
    by_cases hb : (x.ring.buf b).state = .ready
    · exact .inr ⟨a, b, hb, rfl⟩
    · have view := (scanStartSide_leaves now a b x).2.2.2.2.2.2.1
      rw [view] at h
      have before := shows_of_judgeSide hb h
      exact .inl before
  | fault k => exact .inl (shows_of_faultSide h)
  | holdExpiry t _ => exact .inl (shows_of_faultSide (x := { x with view := { x.view with hold := none } }) h)
  | frameStart a b _ _ =>
    have view : (cutOtherSide b x).view = x.view := by
      unfold cutOtherSide
      (repeat' split) <;> rfl
    exact .inl (view ▸ h)
  | wait => exact .inl h
  | continueFrame => exact .inl h
  | partialWrite => exact .inl h
  | serve => exact .inl h
  | unchecked => exact .inl h
  | watchdogStop => exact .inl h
  | lengthFail => exact .inl h
  | ready => exact .inl h
  | run => exact .inl h
  | markFrozen => exact .inl h
  | glare => exact .inl h
  | reload => exact .inl h

/-! ## Buffers that stay on show -/

/-- Every SHOWING buffer stays SHOWING. -/
def ShowingStays (x y : SideState) : Prop := ∀ b, (x.ring.buf b).state = .showing → (y.ring.buf b).state = .showing

/-- A SHOWING buffer stays so, unless the side is emptied or a scan start shows another one (R75, R79). -/
theorem showing_of_move {offered : ActiveSet → Prop} {now : Word} {x y : SideState} (m : SideMove offered now x y) :
    ShowingStays x y ∨ Emptied y ∨ ∃ a b, y = scanStartSide now a b x := by
  rcases frames_of_move m with same | emptied | ⟨a, b, _, rfl, hb⟩ | start | ⟨b, hb, rfl⟩
  · exact .inl fun c hc => (same.state c).trans hc
  · exact .inr (.inl emptied)
  · refine .inl fun c hc => ?_
    have ne : c ≠ b := by
      rintro rfl
      rcases hb with hb | hb <;> simp [hb] at hc
    have kept : x.ring.filling ≠ some c := fun hf => by simp [find_spec hf] at hc
    rwa [frameStart_buf, if_neg ne, if_neg kept]
  · exact .inr (.inr start)
  · refine .inl fun c hc => ?_
    have ne : c ≠ b := by
      rintro rfl
      simp [hb] at hc
    rwa [readySide_buf, if_neg ne]

/-- A scan start on a buffer that is not READY changes no buffer. -/
theorem scanStartSide_ring_of_not_ready {now : Word} {a : ActiveSet} {b : Fin 3} {x : SideState}
    (hb : (x.ring.buf b).state ≠ .ready) : (scanStartSide now a b x).ring = x.ring :=
  (scanStartSide_leaves now a b x).1.trans (scanNotice_of_not_ready hb)

theorem scanStartSide_shows {now : Word} {a : ActiveSet} {b : Fin 3} {x : SideState}
    (hb : (x.ring.buf b).state = .ready) : ((scanStartSide now a b x).ring.buf b).state = .showing := by
  rw [(scanStartSide_leaves now a b x).1, scanNotice_buf, if_pos hb, if_pos rfl]
  rfl

theorem viewShown_of_move {offered : ActiveSet → Prop} {now : Word} {x y : SideState} (m : SideMove offered now x y)
    (h : ViewShown x) : ViewShown y := by
  intro shows
  rcases shows_of_move m shows with shows' | ⟨a, b, hb, rfl⟩
  · obtain ⟨c, hc⟩ := h shows'
    rcases showing_of_move m with stays | emptied | ⟨a, b, rfl⟩
    · exact ⟨c, stays c hc⟩
    · rcases emptied.view with e | e <;> simp [e] at shows
    · by_cases hb : (x.ring.buf b).state = .ready
      · exact ⟨b, scanStartSide_shows hb⟩
      · exact ⟨c, by rwa [scanStartSide_ring_of_not_ready hb]⟩
  · exact ⟨b, scanStartSide_shows hb⟩

/-! ## The redirect target (R107, R111) -/

/-- The scan record after a move: none, the one before with the same buffers, or that of a new scan. -/
theorem record_of_move {offered : ActiveSet → Prop} {now : Word} {x y : SideState} (m : SideMove offered now x y)
    {r : ScanRecord} (hr : y.scan.record = some r) :
    (∃ old, x.scan.record = some old ∧ r.buf = old.buf ∧ r.redirect = old.redirect ∧
        (r.wordsRead = old.wordsRead ∨ r.wordsRead ≤ 16777215)) ∨
      ∃ a b, y = scanStartSide now a b x ∧ r = newScanRecord b (scanRedirect b x) now := by
  have kept : x.scan.record = some r → ∃ old, x.scan.record = some old ∧ r.buf = old.buf ∧ r.redirect = old.redirect ∧
      (r.wordsRead = old.wordsRead ∨ r.wordsRead ≤ 16777215) := fun h => ⟨r, h, rfl, rfl, .inl rfl⟩
  cases m with
  | reset => cases hr
  | take a _ =>
    exact .inl (takeSet_cases now a x (fun y => y.scan.record = some r → _) kept (fun h => nomatch h) (fun h => nomatch h) hr)
  | scanStart a b _ =>
    have record := (scanStartSide_leaves now a b x).2.2.2.2.2.1
    rw [record] at hr
    exact .inr ⟨a, b, rfl, (Option.some.inj hr).symm⟩
  | serve old new h hb ht hw =>
    cases hr
    exact .inl ⟨old, h, hb, ht, hw⟩
  | fault k => exact .inl (kept ((faultSide_leaves now k x).2.2.1 ▸ hr))
  | holdExpiry t _ =>
    exact .inl (kept ((faultSide_leaves now .holdExpired { x with view := { x.view with hold := none } }).2.2.1 ▸ hr))
  | frameStart a b _ _ =>
    have scan : (cutOtherSide b x).scan = x.scan := by
      unfold cutOtherSide
      (repeat' split) <;> rfl
    exact .inl (kept (scan ▸ hr))
  | wait => exact .inl (kept hr)
  | continueFrame => exact .inl (kept hr)
  | partialWrite => exact .inl (kept hr)
  | unchecked => exact .inl (kept hr)
  | watchdogStop => exact .inl (kept hr)
  | lengthFail => exact .inl (kept hr)
  | ready => exact .inl (kept hr)
  | run => exact .inl (kept hr)
  | markFrozen => exact .inl (kept hr)
  | glare => exact .inl (kept hr)
  | reload => exact .inl (kept hr)

/-- A scan start redirects only from a FILLING or FREE buffer, and only to the SHOWING one. -/
theorem scanRedirect_spec {b t : Fin 3} {x : SideState} (h : scanRedirect b x = some t) :
    (x.ring.buf b).state ≠ .ready ∧ (x.ring.buf b).state ≠ .showing ∧ (x.ring.buf t).state = .showing := by
  have not_ready : (x.ring.buf b).state ≠ .ready := fun e => by
    rw [scanRedirect_of_ready e] at h
    cases h
  unfold scanRedirect at h
  rw [scanNotice_of_not_ready not_ready] at h
  unfold redirectTarget at h
  split at h
  case h_7 => cases h
  all_goals
    next e _ => exact ⟨not_ready, by simp [e], find_spec h⟩

theorem redirectLaw_scanStart (now : Word) (a : ActiveSet) (b : Fin 3) (x : SideState) :
    RedirectLaw (scanStartSide now a b x) := by
  intro r t hr ht
  rw [(scanStartSide_leaves now a b x).2.2.2.2.2.1] at hr
  cases hr
  obtain ⟨not_ready, not_showing, shown⟩ := scanRedirect_spec ht
  rw [scanStartSide_ring_of_not_ready not_ready]
  refine ⟨shown, ?_⟩
  rintro rfl
  exact not_showing shown

theorem redirectLaw_of_move {offered : ActiveSet → Prop} {now : Word} {x y : SideState} (m : SideMove offered now x y)
    (h : RedirectLaw x) : RedirectLaw y := by
  rcases showing_of_move m with stays | emptied | ⟨a, b, rfl⟩
  · intro r t hr ht
    rcases record_of_move m hr with ⟨old, hold, hbuf, hredirect, _⟩ | ⟨a, b, rfl, _⟩
    · obtain ⟨shown, ne⟩ := h old t hold (hredirect ▸ ht)
      exact ⟨stays t shown, hbuf ▸ ne⟩
    · exact redirectLaw_scanStart now a b x r t hr ht
  · intro r t hr
    rw [emptied.record] at hr
    cases hr
  · exact redirectLaw_scanStart now a b x

/-! ## No step stops -/

/-- With a SHOWING buffer behind every view that shows a frame, no read is stuck (R107; log 17). -/
theorem readStuck_eq_false {s : State} (h : OfSides ViewShown s) : s.readStuck = false := by
  have not_stuck : ∀ sd b, scanStartStuck b (s.side sd) = false := fun sd b => by
    by_contra stuck
    rw [Bool.not_eq_false, scanStartStuck, Bool.and_eq_true, Bool.and_eq_true] at stuck
    obtain ⟨⟨_, view⟩, none⟩ := stuck
    obtain ⟨c, hc⟩ := h sd (by simpa [or_assoc] using view)
    exact find_none (r := (s.side sd).ring) (beq_iff_eq.mp none) c hc
  unfold State.readStuck
  split
  · simp [not_stuck]
  · rfl

/-- A command is stopped by nothing but a stuck read. -/
theorem exec_next_of_not_stuck (c : Instr) {s : State} (h : s.readStuck = false) : ∃ t, exec c s = .next t := by
  cases c with
  | bufferWordRead => exact ⟨_, if_neg (by simp [h])⟩
  | bootLoadReadDone => simp only [exec, execBootLoadReadDone]; split <;> exact ⟨_, rfl⟩
  | recordWriteDone => simp only [exec, execRecordWriteDone]; split <;> exact ⟨_, rfl⟩
  | watchdogExpiry sd => simp only [exec, execWatchdogExpiry]; split <;> exact ⟨_, rfl⟩
  | holdTimerExpiry sd => simp only [exec, execHoldTimerExpiry]; split <;> exact ⟨_, rfl⟩
  | _ => exact ⟨_, rfl⟩

/-- Settles O53: the two laws move by move, and the one fault of the model contradicts the first. -/
theorem shownLawsKeptAndNoStepStops : Obligations.ShownLawsKeptAndNoStepStops := by
  refine ⟨kept_sides fun _ _ _ m => viewShown_of_move m, kept_sides fun _ _ _ m => redirectLaw_of_move m, fun s shown => ?_⟩
  unfold step
  split
  · next c rest _ =>
    refine exec_next_of_not_stuck c (readStuck_eq_false fun sd => ?_)
    have := shown sd
    cases sd <;> exact this
  · exact ⟨s, rfl⟩

end Sys2Proof.Safety

/-! PROOF. Everything a step can do to the device, said once: each command changes the memory controller, frame memory, the
fault unit, the lines and the accepted set by the moves of `DeviceMove`, so that a law of these is proved move by move. -/

namespace Sys2Proof.Safety

open Sys2Proof.Machine

/-! ## The moves -/

/-- Frame memory, the banks and the owed refreshes are as before. -/
structure SameMemory (s t : State) : Prop where
  mem : t.mem = s.mem := by rfl
  banks : t.mct.banks = s.mct.banks := by rfl
  refreshOwed : t.mct.refreshOwed = s.mct.refreshOwed := by rfl

/-- The pending entries and the records are as before. -/
structure SameFaults (s t : State) : Prop where
  entries : t.flu.entries = s.flu.entries := by rfl
  queue : t.flu.queue = s.flu.queue := by rfl
  seq : t.flu.seq = s.flu.seq := by rfl

/-- All that the laws of the device name is as before: beside memory and faults, the lines with what they show, and the
accepted set. -/
structure SameDevice (s t : State) : Prop extends SameMemory s t, SameFaults s t where
  resetHeld : t.resetHeld = s.resetHeld := by rfl
  config : t.cau.config = s.cau.config := by rfl
  device : t.cau.device = s.cau.device := by rfl
  view : ∀ sd, (t.side sd).view.state = (s.side sd).view.state := by intro sd; cases sd <;> rfl
  faultLine : t.faultLine = s.faultLine := by rfl
  attn : t.flu.attn = s.flu.attn := by rfl
  accepted : t.cau.accepted = s.cau.accepted := by rfl

/-- The accepted set is as before, or made from a pending set that passed the check of its profile indices. -/
def AcceptedStays (s t : State) : Prop :=
  t.cau.accepted = s.cau.accepted ∨
    ∃ ps g, (∀ sd, profilesOk (pendingDescriptor ps (descriptorOffset sd)) = true) ∧
      t.cau.accepted = some (acceptedFrom ps g)

/-- The moves of the device. -/
inductive DeviceMove : State → State → Prop where
  | same {s t} (h : SameDevice s t) : DeviceMove s t
  | reset (s) : DeviceMove s (assertReset s)
  | lines {s u} (hm : SameMemory s u) (hf : SameFaults s u) (ha : AcceptedStays s u) : DeviceMove s (updateLines u)
  | clear (s) (entries : List Nat) (hl : s.flu.entries.length = 25 → entries.length = 25)
      (he : ∀ n ∈ entries, n = 0 ∨ n ∈ s.flu.entries) :
      DeviceMove s (updateLines { s with flu := { s.flu with entries := entries } })
  | raise {s u} (e frame view detail) (hm : SameMemory s u) (hf : SameFaults s u) (ha : AcceptedStays s u) :
      DeviceMove s (fluRaise e frame view detail u)
  | retire (s) : DeviceMove s { s with flu := { s.flu with queue := s.flu.queue.tail } }
  | openRow (s a) : DeviceMove s (openRow a s)
  | store (s m) (h : MemoryLaw s → Memory.wf m) : DeviceMove s { s with mem := m }
  | refresh (s banks n) (hb : banks = s.mct.banks ∨ banks = closedBanks) (hn : s.mct.refreshOwed ≤ 8 → n ≤ 8) :
      DeviceMove s { s with mct := { s.mct with banks := banks, refreshOwed := n } }

/-- Any number of moves. -/
abbrev DeviceMoves : State → State → Prop := Relation.ReflTransGen DeviceMove

theorem DeviceMoves.of_same {s t : State} (h : SameDevice s t) : DeviceMoves s t := .single (.same h)

theorem SameDevice.refl (s : State) : SameDevice s s :=
  {}

/-! ## Shared operations -/

theorem modInHand_device (f : InHand → InHand) (s : State) : DeviceMoves s (modInHand f s) :=
  .of_same {}

theorem finishWord_device (data : List Word) (s : State) : DeviceMoves s (finishWord data s) := modInHand_device _ s

theorem setSide_device (sd : Side) (x : SideState) (s : State) (h : x.view.state = (s.side sd).view.state) :
    DeviceMoves s (setSide sd x s) := by
  refine .of_same ⟨⟨by simp, by simp, by simp⟩, ⟨by simp, by simp, by simp⟩, by simp, by simp, by simp, fun sd' => ?_, by simp,
    by simp, by simp⟩
  by_cases e : sd' = sd <;> simp [e, h]

theorem modSide_device (sd : Side) (f : SideState → SideState) (s : State)
    (h : ∀ x, (f x).view.state = x.view.state := by intro; rfl) : DeviceMoves s (modSide sd f s) :=
  setSide_device sd _ s (h _)

theorem modRing_device (sd : Side) (f : BufferRing → BufferRing) (s : State) : DeviceMoves s (modRing sd f s) :=
  modSide_device sd _ s

theorem modBuf_device (sd : Side) (b : Fin 3) (f : BufRecord → BufRecord) (s : State) : DeviceMoves s (modBuf sd b f s) :=
  modRing_device sd _ s

theorem modView_device (sd : Side) (f : View → View) (s : State) (h : ∀ v, (f v).state = v.state := by intro; rfl) :
    DeviceMoves s (modView sd f s) := modSide_device sd _ s fun x => h x.view

theorem presentHead_same (s : State) : SameDevice s (presentHead s) where
  mem := by simp
  banks := by simp
  refreshOwed := by simp
  entries := by simp
  queue := by simp
  seq := by simp
  resetHeld := by simp
  config := by simp
  device := by simp
  view := fun sd => by simp
  faultLine := by simp
  attn := by simp
  accepted := by simp

theorem presentHead_device (s : State) : DeviceMoves s (presentHead s) := .of_same (presentHead_same s)

theorem withdrawRecord_device (s : State) : DeviceMoves s (withdrawRecord s) :=
  .of_same {}

theorem joinOwnQueue_device (a : OwnAccess) (s : State) : DeviceMoves s (joinOwnQueue a s) :=
  .of_same {}

theorem storeWord_device (a : Nat) (be : BitVec 4) (w : Word) (s : State) : DeviceMoves s (storeWord a be w s) :=
  .trans (.single (.store s _ fun wf => Memory.writeWord_wf wf a be w)) (.single (.openRow _ a))

/-- A raise is one move, whatever its side's view did first. -/
theorem raiseSide_device (sd : Side) (k : SideKind) (frame : Option (BitVec 16 × Fin 3)) (detail : Word) (s : State) :
    DeviceMoves s (raiseSide sd k frame detail s) :=
  .single (.raise _ _ _ _ ⟨by simp, by simp, by simp⟩ ⟨by simp, by simp, by simp⟩ (.inl (by simp)))

theorem raiseDevice_device (k : DeviceKind) (detail : Word) (s : State) : DeviceMoves s (raiseDevice k detail s) :=
  .single (.raise _ _ _ _ {} {} (.inl rfl))

/-- A change of a side with the lines brought up to date after it. -/
theorem updateLines_modSide_device (sd : Side) (f : SideState → SideState) (s : State) :
    DeviceMoves s (updateLines (modSide sd f s)) :=
  .single (.lines ⟨by simp, by simp, by simp⟩ ⟨by simp, by simp, by simp⟩ (.inl (by simp)))

theorem goodScan_device (sd : Side) (s : State) : DeviceMoves s (goodScan sd s) := updateLines_modSide_device sd _ s

/-! ## Frames -/

theorem cutOther_device (sd : Side) (b : Fin 3) (s : State) : DeviceMoves s (cutOther sd b s) := by
  unfold cutOther
  split
  · split
    · exact .refl
    · exact (modBuf_device _ _ _ s).trans (raiseSide_device _ _ _ _ _)
  · exact .refl

theorem frameStart_device (sd : Side) (a : ActiveSet) (b : Fin 3) (s : State) : DeviceMoves s (frameStart sd a b s) :=
  (cutOther_device sd b s).trans (modSide_device _ _ _)

theorem markFrameDone_device (sd : Side) (a : ActiveSet) (b : Fin 3) (o : Nat) (s : State) :
    DeviceMoves s (markFrameDone sd a b o s) := by
  unfold markFrameDone
  split
  · exact modInHand_device _ _
  · exact .refl

theorem continueFrame_device (sd : Side) (a : ActiveSet) (b : Fin 3) (o addr : Nat) (w : Word) (s : State) :
    DeviceMoves s (continueFrame sd a b o addr w s) :=
  (storeWord_device _ _ _ s).trans ((modSide_device _ _ _).trans (markFrameDone_device _ _ _ _ _))

theorem fullWrite_device (sd : Side) (a : ActiveSet) (b : Fin 3) (o addr : Nat) (w : Word) (s : State) :
    DeviceMoves s (fullWrite sd a b o addr w s) := by
  unfold fullWrite
  split
  · exact (frameStart_device _ _ _ _).trans (continueFrame_device _ _ _ _ _ _ _)
  · exact (frameStart_device _ _ _ _).trans (continueFrame_device _ _ _ _ _ _ _)
  · exact continueFrame_device _ _ _ _ _ _ _
  · exact modInHand_device _ _

theorem bufferWrite_device (h : InHand) (addr : Nat) (k : WordKind) (s : State) : DeviceMoves s (bufferWrite h addr k s) := by
  unfold bufferWrite
  split
  · split
    · refine .trans ?_ (finishWord_device _ _)
      split
      · exact fullWrite_device _ _ _ _ _ _ _
      · exact (modBuf_device _ _ _ s).trans (raiseSide_device _ _ _ _ _)
    · exact .refl
  · exact .refl

theorem lengthCheck_device (sd : Side) (a : ActiveSet) (b : Fin 3) (s : State) : DeviceMoves s (lengthCheck sd a b s) := by
  unfold lengthCheck
  dsimp only
  split
  · exact .refl
  · exact (modBuf_device _ _ _ s).trans (raiseSide_device _ _ _ _ _)

theorem runCheck_device (sd : Side) (a : ActiveSet) (b : Fin 3) (s : State) : DeviceMoves s (runCheck sd a b s) := by
  unfold runCheck frozenCheck
  dsimp only
  split
  · refine (modRing_device sd (stepRun ((s.side sd).ring.buf b).signature) s).trans ?_
    split
    · exact (modRing_device _ _ _).trans (raiseSide_device _ _ _ _ _)
    · exact .refl
  · exact .refl

theorem takeWaitingSet_device (sd : Side) (s : State) : DeviceMoves s (takeWaitingSet sd s) := by
  unfold takeWaitingSet
  split
  · split
    · exact updateLines_modSide_device sd _ s
    · exact .refl
  · exact .refl

theorem completeFrame_device (sd : Side) (b : Fin 3) (s : State) : DeviceMoves s (completeFrame sd b s) := by
  unfold completeFrame
  split
  · next a _ =>
    split
    · refine (lengthCheck_device sd a b s).trans ?_
      unfold finishFrame
      refine .trans ?_ (takeWaitingSet_device sd _)
      refine .trans ?_ (modView_device sd _ _)
      refine .trans ?_ (modSide_device sd _ _)
      exact .trans (modSide_device sd _ _) (runCheck_device sd a b _)
    · exact .refl
  · exact .refl

/-! ## Scans -/

theorem judgeScanStart_device (sd : Side) (a : ActiveSet) (b : Fin 3) (st : BufState) (s : State) :
    DeviceMoves s (judgeScanStart sd a b st s) := by
  unfold judgeScanStart
  split
  · unfold judgeReady
    dsimp only
    split
    · exact .trans (modSide_device sd _ s) (raiseSide_device _ _ _ _ _)
    · split
      · exact .trans (modSide_device sd _ s) (goodScan_device _ _)
      · exact modSide_device sd _ s
  · split
    · exact raiseSide_device _ _ _ _ _
    · exact .refl

theorem scanStart_device (sd : Side) (a : ActiveSet) (b : Fin 3) (s : State) : DeviceMoves s (scanStart sd a b s) := by
  unfold scanStart
  refine .trans ?_ (modSide_device sd _ _)
  exact (modSide_device sd (noticeSide b) s).trans (judgeScanStart_device _ _ _ _ _)

theorem expireHold_device (sd : Side) (tm : Timer) (s : State) : DeviceMoves s (expireHold sd tm s) :=
  (modView_device sd (fun v => { v with hold := none }) s).trans (raiseSide_device _ _ _ _ _)

theorem draw_device (s : State) : DeviceMoves s { s with freeDraws := s.freeDraws + 1 } :=
  .of_same {}

theorem openScan_device (sd : Side) (a : ActiveSet) (b : Fin 3) (s : State) : DeviceMoves s (openScan sd a b s) := by
  refine (scanStart_device sd a b s).trans ?_
  unfold openScan
  dsimp only
  split
  · unfold expireAtStart
    refine (draw_device _).trans ?_
    split
    · exact expireHold_device _ _ _
    · exact .refl
  · exact .refl

theorem setScanRecord_device (sd : Side) (r : ScanRecord) (s : State) : DeviceMoves s (setScanRecord sd r s) :=
  modSide_device sd _ s

theorem markScanDone_device (sd : Side) (g : Geometry) (o : Nat) (s : State) : DeviceMoves s (markScanDone sd g o s) := by
  unfold markScanDone
  split
  · exact modInHand_device _ _
  · exact .refl

theorem serveMemory_device (sd : Side) (g : Geometry) (r : ScanRecord) (mode : ServeMode) (o : Nat) (s : State) :
    DeviceMoves s (serveMemory sd g r mode o s) :=
  (Relation.ReflTransGen.single (.openRow s _)).trans
    ((setScanRecord_device _ _ _).trans ((markScanDone_device _ _ _ _).trans (finishWord_device _ _)))

theorem serveOwnAddress_device (addr : Nat) (s : State) : DeviceMoves s (serveOwnAddress addr s) :=
  (Relation.ReflTransGen.single (.openRow s _)).trans (finishWord_device _ _)

theorem serveBufferWord_device (sd : Side) (a : ActiveSet) (b : Fin 3) (o addr : Nat) (s : State) :
    DeviceMoves s (serveBufferWord sd a b o addr s) := by
  unfold serveBufferWord
  split
  · unfold serveScanWord
    split
    · exact serveMemory_device _ _ _ _ _ _
    · exact serveMemory_device _ _ _ _ _ _
    · exact (setScanRecord_device _ _ s).trans ((markScanDone_device _ _ _ _).trans (finishWord_device _ _))
  · exact serveOwnAddress_device _ _

theorem bufferRead_device (h : InHand) (addr : Nat) (k : WordKind) (s : State) : DeviceMoves s (bufferRead h addr k s) := by
  unfold bufferRead
  split
  · split
    · refine .trans ?_ (serveBufferWord_device _ _ _ _ _ _)
      split
      · exact openScan_device _ _ _ _
      · exact .refl
    · exact .refl
  · exact .refl

theorem completeScan_device (sd : Side) (s : State) : DeviceMoves s (completeScan sd s) := by
  unfold completeScan
  split
  · split
    · exact .refl
    · next r _ _ _ =>
      refine (setScanRecord_device sd { r with complete := true } s).trans ?_
      unfold judgeScan
      dsimp only
      split
      · split
        · exact .refl
        · exact raiseSide_device _ _ _ _ _
      · exact modSide_device sd _ _
  · exact .refl

/-! ## Configuration -/

theorem acceptCommit_device (g : Word) (s : State) (h : commitPasses s = true) : DeviceMoves s (acceptCommit g s) := by
  have accepted : DeviceMove s (updateLines
      (offerSet (acceptedFrom s.cau.pendingSet g) (installSet (acceptedFrom s.cau.pendingSet g) s))) :=
    .lines {} {} (.inr ⟨_, g, profilesOk_of_commitPasses h, rfl⟩)
  refine (Relation.ReflTransGen.single accepted).trans ?_
  unfold acceptCommit moveRing
  dsimp only
  split
  · exact (withdrawRecord_device _).trans (presentHead_device _)
  · exact .refl

theorem commit_device (s : State) : DeviceMoves s (commit s) := by
  unfold commit
  dsimp only
  split
  · next passes => exact acceptCommit_device _ s passes
  · exact .single (.raise _ _ _ _ {} {} (.inl rfl))

theorem mergePending_device (offset : Nat) (be : BitVec 4) (w : Word) (s : State) :
    DeviceMoves s (mergePending offset be w s) := by
  unfold mergePending
  split
  · exact .of_same {}
  · exact .refl

theorem parameterWrite_device (h : InHand) (a : Nat) (k : WordKind) (s : State) : DeviceMoves s (parameterWrite h a k s) :=
  (storeWord_device _ _ _ s).trans (mergePending_device _ _ _ _)

theorem deliverReadIndex_device (w : Word) (s : State) : DeviceMoves s (deliverReadIndex w s) := by
  have delivered : SameDevice s { s with flu := { s.flu with readIndex := some w } } :=
    {}
  refine (DeviceMoves.of_same delivered).trans ?_
  unfold deliverReadIndex
  dsimp only
  split
  · split
    · exact withdrawRecord_device _
    · exact presentHead_device _
  · exact .refl

theorem deliverMerged_device (be : BitVec 4) (s : State) : DeviceMoves s (deliverMerged be s) := by
  unfold deliverMerged
  split
  · exact deliverReadIndex_device _ _
  · exact .refl

/-! ## Status words -/

theorem takeEntry_device (s : State) : DeviceMoves s (takeEntry s).2 := by
  unfold takeEntry
  split
  · refine .single (.clear s _ (fun h => by rw [List.length_set, h]) fun n hn => ?_)
    exact (List.mem_or_eq_of_mem_set hn).symm
  · exact .refl

theorem clearEntries_device (s : State) : DeviceMoves s (clearEntries s) :=
  .single (.clear s _ (fun _ => by simp) fun n hn => .inl (List.eq_of_mem_replicate hn))

theorem answerStatus_device (h : InHand) (a : Nat) (k : WordKind) (s : State) : DeviceMoves s (answerStatus h a k s) := by
  unfold answerStatus
  split
  · refine .trans ?_ (finishWord_device _ _)
    unfold readStatus
    split
    · exact takeEntry_device s
    · exact .refl
  · exact .refl

theorem onWord_device (write : Bool) (accepts : BitVec 4 → WordKind → Bool) (effect : InHand → Nat → WordKind → State → State)
    (s : State) (he : ∀ h a k, DeviceMoves s (effect h a k s)) : DeviceMoves s (onWord write accepts effect s) := by
  unfold onWord
  split
  · split
    · exact he _ _ _
    · exact .refl
  · exact .refl

theorem answerRest_device (n : Nat) (s : State) : DeviceMoves s (answerRest n s) := by
  induction n generalizing s with
  | zero => exact .refl
  | succ n ih => exact (onWord_device _ _ _ s fun h a k => answerStatus_device h a k s).trans (ih _)

/-! ## The bus -/

theorem whenReady_device (ready : Bool) (effect : State → State) (s : State) (he : DeviceMoves s (effect s)) :
    DeviceMoves s (whenReady ready effect s) := by
  unfold whenReady
  split
  · exact he
  · exact .refl

/-- The holder of the bus is none of what the laws name. -/
theorem bus_device (s : State) (bus : Bus) (queue : List QueueEntry) (running : Bool) :
    DeviceMoves s { s with mct := { s.mct with bus := bus, queue := queue, intervalRunning := running } } :=
  .of_same {}

theorem startRefresh_device (s : State) : DeviceMoves s (startRefresh s) :=
  (Relation.ReflTransGen.single
    (.refresh s closedBanks (s.mct.refreshOwed - 1) (.inr rfl) fun h => (Nat.sub_le _ _).trans h)).trans
    (bus_device _ .refresh s.mct.queue s.mct.intervalRunning)

theorem grantBus_device (s : State) : DeviceMoves s (grantBus s) := by
  unfold grantBus
  split
  · exact startRefresh_device s
  · split
    · exact bus_device s _ _ s.mct.intervalRunning
    · exact .refl

theorem answerRetry_device (s : State) : DeviceMoves s (answerRetry s) :=
  .of_same {}

theorem takeTransfer_device (t : Transfer) (s : State) : DeviceMoves s (takeTransfer t s) :=
  .of_same {}

theorem arbitrate_device (t : Transfer) (s : State) : DeviceMoves s (arbitrate t s) := by
  unfold arbitrate
  split
  · exact (startRefresh_device s).trans (answerRetry_device _)
  · split
    · next e rest _ =>
      split
      · exact (bus_device s (.own e.access) rest s.mct.intervalRunning).trans (answerRetry_device _)
      · exact takeTransfer_device t s
    · exact takeTransfer_device t s

theorem arrive_device (t : Transfer) (s : State) : DeviceMoves s (arrive t s) := by
  unfold arrive
  split
  · exact answerRetry_device s
  · split
    · exact arbitrate_device t s
    · exact answerRetry_device s

/-- Neither are the pins, the transfer in hand and the request that waits. -/
theorem port_device (s : State) (answers : List Answer) (inHand : Option InHand) (request : Option Transfer) :
    DeviceMoves s { s with answers := answers, inHand := inHand, request := request } :=
  .of_same {}

theorem takeRequest_device (s : State) : DeviceMoves s (takeRequest s) := by
  unfold takeRequest
  split
  · next t _ =>
    have granted : ∀ u, DeviceMoves u (grantOrNot u) := fun u => by
      unfold grantOrNot
      refine (draw_device u).trans ?_
      split
      · exact whenReady_device _ _ _ (grantBus_device _)
      · exact .refl
    unfold arriveWaiting
    refine (port_device s s.answers s.inHand none).trans ((granted _).trans ((arrive_device t _).trans ?_))
    exact port_device _ _ _ _
  · exact .refl

theorem deferredEffects_device (h : InHand) (s : State) : DeviceMoves s (deferredEffects h s) := by
  have frame : DeviceMoves s (endFrame h s) := by
    unfold endFrame
    split
    · exact completeFrame_device _ _ _
    · exact .refl
  have scan : ∀ u, DeviceMoves u (endScan h u) := fun u => by
    unfold endScan
    split
    · exact completeScan_device _ _
    · exact .refl
  have committed : ∀ u, DeviceMoves u (endCommit h u) := fun u => by
    unfold endCommit
    split
    · exact commit_device u
    · exact .refl
  have protect : ∀ u, DeviceMoves u (endProtect h u) := fun u => by
    unfold endProtect
    split
    · exact raiseDevice_device _ _ _
    · exact .refl
  have tear : ∀ u, DeviceMoves u (endTear h u) := fun u => by
    unfold endTear
    split
    · exact raiseSide_device _ _ _ _ _
    · exact .refl
  exact frame.trans ((scan _).trans ((committed _).trans ((protect _).trans (tear _))))

theorem endTransfer_device (s r : State) (hr : DeviceMoves s r) : DeviceMoves s (endTransfer s r) := by
  unfold endTransfer
  split
  · next h _ =>
    split
    · refine hr.trans ((deferredEffects_device h r).trans (.trans ?_ (takeRequest_device _)))
      exact .single (.same {})
    · exact .refl
  · exact .refl

/-! ## Own accesses and reset -/

theorem endRecordWrite_device (a : Nat) (words : List Word) (s : State) : DeviceMoves s (endRecordWrite a words s) :=
  (Relation.ReflTransGen.single (.store s _ fun wf => Memory.writeWords_wf wf a words)).trans
    ((bus_device _ .free s.mct.queue s.mct.intervalRunning).trans (.single (.openRow _ a)))

theorem retireRecord_device (s : State) : DeviceMoves s (retireRecord s) := by
  have removed : DeviceMove s { s with flu := { s.flu with queue := s.flu.queue.tail } } := .retire s
  exact (Relation.ReflTransGen.single removed).tail (.same {})

theorem loadWord_device (w : Word) (s : State) : DeviceMoves s (loadWord w s) :=
  .of_same {}

theorem bootLoad_device (w : Word) (a : Nat) (s : State) :
    DeviceMoves s (continueLoad (deliverLoaded w (loadWord w (endBootRead a s)))) := by
  have read : DeviceMoves s (endBootRead a s) :=
    (bus_device s .free s.mct.queue s.mct.intervalRunning).trans (.single (.openRow _ a))
  have delivered : ∀ u, DeviceMoves u (deliverLoaded w u) := fun u => by
    unfold deliverLoaded
    split
    · exact deliverReadIndex_device _ _
    · exact .refl
  refine read.trans ((loadWord_device w _).trans ((delivered _).trans ?_))
  unfold continueLoad
  split
  · exact joinOwnQueue_device _ _
  · exact commit_device _

theorem memoryAtReset_wf {s : State} (h : MemoryLaw s) : Memory.wf (memoryAtReset s) := by
  unfold memoryAtReset
  split
  · exact Memory.writeWords_wf h _ _
  · exact h

theorem memoryAtRelease_wf {s : State} (held : Nat) (h : MemoryLaw s) : Memory.wf (memoryAtRelease held s) := by
  unfold memoryAtRelease
  split
  · exact Memory.ofCells_wf _
  · exact h

theorem releaseReset_device (casel : BitVec 2) (held : Nat) (s : State) : DeviceMoves s (releaseReset casel held s) := by
  have kept : DeviceMove s { s with mem := memoryAtRelease held s } := .store s _ (memoryAtRelease_wf held)
  exact (Relation.ReflTransGen.single kept).tail (.lines {} {} (.inl rfl))

theorem endInitialisation_device (s : State) : DeviceMoves s (endInitialisation s) :=
  (Relation.ReflTransGen.single (.refresh s closedBanks 0 (.inr rfl) fun _ => Nat.zero_le _)).trans
    ((bus_device _ .free s.mct.queue true).trans (joinOwnQueue_device _ _))

theorem owedAfterInterval_le {n : Nat} (h : n ≤ 8) : owedAfterInterval n ≤ 8 := by
  unfold owedAfterInterval Config.refreshMax
  split <;> omega

/-! ## The inversion of a step, for the device -/

/-- Everything a command can do to the device. -/
theorem exec_device {c : Instr} {s t : State} (h : exec c s = .next t) : DeviceMoves s t := by
  cases c with
  | resetAsserted => cases h; exact .single (.reset s)
  | resetReleased casel held => cases h; exact whenReady_device _ _ s (releaseReset_device _ _ s)
  | memoryInitialisationEnd => cases h; exact whenReady_device _ _ s (endInitialisation_device s)
  | timebaseTick =>
    cases h
    exact whenReady_device _ _ s (.of_same
      {})
  | refreshIntervalEnd => cases h; exact whenReady_device _ _ s (.single (.refresh s _ _ (.inl rfl) owedAfterInterval_le))
  | grant => cases h; exact whenReady_device _ _ s (grantBus_device s)
  | refreshEnd =>
    cases h
    exact whenReady_device _ _ s ((Relation.ReflTransGen.single (.refresh s closedBanks _ (.inr rfl) id)).trans
      (bus_device _ .free s.mct.queue s.mct.intervalRunning))
  | bootLoadReadDone =>
    simp only [exec, execBootLoadReadDone] at h
    split at h <;> cases h
    · exact bootLoad_device _ _ s
    · exact .refl
  | recordWriteDone =>
    simp only [exec, execRecordWriteDone] at h
    split at h <;> cases h
    · exact (endRecordWrite_device _ _ s).trans ((retireRecord_device _).trans (presentHead_device _))
    · exact .refl
  | transferArrival r =>
    cases h
    refine whenReady_device _ _ s ?_
    unfold presentRequest
    split
    · exact arrive_device r s
    · exact port_device s s.answers s.inHand (some r)
  | plainWordWrite => cases h; exact onWord_device _ _ _ s fun _ _ _ => (storeWord_device _ _ _ s).trans (finishWord_device _ _)
  | plainWordRead => cases h; exact onWord_device _ _ _ s fun _ _ _ => serveOwnAddress_device _ s
  | parameterWordWrite =>
    cases h
    exact onWord_device _ _ _ s fun _ _ _ => (parameterWrite_device _ _ _ s).trans (finishWord_device _ _)
  | commitWordWrite =>
    cases h
    exact onWord_device _ _ _ s fun _ _ _ =>
      (parameterWrite_device _ _ _ s).trans ((modInHand_device _ _).trans (finishWord_device _ _))
  | reportReadIndexWrite =>
    cases h
    exact onWord_device _ _ _ s fun _ _ _ =>
      (parameterWrite_device _ _ _ s).trans ((deliverMerged_device _ _).trans (finishWord_device _ _))
  | acknowledgeRead => cases h; exact onWord_device _ _ _ s fun h a k => answerStatus_device h a k s
  | acknowledgeWrite => cases h; exact onWord_device _ _ _ s fun _ _ _ => (clearEntries_device s).trans (finishWord_device _ _)
  | statusWordWrite => cases h; exact onWord_device _ _ _ s fun _ _ _ => (modInHand_device _ s).trans (finishWord_device _ _)
  | bufferWordWrite => cases h; exact onWord_device _ _ _ s fun h a k => bufferWrite_device h a k s
  | bufferWordRead =>
    simp only [exec, execBufferWordRead] at h
    split at h <;> cases h
    exact onWord_device _ _ _ s fun h a k => bufferRead_device h a k s
  | transferEnd => cases h; exact endTransfer_device s _ (answerRest_device 16 s)
  | watchdogExpiry sd =>
    simp only [exec, execWatchdogExpiry] at h
    split at h <;> cases h
    · refine whenReady_device _ _ s ?_
      exact (modView_device sd (fun v => { v with watchdog := none }) s).trans (raiseSide_device _ _ _ _ _)
    · exact .refl
  | holdTimerExpiry sd =>
    simp only [exec, execHoldTimerExpiry] at h
    split at h <;> cases h
    · exact whenReady_device _ _ s (expireHold_device sd _ s)
    · exact .refl

/-- A law of the device that every move keeps is kept by every step: the induction, once. -/
theorem kept_device {P : State → Prop} (hP : ∀ s t, DeviceMove s t → P s → P t) : Kept P := by
  intro s t hs h
  have moves : DeviceMoves s t := by
    rcases step_cases h with rfl | ⟨c, rest, _, h⟩
    · exact .refl
    · have taken : SameDevice s { s with pending := rest } :=
        {}
      exact (DeviceMoves.of_same taken).trans (exec_device h)
  clear h
  induction moves with
  | refl => exact hs
  | tail _ m ih => exact hP _ _ m ih

end Sys2Proof.Safety

/-! PROOF. The laws of the device, move by move: the lines (R139, R150), the fault unit (R145, R151), the memory controller
(R12, R13) and the canonical form of frame memory. -/

namespace Sys2Proof.Safety

open Sys2Proof.Machine

/-! ## The lines (R139, R150) -/

theorem linesLaw_of_same {s t : State} (same : SameDevice s t) (h : LinesLaw s) : LinesLaw t := by
  have fault : t.faultCondition = s.faultCondition := by
    have left := same.view .left
    have right := same.view .right
    simp only [State.side] at left right
    unfold State.faultCondition
    rw [same.resetHeld, same.config, left, right]
  have attn : t.attnCondition = s.attnCondition := by
    unfold State.attnCondition State.maskInForce
    rw [same.device, same.entries]
  exact ⟨by rw [same.faultLine, fault, h.1], by rw [same.attn, attn, h.2]⟩

theorem linesLaw_assertReset (s : State) : LinesLaw (assertReset s) :=
  ⟨rfl, (anyEnabledPending_of_clear 0 fun _ => List.eq_of_mem_replicate).symm⟩

theorem linesLaw_fluRaise (e : FaultEntry) (frame : Option (BitVec 16 × Fin 3)) (view : Option ViewState) (detail : Word)
    (s : State) : LinesLaw (fluRaise e frame view detail s) :=
  linesLaw_of_same (presentHead_same _) (linesLaw_updateLines _)

theorem linesLaw_of_move {s t : State} (m : DeviceMove s t) (h : LinesLaw s) : LinesLaw t := by
  cases m with
  | same same => exact linesLaw_of_same same h
  | reset => exact linesLaw_assertReset s
  | lines => exact linesLaw_updateLines _
  | clear => exact linesLaw_updateLines _
  | raise e frame view detail => exact linesLaw_fluRaise e frame view detail _
  | retire => exact h
  | openRow => exact h
  | store => exact h
  | refresh => exact h

/-- Settles O56: a move that bears on the lines brings them up to date, and no other touches them or what they show. -/
theorem linesLawKept : Obligations.LinesLawKept := kept_device fun _ _ m => linesLaw_of_move m

/-! ## The fault unit (R145, R151) -/

/-- The law of the fault unit, of the unit alone. -/
def FluLaw (f : Flu) : Prop :=
  (f.entries.length = 25 ∧ ∀ n ∈ f.entries, n ≤ 255) ∧ f.queue.length ≤ 8 ∧
    ∀ i r, f.queue[i]? = some r → r.seq = f.seq - BitVec.ofNat 16 (f.queue.length - i)

theorem faultUnitLaw_iff (s : State) : FaultUnitLaw s ↔ FluLaw s.flu := Iff.rfl

theorem fluLaw_of_same {f g : Flu} (entries : g.entries = f.entries) (queue : g.queue = f.queue) (seq : g.seq = f.seq)
    (h : FluLaw f) : FluLaw g := by
  unfold FluLaw
  rw [entries, queue, seq]
  exact h

theorem fluLaw_countRaise (e : FaultEntry) {f : Flu} (h : FluLaw f) :
    FluLaw { f with entries := countRaise e f.entries } := by
  obtain ⟨⟨length, counts⟩, records⟩ := h
  refine ⟨⟨by simp [countRaise, length], fun n hn => ?_⟩, records⟩
  rcases List.mem_or_eq_of_mem_set hn with hn | rfl
  · exact counts n hn
  · exact Nat.min_le_left _ _

/-- A record that joins takes the next sequence, and the ones before it fall one further behind. -/
theorem fluLaw_join (r : FaultRecord) {f : Flu} (h : FluLaw f) (room : f.queue.length < 8) :
    FluLaw { f with queue := f.queue ++ [{ r with seq := f.seq }], seq := f.seq + 1 } := by
  obtain ⟨entries, _, seqs⟩ := h
  refine ⟨entries, by simp; omega, fun i q hq => ?_⟩
  simp only [List.length_append, List.length_singleton]
  by_cases hi : i < f.queue.length
  · rw [List.getElem?_append_left hi] at hq
    have behind : f.queue.length + 1 - i = f.queue.length - i + 1 := by omega
    rw [seqs i q hq, behind, BitVec.ofNat_add]
    exact (add_sub_add_right_eq_sub _ _ _).symm
  · rw [List.getElem?_append_right (by omega)] at hq
    have last : i = f.queue.length := by
      have := (List.getElem?_eq_some_iff.mp hq).1
      simp at this
      omega
    subst last
    simp only [Nat.sub_self, List.getElem?_cons_zero, Option.some.injEq] at hq
    subst hq
    simp

theorem fluLaw_joinRecordQueue (r : FaultRecord) {f : Flu} (h : FluLaw f) : FluLaw (joinRecordQueue r f) := by
  unfold joinRecordQueue Config.recordQueueMax
  split
  · next room => exact fluLaw_join r h room
  · exact fluLaw_countRaise _ h

/-- The head record leaves, and the others keep their distance from the next sequence. -/
theorem fluLaw_retire {f : Flu} (h : FluLaw f) : FluLaw { f with queue := f.queue.tail } := by
  obtain ⟨entries, length, seqs⟩ := h
  refine ⟨entries, by simp; omega, fun i q hq => ?_⟩
  simp only [List.getElem?_tail] at hq
  simp only [List.length_tail]
  rw [seqs (i + 1) q hq]
  congr 2
  omega

theorem fluLaw_clear {f : Flu} {entries : List Nat} (length : f.entries.length = 25 → entries.length = 25)
    (counts : ∀ n ∈ entries, n = 0 ∨ n ∈ f.entries) (h : FluLaw f) : FluLaw { f with entries := entries } := by
  refine ⟨⟨length h.1.1, fun n hn => ?_⟩, h.2⟩
  rcases counts n hn with rfl | old
  · exact Nat.zero_le _
  · exact h.1.2 n old

theorem fluLaw_reset : FluLaw Flu.reset := by
  refine ⟨⟨rfl, fun n hn => ?_⟩, Nat.zero_le _, fun i r hr => nomatch hr⟩
  rw [List.eq_of_mem_replicate hn]
  exact Nat.zero_le _

theorem fluLaw_fluRaise (e : FaultEntry) (frame : Option (BitVec 16 × Fin 3)) (view : Option ViewState) (detail : Word)
    {s : State} (h : FluLaw s.flu) : FluLaw (fluRaise e frame view detail s).flu := by
  have joined := fluLaw_joinRecordQueue
    { seq := 0, entry := e, time := s.timebase, frame := frame, view := view, detail := detail } (fluLaw_countRaise e h)
  rw [fluRaise_eq]
  exact joined

theorem faultUnitLaw_of_move {s t : State} (m : DeviceMove s t) (h : FaultUnitLaw s) : FaultUnitLaw t := by
  cases m with
  | same same => exact fluLaw_of_same same.entries same.queue same.seq h
  | reset => exact fluLaw_reset
  | lines _ faults => exact fluLaw_of_same faults.entries faults.queue faults.seq h
  | clear entries length counts =>
    have cleared := fluLaw_clear length counts h
    exact cleared
  | raise e frame view detail _ faults =>
    exact fluLaw_fluRaise e frame view detail (fluLaw_of_same faults.entries faults.queue faults.seq h)
  | retire => exact fluLaw_retire h
  | openRow => exact h
  | store => exact h
  | refresh => exact h

/-- Settles O57: the four moves that change the fault unit, a raise, a retired record, a cleared entry and a reset, each keep
its law. -/
theorem faultUnitLawKept : Obligations.FaultUnitLawKept := kept_device fun _ _ m => faultUnitLaw_of_move m

/-! ## The memory controller and frame memory (R12, R13) -/

theorem memoryControllerLaw_of_same {s t : State} (same : SameMemory s t) (h : MemoryControllerLaw s) :
    MemoryControllerLaw t := by
  unfold MemoryControllerLaw
  rw [same.refreshOwed, same.banks]
  exact h

theorem memoryLaw_of_same {s t : State} (same : SameMemory s t) (h : MemoryLaw s) : MemoryLaw t := by
  unfold MemoryLaw
  rw [same.mem]
  exact h

/-- All that a raise leaves of memory. -/
theorem fluRaise_sameMemory (e : FaultEntry) (frame : Option (BitVec 16 × Fin 3)) (view : Option ViewState) (detail : Word)
    (s : State) : SameMemory s (fluRaise e frame view detail s) := ⟨by simp, by simp, by simp⟩

theorem not_mem_closedBanks (r : Nat) : some r ∉ closedBanks := by simp [closedBanks]

theorem memoryControllerLaw_openRow (a : Nat) {s : State} (h : MemoryControllerLaw s) :
    MemoryControllerLaw (openRow a s) := by
  obtain ⟨owed, length, rows⟩ := h
  refine ⟨owed, by simp [openRow, length], fun r hr => ?_⟩
  rcases List.mem_or_eq_of_mem_set hr with hr | hr
  · exact rows r hr
  · cases hr
    exact Nat.mod_lt _ (by decide)

theorem memoryControllerLaw_refresh {s : State} {banks : List (Option Nat)} {n : Nat}
    (closed : banks = s.mct.banks ∨ banks = closedBanks) (owed : s.mct.refreshOwed ≤ 8 → n ≤ 8) (h : MemoryControllerLaw s) :
    MemoryControllerLaw { s with mct := { s.mct with banks := banks, refreshOwed := n } } := by
  refine ⟨owed h.1, ?_⟩
  rcases closed with rfl | rfl
  · exact h.2
  · exact ⟨rfl, fun r hr => absurd hr (not_mem_closedBanks r)⟩

theorem memoryControllerLaw_reset (s : State) : MemoryControllerLaw (assertReset s) :=
  ⟨Nat.zero_le _, rfl, fun r hr => absurd hr (not_mem_closedBanks r)⟩

theorem memoryControllerLaw_of_move {s t : State} (m : DeviceMove s t) (h : MemoryControllerLaw s) :
    MemoryControllerLaw t := by
  cases m with
  | same same => exact memoryControllerLaw_of_same same.toSameMemory h
  | reset => exact memoryControllerLaw_reset s
  | lines same =>
    have before := memoryControllerLaw_of_same same h
    exact before
  | clear => exact h
  | raise e frame view detail same =>
    exact memoryControllerLaw_of_same (fluRaise_sameMemory e frame view detail _) (memoryControllerLaw_of_same same h)
  | retire => exact h
  | openRow a => exact memoryControllerLaw_openRow a h
  | store => exact h
  | refresh banks n closed owed => exact memoryControllerLaw_refresh closed owed h

theorem memoryLaw_of_move {s t : State} (m : DeviceMove s t) (h : MemoryLaw s) : MemoryLaw t := by
  cases m with
  | same same => exact memoryLaw_of_same same.toSameMemory h
  | reset => exact memoryAtReset_wf h
  | lines same =>
    have before := memoryLaw_of_same same h
    exact before
  | clear => exact h
  | raise e frame view detail same =>
    exact memoryLaw_of_same (fluRaise_sameMemory e frame view detail _) (memoryLaw_of_same same h)
  | retire => exact h
  | openRow => exact h
  | store mem wf => exact wf h
  | refresh => exact h

/-- Settles O58: only a refresh and an opened row change the controller, and only a store changes memory. -/
theorem memoryControllerLawKept : Obligations.MemoryControllerLawKept :=
  ⟨kept_device fun _ _ m => memoryControllerLaw_of_move m, kept_device fun _ _ m => memoryLaw_of_move m⟩

end Sys2Proof.Safety

/-! PROOF. The view of a side and the set it has in force: what each move does to them, and the laws of OFF, of the hold timer,
of the recovery run and of the settings (R42, R128, R130, R131, R133). -/

namespace Sys2Proof.Safety

open Sys2Proof.Machine

/-! ## What a move does to the active set and the view -/

theorem cutOtherSide_leaves (b : Fin 3) (x : SideState) :
    (cutOtherSide b x).active = x.active ∧ (cutOtherSide b x).view = x.view ∧ (cutOtherSide b x).glare = x.glare ∧
      (cutOtherSide b x).scan = x.scan := by
  unfold cutOtherSide
  (repeat' split) <;> exact ⟨rfl, rfl, rfl, rfl⟩

/-- A side's active set changes only when the side is reset or takes a set. -/
theorem active_of_move {offered : ActiveSet → Prop} {now : Word} {x y : SideState} (m : SideMove offered now x y) :
    y = .off none ∨ (∃ a, offered a ∧ y = takeSet now a x) ∨ y.active = x.active := by
  cases m with
  | reset => exact .inl rfl
  | take a h => exact .inr (.inl ⟨a, h, rfl⟩)
  | frameStart a b => exact .inr (.inr (cutOtherSide_leaves b x).1)
  | scanStart a b => exact .inr (.inr (scanStartSide_leaves now a b x).2.2.2.1)
  | fault k => exact .inr (.inr (faultSide_keeps now k x).1)
  | holdExpiry t => exact .inr (.inr (faultSide_keeps now .holdExpired _).1)
  | wait => exact .inr (.inr rfl)
  | continueFrame => exact .inr (.inr rfl)
  | partialWrite => exact .inr (.inr rfl)
  | serve => exact .inr (.inr rfl)
  | unchecked => exact .inr (.inr rfl)
  | watchdogStop => exact .inr (.inr rfl)
  | lengthFail => exact .inr (.inr rfl)
  | ready => exact .inr (.inr rfl)
  | run => exact .inr (.inr rfl)
  | markFrozen => exact .inr (.inr rfl)
  | glare => exact .inr (.inr rfl)
  | reload => exact .inr (.inr rfl)

/-- A view that is as before but for its watchdog. -/
structure SameView (x y : SideState) : Prop where
  state : y.view.state = x.view.state := by rfl
  hold : y.view.hold = x.view.hold := by rfl
  recovery : y.view.recovery = x.view.recovery := by rfl

/-- A view after a fault of class A: it moves by the table, from the view before or from one whose hold timer has expired. -/
def Faulted (now : Word) (x y : SideState) : Prop :=
  ∃ k v, (v = x.view ∨ (k = .holdExpired ∧ x.view.hold.isSome = true ∧ v = { x.view with hold := none })) ∧
    y.view = moveView now x.holdMax (viewAfterFault k x.view.state) v

theorem faultSide_view (now : Word) (k : SideKind) (x : SideState) :
    SameView x (faultSide now k x) ∨ Faulted now x (faultSide now k x) := by
  unfold faultSide
  split
  · exact .inr ⟨k, x.view, .inl rfl, rfl⟩
  · exact .inl {}

/-- Judging a scan start moves the view by a fault or a good scan, or not at all. -/
theorem judgeSide_view (now : Word) (a : ActiveSet) (b : Fin 3) (st : BufState) (x : SideState) :
    SameView x (judgeSide now a b st x) ∨ Faulted now x (judgeSide now a b st x) ∨
      (judgeSide now a b st x).view = goodScanView x.recoverRun x.view := by
  unfold judgeSide judgeReadySide
  dsimp only
  split
  · split
    · exact (faultSide_view now .latency { x with scan := { x.scan with lastLatency := latencyOf now b x } }).elim
        (fun same => .inl ⟨same.state, same.hold, same.recovery⟩) fun faulted => .inr (.inl faulted)
    · split
      · exact .inr (.inr rfl)
      · exact .inl {}
  · split
    · exact (faultSide_view now _ x).imp_right .inl
    · exact .inl {}

/-- The ways a move can go with the view. -/
theorem view_of_move {offered : ActiveSet → Prop} {now : Word} {x y : SideState} (m : SideMove offered now x y) :
    y = .off none ∨ (∃ a, offered a ∧ y = takeSet now a x) ∨ SameView x y ∨ Faulted now x y ∨
      y.view = goodScanView x.recoverRun x.view := by
  cases m with
  | reset => exact .inl rfl
  | take a h => exact .inr (.inl ⟨a, h, rfl⟩)
  | frameStart a b =>
    have view : (startSide now a b (cutOtherSide b x)).view = x.view := (cutOtherSide_leaves b x).2.1
    exact .inr (.inr (.inl ⟨by rw [view], by rw [view], by rw [view]⟩))
  | scanStart a b =>
    obtain ⟨-, -, -, -, -, -, view, -⟩ := scanStartSide_leaves now a b x
    refine .inr (.inr ?_)
    rcases judgeSide_view now a b (x.ring.buf b).state (noticeSide b x) with same | ⟨k, v, hv, faulted⟩ | good
    · exact .inl ⟨view ▸ same.state, view ▸ same.hold, view ▸ same.recovery⟩
    · exact .inr (.inl ⟨k, v, hv, view.trans faulted⟩)
    · exact .inr (.inr (view.trans good))
  | fault k => exact .inr (.inr ((faultSide_view now k x).imp_right .inl))
  | holdExpiry t h =>
    exact .inr (.inr (.inr (.inl ⟨.holdExpired, _, .inr ⟨rfl, by rw [h]; rfl, rfl⟩, rfl⟩)))
  | wait => exact .inr (.inr (.inl {}))
  | continueFrame => exact .inr (.inr (.inl {}))
  | partialWrite => exact .inr (.inr (.inl {}))
  | serve => exact .inr (.inr (.inl {}))
  | unchecked => exact .inr (.inr (.inl {}))
  | watchdogStop => exact .inr (.inr (.inl {}))
  | lengthFail => exact .inr (.inr (.inl {}))
  | ready => exact .inr (.inr (.inl {}))
  | run => exact .inr (.inr (.inl {}))
  | markFrozen => exact .inr (.inr (.inl {}))
  | glare => exact .inr (.inr (.inl {}))
  | reload => exact .inr (.inr (.inl {}))

/-! ## The hold timer (R128) -/

theorem holdLaw_takeSet {now : Word} {a : ActiveSet} {x : SideState} (h : HoldLaw x) : HoldLaw (takeSet now a x) :=
  takeSet_cases now a x HoldLaw h (by simp [HoldLaw, SideState.off, View.off]) (by simp [HoldLaw, enabledSide])

/-- An expired hold timer ran in HOLDING, and its fault leaves HOLDING. -/
theorem holdLaw_of_faulted {now : Word} {x y : SideState} (faulted : Faulted now x y) (h : HoldLaw x) : HoldLaw y := by
  obtain ⟨k, v, hv, view⟩ := faulted
  unfold HoldLaw
  rw [view]
  simp only [moveView, holdAfterMove]
  rcases hv with rfl | ⟨rfl, running, rfl⟩
  · by_cases enters : viewAfterFault k x.view.state = .holding
    · by_cases was : x.view.state = .holding
      · rw [if_pos enters, if_pos was]
        exact ⟨fun _ => enters, fun _ => h.mpr was⟩
      · simp [enters, was, loaded]
    · simp [enters]
  · simp [h.mp running, viewAfterFault]

theorem holdLaw_of_goodScan {x y : SideState} (view : y.view = goodScanView x.recoverRun x.view) (h : HoldLaw x) :
    HoldLaw y := by
  unfold HoldLaw at *
  rw [view]
  unfold goodScanView advanceRun
  cases hs : x.view.state <;> simp only [hs] at h ⊢
  case marked | lost => split <;> simpa [hs] using h
  case holding => simp
  all_goals simpa [hs] using h

theorem holdLaw_of_move {offered : ActiveSet → Prop} {now : Word} {x y : SideState} (m : SideMove offered now x y)
    (h : HoldLaw x) : HoldLaw y := by
  rcases view_of_move m with rfl | ⟨a, _, rfl⟩ | same | faulted | good
  · simp [HoldLaw, SideState.off, View.off]
  · exact holdLaw_takeSet h
  · unfold HoldLaw
    rw [same.hold, same.state]
    exact h
  · exact holdLaw_of_faulted faulted h
  · exact holdLaw_of_goodScan good h

/-! ## OFF (R130, R131) -/

theorem inForce_eq_none_iff (x : SideState) : x.inForce = none ↔ x.enabled = false := by
  unfold SideState.inForce SideState.enabled
  cases x.active with
  | none => simp
  | some a => cases h : a.desc.enabled <;> simp [h]

theorem inForce_takeSet (now : Word) (a : ActiveSet) (x : SideState) :
    (takeSet now a x).inForce = if a.desc.enabled then some a else none := by
  unfold SideState.inForce
  rw [(takeSet_active now a x).1]

theorem offLaw_off {a : Option ActiveSet} (h : (SideState.off a).inForce = none) : OffLaw (.off a) :=
  ⟨⟨fun _ => h, fun _ => rfl⟩, fun _ => rfl⟩

/-- In force and not in OFF. -/
theorem offLaw_of_inForce {x : SideState} (h : x.inForce ≠ none) (view : x.view.state ≠ .off) : OffLaw x :=
  ⟨⟨fun e => absurd e view, fun e => absurd e h⟩, fun e => absurd e h⟩

theorem offLaw_takeSet (now : Word) (a : ActiveSet) {x : SideState} (h : OffLaw x) : OffLaw (takeSet now a x) := by
  have force := inForce_takeSet now a x
  by_cases was : x.enabled = true <;> by_cases will : a.desc.enabled = true
  · rw [if_pos will] at force
    refine offLaw_of_inForce (by simp [force]) ?_
    have not_off : x.view.state ≠ .off := fun e => by
      rw [h.1, inForce_eq_none_iff, was] at e
      cases e
    simpa [takeSet, was, will] using not_off
  · rw [if_neg will] at force
    have torn : takeSet now a x = .off (some a) := by simp [takeSet, was, will]
    rw [torn] at force ⊢
    exact offLaw_off force
  · rw [if_pos will] at force
    exact offLaw_of_inForce (by simp [force]) (by simp [takeSet, was, will, enabledSide])
  · rw [if_neg will] at force
    have off := h.2 ((inForce_eq_none_iff x).mpr (by simpa using was))
    have kept : takeSet now a x = .off (some a) := by
      rw [takeSet, if_neg was, if_neg will, off]
      rfl
    rw [kept] at force ⊢
    exact offLaw_off force

theorem viewAfterFault_off (k : SideKind) : viewAfterFault k .off = .off := by cases k <;> rfl

theorem viewAfterFault_ne_off {k : SideKind} {v : ViewState} (h : v ≠ .off) : viewAfterFault k v ≠ .off := by
  cases v with
  | off => exact absurd rfl h
  | waiting => cases k <;> simp [viewAfterFault]
  | live => cases k <;> simp [viewAfterFault]
  | marked => cases k <;> simp [viewAfterFault]
  | holding => cases k <;> simp [viewAfterFault]
  | lost => cases k <;> simp [viewAfterFault]

theorem goodScanView_ne_off {n : Nat} {v : View} (h : v.state ≠ .off) : (goodScanView n v).state ≠ .off := by
  unfold goodScanView advanceRun
  cases hv : v.state <;> simp only
  case off => exact absurd hv h
  case marked | lost => split <;> simp
  case live => simp [hv]
  all_goals simp

/-- No fault moves a side out of its OFF values. -/
theorem faultSide_of_off (now : Word) (k : SideKind) (a : Option ActiveSet) : faultSide now k (.off a) = .off a := by
  cases k <;> rfl

/-- From its OFF values a side can only be reset or take a set. -/
theorem move_of_off {offered : ActiveSet → Prop} {now : Word} {x y : SideState} (m : SideMove offered now x y)
    (off : x = .off x.active) (none : x.inForce = none) :
    y = .off Option.none ∨ (∃ a, y = takeSet now a x) ∨ y = x := by
  have not_some : ∀ {a}, x.inForce ≠ some a := fun h => by rw [none] at h; cases h
  have record : x.scan.record = Option.none := by rw [off]; rfl
  have hold : x.view.hold = Option.none := by rw [off]; rfl
  have filling : x.ring.filling = Option.none := by rw [off]; rfl
  have watchdog : x.view.watchdog = Option.none := by rw [off]; rfl
  cases m with
  | reset => exact .inl rfl
  | take a _ => exact .inr (.inl ⟨a, rfl⟩)
  | wait a hf => rw [filling] at hf; cases hf
  | serve r r' h => rw [record] at h; cases h
  | holdExpiry t h => rw [hold] at h; cases h
  | fault k =>
    have kept := faultSide_of_off now k x.active
    rw [← off] at kept
    exact .inr (.inr kept)
  | watchdogStop =>
    have kept : { x.view with watchdog := Option.none } = x.view := by rw [← watchdog]
    exact .inr (.inr (by rw [kept]))
  | frameStart a b h => exact absurd h not_some
  | continueFrame a b o w h => exact absurd h not_some
  | partialWrite a b h => exact absurd h not_some
  | scanStart a b h => exact absurd h not_some
  | unchecked a h => exact absurd h not_some
  | lengthFail a b h => exact absurd h not_some
  | ready a b h => exact absurd h not_some
  | run a sig h => exact absurd h not_some
  | markFrozen a h => exact absurd h not_some
  | glare a b h => exact absurd h not_some
  | reload a h => exact absurd h not_some

/-- A side out of OFF stays out of it until it is reset or takes a set. -/
theorem not_off_of_move {offered : ActiveSet → Prop} {now : Word} {x y : SideState} (m : SideMove offered now x y)
    (h : x.view.state ≠ .off) : y = .off none ∨ (∃ a, offered a ∧ y = takeSet now a x) ∨ y.view.state ≠ .off := by
  rcases view_of_move m with reset | take | same | ⟨k, v, _, view⟩ | view
  · exact .inl reset
  · exact .inr (.inl take)
  · exact .inr (.inr (by rwa [same.state]))
  · refine .inr (.inr ?_)
    rw [view]
    exact viewAfterFault_ne_off h
  · refine .inr (.inr ?_)
    rw [view]
    exact goodScanView_ne_off h

theorem offLaw_of_move {offered : ActiveSet → Prop} {now : Word} {x y : SideState} (m : SideMove offered now x y)
    (h : OffLaw x) : OffLaw y := by
  by_cases none : x.inForce = none
  · rcases move_of_off m (h.2 none) none with rfl | ⟨a, rfl⟩ | rfl
    · exact offLaw_off rfl
    · exact offLaw_takeSet now a h
    · exact h
  · rcases not_off_of_move m (fun e => none (h.1.mp e)) with rfl | ⟨a, _, rfl⟩ | view
    · exact offLaw_off rfl
    · exact offLaw_takeSet now a h
    · rcases active_of_move m with rfl | ⟨a, _, rfl⟩ | active
      · exact offLaw_off rfl
      · exact offLaw_takeSet now a h
      · exact offLaw_of_inForce (by rwa [side_inForce_congr active]) view

theorem offLaw_kept : Kept (OfSides OffLaw) := kept_sides fun _ _ _ m => offLaw_of_move m

/-! ## The settings (R35, R42) -/

/-- The accepted set is clamped. -/
def AcceptedClamped (s : State) : Prop :=
  ∀ acc, s.cau.accepted = some acc →
    acc.device.borderWidth ≤ 32 ∧ (∀ sd, DescriptorLaw (acc.descriptor sd)) ∧ ProfilesLaw acc.profiles

/-- A side's active set is clamped. -/
def ActiveClamped (x : SideState) : Prop := ∀ a, x.active = some a → DescriptorLaw a.desc ∧ ProfilesLaw a.profiles

theorem settingsLaw_iff (s : State) : SettingsLaw s ↔ AcceptedClamped s ∧ OfSides ActiveClamped s := Iff.rfl

theorem acceptedClamped_of_stays {s t : State} (stays : AcceptedStays s t) (h : AcceptedClamped s) : AcceptedClamped t := by
  intro acc hacc
  rcases stays with same | ⟨ps, g, profiles, new⟩
  · exact h acc (same ▸ hacc)
  · rw [new] at hacc
    cases hacc
    exact acceptedFrom_law ps g profiles

theorem acceptedClamped_of_move {s t : State} (m : DeviceMove s t) (h : AcceptedClamped s) : AcceptedClamped t := by
  cases m with
  | same same => exact acceptedClamped_of_stays (.inl same.accepted) h
  | reset => exact fun acc hacc => nomatch hacc
  | lines _ _ stays =>
    have before := acceptedClamped_of_stays stays h
    exact before
  | clear => exact h
  | raise e frame view detail _ _ stays =>
    have before := acceptedClamped_of_stays stays h
    unfold AcceptedClamped
    rw [fluRaise_cau]
    exact before
  | retire => exact h
  | openRow => exact h
  | store => exact h
  | refresh => exact h

theorem acceptedFrom_profiles (ps : List Word) (g : Word) : ProfilesLaw (acceptedFrom ps g).profiles := by
  intro i
  unfold Profiles.get acceptedFrom
  split <;> exact clampProfile_law _ _

/-- Every set that a step can offer a side is clamped, while the accepted set is. -/
theorem offered_clamped {s : State} (h : AcceptedClamped s) {a : ActiveSet} (offered : Offered s a) :
    DescriptorLaw a.desc ∧ ProfilesLaw a.profiles := by
  rcases offered with ⟨ps, g, sd, profiles, rfl⟩ | ⟨acc, sd, hacc, rfl⟩
  · refine ⟨?_, acceptedFrom_profiles ps g⟩
    cases sd <;> exact clampDescriptor_law _ profiles
  · obtain ⟨_, descriptors, profiles⟩ := h acc hacc
    exact ⟨descriptors sd, profiles⟩

theorem activeClamped_of_move {s : State} (accepted : AcceptedClamped s) {now : Word} {x y : SideState}
    (m : SideMove (Offered s) now x y) (h : ActiveClamped x) : ActiveClamped y := by
  intro a ha
  rcases active_of_move m with rfl | ⟨new, offered, rfl⟩ | active
  · cases ha
  · rw [(takeSet_active now new x).1] at ha
    cases ha
    exact offered_clamped accepted offered
  · exact h a (active ▸ ha)

theorem settingsLaw_kept : Kept SettingsLaw := by
  intro s t hs h
  obtain ⟨accepted, active⟩ := (settingsLaw_iff s).mp hs
  exact (settingsLaw_iff t).mpr ⟨kept_device (fun _ _ m => acceptedClamped_of_move m) s t accepted h,
    kept_sides_of (Q := AcceptedClamped) (fun _ _ h => h) (fun _ hq _ _ m => activeClamped_of_move hq m) accepted active h⟩

/-- A law of a side that every move keeps under clamped settings is kept with them. -/
theorem kept_with_settings {P : SideState → Prop}
    (hP : ∀ s : State, ∀ now x y, SideMove (Offered s) now x y → ActiveClamped x → P x → P y) :
    Kept fun s => SettingsLaw s ∧ OfSides P s := by
  intro s t ⟨settings, hs⟩ h
  obtain ⟨accepted, active⟩ := (settingsLaw_iff s).mp settings
  have both : OfSides (fun x => ActiveClamped x ∧ P x) t :=
    kept_sides_of (Q := AcceptedClamped) (fun _ _ h => h)
      (fun s hq x y m hx => ⟨activeClamped_of_move hq m hx.1, hP s _ x y m hx.1 hx.2⟩) accepted
      (fun sd => ⟨active sd, hs sd⟩) h
  exact ⟨settingsLaw_kept s t settings h, fun sd => (both sd).2⟩

/-! ## The recovery run (R133) -/

theorem recoverRun_le {x : SideState} (h : ActiveClamped x) : x.recoverRun ≤ 15 := by
  unfold SideState.recoverRun
  split
  · next a ha => exact (h a ha).1.2.2.2.2.2.1.2
  · exact Nat.zero_le _

theorem runLaw_of_zero {x : SideState} (h : x.view.recovery = 0) : RunLaw x := ⟨by omega, fun _ _ => h⟩

/-- A run that does not reach RECOVER_RUN stays below it. -/
theorem advanceRun_cases (n : Nat) (up : ViewState) (v : View) :
    (advanceRun n up v).recovery = 0 ∨
      ((advanceRun n up v).state = v.state ∧ (advanceRun n up v).recovery = v.recovery + 1 ∧ v.recovery + 1 < n) := by
  unfold advanceRun
  split
  · exact .inl rfl
  · exact .inr ⟨rfl, rfl, by omega⟩

theorem runLaw_of_goodScan {x y : SideState} (active : ActiveClamped x) (view : y.view = goodScanView x.recoverRun x.view)
    (h : RunLaw x) : RunLaw y := by
  have limit := recoverRun_le active
  have advance : ∀ up, (x.view.state = .marked ∨ x.view.state = .lost) → y.view = advanceRun x.recoverRun up x.view →
      RunLaw y := fun up from' view => by
    rcases advanceRun_cases x.recoverRun up x.view with zero | ⟨state, run, below⟩
    · exact runLaw_of_zero (by rw [view, zero])
    · refine ⟨by rw [view, run]; omega, fun marked lost => ?_⟩
      rw [view, state] at marked lost
      exact absurd from' (by simp [marked, lost])
  unfold goodScanView at view
  cases hv : x.view.state <;> simp only [hv] at view
  case off => exact runLaw_of_zero (by rw [view]; exact h.2 (by simp [hv]) (by simp [hv]))
  case waiting => exact runLaw_of_zero (by rw [view])
  case live => exact runLaw_of_zero (by rw [view]; exact h.2 (by simp [hv]) (by simp [hv]))
  case marked => exact advance .live (.inl hv) view
  case holding => exact runLaw_of_zero (by rw [view])
  case lost => exact advance .marked (.inr hv) view

theorem runLaw_of_move {offered : ActiveSet → Prop} {now : Word} {x y : SideState} (m : SideMove offered now x y)
    (active : ActiveClamped x) (h : RunLaw x) : RunLaw y := by
  rcases view_of_move m with rfl | ⟨a, _, rfl⟩ | same | ⟨k, v, _, view⟩ | good
  · exact runLaw_of_zero rfl
  · exact takeSet_cases now a x RunLaw h (runLaw_of_zero rfl) (runLaw_of_zero rfl)
  · unfold RunLaw
    rw [same.recovery, same.state]
    exact h
  · exact runLaw_of_zero (by rw [view]; rfl)
  · exact runLaw_of_goodScan active good h

/-- Settles O54: each law move by move, the recovery run under the RECOVER_RUN of a clamped set. -/
theorem viewLawsKept : Obligations.ViewLawsKept :=
  ⟨offLaw_kept, kept_sides fun _ _ _ m => holdLaw_of_move m, settingsLaw_kept,
    kept_with_settings fun _ _ _ _ m => runLaw_of_move m⟩

end Sys2Proof.Safety

/-! PROOF. The ranges of a side: its counters (R67, R68, R105), the profile indices of its records (R67), and the quantities of
the Glare Unit (R89, R91, R97, R98). -/

namespace Sys2Proof.Safety

open Sys2Proof.Machine

/-! ## Counters (R67, R68, R105) -/

/-- The counters of a ring stay in their ranges. -/
def RingCounters (r : BufferRing) : Prop := (∀ b, (r.buf b).count ≤ 16777215) ∧ r.equalRun ≤ 255 ∧ r.dropped ≤ 65535

theorem ringCounters_setBuf {r : BufferRing} {b : Fin 3} {x : BufRecord} (hx : x.count ≤ 16777215) (h : RingCounters r) :
    RingCounters (r.setBuf b x) := by
  obtain ⟨counts, run, dropped⟩ := h
  refine ⟨fun c => ?_, by simpa using run, by simpa using dropped⟩
  rw [buf_setBuf]
  split
  · exact hx
  · exact counts c

theorem ringCounters_startRing (now : Word) (p : Nat) (b : Fin 3) {r : BufferRing} (h : RingCounters r) :
    RingCounters (startRing now p b r) := by
  obtain ⟨counts, run, dropped⟩ := h
  refine ⟨fun c => ?_, by simpa [startRing] using run, ?_⟩
  · rw [startRing_buf]
    split
    · exact Nat.zero_le _
    · exact counts c
  · show (if (r.buf b).state = .ready then saturate 65535 (r.dropped + 1) else r.dropped) ≤ 65535
    split
    · exact Nat.min_le_left _ _
    · exact dropped

theorem ringCounters_scanNotice (b : Fin 3) {r : BufferRing} (h : RingCounters r) : RingCounters (scanNotice b r) := by
  unfold scanNotice
  split
  · refine ringCounters_setBuf (h.1 b) ?_
    unfold freeShowing
    split
    · exact ringCounters_setBuf (h.1 _) h
    · exact h
  · exact h

theorem ringCounters_stepRun (sig : Word) {r : BufferRing} (h : RingCounters r) : RingCounters (stepRun sig r) := by
  refine ⟨fun b => by rw [stepRun_buf]; exact h.1 b, ?_, ?_⟩ <;> unfold stepRun <;> split
  · exact Nat.min_le_left _ _
  · exact Nat.zero_le _
  · exact h.2.2
  · exact h.2.2

theorem ringCounters_cutOtherSide (b : Fin 3) {x : SideState} (h : RingCounters x.ring) :
    RingCounters (cutOtherSide b x).ring := by
  unfold cutOtherSide
  split
  · split
    · exact h
    · next c _ _ => exact ringCounters_setBuf (x := cutRecord (x.ring.buf c)) (h.1 c) h
  · exact h

theorem ringCounters_off : RingCounters BufferRing.off := by
  refine ⟨fun b => ?_, by decide, by decide⟩
  rw [show BufferRing.off.buf b = .cleared from off_buf none b]
  exact Nat.zero_le _

theorem ringCounters_of_move {offered : ActiveSet → Prop} {now : Word} {x y : SideState} (m : SideMove offered now x y)
    (h : RingCounters x.ring) : RingCounters y.ring := by
  cases m with
  | reset => exact ringCounters_off
  | take a => exact takeSet_cases now a x (fun y => RingCounters y.ring) h ringCounters_off ringCounters_off
  | frameStart a b => exact ringCounters_startRing now _ b (ringCounters_cutOtherSide b h)
  | continueFrame a b o w => exact ringCounters_setBuf (Nat.min_le_left _ _) h
  | partialWrite a b =>
    refine ringCounters_setBuf ?_ h
    unfold partialRecord
    split <;> exact h.1 b
  | scanStart a b =>
    rw [(scanStartSide_leaves now a b x).1]
    exact ringCounters_scanNotice b h
  | lengthFail a b => exact ringCounters_setBuf (x := { x.ring.buf b with verified := false }) (h.1 b) h
  | ready a b =>
    exact ringCounters_setBuf (x := { x.ring.buf b with state := .ready, completionTime := now }) (h.1 b) h
  | run a sig => exact ringCounters_stepRun sig h
  | markFrozen =>
    have kept := buf_of_marks x.ring x.ring.nextSeq x.ring.lastVerified x.ring.equalRun true x.ring.dropped
    exact ⟨fun b => by rw [kept]; exact h.1 b, h.2⟩
  | fault k => rwa [(faultSide_leaves now k x).1]
  | holdExpiry t => rwa [(faultSide_leaves now .holdExpired _).1]
  | wait => exact h
  | serve => exact h
  | unchecked => exact h
  | watchdogStop => exact h
  | glare => exact h
  | reload => exact h

/-- The unchecked-scan count stays or is held at its largest value. -/
theorem unchecked_of_move {offered : ActiveSet → Prop} {now : Word} {x y : SideState} (m : SideMove offered now x y)
    (h : x.scan.unchecked ≤ 65535) : y.scan.unchecked ≤ 65535 := by
  cases m with
  | reset => exact Nat.zero_le _
  | take a =>
    exact takeSet_cases now a x (fun y => y.scan.unchecked ≤ 65535) h (Nat.zero_le _) (Nat.zero_le _)
  | scanStart a b =>
    rw [(scanStartSide_leaves now a b x).2.2.2.2.2.2.2, endOpenScan_eq]
    show uncheckedAfterStart x.scan ≤ 65535
    unfold uncheckedAfterStart
    split
    · split
      · exact h
      · exact Nat.min_le_left _ _
    · exact h
  | unchecked => exact Nat.min_le_left _ _
  | frameStart a b =>
    have scan : (startSide now a b (cutOtherSide b x)).scan = x.scan := (cutOtherSide_leaves b x).2.2.2
    rwa [scan]
  | fault k => rwa [(faultSide_leaves now k x).2.2.1]
  | holdExpiry t => rwa [(faultSide_leaves now .holdExpired _).2.2.1]
  | wait => exact h
  | continueFrame => exact h
  | partialWrite => exact h
  | serve => exact h
  | watchdogStop => exact h
  | lengthFail => exact h
  | ready => exact h
  | run => exact h
  | markFrozen => exact h
  | glare => exact h
  | reload => exact h

theorem counterLaw_iff (x : SideState) :
    CounterLaw x ↔ RingCounters x.ring ∧ x.scan.unchecked ≤ 65535 ∧
      ∀ r, x.scan.record = some r → r.wordsRead ≤ 16777215 := by
  unfold CounterLaw RingCounters
  simp only [and_assoc]

theorem counterLaw_of_move {offered : ActiveSet → Prop} {now : Word} {x y : SideState} (m : SideMove offered now x y)
    (h : CounterLaw x) : CounterLaw y := by
  obtain ⟨ring, unchecked, read⟩ := (counterLaw_iff x).mp h
  refine (counterLaw_iff y).mpr ⟨ringCounters_of_move m ring, unchecked_of_move m unchecked, fun r hr => ?_⟩
  rcases record_of_move m hr with ⟨old, hold, _, _, same | small⟩ | ⟨_, _, _, rfl⟩
  · rw [same]
    exact read old hold
  · exact small
  · exact Nat.zero_le _

/-! ## Profile indices (R67) -/

theorem profileIndexLaw_of_move {offered : ActiveSet → Prop} {now : Word} {x y : SideState} (m : SideMove offered now x y)
    (active : ActiveClamped x) (h : ProfileIndexLaw x) : ProfileIndexLaw y := by
  intro c
  rcases frames_of_move m with same | emptied | ⟨a, b, ha, rfl, _⟩ | ⟨a, b, rfl⟩ | ⟨b, _, rfl⟩
  · rw [same.profile]
    exact h c
  · rw [emptied.buf]
    exact Nat.zero_le _
  · obtain ⟨⟨day, night⟩, _⟩ := (active a (inForce_some ha).1).1
    rw [frameStart_buf]
    split
    · show chooseProfile a.desc _ ≤ 3
      unfold chooseProfile
      split
      · exact day
      · exact night
    · split <;> exact h c
  · rw [(scanStartSide_leaves now a b x).1, scanNotice_profile]
    exact h c
  · rw [readySide_buf]
    split
    · exact h b
    · exact h c

/-! ## The Glare Unit (R89, R91, R97, R98) -/

theorem gainStage_le_max (g c1 : Nat) : gainStage g c1 ≤ 4095 := Nat.min_le_left _ _

/-- The weights of the luma add up to 256, so it stays in the range of the channels (R60). -/
theorem luma_le (p : Profile) (w : Word) : luma p w ≤ 4095 := by
  have red : gainedRed p w ≤ 4095 := gainStage_le_max _ _
  have green : gainedGreen p w ≤ 4095 := gainStage_le_max _ _
  have blue : gainedBlue p w ≤ 4095 := gainStage_le_max _ _
  unfold luma
  omega

/-- The quantities of a Glare Unit stay in their ranges. -/
def GlareRange (g : Glare) : Prop :=
  (g.acc.length = 48 ∧ ∀ t ∈ g.acc, TileLaw t) ∧ g.pixelCount ≤ 16777215 ∧
    (g.map.length = 48 ∧ ∀ d ∈ g.map, d ≤ 256) ∧ (g.summary.length = 48 ∧ ∀ t ∈ g.summary, t.code ≤ 63)

theorem glareLaw_iff (x : SideState) : GlareLaw x ↔ GlareRange x.glare := Iff.rfl

theorem tileLaw_cleared : TileLaw .cleared := ⟨Nat.le_refl _, Nat.zero_le _, Nat.zero_le _⟩

/-- Accumulators after a frame start. -/
theorem cleared_acc :
    (List.replicate Config.tiles TileAcc.cleared).length = 48 ∧
      (∀ t ∈ List.replicate Config.tiles TileAcc.cleared, TileLaw t) ∧
      ((List.replicate Config.tiles TileAcc.cleared).map (·.n)).sum = 0 := by
  refine ⟨rfl, fun t ht => ?_, by simp [TileAcc.cleared]⟩
  rw [List.eq_of_mem_replicate ht]
  exact tileLaw_cleared

theorem glareRange_off : GlareRange .off := by
  obtain ⟨length, tiles, count⟩ := cleared_acc
  refine ⟨⟨length, tiles⟩, count.le.trans (Nat.zero_le _), ⟨rfl, fun d hd => ?_⟩, rfl, fun t ht => ?_⟩
  · rw [List.eq_of_mem_replicate hd]
  · rw [List.eq_of_mem_replicate ht]
    exact Nat.zero_le _

theorem glareRange_frameStart (gt : Nat) {g : Glare} (h : GlareRange g) : GlareRange (glareFrameStart gt g) := by
  obtain ⟨length, tiles, count⟩ := cleared_acc
  exact ⟨⟨length, tiles⟩, count.le.trans (Nat.zero_le _), h.2.2⟩

theorem tileLaw_addLuma (gt : Nat) {y : Nat} (hy : y ≤ 4095) {t : TileAcc} (h : TileLaw t) : TileLaw (addLuma gt y t) := by
  obtain ⟨hot, sum, maximum⟩ := h
  refine ⟨?_, ?_, max_le maximum hy⟩ <;> simp only [addLuma]
  · split <;> omega
  · omega

/-- A changed accumulator changes the frame pixel count by the change of its own. -/
theorem sum_set_le (l : List TileAcc) (i : Nat) (t : TileAcc) (d : TileAcc) (h : t.n ≤ (l.getD i d).n + 1) :
    ((l.set i t).map (·.n)).sum ≤ (l.map (·.n)).sum + 1 := by
  induction l generalizing i with
  | nil => simp
  | cons a l ih =>
    cases i with
    | zero =>
      simp only [List.getD_cons_zero] at h
      simp only [List.set_cons_zero, List.map_cons, List.sum_cons]
      omega
    | succ i =>
      simp only [List.getD_cons_succ] at h
      have := ih i h
      simp only [List.set_cons_succ, List.map_cons, List.sum_cons]
      omega

theorem tileLaw_accOf {g : Glare} (h : ∀ t ∈ g.acc, TileLaw t) (tile : Nat) : TileLaw (g.accOf tile) := by
  unfold Glare.accOf
  rw [List.getD_eq_getElem?_getD]
  cases ht : g.acc[tile]? with
  | none => exact tileLaw_cleared
  | some t => exact h t (List.mem_of_getElem? ht)

theorem glareRange_accumulate (tile : Nat) {y : Nat} (hy : y ≤ 4095) {g : Glare} (h : GlareRange g) :
    GlareRange (accumulate tile y g) := by
  unfold accumulate
  split
  · next room =>
    obtain ⟨⟨length, tiles⟩, _, rest⟩ := h
    refine ⟨⟨by simp [length], fun t ht => ?_⟩, ?_, rest⟩
    · rcases List.mem_or_eq_of_mem_set ht with old | rfl
      · exact tiles t old
      · exact tileLaw_addLuma _ hy (tileLaw_accOf tiles tile)
    · have grown := sum_set_le g.acc tile (addLuma g.frameGt y (g.accOf tile)) .cleared (Nat.le_refl _)
      exact grown.trans room
  · exact h

theorem targetFactor_le (state : NightState) {dmin : Nat} (h : dmin ≤ 256) (hot : List Bool) (i : Nat) :
    targetFactor state dmin hot i ≤ 256 := by
  unfold targetFactor
  split
  · exact Nat.le_refl _
  · split
    · exact h
    · split <;> omega

theorem moveFactor_le (down up : Nat) {target d : Nat} (ht : target ≤ 256) (hd : d ≤ 256) : moveFactor down up target d ≤ 256 := by
  unfold moveFactor
  split
  · omega
  · split <;> omega

theorem glareRange_completion (d : Descriptor) {p : Profile} (hp : p.dmin ≤ 256) {g : Glare} (h : GlareRange g) :
    GlareRange (completionUpdate d p g) := by
  obtain ⟨acc, count, ⟨_, factors⟩, _⟩ := h
  refine ⟨acc, count, ⟨completionUpdate_map_length d p g, fun f hf => ?_⟩,
    completionUpdate_summary_length d p g, fun t ht => ?_⟩
  · obtain ⟨i, _, rfl⟩ := List.mem_map.mp hf
    refine moveFactor_le _ _ (targetFactor_le _ hp _ _) ?_
    rw [List.getD_eq_getElem?_getD]
    cases hi : g.map[i]? with
    | none => exact Nat.le_refl _
    | some f => exact factors f (List.mem_of_getElem? hi)
  · obtain ⟨i, _, rfl⟩ := List.mem_map.mp ht
    have := (tileLaw_accOf acc.2 i).2.2
    simp only [tileSummary]
    omega

theorem glareRange_of_move {offered : ActiveSet → Prop} {now : Word} {x y : SideState} (m : SideMove offered now x y)
    (active : ActiveClamped x) (h : GlareRange x.glare) : GlareRange y.glare := by
  cases m with
  | reset => exact glareRange_off
  | take a => exact takeSet_cases now a x (fun y => GlareRange y.glare) h glareRange_off glareRange_off
  | frameStart a b =>
    have glare : (cutOtherSide b x).glare = x.glare := (cutOtherSide_leaves b x).2.2.1
    refine glareRange_frameStart _ ?_
    rwa [glare]
  | continueFrame a b o w => exact glareRange_accumulate _ (luma_le _ _) h
  | glare a b ha => exact glareRange_completion _ ((active a (inForce_some ha).1).2 _).2.2.2.1 h
  | scanStart a b => rwa [(scanStartSide_leaves now a b x).2.2.1]
  | fault k => rwa [(faultSide_leaves now k x).2.2.2.1]
  | holdExpiry t => rwa [(faultSide_leaves now .holdExpired _).2.2.2.1]
  | wait => exact h
  | partialWrite => exact h
  | serve => exact h
  | unchecked => exact h
  | watchdogStop => exact h
  | lengthFail => exact h
  | ready => exact h
  | run => exact h
  | markFrozen => exact h
  | reload => exact h

/-- Settles O55: the counters saturate, a frame takes its profile from a clamped descriptor, and the Glare Unit's quantities
stay in range with a luma of at most 4095 and factors that move toward targets of at most 256. -/
theorem rangeLawsKept : Obligations.RangeLawsKept :=
  ⟨kept_sides fun _ _ _ m => counterLaw_of_move m, kept_with_settings fun _ _ _ _ m => profileIndexLaw_of_move m,
    kept_with_settings fun _ _ _ _ m => glareRange_of_move m⟩

end Sys2Proof.Safety

/-! PROOF. The words of a transfer: burst order (R2), the one row they share (R11), and their kinds (R8). -/

namespace Sys2Proof.Safety

open Sys2Proof.Machine

/-! ## Burst order (R2) -/

/-- Counting on from a first word around a block is the block, rotated. -/
theorem range_rotate {n first : Nat} :
    (List.range n).map (fun i => (first + i) % n) = (List.range n).rotate first := by
  refine List.ext_getElem (by simp) fun i h1 h2 => ?_
  simp [List.getElem_rotate, Nat.add_comm]

/-- Settles O14: the addresses of a burst are those of its block, counted on from the first word around the block. -/
theorem burstOrderCoversTheBlock : Obligations.BurstOrderCoversTheBlock := by
  intro t
  refine ⟨by rcases wordCount_cases t with h | h | h | h <;> simp [h], fun i _ => wordAddress_eq t i, ?_⟩
  have order : (List.range t.wordCount).map (wordAddress t) =
      ((List.range t.wordCount).rotate (t.address.toNat / 4 % t.wordCount)).map fun k =>
        t.address.toNat / (4 * t.wordCount) * (4 * t.wordCount) + 4 * k := by
    rw [← range_rotate, List.map_map]
    exact List.map_congr_left fun i _ => wordAddress_eq t i
  rw [order]
  exact (List.rotate_perm _ _).map _

/-! ## Column, bank and row (R11) -/

/-- Addresses of one aligned block of 64 bytes share their bank and their row. -/
theorem bank_row_of_block {a b : Nat} (h : a / 64 = b / 64) : bankOf a = bankOf b ∧ rowOf a = rowOf b := by
  unfold bankOf rowOf
  omega

/-- Settles O15: the three fields are the digits of a word address, and a transfer's words lie in one block of 64 bytes. -/
theorem transferStaysInOneRow : Obligations.TransferStaysInOneRow := by
  refine ⟨fun a aligned small => ?_, fun t i j _ _ => ?_⟩
  · unfold columnOf bankOf rowOf
    omega
  · exact bank_row_of_block ((wordAddress_block t i).trans (wordAddress_block t j).symm)

/-! ## Kinds (R8) -/

/-- An address lies in the control area of a snapshot. -/
def InControl (sn : Snapshot) (a : Nat) : Prop := inRegion (sn.controlBase, 0x1000) a

theorem classify_of_control {sn : Snapshot} {a : Nat} (h : InControl sn a) :
    classify sn a =
      if a - sn.controlBase < 0xE00 then .parameter (a - sn.controlBase) else .status (a - sn.controlBase) := by
  unfold classify
  exact if_pos h

/-- The kind of a word outside the control area: a buffer word, else a ring word, else plain. -/
def outsideKind (sn : Snapshot) (a : Nat) : WordKind :=
  match bufferKind sn a with
  | some k => k
  | none =>
    match sn.ring with
    | some (base, capacity) => if base ≤ a ∧ a < base + capacity * 16 then .ring ((a - base) / 16) else .plain
    | none => .plain

theorem classify_of_outside {sn : Snapshot} {a : Nat} (h : ¬InControl sn a) : classify sn a = outsideKind sn a := by
  unfold classify
  exact if_neg h

/-- The buffer word that `bufferKind` names, and the side's geometry that it lies in. -/
theorem bufferKind_some {sn : Snapshot} {a : Nat} {k : WordKind} (h : bufferKind sn a = some k) :
    ∃ sd b o g, k = .buffer sd b o ∧ geometryIn sn sd = some g ∧ bufferOf g a = some (b, o) := by
  unfold bufferKind at h
  split at h
  · next b o hl =>
    cases h
    obtain ⟨g, hg, hb⟩ := Option.bind_eq_some_iff.mp hl
    exact ⟨.left, b, o, g, rfl, hg, hb⟩
  · split at h
    · next b o hr =>
      cases h
      obtain ⟨g, hg, hb⟩ := Option.bind_eq_some_iff.mp hr
      exact ⟨.right, b, o, g, rfl, hg, hb⟩
    · cases h

/-- What the kind of a word says of its address. -/
def KindSays (sn : Snapshot) (a : Nat) : WordKind → Prop
  | .parameter o => InControl sn a ∧ o = a - sn.controlBase ∧ o < 0xE00
  | .status o => InControl sn a ∧ o = a - sn.controlBase ∧ 0xE00 ≤ o
  | .buffer sd b o => ¬InControl sn a ∧ ∃ g, geometryIn sn sd = some g ∧ bufferOf g a = some (b, o)
  | .ring slot =>
    ¬InControl sn a ∧ ∃ base capacity, sn.ring = some (base, capacity) ∧ inRegion (base, capacity * 16) a ∧
      slot = (a - base) / 16
  | .plain => ¬InControl sn a

theorem outsideKind_says {sn : Snapshot} {a : Nat} (h : ¬InControl sn a) : KindSays sn a (outsideKind sn a) := by
  unfold outsideKind
  split
  · next k hk =>
    obtain ⟨sd, b, o, g, rfl, hg, hb⟩ := bufferKind_some hk
    exact ⟨h, g, hg, hb⟩
  · split
    · next base capacity hr =>
      split
      · next inside => exact ⟨h, base, capacity, hr, inside, rfl⟩
      · exact h
    · exact h

theorem classify_says (sn : Snapshot) (a : Nat) : KindSays sn a (classify sn a) := by
  by_cases h : InControl sn a
  · rw [classify_of_control h]
    split
    · next small => exact ⟨h, rfl, small⟩
    · next large => exact ⟨h, rfl, Nat.not_lt.mp large⟩
  · rw [classify_of_outside h]
    exact outsideKind_says h

/-- The regions that a geometry brings to a snapshot. -/
def optionRegions : Option Geometry → List (Nat × Nat)
  | some g => bufferRegions g
  | none => []

/-- The region of the ring of a snapshot. -/
def ringRegion : Option (Nat × Nat) → List (Nat × Nat)
  | some (base, capacity) => [(base, capacity * 16)]
  | none => []

theorem snapshotRegions_eq (sn : Snapshot) :
    snapshotRegions sn =
      [(sn.controlBase, 0x1000)] ++ optionRegions sn.left ++ optionRegions sn.right ++ ringRegion sn.ring := by
  unfold snapshotRegions optionRegions ringRegion
  cases sn.left <;> cases sn.right <;> cases sn.ring <;> rfl

theorem base_mem_bufferRegions (g : Geometry) (b : Fin 3) : (g.base b, g.size * 4) ∈ bufferRegions g := by
  match b with
  | 0 => exact .head _
  | 1 => exact .tail _ (.head _)
  | 2 => exact .tail _ (.tail _ (.head _))

theorem optionRegions_sublist (sn : Snapshot) (sd : Side) :
    (optionRegions (geometryIn sn sd)).Sublist (snapshotRegions sn) := by
  rw [snapshotRegions_eq]
  cases sd
  · exact (List.sublist_append_right _ _).trans ((List.sublist_append_left _ _).trans (List.sublist_append_left _ _))
  · exact (List.sublist_append_right _ _).trans (List.sublist_append_left _ _)

/-- Where no two regions of a snapshot share a byte, a byte in a buffer lies in none of the other regions. -/
theorem apart_of_snapshot {sn : Snapshot} (hd : (snapshotRegions sn).Pairwise Apart) :
    (∀ r ∈ optionRegions sn.left, Apart (sn.controlBase, 0x1000) r) ∧
      (∀ r ∈ optionRegions sn.right, Apart (sn.controlBase, 0x1000) r) ∧
      (∀ r ∈ ringRegion sn.ring, Apart (sn.controlBase, 0x1000) r) ∧
      (∀ q ∈ optionRegions sn.left, ∀ r ∈ optionRegions sn.right, Apart q r) ∧
      (∀ q ∈ optionRegions sn.left, ∀ r ∈ ringRegion sn.ring, Apart q r) ∧
      ∀ q ∈ optionRegions sn.right, ∀ r ∈ ringRegion sn.ring, Apart q r := by
  rw [snapshotRegions_eq] at hd
  simp only [List.pairwise_append, List.mem_append, List.mem_singleton] at hd
  obtain ⟨⟨⟨_, _, cl⟩, _, clr⟩, _, clrr⟩ := hd
  exact ⟨fun r hr => cl _ rfl r hr, fun r hr => clr _ (.inl rfl) r hr, fun r hr => clrr _ (.inl (.inl rfl)) r hr,
    fun q hq r hr => clr q (.inr hq) r hr, fun q hq r hr => clrr q (.inl (.inr hq)) r hr,
    fun q hq r hr => clrr q (.inr hq) r hr⟩

/-- A byte in none of a geometry's buffers is in no buffer of it. -/
theorem bufferOf_eq_none {g : Geometry} {a : Nat} (h : ∀ r ∈ bufferRegions g, ¬inRegion r a) : bufferOf g a = none := by
  cases hb : bufferOf g a with
  | none => rfl
  | some p =>
    obtain ⟨mem, inside, _⟩ := bufferOf_spec hb
    exact absurd inside (h _ mem)

theorem bind_bufferOf_eq_none {g : Option Geometry} {a : Nat} (h : ∀ r ∈ optionRegions g, ¬inRegion r a) :
    g.bind (bufferOf · a) = none := by
  cases g with
  | none => rfl
  | some g => exact bufferOf_eq_none h

theorem bufferKind_eq_none {sn : Snapshot} {a : Nat} (hl : ∀ r ∈ optionRegions sn.left, ¬inRegion r a)
    (hr : ∀ r ∈ optionRegions sn.right, ¬inRegion r a) : bufferKind sn a = none := by
  unfold bufferKind
  rw [bind_bufferOf_eq_none hl, bind_bufferOf_eq_none hr]

/-- A byte in a buffer of a side is that buffer's word, where the regions share no byte. -/
theorem classify_of_buffer {sn : Snapshot} {a : Nat} {sd : Side} {g : Geometry} {b : Fin 3}
    (hd : (snapshotRegions sn).Pairwise Apart) (hg : geometryIn sn sd = some g)
    (h : inRegion (g.base b, g.w * g.h * 4) a) : classify sn a = .buffer sd b ((a - g.base b) / 4) := by
  obtain ⟨cl, cr, _, lr, _, _⟩ := apart_of_snapshot hd
  have own : optionRegions (geometryIn sn sd) = bufferRegions g := by rw [hg]; rfl
  have regions : (bufferRegions g).Pairwise Apart := own ▸ hd.sublist (optionRegions_sublist sn sd)
  have found := bufferOf_of_inRegion regions h
  have mem : (g.base b, g.w * g.h * 4) ∈ optionRegions (geometryIn sn sd) := own ▸ base_mem_bufferRegions g b
  have outside : ¬InControl sn a := fun hc => by
    cases sd
    · exact cl _ mem a ⟨hc, h⟩
    · exact cr _ mem a ⟨hc, h⟩
  rw [classify_of_outside outside]
  unfold outsideKind bufferKind
  cases sd with
  | left =>
    have hg : sn.left = some g := hg
    simp [hg, found]
  | right =>
    have none : sn.left.bind (bufferOf · a) = Option.none :=
      bind_bufferOf_eq_none fun q hq inside => lr q hq _ mem a ⟨inside, h⟩
    have hg : sn.right = some g := hg
    simp [none, hg, found]

theorem classify_of_ring {sn : Snapshot} {a base capacity : Nat} (hd : (snapshotRegions sn).Pairwise Apart)
    (hr : sn.ring = some (base, capacity)) (h : inRegion (base, capacity * 16) a) :
    classify sn a = .ring ((a - base) / 16) := by
  obtain ⟨_, _, cr, _, lr, rr⟩ := apart_of_snapshot hd
  have mem : (base, capacity * 16) ∈ ringRegion sn.ring := by rw [hr]; exact .head _
  rw [classify_of_outside fun hc => cr _ mem a ⟨hc, h⟩]
  unfold outsideKind
  rw [bufferKind_eq_none (fun q hq inside => lr q hq _ mem a ⟨inside, h⟩)
    (fun q hq inside => rr q hq _ mem a ⟨inside, h⟩), hr]
  exact if_pos h

theorem classify_of_none {sn : Snapshot} {a : Nat} (h : ∀ r ∈ snapshotRegions sn, ¬inRegion r a) :
    classify sn a = .plain := by
  rw [snapshotRegions_eq] at h
  simp only [List.mem_append, List.mem_singleton] at h
  rw [classify_of_outside (h _ (.inl (.inl (.inl rfl))))]
  unfold outsideKind
  rw [bufferKind_eq_none (fun r hr => h r (.inl (.inl (.inr hr)))) (fun r hr => h r (.inl (.inr hr)))]
  cases hr : sn.ring with
  | none => rfl
  | some p =>
    have outside : ¬inRegion (p.1, p.2 * 16) a := h _ (.inr (by rw [hr]; exact .head _))
    exact if_neg outside

/-- Settles O16: one lemma for each region, of which at most one holds the address. -/
theorem wordKindFollowsItsRegion : Obligations.WordKindFollowsItsRegion := by
  intro sn a hd
  refine ⟨fun h => ?parameter, fun h => ?status, fun sd g b hg h => classify_of_buffer hd hg h,
    fun base capacity hr h => classify_of_ring hd hr h, classify_of_none⟩
  all_goals simp only [inRegion] at h
  case parameter => rw [classify_of_control ⟨h.1, by simp only; omega⟩, if_pos (by omega)]
  case status => rw [classify_of_control ⟨by simp only; omega, by simp only; omega⟩, if_neg (by omega)]

end Sys2Proof.Safety

/-! PROOF. The part's own accesses: what the boot load makes of a word (R36, R37), and where a record write puts its words
(R16, R152). -/

namespace Sys2Proof.Machine

/-! ## Words written in a row -/

/-- Words written in a row leave every byte before them and after them. -/
theorem Memory.readByte_writeWords {m : List Host.Cell} (hm : Memory.wf m) {a : Nat} (ws : List Word) (aligned : a % 4 = 0)
    (fits : a + 4 * ws.length ≤ Config.memoryBytes) {x : Nat} (hx : x < a ∨ a + 4 * ws.length ≤ x) :
    Memory.readByte (Memory.writeWords m a ws) x = Memory.readByte m x := by
  induction ws generalizing m a with
  | nil => rfl
  | cons w ws ih =>
    simp only [List.length_cons] at fits hx
    have base : wordBase a = a := wordBase_of_aligned aligned (by omega)
    unfold Memory.writeWords
    rw [ih (Memory.writeWord_wf hm _ _ _) (by omega) (by omega) (by omega), Memory.readByte_writeWord hm, base,
      if_neg (by omega)]

/-- A word away from the words written in a row is as it was. -/
theorem Memory.readWord_writeWords_other {m : List Host.Cell} (hm : Memory.wf m) {a : Nat} (ws : List Word)
    (aligned : a % 4 = 0) (fits : a + 4 * ws.length ≤ Config.memoryBytes) {x : Nat}
    (hx : wordBase x + 4 ≤ a ∨ a + 4 * ws.length ≤ wordBase x) :
    Memory.readWord (Memory.writeWords m a ws) x = Memory.readWord m x := by
  have byte : ∀ k, k < 4 → Memory.readByte (Memory.writeWords m a ws) (wordBase x + k) = Memory.readByte m (wordBase x + k) :=
    fun k hk => Memory.readByte_writeWords hm ws aligned fits (by omega)
  unfold Memory.readWord
  rw [byte 1 (by omega), byte 2 (by omega), byte 3 (by omega)]
  have first := byte 0 (by omega)
  rw [Nat.add_zero] at first
  rw [first]

/-- Each of the words written in a row is read back at its place. -/
theorem Memory.readWord_writeWords {m : List Host.Cell} (hm : Memory.wf m) {a : Nat} {ws : List Word} (aligned : a % 4 = 0)
    (fits : a + 4 * ws.length ≤ Config.memoryBytes) {i : Nat} {w : Word} (hi : ws[i]? = some w) :
    Memory.readWord (Memory.writeWords m a ws) (a + 4 * i) = w := by
  induction ws generalizing m a i with
  | nil => simp at hi
  | cons v ws ih =>
    simp only [List.length_cons] at fits
    have wf := Memory.writeWord_wf hm a 0xF v
    unfold Memory.writeWords
    cases i with
    | zero =>
      have base : wordBase a = a := wordBase_of_aligned aligned (by omega)
      rw [List.getElem?_cons_zero, Option.some.injEq] at hi
      rw [show a + 4 * 0 = a from rfl, Memory.readWord_writeWords_other wf ws (by omega) (by omega) (by omega),
        Memory.readWord_writeWord_same hm a a rfl, mergeWord_full, hi]
    | succ i =>
      rw [List.getElem?_cons_succ] at hi
      have := ih wf (a := a + 4) (by omega) (by omega) hi
      rwa [show a + 4 * (i + 1) = a + 4 + 4 * i by omega]

end Sys2Proof.Machine

namespace Sys2Proof.Safety

open Sys2Proof.Machine

/-! ## The boot load (R36, R37) -/

/-- The state after a boot-load read has brought its word, before the load goes on (R36). -/
def bootLoaded (a : Nat) (s : State) : State :=
  { s with
    cau := { s.cau with pendingSet := s.cau.pendingSet ++ [Memory.readWord s.mem a] }
    flu := { s.flu with
      readIndex := if s.cau.pendingSet.length = 7 then some (Memory.readWord s.mem a) else s.flu.readIndex }
    mct := { s.mct with bus := .free, banks := openedBanks s.mct.banks a } }

/-- Without a device copy the delivery of the read index is no more than its change (R26, R47). -/
theorem deliverReadIndex_of_no_device {s : State} (h : s.cau.device = none) (w : Word) :
    deliverReadIndex w s = { s with flu := { s.flu with readIndex := some w } } := by
  unfold deliverReadIndex
  simp only [h]

theorem loaded_eq_bootLoaded {s : State} (h : s.cau.device = none) (a : Nat) :
    deliverLoaded (Memory.readWord s.mem a) (loadWord (Memory.readWord s.mem a) (endBootRead a s)) = bootLoaded a s := by
  have device : (loadWord (Memory.readWord s.mem a) (endBootRead a s)).cau.device = none := h
  have length : (loadWord (Memory.readWord s.mem a) (endBootRead a s)).cau.pendingSet.length = 0x1C / 4 + 1 ↔
      s.cau.pendingSet.length = 7 := by simp [loadWord, endBootRead]
  unfold deliverLoaded
  rw [deliverReadIndex_of_no_device device]
  by_cases seven : s.cau.pendingSet.length = 7
  · rw [if_pos (length.mpr seven), bootLoaded, if_pos seven]
    rfl
  · rw [if_neg (mt length.mp seven), bootLoaded, if_neg seven]
    rfl

theorem exec_bootLoadReadDone {s : State} {a : Nat} (bus : s.mct.bus = .own (.bootLoadRead a)) (device : s.cau.device = none) :
    exec .bootLoadReadDone s = .next (continueLoad (bootLoaded a s)) := by
  simp only [exec, execBootLoadReadDone, bus, loaded_eq_bootLoaded device]

theorem bootLoaded_length (a : Nat) (s : State) :
    (bootLoaded a s).cau.pendingSet.length = s.cau.pendingSet.length + 1 := by simp [bootLoaded]

theorem continueLoad_of_lt {s : State} (h : s.cau.pendingSet.length < 128) : continueLoad s = askBootLoad s := if_pos h

theorem continueLoad_of_le {s : State} (h : 128 ≤ s.cau.pendingSet.length) : continueLoad s = commit s :=
  if_neg (Nat.not_lt.mpr h)

/-- Settles O8: without a device copy the read index is delivered to nothing, and the load goes on by the number of words. -/
theorem bootLoadFillsThePendingSet : Obligations.BootLoadFillsThePendingSet := by
  intro s a bus device
  refine ⟨bootLoaded a s, rfl, fun more => ?_, fun last => ?_⟩
  · have asked : askBootLoad (bootLoaded a s) =
        { bootLoaded a s with
          mct := { (bootLoaded a s).mct with
            queue := s.mct.queue ++
              [{ access := .bootLoadRead (controlBase s.cau.casel + 4 * (bootLoaded a s).cau.pendingSet.length)
                 joinTime := s.timebase }] } } := rfl
    rw [exec_bootLoadReadDone bus device, continueLoad_of_lt (by rwa [bootLoaded_length]), asked, bootLoaded_length]
  · rw [exec_bootLoadReadDone bus device, continueLoad_of_le (by rwa [bootLoaded_length])]

/-! ## Record writes (R16, R152) -/

/-- Settles O9: the four words are written in a row from the slot on, and the Fault Unit moves to the next record. -/
theorem recordWriteReachesTheRing : Obligations.RecordWriteReachesTheRing := by
  intro s a words bus
  refine ⟨retireRecord (endRecordWrite a words s), by simp only [exec, execRecordWriteDone, bus], rfl, ?_⟩
  intro wf slot fits w0 w1 w2 w3 hw
  have stored : (retireRecord (endRecordWrite a words s)).mem = Memory.writeWords s.mem a words := rfl
  have aligned : a % 4 = 0 := by omega
  have room : a + 4 * [w0, w1, w2, w3].length ≤ Config.memoryBytes := fits
  have word := fun i w => Memory.readWord_writeWords (i := i) (w := w) wf aligned room
  rw [stored, hw]
  exact ⟨word 0 w0 rfl, word 1 w1 rfl, word 2 w2 rfl, word 3 w3 rfl,
    fun x hx => Memory.readByte_writeWords wf [w0, w1, w2, w3] aligned room hx⟩

end Sys2Proof.Safety

/-! PROOF. The laws of the pending set and of the transfer path through the commands of the bus: reset, memory initialisation,
the boot load, grants, record writes and arrivals (R6, R15, R18 to R21, R36, R37, R152). -/

namespace Sys2Proof.Safety

open Sys2Proof.Machine

/-! ## A part without a configuration -/

/-- No set is accepted or active, and the write index is 0 (R29, R47). -/
structure Unconfigured (s : State) : Prop where
  accepted : s.cau.accepted = none
  device : s.cau.device = none
  active : ∀ sd, (s.side sd).active = none
  waiting : ∀ sd, (s.side sd).takeWaiting = false
  writeIndex : s.flu.writeIndex = 0

theorem inForce_of_no_active {x : SideState} (h : x.active = none) : x.inForce = none := by
  unfold SideState.inForce
  rw [h]

/-- Until the first acceptance the part is without a configuration (R38). -/
theorem unconfigured_of_config {s : State} (h : StoreCore s) (config : s.cau.config ≠ .configured) : Unconfigured s := by
  obtain ⟨accepted, device, left, right⟩ := h.boot.1 config
  have active : ∀ sd, (s.side sd).active = none := fun sd => by cases sd <;> assumption
  refine ⟨accepted, device, active, fun sd => ?_, ?_⟩
  · by_contra waiting
    have force := (h.inf sd).2 (by simpa using waiting)
    rw [inForce_of_no_active (active sd)] at force
    cases force
  · have index := h.wi
    unfold WriteIndexLaw at index
    rwa [device] at index

theorem Unconfigured.congr {s t : State} (h : Unconfigured s) (accepted : t.cau.accepted = s.cau.accepted := by rfl)
    (device : t.cau.device = s.cau.device := by rfl) (left : t.left = s.left := by rfl) (right : t.right = s.right := by rfl)
    (writeIndex : t.flu.writeIndex = s.flu.writeIndex := by rfl) : Unconfigured t := by
  have side : ∀ sd, t.side sd = s.side sd := fun sd => side_congr left right sd
  exact ⟨accepted.trans h.accepted, device.trans h.device, fun sd => side sd ▸ h.active sd, fun sd => side sd ▸ h.waiting sd,
    writeIndex.trans h.writeIndex⟩

/-- Once the part has started, the start law says that the refresh interval runs. -/
theorem startLaw_of_started {s : State} (started : ¬NotStarted s) (running : s.mct.intervalRunning = true) : StartLaw s :=
  ⟨⟨fun _ => started, fun _ => running⟩, fun held => absurd (.inl held) started, fun e => absurd e started⟩

/-- Before, it says that nothing has begun. -/
theorem startLaw_of_not_started {s : State} (hn : NotStarted s) (idle : s.mct.intervalRunning = false)
    (held : s.resetHeld = true → s.mct.bus = .free ∧ s.timebase = 0) (accesses : ownAccesses s.mct = [])
    (boot : s.cau.config = .boot) (empty : s.cau.pendingSet = []) (noHand : s.inHand = none) : StartLaw s :=
  ⟨⟨fun running => absurd (idle.symm.trans running) Bool.false_ne_true, fun started => absurd hn started⟩, held,
    fun _ => ⟨accesses, boot, empty, noHand⟩⟩

theorem unconfigured_of_not_started {s : State} (h : StoreCore s) (hn : NotStarted s) : Unconfigured s :=
  unconfigured_of_config h (by rw [(h.start.2.2 hn).2.1]; decide)

/-- Without a configuration most of the laws say nothing: those of memory, of the boot load and of the mirror are left. -/
theorem core_unconfigured {s : State} (none : Unconfigured s) (mem : MemoryLaw s)
    (accesses : ownAccesses s.mct = [] ∨ ∃ a, ownAccesses s.mct = [.bootLoadRead a]) (start : StartLaw s) (boot : BootLaw s)
    (mir : MirrorLaw s) : StoreCore s := by
  refine ⟨mem, ?own, start, boot, ⟨by rw [none.device, none.accepted]; rfl, ?acc⟩, fun sd => ⟨?force, ?waits⟩,
    fun _ => ⟨none.accepted, none.device, none.active⟩, ?wi, ?record, mir⟩
  case own =>
    unfold OwnAccessLaw
    rcases accesses with e | ⟨a, e⟩ <;> rw [e]
    · exact ⟨Nat.zero_le _, Nat.zero_le _⟩
    · exact ⟨Nat.zero_le _, Nat.le_refl _⟩
  case acc =>
    intro acc e
    rw [none.accepted] at e
    cases e
  case force =>
    intro a e
    rw [inForce_of_no_active (none.active sd)] at e
    cases e
  case waits =>
    intro e
    rw [none.waiting sd] at e
    cases e
  case wi =>
    unfold WriteIndexLaw
    rw [none.device]
    exact none.writeIndex
  case record =>
    intro a ws e
    rcases accesses with h | ⟨b, h⟩ <;> rw [h] at e
    · cases e
    · simp at e

/-- Every own access of a part without a configuration is a boot-load read. -/
theorem accesses_of_unconfigured {s : State} (h : StoreCore s) (none : Unconfigured s) :
    ∀ x ∈ ownAccesses s.mct, isBootRead x = true := by
  intro x hx
  cases x with
  | bootLoadRead a => rfl
  | recordWrite a ws =>
    obtain ⟨d, r, rest, device, _⟩ := h.record a ws hx
    rw [none.device] at device
    cases device

/-! ## Reset and its release -/

theorem core_reset (pending : List Instr) (answers : List Answer) (draws : Nat) {m : List Host.Cell} (hm : Memory.wf m) :
    StoreCore { State.reset with pending := pending, answers := answers, mem := m, freeDraws := draws } := by
  have held : NotStarted { State.reset with pending := pending, answers := answers, mem := m, freeDraws := draws } := .inl rfl
  refine core_unconfigured ⟨rfl, rfl, fun sd => ?_, fun sd => ?_, rfl⟩ hm (.inl rfl)
    (startLaw_of_not_started held rfl (fun _ => ⟨rfl, rfl⟩) rfl rfl rfl rfl)
    ⟨fun _ => ⟨rfl, rfl, rfl, rfl⟩, fun _ e => absurd held e, fun e => absurd rfl e⟩ (fun i w e => nomatch e)
  · cases sd <;> rfl
  · cases sd <;> rfl

theorem queue_of_no_access {m : Mct} (h : ownAccesses m = []) : m.queue = [] := by
  have := (List.append_eq_nil_iff.mp h).2
  simpa using this

/-- The release starts memory initialisation, in which nothing has begun either. -/
theorem core_release {s : State} (h : StoreCore s) (held : s.resetHeld = true) (casel : BitVec 2) (micros : Nat) :
    StoreCore (releaseReset casel micros s) := by
  have hn : NotStarted s := .inl held
  have none := unconfigured_of_not_started h hn
  obtain ⟨noAccess, boot, empty, noHand⟩ := h.start.2.2 hn
  have queue := queue_of_no_access noAccess
  have idle : s.mct.intervalRunning = false := by
    by_contra running
    exact h.start.1.mp (by simpa using running) hn
  have accesses : ownAccesses { s.mct with bus := .initialising } = [] := by
    show [] ++ s.mct.queue.map _ = []
    rw [queue]
    rfl
  refine core_lines (core_unconfigured none.congr (memoryAtRelease_wf micros h.mem) (.inl accesses)
    (startLaw_of_not_started (.inr rfl) idle (fun e => absurd e Bool.false_ne_true) accesses boot empty noHand)
    ⟨h.boot.1, fun _ e => absurd (.inr rfl) e, fun e => absurd boot e⟩ (fun i w e => ?_))
  exact absurd (show (s.cau.pendingSet)[i]? = some w from e) (by rw [empty]; simp)

/-- The end of initialisation starts the part with the boot load's first read. -/
theorem core_endInitialisation {s : State} (h : StoreCore s) (bus : s.mct.bus = .initialising) :
    StoreCore (endInitialisation s) := by
  have hn : NotStarted s := .inr bus
  have none := unconfigured_of_not_started h hn
  obtain ⟨noAccess, boot, empty, noHand⟩ := h.start.2.2 hn
  have released : s.resetHeld = false := by
    by_contra held
    have := (h.start.2.1 (by simpa using held)).1
    rw [bus] at this
    cases this
  have started : ¬NotStarted (endInitialisation s) := by
    rintro (held | init)
    · exact absurd (released.symm.trans held) (by decide)
    · cases init
  have accesses : ownAccesses (endInitialisation s).mct =
      [.bootLoadRead (controlBase s.cau.casel + 4 * s.cau.pendingSet.length)] := by
    show [] ++ (s.mct.queue ++ [_]).map QueueEntry.access = _
    rw [queue_of_no_access noAccess]
    rfl
  have room : s.cau.pendingSet.length < 128 := by
    rw [empty]
    decide
  exact core_unconfigured none.congr h.mem (.inr ⟨_, accesses⟩) (startLaw_of_started started rfl)
    ⟨h.boot.1, fun _ _ => ⟨room, by rw [accesses]; rfl⟩, fun e => absurd boot e⟩ h.mir

/-! ## The boot load -/

theorem started_of_bus {s : State} (h : StoreCore s) (free : s.mct.bus ≠ .free) (init : s.mct.bus ≠ .initialising) :
    ¬NotStarted s := by
  rintro (held | e)
  · exact free (h.start.2.1 held).1
  · exact init e

/-- While a boot-load read holds the bus it is the only own access, and it reads the word that comes next. -/
theorem bootLoading_facts {s : State} (h : StoreCore s) {a : Nat} (bus : s.mct.bus = .own (.bootLoadRead a)) :
    s.cau.config = .boot ∧ ¬NotStarted s ∧ s.mct.queue = [] ∧ a = controlBase s.cau.casel + 4 * s.cau.pendingSet.length ∧
      s.cau.pendingSet.length < 128 := by
  have started := started_of_bus h (by simp [bus]) (by simp [bus])
  have accesses : ownAccesses s.mct = .bootLoadRead a :: s.mct.queue.map (·.access) := by
    unfold ownAccesses runningAccess
    rw [bus]
    rfl
  have boot : s.cau.config = .boot := by
    by_contra config
    have none := (h.boot.2.2 config).2
    rw [accesses] at none
    cases none
  obtain ⟨room, reads⟩ := h.boot.2.1 boot started
  have all := accesses_of_unconfigured h (unconfigured_of_config h (by rw [boot]; decide))
  rw [List.filter_eq_self.mpr all, accesses, List.cons.injEq] at reads
  obtain ⟨address, queue⟩ := reads
  exact ⟨boot, started, by simpa using queue, by simpa using address, room⟩

/-- The word that the boot load brings mirrors memory like those before it. -/
theorem mirror_bootLoaded {s : State} (h : StoreCore s) {a : Nat}
    (address : a = controlBase s.cau.casel + 4 * s.cau.pendingSet.length) {i : Nat} {w : Word}
    (hi : (s.cau.pendingSet ++ [Memory.readWord s.mem a])[i]? = some w) :
    Memory.readWord s.mem (controlBase s.cau.casel + 4 * i) = w := by
  rcases Nat.lt_trichotomy i s.cau.pendingSet.length with old | new | none
  · rw [List.getElem?_append_left old] at hi
    exact h.mir i w hi
  · subst new
    rw [List.getElem?_concat_length, Option.some.injEq] at hi
    rw [← hi, address]
  · rw [List.getElem?_eq_none (by simp; omega)] at hi
    cases hi

/-- A boot-load read but the last is followed by the next one. -/
theorem core_askBootLoad {s : State} (h : StoreCore s) {a : Nat} (bus : s.mct.bus = .own (.bootLoadRead a))
    (more : s.cau.pendingSet.length + 1 < 128) : StoreCore (askBootLoad (bootLoaded a s)) := by
  obtain ⟨boot, started, queue, address, _⟩ := bootLoading_facts h bus
  have none := unconfigured_of_config h (by rw [boot]; decide)
  have started' : ¬NotStarted (askBootLoad (bootLoaded a s)) := by
    rintro (held | init)
    · exact started (.inl held)
    · cases init
  have accesses : ownAccesses (askBootLoad (bootLoaded a s)).mct =
      [.bootLoadRead (controlBase s.cau.casel + 4 * (bootLoaded a s).cau.pendingSet.length)] := by
    show [] ++ (s.mct.queue ++ [_]).map QueueEntry.access = _
    rw [queue]
    rfl
  exact core_unconfigured none.congr h.mem (.inr ⟨_, accesses⟩) (startLaw_of_started started' (h.start.1.mpr started))
    ⟨h.boot.1, fun _ _ => ⟨(bootLoaded_length a s).symm ▸ more, by rw [accesses]; rfl⟩, fun e => absurd boot e⟩
    (fun i w hi => mirror_bootLoaded h address hi)

/-- A commit does not tell BOOT from UNCONFIGURED (R37, R38). -/
theorem commit_unconfigured {s : State} (boot : s.cau.config = .boot) :
    commit { s with cau := { s.cau with config := .unconfigured } } = commit s := by
  have passes : commitPasses { s with cau := { s.cau with config := .unconfigured } } = commitPasses s := rfl
  unfold commit
  dsimp only
  rw [passes]
  split
  · rfl
  · simp only [rejectCommit, boot, configAfterReject]

/-- After the last boot-load read the part is as in UNCONFIGURED, with the pending set complete. -/
theorem core_bootComplete {s : State} (h : StoreCore s) {a : Nat} (bus : s.mct.bus = .own (.bootLoadRead a))
    (last : 128 ≤ s.cau.pendingSet.length + 1) {u : State}
    (hu : u = { bootLoaded a s with cau := { (bootLoaded a s).cau with config := .unconfigured } }) :
    StoreCore u ∧ ¬NotStarted u ∧ u.cau.pendingSet.length = 128 ∧ ownAccesses u.mct = [] ∧
      runningAccess u.mct = [] := by
  obtain ⟨boot, started, queue, address, room⟩ := bootLoading_facts h bus
  have none : Unconfigured u := by
    subst hu
    exact (unconfigured_of_config h (by rw [boot]; decide)).congr
  have accesses : ownAccesses u.mct = [] := by
    subst hu
    show [] ++ s.mct.queue.map _ = []
    rw [queue]
    rfl
  have started' : ¬NotStarted u := by
    subst hu
    rintro (held | init)
    · exact started (.inl held)
    · cases init
  have length : u.cau.pendingSet.length = 128 := by
    subst hu
    have := bootLoaded_length a s
    show (bootLoaded a s).cau.pendingSet.length = 128
    omega
  refine ⟨core_unconfigured none ?_ (.inl accesses) (startLaw_of_started started' ?_)
    ⟨fun _ => ⟨none.accepted, none.device, none.active .left, none.active .right⟩, fun e => ?_,
      fun _ => ⟨length, by rw [accesses]; rfl⟩⟩ ?_, started', length, accesses, by subst hu; rfl⟩ <;> subst hu
  · exact h.mem
  · exact h.start.1.mpr started
  · cases e
  · exact fun i w hi => mirror_bootLoaded h address hi

/-- The last boot-load read is followed by the implicit commit. -/
theorem core_bootCommit {s : State} (h : StoreCore s) (off : OfSides OffLaw s) {a : Nat}
    (bus : s.mct.bus = .own (.bootLoadRead a)) (last : 128 ≤ s.cau.pendingSet.length + 1) :
    StoreCore (commit (bootLoaded a s)) := by
  obtain ⟨core, started, length, accesses, running⟩ := core_bootComplete h bus last rfl
  rw [← commit_unconfigured (s := bootLoaded a s) (bootLoading_facts h bus).1]
  refine core_commit core started length (by rw [accesses]; rfl) (fun x hx => ?_) fun sd => ?_
  · rw [running] at hx
    cases hx
  · have := off sd
    cases sd <;> exact this

/-! ## The bus -/

/-- Who holds the bus is no matter of the laws, once the part has started, while the own accesses stay the same. -/
theorem core_started {s t : State} (h : StoreCore s) (hs : ¬NotStarted s) (ht : ¬NotStarted t)
    (accesses : ownAccesses t.mct = ownAccesses s.mct) (interval : t.mct.intervalRunning = s.mct.intervalRunning)
    (held : t.resetHeld = s.resetHeld) (cau : t.cau = s.cau) (left : t.left = s.left) (right : t.right = s.right)
    (flu : t.flu = s.flu) (mem : t.mem = s.mem) : StoreCore t := by
  have side : ∀ sd, t.side sd = s.side sd := fun sd => side_congr left right sd
  refine ⟨?mem, ?own, ⟨?interval, ?held, fun e => absurd e ht⟩, ⟨?boot1, ?boot2, ?boot3⟩, ?acc, ?inf, fun e => absurd e ht,
    ?wi, ?record, ?mir⟩
  case mem => have := h.mem; unfold MemoryLaw at *; rwa [mem]
  case own => have := h.own; unfold OwnAccessLaw at *; rwa [accesses]
  case interval => rw [interval]; exact ⟨fun _ => ht, fun _ => h.start.1.mpr hs⟩
  case held => intro e; exact absurd (.inl (held ▸ e)) hs
  case boot1 => rw [cau, left, right]; exact h.boot.1
  case boot2 => rw [cau, accesses]; exact fun e _ => h.boot.2.1 e hs
  case boot3 => rw [cau, accesses]; exact h.boot.2.2
  case acc => have := h.acc; unfold AcceptedLaw at *; rwa [cau]
  case inf => intro sd; rw [side, cau]; exact h.inf sd
  case wi => have := h.wi; unfold WriteIndexLaw at *; rwa [cau, flu]
  case record => have := h.record; unfold RecordWriteLaw at *; rwa [accesses, cau, flu]
  case mir => have := h.mir; unfold MirrorLaw at *; rwa [cau, mem]

theorem ownAccesses_of_bus {m n : Mct} (hm : ∀ a, m.bus ≠ .own a) (hn : ∀ a, n.bus ≠ .own a) (queue : n.queue = m.queue) :
    ownAccesses n = ownAccesses m := by
  have running : ∀ m : Mct, (∀ a, m.bus ≠ .own a) → runningAccess m = [] := fun m hm => by
    unfold runningAccess
    split
    · next a e => exact absurd e (hm a)
    · rfl
  unfold ownAccesses
  rw [running m hm, running n hn, queue]

theorem core_startRefresh {s : State} (h : StoreCore s) (hs : ¬NotStarted s) (bus : s.mct.bus = .free) :
    StoreCore (startRefresh s) := by
  refine core_started h hs ?_ (ownAccesses_of_bus (by simp [bus]) (by simp [startRefresh]) rfl) rfl rfl rfl rfl rfl rfl rfl
  rintro (held | e)
  · exact hs (.inl held)
  · cases e

theorem core_startOwnAccess {s : State} (h : StoreCore s) (hs : ¬NotStarted s) (bus : s.mct.bus = .free) {e : QueueEntry}
    {rest : List QueueEntry} (queue : s.mct.queue = e :: rest) : StoreCore (startOwnAccess e rest s) := by
  refine core_started h hs ?_ ?_ rfl rfl rfl rfl rfl rfl rfl
  · rintro (held | e)
    · exact hs (.inl held)
    · cases e
  · unfold ownAccesses runningAccess
    rw [bus, queue]
    rfl

theorem core_grantBus {s : State} (h : StoreCore s) (hs : ¬NotStarted s) (bus : s.mct.bus = .free) : StoreCore (grantBus s) := by
  unfold grantBus
  split
  · exact core_startRefresh h hs bus
  · split
    · next queue => exact core_startOwnAccess h hs bus queue
    · exact h

theorem started_of_released {s : State} (held : s.resetHeld = false) (bus : s.mct.bus ≠ .initialising) : ¬NotStarted s := by
  rintro (e | e)
  · exact absurd (held.symm.trans e) (by decide)
  · exact bus e

theorem core_endRefresh {s : State} (h : StoreCore s) (bus : s.mct.bus = .refresh) : StoreCore (endRefresh s) := by
  have hs := started_of_bus h (by simp [bus]) (by simp [bus])
  refine core_started h hs ?_ (ownAccesses_of_bus (by simp [bus]) (by simp [endRefresh]) rfl) rfl rfl rfl rfl rfl rfl rfl
  rintro (held | e)
  · exact hs (.inl held)
  · cases e

/-! ## Record writes -/

/-- The slot of a ring lies apart from the control area (R35, R40). -/
theorem slot_apart {s : State} (h : StoreCore s) {d : DeviceCopy} (device : s.cau.device = some d) {i : Nat}
    (hi : i < d.ringCapacity) :
    (d.ringBase + i * 16) % 16 = 0 ∧ d.ringBase + i * 16 + 16 ≤ Config.memoryBytes ∧
      ∀ x, d.ringBase + i * 16 ≤ x → x < d.ringBase + i * 16 + 16 →
        ¬(controlBase s.cau.casel ≤ x ∧ x < controlBase s.cau.casel + 4096) := by
  obtain ⟨same, placed⟩ := h.acc
  rw [device] at same
  obtain ⟨acc, hacc, rfl⟩ := Option.map_eq_some_iff.mp same.symm
  obtain ⟨_, _, ring, _, _, apart⟩ := placed acc hacc
  obtain ⟨_, aligned, fits⟩ := (ringOk_iff _).mp ring
  have pair := (List.pairwise_append.mp apart).2.1
  simp only [List.pairwise_cons, List.mem_singleton, forall_eq, inRegion, Config.controlBytes] at pair
  refine ⟨by omega, ?_, fun x h1 h2 h3 => pair.1 x ⟨h3, by omega, by omega⟩⟩
  unfold Config.memoryBytes
  omega

theorem filter_length_of_running {s : State} (h : OwnAccessLaw s) {a : Nat} {ws : List Word}
    (bus : s.mct.bus = .own (.recordWrite a ws)) : ∀ e ∈ s.mct.queue, e.access.isRecordWrite = false := by
  intro e he
  by_contra record
  have one := h.1
  unfold ownAccesses runningAccess at one
  rw [bus] at one
  simp only [List.singleton_append, List.filter_cons, OwnAccess.isRecordWrite, if_true, List.length_cons] at one
  have : 0 < ((s.mct.queue.map (·.access)).filter OwnAccess.isRecordWrite).length :=
    List.length_pos_of_mem (List.mem_filter.mpr ⟨List.mem_map_of_mem he, by simpa using record⟩)
  omega

/-- A record write that ends leaves memory outside its slot, and no record write behind. -/
theorem core_recordWriteDone {s : State} (h : StoreCore s) {a : Nat} {ws : List Word}
    (bus : s.mct.bus = .own (.recordWrite a ws)) : StoreCore (presentHead (retireRecord (endRecordWrite a ws s))) := by
  refine core_quiet ?_ (.presentHead _)
  have hs := started_of_bus h (by simp [bus]) (by simp [bus])
  have running : runningAccess s.mct = [.recordWrite a ws] := by
    unfold runningAccess
    rw [bus]
  have member : OwnAccess.recordWrite a ws ∈ ownAccesses s.mct := by
    unfold ownAccesses
    rw [running]
    exact .head _
  obtain ⟨d, r, rest, device, _, address, words, index, _⟩ := h.record a ws member
  obtain ⟨aligned, fits, apart⟩ := slot_apart h device index
  rw [← address] at aligned fits apart
  have length : ws.length = 4 := by rw [words]; rfl
  have waiting : (s.mct.queue.map (·.access)).filter OwnAccess.isRecordWrite = [] := by
    rw [List.filter_eq_nil_iff]
    rintro x hx
    obtain ⟨e, he, rfl⟩ := List.mem_map.mp hx
    simp [filter_length_of_running h.own bus e he]
  have reads : (ownAccesses s.mct).filter isBootRead = (s.mct.queue.map (·.access)).filter isBootRead := by
    unfold ownAccesses
    rw [running]
    rfl
  have accesses : ownAccesses (retireRecord (endRecordWrite a ws s)).mct = s.mct.queue.map (·.access) := rfl
  have started : ¬NotStarted (retireRecord (endRecordWrite a ws s)) := by
    rintro (held | e)
    · exact hs (.inl held)
    · cases e
  refine ⟨Memory.writeWords_wf h.mem a ws, ?own, startLaw_of_started started (h.start.1.mpr hs), ⟨h.boot.1, ?boot2, ?boot3⟩,
    h.acc, ?inf, fun e => absurd e started, ?wi, ?record, ?mir⟩
  case own =>
    unfold OwnAccessLaw
    rw [accesses, waiting, ← reads]
    exact ⟨Nat.zero_le _, h.own.2⟩
  case boot2 => rw [accesses, ← reads]; exact fun e _ => h.boot.2.1 e hs
  case boot3 => rw [accesses, ← reads]; exact h.boot.2.2
  case inf =>
    intro sd
    have := h.inf sd
    cases sd <;> exact this
  case wi =>
    have next : (retireRecord (endRecordWrite a ws s)).flu.writeIndex = (s.flu.writeIndex + 1) % d.ringCapacity := by
      show nextSlot s.cau.device s.flu.writeIndex = _
      rw [device]
      rfl
    unfold WriteIndexLaw
    rw [show (retireRecord (endRecordWrite a ws s)).cau.device = some d from device, next]
    exact Nat.mod_lt _ (Nat.zero_lt_of_lt index)
  case record =>
    intro b vs hb
    rw [accesses] at hb
    have : OwnAccess.recordWrite b vs ∈ (s.mct.queue.map (·.access)).filter OwnAccess.isRecordWrite :=
      List.mem_filter.mpr ⟨hb, rfl⟩
    rw [waiting] at this
    cases this
  case mir =>
    intro i w hi
    have hi : s.cau.pendingSet[i]? = some w := hi
    have loaded : i < 128 := Nat.lt_of_lt_of_le (List.getElem?_eq_some_iff.mp hi).1 (pendingSet_length_le h)
    have control := controlBase_facts s.cau.casel
    have before := apart (controlBase s.cau.casel + 4 * i)
    have after := apart (controlBase s.cau.casel + 4 * i + 3)
    show Memory.readWord (Memory.writeWords s.mem a ws) (controlBase s.cau.casel + 4 * i) = w
    rw [Memory.readWord_writeWords_other h.mem ws (by omega) (by omega)]
    · exact h.mir i w hi
    · rw [wordBase_control s.cau.casel i (by omega)]
      omega

end Sys2Proof.Safety

/-! PROOF. The laws of the pending set and of the transfer path through the commands of a transfer (R6, R7, R19, R24 to R27,
R39): every command keeps the core of the laws together with the law of the transfer in hand. -/

namespace Sys2Proof.Safety

open Sys2Proof.Machine

/-! ## The transfer in hand -/

/-- No transfer is in hand, and no request waits. -/
structure Idle (s : State) : Prop where
  inHand : s.inHand = none
  request : s.request = none
  bus : s.mct.bus ≠ .transfer

theorem transferLaw_of_idle {s : State} (h : Idle s) : TransferLaw s := by
  refine ⟨by simp [h.inHand, h.bus], fun t e => ?_, fun i e => ?_⟩
  · rw [h.request] at e
    cases e
  · rw [h.inHand] at e
    cases e

theorem idle_of_no_hand {s : State} (h : TransferLaw s) (none : s.inHand = none) : Idle s := by
  refine ⟨none, ?_, fun bus => ?_⟩
  · cases hr : s.request with
    | none => rfl
    | some t =>
      have := (h.2.1 t hr).1
      rw [none] at this
      cases this
  · have := h.1.mpr bus
    rw [none] at this
    cases this

theorem idle_of_bus {s : State} (h : TransferLaw s) (bus : s.mct.bus ≠ .transfer) : Idle s :=
  idle_of_no_hand h (by
    by_contra some
    exact bus (h.1.mp (Option.isSome_iff_ne_none.mpr some)))

theorem Idle.congr {s t : State} (h : Idle s) (bus : t.mct.bus ≠ .transfer) (inHand : t.inHand = s.inHand := by rfl)
    (request : t.request = s.request := by rfl) : Idle t :=
  ⟨inHand.trans h.inHand, request.trans h.request, bus⟩

theorem snapshot_congr {s t : State} (casel : t.cau.casel = s.cau.casel) (device : t.cau.device = s.cau.device)
    (active : ∀ sd, (t.side sd).active = (s.side sd).active) : t.snapshot = s.snapshot := by
  have region : ∀ sd, (t.side sd).region = (s.side sd).region := fun sd => by
    unfold SideState.region
    rw [side_inForce_congr (active sd)]
  have left : t.left.region = s.left.region := region .left
  have right : t.right.region = s.right.region := region .right
  unfold State.snapshot
  rw [casel, device, left, right]

/-- The bus, RESET, and the transfer that is in hand or waits are as before. -/
structure SameBus (s t : State) : Prop where
  resetHeld : t.resetHeld = s.resetHeld := by rfl
  bus : t.mct.bus = s.mct.bus := by rfl
  inHand : t.inHand = s.inHand := by rfl
  request : t.request = s.request := by rfl

theorem SameBus.refl (s : State) : SameBus s s := {}

theorem SameBus.trans {s t u : State} (h : SameBus s t) (k : SameBus t u) : SameBus s u :=
  ⟨k.resetHeld.trans h.resetHeld, k.bus.trans h.bus, k.inHand.trans h.inHand, k.request.trans h.request⟩

theorem SameBus.of_quiet {s t : State} (q : Quiet s t) : SameBus s t := ⟨q.resetHeld, q.bus, q.inHand, q.request⟩

/-- A change of the transfer in hand that keeps what the law says of it; a commit may be marked only outside BOOT. -/
def KeepsTransfer (s : State) (f : InHand → InHand) : Prop :=
  ∀ h, (f h).transfer = h.transfer ∧ (f h).snapshot = h.snapshot ∧ (s.cau.config = .boot → (f h).commit = h.commit)

theorem transferLaw_of {s t : State} (h : TransferLaw s) {f : InHand → InHand} (keeps : KeepsTransfer s f)
    (inHand : t.inHand = s.inHand.map f) (bus : t.mct.bus = s.mct.bus := by rfl) (request : t.request = s.request := by rfl)
    (config : t.cau.config = s.cau.config := by rfl) (casel : t.cau.casel = s.cau.casel := by rfl)
    (device : t.cau.device = s.cau.device := by rfl)
    (active : ∀ sd, (t.side sd).active = (s.side sd).active := by intro sd; cases sd <;> rfl) : TransferLaw t := by
  refine ⟨?_, ?_, fun j hj => ?_⟩
  · rw [inHand, bus, Option.isSome_map]
    exact h.1
  · rw [inHand, request, Option.isSome_map]
    exact h.2.1
  · rw [inHand] at hj
    obtain ⟨i, hi, rfl⟩ := Option.map_eq_some_iff.mp hj
    obtain ⟨regions, wellFormed, boot⟩ := h.2.2 i hi
    obtain ⟨transfer, snapshot, commit⟩ := keeps i
    rw [transfer, snapshot, snapshot_congr casel device active, config, casel]
    exact ⟨regions, wellFormed, fun e => by rw [commit e]; exact boot e⟩

theorem keepsTransfer_id (s : State) : KeepsTransfer s id := fun _ => ⟨rfl, rfl, fun _ => rfl⟩

/-! ## The path of a transfer -/

/-- The laws of `StoreLaw` but those of the sides. -/
structure Path (s : State) : Prop where
  core : StoreCore s
  transfer : TransferLaw s

theorem Path.of_idle {s : State} (core : StoreCore s) (idle : Idle s) : Path s := ⟨core, transferLaw_of_idle idle⟩

theorem Path.quiet {s t : State} (h : Path s) (q : Quiet s t) : Path t :=
  ⟨core_quiet h.core q,
    transferLaw_of h.transfer (keepsTransfer_id s) (by simp [q.inHand]) q.bus q.request (by rw [q.cau]) (by rw [q.cau])
      (by rw [q.cau]) fun sd => (q.sides sd).1⟩

theorem Path.modInHand {s : State} (h : Path s) {f : InHand → InHand} (keeps : KeepsTransfer s f) : Path (modInHand f s) :=
  ⟨core_modInHand h.core f, transferLaw_of h.transfer keeps rfl⟩

theorem Path.finishWord {s : State} (h : Path s) (data : List Word) : Path (finishWord data s) :=
  h.modInHand fun _ => ⟨rfl, rfl, fun _ => rfl⟩

theorem Path.openRow {s : State} (h : Path s) (a : Nat) : Path (openRow a s) :=
  ⟨core_openRow h.core a, transferLaw_of h.transfer (keepsTransfer_id s) (by simp)⟩

/-- Whenever a transfer is in hand the part has started. -/
theorem Path.started {s : State} (h : Path s) {i : InHand} (hand : s.inHand = some i) : ¬NotStarted s := fun hn => by
  have none := (h.core.start.2.2 hn).2.2.2
  rw [hand] at none
  cases none

theorem Path.bus {s : State} (h : Path s) {i : InHand} (hand : s.inHand = some i) : s.mct.bus = .transfer :=
  h.transfer.1.mp (by rw [hand]; rfl)

theorem runningAccess_of_transfer {s : State} (bus : s.mct.bus = .transfer) : runningAccess s.mct = [] := by
  unfold runningAccess
  rw [bus]

/-! ## The next word -/

/-- A word address outside the control area. -/
def Outside (s : State) (a : Nat) : Prop :=
  a % 4 = 0 ∧ a < Config.memoryBytes ∧ (a < controlBase s.cau.casel ∨ controlBase s.cau.casel + 4096 ≤ a)

/-- What the laws say of the next word: its kind is that of the regions in force. -/
theorem Path.word_says {s : State} (h : Path s) {i : InHand} {a : Nat} {k : WordKind} (hw : s.currentWord = some (i, a, k)) :
    KindSays s.snapshot a k := by
  obtain ⟨hand, _, _, kind, _⟩ := currentWord_spec hw
  rw [kind, (h.transfer.2.2 i hand).1]
  exact classify_says _ _

theorem outside_of_not_control {s : State} {a : Nat} (h4 : a % 4 = 0) (hl : a < Config.memoryBytes)
    (h : ¬InControl s.snapshot a) : Outside s a := by
  refine ⟨h4, hl, ?_⟩
  have base : s.snapshot.controlBase = controlBase s.cau.casel := rfl
  simp only [InControl, inRegion, base] at h
  omega

/-- A word of the control area is next only after BOOT (R6). -/
theorem Path.control_word {s : State} (h : Path s) {i : InHand} {a : Nat} {k : WordKind}
    (hw : s.currentWord = some (i, a, k)) (inside : InControl s.snapshot a) : s.cau.config ≠ .boot := by
  obtain ⟨hand, more, address, _⟩ := currentWord_spec hw
  intro boot
  have untouched := ((h.transfer.2.2 i hand).2.2 boot).2
  have base : s.snapshot.controlBase = controlBase s.cau.casel := rfl
  unfold touchesControl at untouched
  rw [List.any_eq_false] at untouched
  refine untouched _ (List.mem_range.mpr more) ?_
  rw [← address]
  exact decide_eq_true (by simpa [InControl, inRegion, base, Config.controlBytes] using inside)

/-- A next word of another kind than those of the control area lies outside it. -/
theorem Path.outside_word {s : State} (h : Path s) {i : InHand} {a : Nat} {k : WordKind}
    (hw : s.currentWord = some (i, a, k)) (kind : ∀ o, k ≠ .parameter o ∧ k ≠ .status o) : Outside s a := by
  obtain ⟨_, _, _, _, h4, hl⟩ := currentWord_spec hw
  refine outside_of_not_control h4 hl ?_
  have region := h.word_says hw
  cases k with
  | parameter o => exact absurd rfl (kind o).1
  | status o => exact absurd rfl (kind o).2
  | buffer => exact region.1
  | ring => exact region.1
  | plain => exact region

theorem Path.onWord {s : State} (h : Path s) {write : Bool} {accepts : BitVec 4 → WordKind → Bool}
    {effect : InHand → Nat → WordKind → State → State}
    (he : ∀ i a k, s.currentWord = some (i, a, k) → accepts (enablesOf i.transfer) k = true → Path (effect i a k s)) :
    Path (onWord write accepts effect s) := by
  unfold Machine.onWord
  split
  · next i a k hw =>
    split
    · next ready => exact he i a k hw ready.2
    · exact h
  · exact h

/-! ## Words written -/

theorem Path.storeWord {s : State} (h : Path s) {a : Nat} (outside : Outside s a) (be : BitVec 4) (w : Word) :
    Path (storeWord a be w s) :=
  ⟨core_store h.core a be w outside.1 outside.2.1 outside.2.2, transferLaw_of h.transfer (keepsTransfer_id s) (by simp)⟩

theorem Path.parameterWrite {s : State} (h : Path s) {i : InHand} {a o : Nat}
    (hw : s.currentWord = some (i, a, .parameter o)) :
    Path (Machine.parameterWrite i a (.parameter o) s) ∧ (Machine.parameterWrite i a (.parameter o) s).cau.config = s.cau.config ∧
      SameBus s (Machine.parameterWrite i a (.parameter o) s) := by
  obtain ⟨_, _, _, _, h4, hl⟩ := currentWord_spec hw
  obtain ⟨inside, offset, small⟩ := h.word_says hw
  have base : s.snapshot.controlBase = controlBase s.cau.casel := rfl
  have aligned := (controlBase_facts s.cau.casel).1
  have address : a = controlBase s.cau.casel + o := by
    have := inside.1
    rw [base] at this offset
    omega
  have core := core_parameter h.core o (enablesOf i.transfer) (currentData i) (by omega) (by omega) (h.control_word hw inside)
  rw [← address] at core
  have cau : ∀ u : State, (mergePending o (enablesOf i.transfer) (currentData i) u).cau.config = u.cau.config ∧
      (mergePending o (enablesOf i.transfer) (currentData i) u).cau.casel = u.cau.casel ∧
      (mergePending o (enablesOf i.transfer) (currentData i) u).cau.device = u.cau.device ∧
      SameBus u (mergePending o (enablesOf i.transfer) (currentData i) u) := fun u => by
    unfold mergePending
    split <;> exact ⟨rfl, rfl, rfl, {}⟩
  obtain ⟨config, casel, device, bus⟩ := cau (Machine.storeWord a (enablesOf i.transfer) (currentData i) s)
  have bus : SameBus s (Machine.parameterWrite i a (.parameter o) s) := SameBus.trans {} bus
  exact ⟨⟨core, transferLaw_of h.transfer (keepsTransfer_id s) (by simp [bus.inHand]) bus.bus bus.request config casel device
    fun sd => by rw [parameterWrite_side]⟩, config, bus⟩

theorem SameBus.deliverReadIndex (w : Word) (s : State) : SameBus s (deliverReadIndex w s) := by
  unfold Machine.deliverReadIndex
  dsimp only
  split
  · split
    · exact {}
    · exact SameBus.trans {} (.of_quiet (.presentHead _))
  · exact {}

theorem deliverReadIndex_cau (w : Word) (s : State) : (deliverReadIndex w s).cau = s.cau := by
  unfold deliverReadIndex
  dsimp only
  (repeat' split) <;> simp

theorem Path.deliverMerged {s : State} (h : Path s) (bus : s.mct.bus = .transfer) (be : BitVec 4) :
    Path (deliverMerged be s) := by
  unfold Machine.deliverMerged
  split
  · have same := SameBus.deliverReadIndex (wordAt s.cau.pendingSet 0x1C) s
    have cau := deliverReadIndex_cau (wordAt s.cau.pendingSet 0x1C) s
    refine ⟨core_deliver h.core _ fun x hx => ?_,
      transferLaw_of h.transfer (keepsTransfer_id s) (by simp [same.inHand]) same.bus same.request (by rw [cau]) (by rw [cau])
        (by rw [cau]) fun sd => by rw [side_deliverReadIndex]⟩
    rw [runningAccess_of_transfer bus] at hx
    cases hx
  · exact h

/-! ## Status words -/

theorem quiet_entries (s : State) (entries : List Nat) : Quiet s { s with flu := { s.flu with entries := entries } } :=
  ⟨rfl, rfl, rfl, rfl, rfl, rfl, rfl, rfl, rfl, rfl, rfl, rfl, rfl, rfl, ⟨[], (List.append_nil _).symm⟩, .inl rfl,
    fun sd => by cases sd <;> exact ⟨rfl, rfl⟩⟩

theorem quiet_readStatus (offset : Nat) (s : State) : Quiet s (readStatus offset s).2 := by
  unfold Machine.readStatus takeEntry
  split
  · split
    · exact (quiet_entries s _).trans (.updateLines _)
    · exact .refl s
  · exact .refl s

theorem Path.answerStatus {s : State} (h : Path s) (i : InHand) (a : Nat) (k : WordKind) : Path (answerStatus i a k s) := by
  unfold Machine.answerStatus
  split
  · exact (h.quiet (quiet_readStatus _ s)).finishWord _
  · exact h

theorem Path.answerRest {s : State} (h : Path s) (n : Nat) : Path (answerRest n s) := by
  induction n generalizing s with
  | zero => exact h
  | succ n ih => exact ih (h.onWord fun i a k _ _ => h.answerStatus i a k)

/-! ## Buffer words -/

theorem Path.continueFrame {s : State} (h : Path s) {addr : Nat} (outside : Outside s addr) (sd : Side) (a : ActiveSet)
    (b : Fin 3) (o : Nat) (w : Word) : Path (continueFrame sd a b o addr w s) := by
  have counted := (h.storeWord outside 0xF (developedWord a b o w (s.side sd))).quiet
    (.modSide sd (continueSide a b o w) _ (fun _ => by rfl) fun _ => by rfl)
  unfold Machine.continueFrame markFrameDone
  split
  · exact counted.modInHand fun _ => ⟨rfl, rfl, fun _ => rfl⟩
  · exact counted

theorem Path.fullWrite {s : State} (h : Path s) {addr : Nat} (outside : Outside s addr) (sd : Side) (a : ActiveSet)
    (b : Fin 3) (o : Nat) (w : Word) : Path (fullWrite sd a b o addr w s) := by
  have start := Quiet.frameStart sd a b s
  have started : Path (Machine.continueFrame sd a b o addr w (frameStart sd a b s)) :=
    (h.quiet start).continueFrame (by unfold Outside; rw [start.cau]; exact outside) sd a b o w
  unfold Machine.fullWrite
  split
  · exact started
  · exact started
  · exact h.continueFrame outside sd a b o w
  · exact h.modInHand fun _ => ⟨rfl, rfl, fun _ => rfl⟩

theorem Path.bufferWrite {s : State} (h : Path s) {i : InHand} {addr : Nat} {k : WordKind}
    (hw : s.currentWord = some (i, addr, k)) : Path (bufferWrite i addr k s) := by
  unfold Machine.bufferWrite
  split
  · split
    · refine Path.finishWord ?_ _
      split
      · exact h.fullWrite (h.outside_word hw fun o => by simp) _ _ _ _ _
      · exact h.quiet (.absorbPartial _ _ _ _)
    · exact h
  · exact h

theorem quiet_freeDraws (s : State) (n : Nat) : Quiet s { s with freeDraws := n } :=
  ⟨rfl, rfl, rfl, rfl, rfl, rfl, rfl, rfl, rfl, rfl, rfl, rfl, rfl, rfl, ⟨[], (List.append_nil _).symm⟩, .inl rfl,
    fun sd => by cases sd <;> exact ⟨rfl, rfl⟩⟩

theorem quiet_expireHold (sd : Side) (t : Timer) (s : State) : Quiet s (expireHold sd t s) :=
  (Quiet.modView sd (fun v => { v with hold := none }) s).trans (.raiseSide _ _ _ _ _)

theorem quiet_openScan (sd : Side) (a : ActiveSet) (b : Fin 3) (s : State) : Quiet s (openScan sd a b s) := by
  unfold Machine.openScan
  dsimp only
  split
  · unfold expireAtStart
    dsimp only
    refine (Quiet.scanStart sd a b s).trans ?_
    split
    · exact (quiet_freeDraws _ _).trans (quiet_expireHold _ _ _)
    · exact quiet_freeDraws _ _
  · exact .scanStart sd a b s

theorem Path.markScanDone {s : State} (h : Path s) (sd : Side) (g : Geometry) (o : Nat) : Path (markScanDone sd g o s) := by
  unfold Machine.markScanDone
  split
  · exact h.modInHand fun _ => ⟨rfl, rfl, fun _ => rfl⟩
  · exact h

theorem Path.serveMemory {s : State} (h : Path s) (sd : Side) (g : Geometry) (r : ScanRecord) (mode : ServeMode) (o : Nat) :
    Path (serveMemory sd g r mode o s) :=
  (((h.openRow _).quiet (.setScanRecord _ _ _)).markScanDone _ _ _).finishWord _

theorem Path.serveBufferWord {s : State} (h : Path s) (sd : Side) (a : ActiveSet) (b : Fin 3) (o addr : Nat) :
    Path (serveBufferWord sd a b o addr s) := by
  unfold Machine.serveBufferWord
  split
  · unfold serveScanWord
    split
    · exact h.serveMemory _ _ _ _ _
    · exact h.serveMemory _ _ _ _ _
    · exact ((h.quiet (.setScanRecord _ _ _)).markScanDone _ _ _).finishWord _
  · exact (h.openRow _).finishWord _

theorem Path.bufferRead {s : State} (h : Path s) (i : InHand) (addr : Nat) (k : WordKind) : Path (bufferRead i addr k s) := by
  unfold Machine.bufferRead
  split
  · split
    · refine Path.serveBufferWord ?_ _ _ _ _ _
      split
      · exact h.quiet (quiet_openScan _ _ _ _)
      · exact h
    · exact h
  · exact h

/-! ## Arrivals -/

theorem core_port {s : State} (h : StoreCore s) (answers : List Answer) (request : Option Transfer) :
    StoreCore { s with answers := answers, request := request } :=
  core_of h rfl (.inl rfl) rfl rfl rfl rfl rfl rfl rfl rfl id

theorem Path.answerRetry {s : State} (core : StoreCore s) (idle : Idle s) : Path (answerRetry s) :=
  .of_idle (core_port core _ s.request) (idle.congr idle.bus)

/-- A transfer that is taken is in hand with the regions in force, and none of its words lies in the control area in BOOT. -/
theorem Path.takeTransfer {s : State} (core : StoreCore s) (idle : Idle s) (hs : ¬NotStarted s) (bus : s.mct.bus = .free)
    {t : Transfer} (wellFormed : t.wellFormed = true)
    (untouched : s.cau.config = .boot → touchesControl s.cau.casel t = false) : Path (takeTransfer t s) := by
  refine ⟨core_started core hs ?_ (ownAccesses_of_bus (by simp [bus]) (by simp [Machine.takeTransfer]) rfl) rfl rfl rfl rfl rfl
    rfl rfl, ⟨fun _ => rfl, fun _ => rfl⟩, fun r e => ?_, fun i e => ?_⟩
  · rintro (held | init)
    · exact hs (.inl held)
    · cases init
  · exact absurd (idle.request.symm.trans e) (by simp)
  · cases e
    exact ⟨rfl, wellFormed, fun boot => ⟨rfl, untouched boot⟩⟩

theorem Path.arrive {s : State} (core : StoreCore s) (idle : Idle s) {t : Transfer} (wellFormed : t.wellFormed = true) :
    Path (arrive t s) := by
  unfold Machine.arrive
  split
  · exact .answerRetry core idle
  · next passed =>
    simp only [portRetries, State.bootLoading, Bool.or_eq_true, Bool.and_eq_true, not_or, Bool.not_eq_true, beq_iff_eq,
      bne_iff_ne, Bool.not_eq_eq_eq_not, Bool.not_true] at passed
    obtain ⟨⟨released, initialised⟩, touched⟩ := passed
    have hs := started_of_released released initialised
    split
    · next bus =>
      have take : Path (Machine.takeTransfer t s) := .takeTransfer core idle hs bus wellFormed fun boot => by
        simpa [released, initialised, boot] using touched
      unfold arbitrate
      split
      · exact .answerRetry (core_startRefresh core hs bus) (idle.congr (by simp [startRefresh]))
      · split
        · next queue =>
          split
          · exact .answerRetry (core_startOwnAccess core hs bus queue) (idle.congr (by simp [startOwnAccess]))
          · exact take
        · exact take
    · exact .answerRetry core idle

theorem Idle.grantBus {s : State} (h : Idle s) : Idle (grantBus s) := by
  unfold Machine.grantBus
  split
  · exact h.congr (by simp [startRefresh])
  · split
    · exact h.congr (by simp [startOwnAccess])
    · exact h

/-- What the grant leaves: the part may have given the free bus to one of its own accesses. -/
theorem core_grant {s : State} (core : StoreCore s) (idle : Idle s) :
    StoreCore (whenReady (grantReady s) grantBus s) ∧ Idle (whenReady (grantReady s) grantBus s) := by
  unfold whenReady grantReady
  split
  · next ready =>
    simp only [Bool.and_eq_true, Bool.not_eq_eq_eq_not, Bool.not_true, beq_iff_eq] at ready
    obtain ⟨released, bus⟩ := ready
    exact ⟨core_grantBus core (started_of_released released (by simp [bus])) bus, idle.grantBus⟩
  · exact ⟨core, idle⟩

theorem core_grantOrNot {s : State} (core : StoreCore s) (idle : Idle s) :
    StoreCore (grantOrNot s) ∧ Idle (grantOrNot s) := by
  have drawn : StoreCore { s with freeDraws := s.freeDraws + 1 } := core_quiet core (quiet_freeDraws _ _)
  have still : Idle { s with freeDraws := s.freeDraws + 1 } := idle.congr idle.bus
  unfold grantOrNot
  dsimp only
  split
  · exact core_grant drawn still
  · exact ⟨drawn, still⟩

/-- The answers on the pins are no matter of the laws. -/
theorem Path.answers {s : State} (h : Path s) (answers : List Answer) : Path { s with answers := answers } :=
  ⟨core_port h.core answers s.request, transferLaw_of h.transfer (keepsTransfer_id s) (by simp)⟩

/-- The request that waited is taken once no transfer is in hand. -/
theorem Path.takeRequest {s : State} (core : StoreCore s) (inHand : s.inHand = none) (bus : s.mct.bus ≠ .transfer)
    (wellFormed : ∀ t, s.request = some t → t.wellFormed = true) : Path (takeRequest s) := by
  unfold Machine.takeRequest
  split
  · next t ht =>
    have taken : StoreCore { s with request := none } := core_port core s.answers none
    obtain ⟨core, idle⟩ := core_grantOrNot taken ⟨inHand, rfl, bus⟩
    exact (Path.arrive core idle (wellFormed t ht)).answers _
  · next none => exact .of_idle core ⟨inHand, none, bus⟩

/-! ## The end of a transfer -/

theorem SameBus.takeWaitingSet (sd : Side) (s : State) : SameBus s (takeWaitingSet sd s) := by
  unfold Machine.takeWaitingSet
  split
  · split
    · exact ⟨by simp, by simp, by simp, by simp⟩
    · exact .refl s
  · exact .refl s

theorem takeWaitingSet_cau (sd : Side) (s : State) : (takeWaitingSet sd s).cau = s.cau := by
  unfold takeWaitingSet
  (repeat' split) <;> simp

theorem SameBus.commit (s : State) : SameBus s (commit s) := by
  unfold Machine.commit acceptCommit moveRing
  dsimp only
  split
  · split
    · exact SameBus.trans {} (.of_quiet (.presentHead _))
    · exact {}
  · exact SameBus.trans {} (.of_quiet (.raiseDevice _ _ _))

/-- The completion of a frame keeps the core, the bus and the set accepted. -/
theorem core_completeFrame {s : State} (h : StoreCore s) (sd : Side) (b : Fin 3) :
    StoreCore (completeFrame sd b s) ∧ SameBus s (completeFrame sd b s) ∧ (completeFrame sd b s).cau = s.cau := by
  obtain ⟨u, q, e | e⟩ := completeFrame_quiet sd b s <;> rw [e]
  · exact ⟨core_quiet h q, .of_quiet q, q.cau⟩
  · exact ⟨core_take (core_quiet h q) sd, (SameBus.of_quiet q).trans (.takeWaitingSet sd u),
      (takeWaitingSet_cau sd u).trans q.cau⟩

theorem core_endFrame {s : State} (h : StoreCore s) (i : InHand) :
    StoreCore (endFrame i s) ∧ SameBus s (endFrame i s) ∧ (endFrame i s).cau = s.cau := by
  unfold endFrame
  split
  · exact core_completeFrame h _ _
  · exact ⟨h, .refl s, rfl⟩

theorem quiet_endScan (i : InHand) (s : State) : Quiet s (endScan i s) := by
  unfold Machine.endScan
  split
  · exact .completeScan _ s
  · exact .refl s

theorem quiet_endProtect (i : InHand) (s : State) : Quiet s (endProtect i s) := by
  unfold Machine.endProtect
  split
  · exact .raiseDevice _ _ s
  · exact .refl s

theorem quiet_endTear (i : InHand) (s : State) : Quiet s (endTear i s) := by
  unfold Machine.endTear
  split
  · exact .raiseSide _ _ _ _ s
  · exact .refl s

/-- A law of a side that every move keeps is kept by any number of them. -/
theorem ofSides_of_moves {P : SideState → Prop} {O : ActiveSet → Prop} {now : Word} {s t : State}
    (moves : SidesMove O now s t) (hP : ∀ x y, SideMove O now x y → P x → P y) (h : OfSides P s) : OfSides P t := fun sd => by
  have steps := moves sd
  generalize t.side sd = y at steps
  induction steps with
  | refl => exact h sd
  | tail _ m ih => exact hP _ _ m ih

theorem offLaw_endScan_endFrame {s : State} (off : OfSides OffLaw s) (i : InHand) :
    OfSides OffLaw (endScan i (endFrame i s)) := by
  have frame : OfSides OffLaw (endFrame i s) := by
    unfold endFrame
    split
    · exact ofSides_of_moves (completeFrame_moves _ _ s) (fun _ _ m => offLaw_of_move m) off
    · exact off
  unfold endScan
  split
  · exact ofSides_of_moves (completeScan_moves (O := Offered s) _ _) (fun _ _ m => offLaw_of_move m) frame
  · exact frame

/-- The commit that a transfer carried is made after BOOT, while the transfer holds the bus. -/
theorem core_endCommit {s : State} (h : StoreCore s) (off : OfSides OffLaw s) (hs : ¬NotStarted s)
    (bus : s.mct.bus = .transfer) {i : InHand} (config : i.commit = true → s.cau.config ≠ .boot) :
    StoreCore (endCommit i s) := by
  unfold endCommit
  split
  · next carried =>
    obtain ⟨length, reads⟩ := h.boot.2.2 (config carried)
    refine core_commit h hs length reads (fun x hx => ?_) off
    rw [runningAccess_of_transfer bus] at hx
    cases hx
  · exact h

theorem SameBus.endCommit (i : InHand) (s : State) : SameBus s (endCommit i s) := by
  unfold Machine.endCommit
  split
  · exact .commit s
  · exact .refl s

theorem core_deferredEffects {s : State} (h : Path s) (off : OfSides OffLaw s) {i : InHand} (hand : s.inHand = some i) :
    StoreCore (deferredEffects i s) ∧ SameBus s (deferredEffects i s) := by
  obtain ⟨core, bus, cau⟩ := core_endFrame h.core i
  have scan := quiet_endScan i (endFrame i s)
  have bus := bus.trans (.of_quiet scan)
  have started : ¬NotStarted (endScan i (endFrame i s)) := by
    rw [notStarted_congr bus.resetHeld bus.bus]
    exact h.started hand
  have config : i.commit = true → (endScan i (endFrame i s)).cau.config ≠ .boot := fun carried boot => by
    rw [scan.cau, cau] at boot
    have := ((h.transfer.2.2 i hand).2.2 boot).1
    rw [carried] at this
    cases this
  have committed := core_endCommit (core_quiet core scan) (offLaw_endScan_endFrame off i) started
    (bus.bus.trans (h.bus hand)) config
  have after := (quiet_endProtect i (endCommit i (endScan i (endFrame i s)))).trans (quiet_endTear i _)
  exact ⟨core_quiet committed after, (bus.trans (.endCommit i _)).trans (.of_quiet after)⟩

theorem Path.endTransfer {s : State} (h : Path s) (off : OfSides OffLaw s) :
    Path (endTransfer s (Machine.answerRest 16 s)) := by
  have rest := h.answerRest 16
  have off : OfSides OffLaw (Machine.answerRest 16 s) := fun sd => by
    rw [(answerRest_keeps 16 s).1]
    exact off sd
  unfold Machine.endTransfer
  split
  · next i hand =>
    split
    · obtain ⟨core, bus⟩ := core_deferredEffects rest off hand
      have held := bus.bus.trans (rest.bus hand)
      have started : ¬NotStarted (deferredEffects i (Machine.answerRest 16 s)) := by
        rw [notStarted_congr bus.resetHeld bus.bus]
        exact rest.started hand
      have answered : StoreCore (answerComplete i (deferredEffects i (Machine.answerRest 16 s))) := by
        refine core_started core started ?_ (ownAccesses_of_bus (by simp [held]) (by simp [answerComplete]) rfl) rfl rfl rfl rfl
          rfl rfl rfl
        rintro (held | init)
        · exact started (.inl held)
        · cases init
      refine .takeRequest answered rfl (by simp [answerComplete]) fun t ht => ?_
      exact (rest.transfer.2.1 t (bus.request.symm.trans ht)).2
    · exact h
  · exact h

/-! ## The commands -/

theorem Path.presentRequest {s : State} (h : Path s) {t : Transfer} (wellFormed : t.wellFormed = true) :
    Path (presentRequest t s) := by
  unfold Machine.presentRequest
  split
  · next none => exact .arrive h.core (idle_of_no_hand h.transfer none) wellFormed
  · next i hand =>
    refine ⟨core_port h.core s.answers (some t), h.transfer.1, fun r e => ?_, h.transfer.2.2⟩
    cases e
    exact ⟨by show s.inHand.isSome = true; rw [hand]; rfl, wellFormed⟩

theorem Path.whenReady {s : State} (h : Path s) {ready : Bool} {effect : State → State}
    (he : ready = true → Path (effect s)) : Path (whenReady ready effect s) := by
  unfold Machine.whenReady
  split
  · next e => exact he e
  · exact h

theorem Path.bootLoadReadDone {s : State} (h : Path s) (off : OfSides OffLaw s) {a : Nat}
    (bus : s.mct.bus = .own (.bootLoadRead a)) :
    Path (continueLoad (deliverLoaded (Memory.readWord s.mem a) (loadWord (Memory.readWord s.mem a) (endBootRead a s)))) := by
  have idle := idle_of_bus h.transfer (by simp [bus])
  have none : s.cau.device = none :=
    (unconfigured_of_config h.core (by rw [(bootLoading_facts h.core bus).1]; decide)).device
  have loaded := exec_bootLoadReadDone bus none
  simp only [exec, execBootLoadReadDone, bus, Host.Outcome.next.injEq] at loaded
  rw [loaded]
  have length := bootLoaded_length a s
  rcases Nat.lt_or_ge (s.cau.pendingSet.length + 1) 128 with more | last
  · rw [continueLoad_of_lt (by omega)]
    exact .of_idle (core_askBootLoad h.core bus more) (idle.congr (by simp [askBootLoad, joinOwnQueue, bootLoaded]))
  · rw [continueLoad_of_le (by omega)]
    have same := SameBus.commit (bootLoaded a s)
    exact .of_idle (core_bootCommit h.core off bus last)
      ⟨same.inHand.trans idle.inHand, same.request.trans idle.request, by rw [same.bus]; simp [bootLoaded]⟩

theorem Path.assertReset {s : State} (h : Path s) : Path (assertReset s) :=
  .of_idle (core_reset s.pending (answersAtReset s) (s.freeDraws + 1) (memoryAtReset_wf h.core.mem))
    ⟨rfl, rfl, fun e => by cases e⟩

/-- Every command keeps the path of a transfer. -/
theorem Path.exec {c : Instr} {s t : State} (h : Path s) (off : OfSides OffLaw s) (he : exec c s = .next t) : Path t := by
  cases c with
  | resetAsserted => cases he; exact h.assertReset
  | resetReleased casel micros =>
    cases he
    refine h.whenReady fun held => ?_
    have idle := idle_of_bus h.transfer (by simp [(h.core.start.2.1 held).1])
    exact .of_idle (core_release h.core held casel micros) (idle.congr (by simp [releaseReset]))
  | memoryInitialisationEnd =>
    cases he
    refine h.whenReady fun ready => ?_
    simp only [initialisationReady, Bool.and_eq_true, beq_iff_eq] at ready
    have idle := idle_of_bus h.transfer (by simp [ready.1])
    exact .of_idle (core_endInitialisation h.core ready.1) (idle.congr (by simp [endInitialisation, askBootLoad, joinOwnQueue]))
  | timebaseTick =>
    cases he
    refine h.whenReady fun released => ?_
    exact ⟨core_of h.core rfl (.inr (by simpa using released)) rfl rfl rfl rfl rfl rfl rfl rfl id,
      transferLaw_of h.transfer (keepsTransfer_id s) (by simp [advanceTimebase])⟩
  | refreshIntervalEnd =>
    cases he
    refine h.whenReady fun _ => ?_
    exact ⟨core_of h.core rfl (.inl rfl) rfl rfl rfl rfl rfl rfl rfl rfl id,
      transferLaw_of h.transfer (keepsTransfer_id s) (by simp [countInterval])⟩
  | grant =>
    cases he
    refine h.whenReady fun ready => ?_
    simp only [grantReady, Bool.and_eq_true, Bool.not_eq_eq_eq_not, Bool.not_true, beq_iff_eq] at ready
    obtain ⟨released, bus⟩ := ready
    exact .of_idle (core_grantBus h.core (started_of_released released (by simp [bus])) bus)
      (idle_of_bus h.transfer (by simp [bus])).grantBus
  | refreshEnd =>
    cases he
    refine h.whenReady fun bus => ?_
    have bus := beq_iff_eq.mp bus
    exact .of_idle (core_endRefresh h.core bus) ((idle_of_bus h.transfer (by simp [bus])).congr (by simp [endRefresh]))
  | bootLoadReadDone =>
    simp only [Machine.exec, execBootLoadReadDone] at he
    split at he <;> cases he
    · next a bus => exact h.bootLoadReadDone off bus
    · exact h
  | recordWriteDone =>
    simp only [Machine.exec, execRecordWriteDone] at he
    split at he <;> cases he
    · next a ws bus =>
      have idle := idle_of_bus h.transfer (by simp [bus])
      exact .of_idle (core_recordWriteDone h.core bus)
        (idle.congr (by simp [retireRecord, endRecordWrite, Machine.openRow]) (by simp [retireRecord, endRecordWrite])
          (by simp [retireRecord, endRecordWrite]))
    · exact h
  | transferArrival r => cases he; exact h.whenReady h.presentRequest
  | plainWordWrite =>
    cases he
    refine h.onWord fun i a k hw kind => (h.storeWord (h.outside_word hw fun o => ?_) _ _).finishWord _
    cases k <;> simp [isPlainWrite] at kind ⊢
  | plainWordRead => cases he; exact h.onWord fun _ _ _ _ _ => (h.openRow _).finishWord _
  | parameterWordWrite =>
    cases he
    refine h.onWord fun i a k hw kind => ?_
    cases k <;> simp [isParameterWrite] at kind
    exact (h.parameterWrite hw).1.finishWord _
  | commitWordWrite =>
    cases he
    refine h.onWord fun i a k hw kind => ?_
    cases k <;> simp [isCommitWrite] at kind
    obtain ⟨written, config, _⟩ := h.parameterWrite hw
    refine (written.modInHand (f := fun j => { j with commit := true }) fun j => ⟨rfl, rfl, fun boot => ?_⟩).finishWord _
    exact absurd (config ▸ boot) (h.control_word hw (h.word_says hw).1)
  | reportReadIndexWrite =>
    cases he
    refine h.onWord fun i a k hw kind => ?_
    cases k <;> simp [isReadIndexWrite] at kind
    obtain ⟨written, _, bus⟩ := h.parameterWrite hw
    exact (written.deliverMerged (bus.bus.trans (h.bus (currentWord_spec hw).1)) _).finishWord _
  | acknowledgeRead => cases he; exact h.onWord fun i a k _ _ => h.answerStatus i a k
  | acknowledgeWrite =>
    cases he
    exact h.onWord fun _ _ _ _ _ => (h.quiet ((quiet_entries s _).trans (.updateLines _))).finishWord _
  | statusWordWrite =>
    cases he
    exact h.onWord fun _ a _ _ _ => Path.finishWord (s := absorbProtected a s) (h.modInHand fun _ => ⟨rfl, rfl, fun _ => rfl⟩) _
  | bufferWordWrite => cases he; exact h.onWord fun _ _ _ hw _ => h.bufferWrite hw
  | bufferWordRead =>
    simp only [Machine.exec, execBufferWordRead] at he
    split at he <;> cases he
    exact h.onWord fun i a k _ _ => h.bufferRead i a k
  | transferEnd => cases he; exact h.endTransfer off
  | watchdogExpiry sd =>
    simp only [Machine.exec, execWatchdogExpiry] at he
    split at he <;> cases he
    · exact h.whenReady fun _ =>
        h.quiet ((Quiet.modView sd (fun v => { v with watchdog := none }) s).trans (.raiseSide _ _ _ _ _))
    · exact h
  | holdTimerExpiry sd =>
    simp only [Machine.exec, execHoldTimerExpiry] at he
    split at he <;> cases he
    · exact h.whenReady fun _ => h.quiet (quiet_expireHold sd _ s)
    · exact h

/-- Settles O59: the laws of the sides move by move, the others command by command. -/
theorem pendingSetMirrorsMemory : Obligations.PendingSetMirrorsMemory := by
  intro s t hs h
  obtain ⟨core, off, transfer⟩ := (storeLaw_iff s).mp hs
  have path : Path t := by
    rcases step_cases h with rfl | ⟨c, rest, _, h⟩
    · exact ⟨core, transfer⟩
    · have taken : Path { s with pending := rest } :=
        ⟨core_of core rfl (.inl rfl) rfl rfl rfl rfl rfl rfl rfl rfl id,
          transferLaw_of transfer (keepsTransfer_id s) (by simp)⟩
      exact taken.exec (fun sd => by have := off sd; cases sd <;> exact this) h
  exact (storeLaw_iff t).mpr ⟨path.core, offLaw_kept s t off h, path.transfer⟩

end Sys2Proof.Safety

/-! PROOF. What a step can write to frame memory, and that the SHOWING buffer of a side in force is none of it (R75, R79). -/

namespace Sys2Proof.Safety

open Sys2Proof.Machine

/-! ## Operations that leave frame memory -/

@[simp] theorem takeWaitingSet_mem (sd : Side) (s : State) : (takeWaitingSet sd s).mem = s.mem := by
  unfold takeWaitingSet
  (repeat' split) <;> simp

@[simp] theorem completeFrame_mem (sd : Side) (b : Fin 3) (s : State) : (completeFrame sd b s).mem = s.mem := by
  obtain ⟨u, q, e | e⟩ := completeFrame_quiet sd b s <;> simp [e, q.mem]

@[simp] theorem commit_mem (s : State) : (commit s).mem = s.mem := by
  unfold commit acceptCommit rejectCommit moveRing
  dsimp only
  (repeat' split) <;> simp [offerSet, installSet]

theorem deferredEffects_mem (i : InHand) (s : State) : (deferredEffects i s).mem = s.mem := by
  have frame : (endFrame i s).mem = s.mem := by
    unfold endFrame
    split <;> simp
  have committed : ∀ u, (endCommit i u).mem = u.mem := fun u => by
    unfold endCommit
    split <;> simp
  unfold deferredEffects
  rw [(quiet_endTear i _).mem, (quiet_endProtect i _).mem, committed, (quiet_endScan i _).mem, frame]

@[simp] theorem answerStatus_mem (i : InHand) (a : Nat) (k : WordKind) (s : State) : (answerStatus i a k s).mem = s.mem := by
  unfold answerStatus
  split
  · simp [(quiet_readStatus _ s).mem]
  · rfl

/-- A command of a word that leaves memory under every effect leaves it. -/
theorem onWord_mem {write : Bool} {accepts : BitVec 4 → WordKind → Bool} {effect : InHand → Nat → WordKind → State → State}
    {s : State} (h : ∀ i a k, (effect i a k s).mem = s.mem) : (onWord write accepts effect s).mem = s.mem := by
  unfold onWord
  (repeat' split) <;> simp [h]

theorem answerRest_mem (n : Nat) (s : State) : (answerRest n s).mem = s.mem := by
  induction n generalizing s with
  | zero => rfl
  | succ n ih => exact (ih _).trans (onWord_mem fun i a k => answerStatus_mem i a k s)

@[simp] theorem grantBus_mem (s : State) : (grantBus s).mem = s.mem := by
  unfold grantBus
  (repeat' split) <;> rfl

@[simp] theorem arrive_mem (t : Transfer) (s : State) : (arrive t s).mem = s.mem := by
  unfold arrive arbitrate
  (repeat' split) <;> rfl

theorem takeRequest_mem (s : State) : (takeRequest s).mem = s.mem := by
  unfold takeRequest arriveWaiting grantOrNot whenReady
  dsimp only
  (repeat' split) <;> simp

theorem endTransfer_mem (s : State) : (endTransfer s (answerRest 16 s)).mem = s.mem := by
  unfold endTransfer
  (repeat' split)
  · exact (takeRequest_mem _).trans ((deferredEffects_mem _ _).trans (answerRest_mem 16 s))
  · rfl
  · rfl

@[simp] theorem markScanDone_mem (sd : Side) (g : Geometry) (o : Nat) (s : State) : (markScanDone sd g o s).mem = s.mem := by
  unfold markScanDone
  split <;> rfl

@[simp] theorem setScanRecord_mem (sd : Side) (r : ScanRecord) (s : State) : (setScanRecord sd r s).mem = s.mem := by
  simp [setScanRecord]

theorem serveBufferWord_mem (sd : Side) (a : ActiveSet) (b : Fin 3) (o addr : Nat) (s : State) :
    (serveBufferWord sd a b o addr s).mem = s.mem := by
  unfold serveBufferWord serveScanWord serveMemory serveFill serveOwnAddress
  (repeat' split) <;> simp

theorem bufferRead_mem (i : InHand) (addr : Nat) (k : WordKind) (s : State) : (bufferRead i addr k s).mem = s.mem := by
  unfold bufferRead
  split
  · split
    · rw [serveBufferWord_mem]
      split
      · exact (quiet_openScan _ _ _ s).mem
      · rfl
    · rfl
  · rfl

@[simp] theorem deliverReadIndex_mem (w : Word) (s : State) : (deliverReadIndex w s).mem = s.mem := by
  unfold deliverReadIndex
  dsimp only
  (repeat' split) <;> simp

theorem bootLoadReadDone_mem (w : Word) (a : Nat) (s : State) :
    (continueLoad (deliverLoaded w (loadWord w (endBootRead a s)))).mem = s.mem := by
  have delivered : ∀ u, (deliverLoaded w u).mem = u.mem := fun u => by
    unfold deliverLoaded
    split <;> simp
  unfold continueLoad
  split
  · exact delivered _
  · exact (commit_mem _).trans (delivered _)

/-! ## What a command writes -/

/-- A word of memory that a step may write: the next word of the transfer in hand, unless a SHOWING buffer absorbs it. -/
def Writable (s : State) (a : Nat) : Prop :=
  ∃ i k, s.currentWord = some (i, a, k) ∧ ∀ sd b o, k = .buffer sd b o → ((s.side sd).ring.buf b).state ≠ .showing

/-- What a command does to frame memory. -/
inductive MemoryChange (s : State) : List Host.Cell → Prop where
  | same : MemoryChange s s.mem
  | reset (m) (held : s.resetHeld = true) : MemoryChange s m
  | record (a ws n) (bus : s.mct.bus = .own (.recordWrite a ws)) : MemoryChange s (Memory.writeWords s.mem a (ws.take n))
  | word (a be w) (h : Writable s a) : MemoryChange s (Memory.writeWord s.mem a be w)

theorem memoryChange_of_eq {s t : State} (h : t.mem = s.mem) : MemoryChange s t.mem := h ▸ .same

theorem memoryChange_whenReady {s : State} {ready : Bool} {effect : State → State}
    (h : ready = true → MemoryChange s (effect s).mem) : MemoryChange s (whenReady ready effect s).mem := by
  unfold whenReady
  split
  · next e => exact h e
  · exact .same

theorem memoryChange_onWord {s : State} {write : Bool} {accepts : BitVec 4 → WordKind → Bool}
    {effect : InHand → Nat → WordKind → State → State}
    (h : ∀ i a k, s.currentWord = some (i, a, k) → accepts (enablesOf i.transfer) k = true →
      MemoryChange s (effect i a k s).mem) : MemoryChange s (onWord write accepts effect s).mem := by
  unfold onWord
  split
  · next i a k hw =>
    split
    · next ready => exact h i a k hw ready.2
    · exact .same
  · exact .same

theorem continueFrame_mem (sd : Side) (a : ActiveSet) (b : Fin 3) (o addr : Nat) (w : Word) (s : State) :
    (continueFrame sd a b o addr w s).mem = Memory.writeWord s.mem addr 0xF (developedWord a b o w (s.side sd)) := by
  unfold continueFrame markFrameDone
  split <;> simp [storeWord, openRow]

/-- A write word of a buffer is written unless it is less than a full word or its buffer is SHOWING (R62, R70). -/
theorem memoryChange_bufferWrite {s : State} {i : InHand} {addr : Nat} {k : WordKind}
    (hw : s.currentWord = some (i, addr, k)) : MemoryChange s (bufferWrite i addr k s).mem := by
  unfold bufferWrite
  split
  · next sd b o =>
    split
    · next a _ =>
      rw [finishWord_mem]
      split
      · have written : ∀ u : State, u.mem = s.mem → ((s.side sd).ring.buf b).state ≠ .showing →
            MemoryChange s (continueFrame sd a b o addr (currentData i) u).mem := fun u mem shown => by
          rw [continueFrame_mem, mem]
          refine .word addr _ _ ⟨i, _, hw, fun sd' b' o' e => ?_⟩
          cases e
          exact shown
        unfold fullWrite
        split
        · next state => exact written _ (Quiet.frameStart sd a b s).mem (by simp [state])
        · next state => exact written _ (Quiet.frameStart sd a b s).mem (by simp [state])
        · next state => exact written _ rfl (by simp [state])
        · exact .same
      · exact memoryChange_of_eq (Quiet.absorbPartial sd b addr s).mem
    · exact .same
  · exact .same

/-- A write word of another kind is written at its address. -/
theorem memoryChange_store {s : State} {i : InHand} {a : Nat} {k : WordKind} (hw : s.currentWord = some (i, a, k))
    (kind : ∀ sd b o, k ≠ .buffer sd b o) (be : BitVec 4) (w : Word) :
    MemoryChange s (Memory.writeWord s.mem a be w) :=
  .word a be w ⟨i, k, hw, fun sd b o e => absurd e (kind sd b o)⟩

theorem parameterWrite_mem (i : InHand) (a : Nat) (k : WordKind) (s : State) :
    (parameterWrite i a k s).mem = Memory.writeWord s.mem a (enablesOf i.transfer) (currentData i) := by
  unfold parameterWrite storeParameter mergePending
  split <;> rfl

theorem deliverMerged_mem (be : BitVec 4) (s : State) : (deliverMerged be s).mem = s.mem := by
  unfold deliverMerged
  split <;> simp

/-- Everything a command can do to frame memory. -/
theorem exec_memory {c : Instr} {s t : State} (h : exec c s = .next t) : MemoryChange s t.mem := by
  cases c with
  | resetAsserted =>
    cases h
    show MemoryChange s (memoryAtReset s)
    unfold memoryAtReset
    split
    · next bus => exact .record _ _ _ bus
    · exact .same
  | resetReleased casel micros => cases h; exact memoryChange_whenReady fun held => .reset _ held
  | memoryInitialisationEnd => cases h; exact memoryChange_whenReady fun _ => .same
  | timebaseTick => cases h; exact memoryChange_whenReady fun _ => .same
  | refreshIntervalEnd => cases h; exact memoryChange_whenReady fun _ => .same
  | grant => cases h; exact memoryChange_whenReady fun _ => memoryChange_of_eq (grantBus_mem s)
  | refreshEnd => cases h; exact memoryChange_whenReady fun _ => .same
  | bootLoadReadDone =>
    simp only [exec, execBootLoadReadDone] at h
    split at h <;> cases h
    · exact memoryChange_of_eq (bootLoadReadDone_mem _ _ s)
    · exact .same
  | recordWriteDone =>
    simp only [exec, execRecordWriteDone] at h
    split at h <;> cases h
    · next a ws bus =>
      have written : (presentHead (retireRecord (endRecordWrite a ws s))).mem = Memory.writeWords s.mem a (ws.take ws.length) := by
        simp [retireRecord, endRecordWrite]
      rw [written]
      exact .record a ws _ bus
    · exact .same
  | transferArrival r =>
    cases h
    refine memoryChange_whenReady fun _ => memoryChange_of_eq ?_
    unfold presentRequest
    split <;> simp
  | plainWordWrite =>
    cases h
    refine memoryChange_onWord fun i a k hw kind => memoryChange_store hw (fun sd b o e => ?_) _ _
    rw [e] at kind
    cases kind
  | plainWordRead => cases h; exact memoryChange_onWord fun _ _ _ _ _ => .same
  | parameterWordWrite =>
    cases h
    refine memoryChange_onWord fun i a k hw kind => ?_
    rw [finishWord_mem, parameterWrite_mem]
    exact memoryChange_store hw (fun sd b o e => by rw [e] at kind; cases kind) _ _
  | commitWordWrite =>
    cases h
    refine memoryChange_onWord fun i a k hw kind => ?_
    rw [finishWord_mem, modInHand_mem, parameterWrite_mem]
    exact memoryChange_store hw (fun sd b o e => by rw [e] at kind; cases kind) _ _
  | reportReadIndexWrite =>
    cases h
    refine memoryChange_onWord fun i a k hw kind => ?_
    rw [finishWord_mem, deliverMerged_mem, parameterWrite_mem]
    exact memoryChange_store hw (fun sd b o e => by rw [e] at kind; cases kind) _ _
  | acknowledgeRead => cases h; exact memoryChange_of_eq (onWord_mem fun i a k => answerStatus_mem i a k s)
  | acknowledgeWrite => cases h; exact memoryChange_onWord fun _ _ _ _ _ => .same
  | statusWordWrite => cases h; exact memoryChange_onWord fun _ _ _ _ _ => .same
  | bufferWordWrite => cases h; exact memoryChange_onWord fun i a k hw _ => memoryChange_bufferWrite hw
  | bufferWordRead =>
    simp only [exec, execBufferWordRead] at h
    split at h <;> cases h
    exact memoryChange_of_eq (onWord_mem fun i a k => bufferRead_mem i a k s)
  | transferEnd => cases h; exact memoryChange_of_eq (endTransfer_mem s)
  | watchdogExpiry sd =>
    simp only [exec, execWatchdogExpiry] at h
    split at h <;> cases h
    · exact memoryChange_whenReady fun _ => memoryChange_of_eq (by simp [expireWatchdog])
    · exact .same
  | holdTimerExpiry sd =>
    simp only [exec, execHoldTimerExpiry] at h
    split at h <;> cases h
    · exact memoryChange_whenReady fun _ => memoryChange_of_eq (by simp [expireHold])
    · exact .same

/-! ## The regions in force -/

theorem Apart.symm {r q : Nat × Nat} (h : Apart r q) : Apart q r := fun x hx => h x hx.symm

theorem regions_perm (control : Nat) (d : DeviceCopy) (left right : Geometry) :
    (regions control d left right).Perm
      ([(control, 0x1000)] ++ bufferRegions left ++ bufferRegions right ++ [(d.ringBase, d.ringCapacity * 16)]) := by
  have := List.perm_middle (l₁ := bufferRegions left ++ bufferRegions right) (a := (control, 0x1000))
    (l₂ := [(d.ringBase, d.ringCapacity * 16)])
  simpa [regions, Config.controlBytes] using this

/-- The buffers in force on a side are buffers of the accepted set. -/
theorem sideRegions_sublist {s : State} (h : StoreCore s) {acc : AcceptedSet} (hacc : s.cau.accepted = some acc) (sd : Side) :
    (optionRegions (s.side sd).region).Sublist (bufferRegions (acc.descriptor sd).geometry) := by
  unfold SideState.region
  cases force : (s.side sd).inForce with
  | none => exact List.nil_sublist _
  | some a =>
    obtain ⟨acc', hacc', _, geometry⟩ := (h.inf sd).1 a force
    rw [hacc] at hacc'
    cases hacc'
    rw [geometry]
    exact .refl _

/-- No two of the regions in force share a byte (R35, R46). -/
theorem snapshot_apart {s : State} (h : StoreCore s) {acc : AcceptedSet} (hacc : s.cau.accepted = some acc) :
    (snapshotRegions s.snapshot).Pairwise Apart := by
  obtain ⟨_, _, _, _, _, apart⟩ := h.acc.2 acc hacc
  have apart := ((regions_perm _ _ _ _).pairwise_iff Apart.symm).mp apart
  refine apart.sublist ?_
  have device : s.cau.device = some acc.device := by rw [h.acc.1, hacc]; rfl
  have ring : ringRegion s.snapshot.ring = [(acc.device.ringBase, acc.device.ringCapacity * 16)] := by
    unfold State.snapshot
    rw [device]
    rfl
  rw [snapshotRegions_eq, ring]
  exact ((List.Sublist.refl _).append (sideRegions_sublist h hacc .left)).append (sideRegions_sublist h hacc .right) |>.append
    (.refl _)

/-- A buffer region of a side in force, with its alignment (R40). -/
theorem buffer_in_force {s : State} (h : StoreCore s) {sd : Side} {a : ActiveSet} (force : (s.side sd).inForce = some a)
    (b : Fin 3) :
    geometryIn s.snapshot sd = some a.desc.geometry ∧ a.desc.geometry.base b % 64 = 0 ∧
      ∃ acc, s.cau.accepted = some acc := by
  obtain ⟨acc, hacc, _, geometry⟩ := (h.inf sd).1 a force
  obtain ⟨left, right, _⟩ := h.acc.2 acc hacc
  have placed : geometryOk (acc.descriptor sd).geometry = true := by cases sd <;> assumption
  rw [geometry] at placed
  obtain ⟨_, _, _, _, _, bases⟩ := (geometryOk_iff _).mp placed
  refine ⟨?_, (bases b).1, acc, hacc⟩
  have region : (s.side sd).region = some a.desc.geometry := by
    unfold SideState.region
    rw [force]
    rfl
  cases sd <;> exact region

/-! ## The SHOWING buffer (R75, R79) -/

/-- A word that a step may write holds no byte of a SHOWING buffer in force. -/
theorem writable_misses_showing {s : State} (h : Path s) {sd : Side} {a : ActiveSet} {b : Fin 3}
    (force : (s.side sd).inForce = some a) (showing : ((s.side sd).ring.buf b).state = .showing) {addr : Nat}
    (writable : Writable s addr) {x : Nat}
    (hx : inRegion (a.desc.geometry.base b, a.desc.geometry.w * a.desc.geometry.h * 4) x) :
    wordBase addr = addr ∧ (x < addr ∨ addr + 4 ≤ x) := by
  obtain ⟨i, k, hw, not_showing⟩ := writable
  obtain ⟨hand, _, _, kind, h4, hl⟩ := currentWord_spec hw
  refine ⟨wordBase_of_aligned h4 hl, ?_⟩
  by_contra inside
  obtain ⟨geometry, aligned, acc, hacc⟩ := buffer_in_force h.core force b
  have word : inRegion (a.desc.geometry.base b, a.desc.geometry.w * a.desc.geometry.h * 4) addr := by
    simp only [inRegion] at hx ⊢
    omega
  rw [(h.transfer.2.2 i hand).1, classify_of_buffer (snapshot_apart h.core hacc) geometry word] at kind
  exact not_showing _ _ _ kind showing

/-- The slot of a record write holds no byte of a buffer in force. -/
theorem record_misses_buffers {s : State} (h : StoreCore s) {sd : Side} {a : ActiveSet} {b : Fin 3}
    (force : (s.side sd).inForce = some a) {slot : Nat} {ws : List Word} (bus : s.mct.bus = .own (.recordWrite slot ws))
    {x : Nat} (hx : inRegion (a.desc.geometry.base b, a.desc.geometry.w * a.desc.geometry.h * 4) x) :
    slot % 4 = 0 ∧ slot + 16 ≤ Config.memoryBytes ∧ ws.length = 4 ∧ (x < slot ∨ slot + 16 ≤ x) := by
  have member : OwnAccess.recordWrite slot ws ∈ ownAccesses s.mct := by
    unfold ownAccesses runningAccess
    rw [bus]
    exact .head _
  obtain ⟨d, r, rest, device, _, address, words, index, _⟩ := h.record slot ws member
  obtain ⟨aligned, fits, _⟩ := slot_apart h device index
  obtain ⟨geometry, _, acc, hacc⟩ := buffer_in_force h force b
  refine ⟨by omega, by omega, by rw [words]; rfl, ?_⟩
  by_contra inside
  have ring : ringRegion s.snapshot.ring = [(d.ringBase, d.ringCapacity * 16)] := by
    unfold State.snapshot
    rw [device]
    rfl
  have mem : (a.desc.geometry.base b, a.desc.geometry.w * a.desc.geometry.h * 4) ∈
      optionRegions (geometryIn s.snapshot sd) := by
    rw [geometry]
    exact base_mem_bufferRegions _ b
  have slot : inRegion (d.ringBase, d.ringCapacity * 16) x := by
    simp only [inRegion]
    omega
  obtain ⟨_, _, _, _, left, right⟩ := apart_of_snapshot (snapshot_apart h hacc)
  cases sd with
  | left => exact left _ mem _ (by rw [ring]; exact .head _) x ⟨hx, slot⟩
  | right => exact right _ mem _ (by rw [ring]; exact .head _) x ⟨hx, slot⟩

theorem memoryChange_keeps_showing {s : State} (h : Path s) {m : List Host.Cell} (change : MemoryChange s m) {sd : Side}
    {a : ActiveSet} {b : Fin 3} (force : (s.side sd).inForce = some a)
    (showing : ((s.side sd).ring.buf b).state = .showing) {x : Nat}
    (hx : inRegion (a.desc.geometry.base b, a.desc.geometry.w * a.desc.geometry.h * 4) x) :
    Memory.readByte m x = Memory.readByte s.mem x := by
  cases change with
  | same => rfl
  | reset _ held =>
    have none := (h.core.emp (.inl held)).2.2 sd
    rw [inForce_of_no_active none] at force
    cases force
  | record slot ws n bus =>
    obtain ⟨aligned, fits, length, apart⟩ := record_misses_buffers h.core force bus hx
    have taken : (ws.take n).length ≤ 4 := by
      rw [List.length_take]
      omega
    exact Memory.readByte_writeWords h.core.mem _ aligned (by omega) (by omega)
  | word addr be w writable =>
    obtain ⟨base, apart⟩ := writable_misses_showing h force showing writable hx
    rw [Memory.readByte_writeWord h.core.mem, base, if_neg (by omega)]

/-- Settles O60: a step writes words that no SHOWING buffer holds, or a record's slot, which no buffer shares. -/
theorem showingBufferIsNeverWritten : Obligations.ShowingBufferIsNeverWritten := by
  intro s t sd a b hs h force showing x hx
  obtain ⟨core, off, transfer⟩ := (storeLaw_iff s).mp hs
  rcases step_cases h with rfl | ⟨c, rest, _, h⟩
  · rfl
  · have taken : Path { s with pending := rest } :=
      ⟨core_of core rfl (.inl rfl) rfl rfl rfl rfl rfl rfl rfl rfl id, transferLaw_of transfer (keepsTransfer_id s) (by simp)⟩
    have same : ({ s with pending := rest } : State).side sd = s.side sd := by cases sd <;> rfl
    exact memoryChange_keeps_showing taken (exec_memory h) (same ▸ force) (same ▸ showing) hx

end Sys2Proof.Safety

/-! PROOF. The step, reset and its release, the clock and the grant (R13, R14, R17, R20 to R23, R123, R158), and the events that
are not ready (log 3). -/

namespace Sys2Proof.Safety

open Sys2Proof.Machine

/-! ## The step -/

/-- Settles O1: the two equations of the step. -/
theorem stepTakesFrontCommand : Obligations.StepTakesFrontCommand := by
  refine ⟨fun c rest s h => ?_, fun s h => ?_⟩ <;>
    · unfold step
      rw [h]

/-! ## An event that is ready or not -/

theorem whenReady_true {ready : Bool} (h : ready = true) (effect : State → State) (s : State) :
    whenReady ready effect s = effect s := if_pos h

theorem whenReady_false {ready : Bool} (h : ready = false) (effect : State → State) (s : State) :
    whenReady ready effect s = s := if_neg (by simp [h])

theorem initialisationReady_iff (s : State) :
    initialisationReady s = true ↔ s.mct.bus = .initialising ∧ 200 ≤ s.timebase.toNat := by
  unfold initialisationReady Config.initialisationWait
  simp

theorem grantReady_iff (s : State) : grantReady s = true ↔ s.resetHeld = false ∧ s.mct.bus = .free := by
  unfold grantReady
  simp

theorem due_iff (t : Timer) (now : Word) : t.due now = true ↔ t.duration ≤ (now - t.loadTime).toNat := decide_eq_true_iff

/-! ## Reset (R21, R22, R47, R88, R103, R122, R142, R158) -/

theorem sideReset_off : SideReset (.off none) :=
  ⟨rfl, rfl, rfl, off_buf none, rfl, rfl, rfl, rfl, rfl, rfl, rfl, rfl, rfl, rfl, rfl, rfl, rfl, rfl, rfl, rfl, rfl⟩

/-- What the reset keeps of the state is none of its reset values. -/
theorem resetValues_of_reset (pending : List Instr) (answers : List Answer) (m : List Host.Cell) (draws : Nat) :
    ResetValues { State.reset with pending := pending, answers := answers, mem := m, freeDraws := draws } :=
  ⟨rfl, ⟨rfl, rfl, rfl, rfl⟩, ⟨rfl, rfl, rfl, rfl⟩, sideReset_off, sideReset_off, rfl, rfl, rfl, rfl, rfl, rfl, rfl, rfl⟩

theorem answersAtReset_eq (s : State) :
    (s.request = none → answersAtReset s = []) ∧ (s.request ≠ none → answersAtReset s = [.retry]) := by
  unfold answersAtReset
  cases s.request <;> simp

theorem resetValues_release {s : State} (h : ResetValues s) (casel : BitVec 2) (held : Nat) :
    ResetValues (releaseReset casel held s) := by
  obtain ⟨hand, ⟨banks, owed, interval, queue⟩, ⟨config, ps, accepted, device⟩, left, right, _, _,
    ⟨entries, _, records, seq, writeIndex, readIndex⟩⟩ := h
  refine ⟨hand, ⟨banks, owed, interval, queue⟩, ⟨config, ps, accepted, device⟩, left, right, rfl, ?_, entries, ?_, records, seq,
    writeIndex, readIndex⟩
  · show (false || s.cau.config != .configured || s.left.view.state == .lost || s.right.view.state == .lost) = true
    rw [config]
    rfl
  · show anyEnabledPending _ s.flu.entries = false
    rw [entries]
    exact anyEnabledPending_of_clear _ fun _ => List.eq_of_mem_replicate

/-- Settles O2: the reset is its state equation, and the release keeps the values. -/
theorem resetLeavesResetValues : Obligations.ResetLeavesResetValues := by
  refine ⟨fun s => ⟨assertReset s, Config.recordWordsWritten s.freeDraws % 5, rfl, resetValues_of_reset _ _ _ _, rfl, rfl, rfl,
    rfl, (answersAtReset_eq s).1, (answersAtReset_eq s).2, by omega, ?_⟩, fun s casel held t h he => ?_⟩
  · show memoryAtReset s = _
    unfold memoryAtReset
    cases s.mct.bus with
    | own access => cases access <;> rfl
    | _ => rfl
  · cases he
    unfold whenReady
    split
    · exact resetValues_release h casel held
    · exact h

/-- Settles O3: the release is its state equation, with both lines brought up to date. -/
theorem releaseStartsInitialisation : Obligations.ReleaseStartsInitialisation := by
  intro s casel held reset
  refine ⟨releaseReset casel held s, congrArg _ (whenReady_true reset _ s), linesLaw_updateLines _, fun short => ?_,
    memoryAtRelease_wf held, rfl⟩
  exact if_neg (by unfold Config.retentionMicros; omega)

/-- Settles O4: initialisation ends when its wait has passed. -/
theorem initialisationEndStartsBootLoad : Obligations.InitialisationEndStartsBootLoad := by
  intro s bus wait
  exact congrArg _ (whenReady_true ((initialisationReady_iff s).mpr ⟨bus, wait⟩) _ s)

/-- Settles O5: the tick is taken while RESET is not held. -/
theorem timebaseCounts : Obligations.TimebaseCounts := by
  intro s
  simp only [exec, execTimebaseTick, whenReady, advanceTimebase]
  cases s.resetHeld <;> rfl

/-- Settles O6: each event is taken when it is ready. -/
theorem refreshIsOwedAndEnds : Obligations.RefreshIsOwedAndEnds :=
  ⟨fun s running => congrArg _ (whenReady_true running _ s),
    fun s bus => congrArg _ (whenReady_true (beq_iff_eq.mpr bus) _ s)⟩

/-- Settles O7: the grant is ready exactly with the bus free and RESET not held. -/
theorem grantGivesTheFreeBus : Obligations.GrantGivesTheFreeBus := by
  refine ⟨fun s released bus => ?_, fun s busy => ?_⟩
  · refine (congrArg _ (whenReady_true ((grantReady_iff s).mpr ⟨released, bus⟩) _ s)).trans ?_
    unfold grantBus
    split
    · rfl
    · cases s.mct.queue <;> rfl
  · have unready : grantReady s = false := by
      rw [← Bool.not_eq_true, grantReady_iff]
      rintro ⟨released, bus⟩
      rcases busy with held | other
      · exact absurd (released.symm.trans held) (by decide)
      · exact other bus
    exact congrArg _ (whenReady_false unready _ s)

/-! ## Events that are not ready (log 3) -/

/-- Settles O13: each event's readiness fails. -/
theorem unreadyEventsAreNotTaken : Obligations.UnreadyEventsAreNotTaken := by
  intro s
  refine ⟨fun casel held released => congrArg _ (whenReady_false released _ s), fun early => ?initialisation,
    fun idle => congrArg _ (whenReady_false idle _ s),
    fun other => congrArg _ (whenReady_false (beq_eq_false_iff_ne.mpr other) _ s), fun other => ?boot, fun other => ?record,
    fun t ill => congrArg _ (whenReady_false ill _ s), fun none => ?transfer, fun sd early => ?watchdog,
    fun sd early => ?hold⟩
  case initialisation =>
    refine congrArg _ (whenReady_false ?_ _ s)
    rw [← Bool.not_eq_true, initialisationReady_iff]
    rintro ⟨bus, wait⟩
    rcases early with other | early
    · exact other bus
    · omega
  case boot =>
    simp only [exec, execBootLoadReadDone]
  case record =>
    simp only [exec, execRecordWriteDone]
  case transfer =>
    have no_word : s.currentWord = Option.none := by
      unfold State.currentWord
      rw [none]
    simp only [exec, execTransferEnd, answerRest_of_not_quiet (.inl no_word), endTransfer, none]
  case watchdog =>
    simp only [exec, execWatchdogExpiry]
    split
    · next t ht =>
      refine congrArg _ (whenReady_false ?_ _ s)
      rw [← Bool.not_eq_true, due_iff]
      exact Nat.not_le.mpr (early t ht)
    · rfl
  case hold =>
    simp only [exec, execHoldTimerExpiry]
    split
    · next t ht =>
      refine congrArg _ (whenReady_false ?_ _ s)
      rw [← Bool.not_eq_true, due_iff]
      exact Nat.not_le.mpr (early t ht)
    · rfl

/-! ## The state at reset -/

theorem storeLaw_reset : StoreLaw State.reset :=
  (storeLaw_iff _).mpr ⟨core_reset [] [] 0 ⟨.nil, fun c hc => nomatch hc⟩, fun sd => by cases sd <;> exact offLaw_off rfl,
    transferLaw_of_idle ⟨rfl, rfl, fun e => nomatch e⟩⟩

/-- A side in its OFF values without a set meets every law of a side. -/
theorem sideLaws_off :
    RingLaw (.off none) ∧ FrameProfileLaw (.off none) ∧ ViewShown (.off none) ∧ RedirectLaw (.off none) ∧
      OffLaw (.off none) ∧ HoldLaw (.off none) ∧ RunLaw (.off none) ∧ CounterLaw (.off none) ∧ ProfileIndexLaw (.off none) ∧
      GlareLaw (.off none) := by
  have free : ∀ b, ((SideState.off none).ring.buf b).state = .free := fun b => by rw [off_buf]; rfl
  refine ⟨fun b c => ⟨fun e => ?_, fun e => ?_⟩, ⟨fun b e => ?_, fun _ => rfl⟩, fun e => ?_, ?_, offLaw_off rfl, ?_,
    runLaw_of_zero rfl, (counterLaw_iff _).mpr ⟨ringCounters_off, Nat.zero_le _, ?_⟩, fun b => ?_,
    (glareLaw_iff _).mpr glareRange_off⟩
  · exact absurd ((free b).symm.trans e) (by decide)
  · exact absurd ((free b).symm.trans e) (by decide)
  · exact absurd ((free b).symm.trans e) (by decide)
  · exact absurd e (by simp [SideState.off, View.off])
  · intro r t e
    cases e
  · simp [HoldLaw, SideState.off, View.off]
  · intro r e
    cases e
  · rw [off_buf]
    exact Nat.zero_le _

/-- Settles O51: the reset values, and each law of them. -/
theorem resetStateMeetsTheLaws : Obligations.ResetStateMeetsTheLaws := by
  refine ⟨resetValues_of_reset [] [] [] 0, rfl, rfl, fun sd => ?sides, ⟨fun acc e => ?accepted, fun sd a e => ?settings⟩,
    ⟨rfl, (anyEnabledPending_of_clear 0 fun _ => List.eq_of_mem_replicate).symm⟩,
    ⟨⟨by simp [State.reset, Flu.reset], fun n hn => ?entries⟩, Nat.zero_le _, fun i r e => ?queue⟩,
    ⟨Nat.zero_le _, rfl, fun r hr => absurd hr (not_mem_closedBanks r)⟩, storeLaw_reset⟩
  case sides => cases sd <;> exact sideLaws_off
  case accepted => cases e
  case settings => cases sd <;> cases e
  case entries =>
    rw [List.eq_of_mem_replicate hn]
    exact Nat.zero_le _
  case queue => simp [State.reset, Flu.reset] at e

end Sys2Proof.Safety

/-! PROOF. Arrivals: the answers of the port (R1, R5, R6) and the table of the arbiter (R18). -/

namespace Sys2Proof.Safety

open Sys2Proof.Machine

theorem touchesControl_iff (casel : BitVec 2) (t : Transfer) :
    touchesControl casel t = true ↔
      ∃ i, i < t.wordCount ∧ controlBase casel ≤ wordAddress t i ∧ wordAddress t i < controlBase casel + 0x1000 := by
  unfold touchesControl Config.controlBytes
  simp

/-- The port answers RETRY before the part has started, and in BOOT where a word lies in the control area (R6). -/
theorem portRetries_iff (t : Transfer) (s : State) :
    portRetries t s = true ↔
      s.resetHeld = true ∨ s.mct.bus = .initialising ∨ (s.cau.config = .boot ∧ touchesControl s.cau.casel t = true) := by
  unfold portRetries State.bootLoading
  cases s.resetHeld <;> by_cases bus : s.mct.bus = .initialising <;> simp [bus]

theorem exec_arrival {s : State} {t : Transfer} (none : s.inHand = none) (wellFormed : t.wellFormed = true) :
    exec (.transferArrival t) s = .next (arrive t s) := by
  refine (congrArg _ (whenReady_true wellFormed _ s)).trans ?_
  unfold presentRequest
  rw [none]

/-- Settles O10: a transfer in hand makes the request wait; else the port answers, by its table. -/
theorem portAnswersRetry : Obligations.PortAnswersRetry := by
  refine ⟨fun s t some wellFormed => ?waits, fun s t none wellFormed retries => ?retry⟩
  case waits =>
    obtain ⟨i, hand⟩ := Option.isSome_iff_exists.mp some
    refine (congrArg _ (whenReady_true wellFormed _ s)).trans ?_
    unfold presentRequest
    rw [hand]
  case retry =>
    rw [exec_arrival none wellFormed]
    unfold arrive
    rw [if_pos ((portRetries_iff t s).mpr (by rwa [touchesControl_iff]))]
    rfl

theorem portRetries_of_passedOn {s : State} {t : Transfer} (h : PassedOn s t) : portRetries t s = false := by
  obtain ⟨_, _, released, initialised, outside⟩ := h
  rw [← Bool.not_eq_true, portRetries_iff, touchesControl_iff]
  rintro (held | init | ⟨boot, i, hi, inside⟩)
  · exact absurd (released.symm.trans held) (by decide)
  · exact initialised init
  · have := outside boot i hi
    omega

/-- A transfer that the port passes on meets the arbiter if the bus is free. -/
theorem exec_passedOn {s : State} {t : Transfer} (h : PassedOn s t) :
    exec (.transferArrival t) s = .next (if s.mct.bus = .free then arbitrate t s else answerRetry s) := by
  have passes := portRetries_of_passedOn h
  obtain ⟨none, wellFormed, _⟩ := h
  rw [exec_arrival none wellFormed]
  unfold arrive
  rw [if_neg (by simp [passes])]

/-- Settles O11: the rows of the arbiter's table. -/
theorem arbiterDecidesArrivals : Obligations.ArbiterDecidesArrivals := by
  intro s t passed
  rw [exec_passedOn passed]
  refine ⟨fun busy => ?busy, fun free all => ?refresh, fun e rest free some queue wait => ?own, fun free some young => ?taken⟩
  case busy => rw [if_neg busy]; rfl
  all_goals rw [if_pos free]; unfold arbitrate
  case refresh =>
    rw [if_pos (show s.mct.refreshOwed = Config.refreshMax from all)]
    unfold answerRetry startRefresh
    rw [all]
    rfl
  case own =>
    rw [if_neg (by simp only [Config.refreshMax]; omega), queue]
    exact congrArg _ (if_pos wait)
  case taken =>
    rw [if_neg (by simp only [Config.refreshMax]; omega)]
    cases queue : s.mct.queue with
    | nil => rfl
    | cons e rest =>
      have waits : ¬Config.ownAccessWaitLimit ≤ ownAccessWait s.timebase e := Nat.not_le.mpr (young e rest queue)
      exact congrArg _ (if_neg waits)

end Sys2Proof.Safety

/-! PROOF. The words of a transfer, row by row: each next word has the one command of its row (R9), and what the rows of
memory, parameter and protected words do (R3, R24 to R27, R154). -/

namespace Sys2Proof.Safety

open Sys2Proof.Machine

/-! ## What each row does with its word -/

section
variable {s : State} {h : InHand} {a : Nat} {k : WordKind}

theorem exec_plainWordWrite (hw : NextWord s true h a k) (hk : isPlainWrite (enablesOf h.transfer) k = true) :
    exec .plainWordWrite s = .next (finishWord [] (storeWord a (enablesOf h.transfer) (currentData h) s)) :=
  congrArg Host.Outcome.next (onWord_of_next hw hk)

theorem exec_plainWordRead (hw : NextWord s false h a k) (hk : isPlainRead (enablesOf h.transfer) k = true) :
    exec .plainWordRead s = .next (finishWord [Memory.readWord s.mem a] (openRow a s)) :=
  congrArg Host.Outcome.next (onWord_of_next hw hk)

theorem exec_parameterWordWrite (hw : NextWord s true h a k) (hk : isParameterWrite (enablesOf h.transfer) k = true) :
    exec .parameterWordWrite s = .next (finishWord [] (parameterWrite h a k s)) :=
  congrArg Host.Outcome.next (onWord_of_next hw hk)

theorem exec_commitWordWrite (hw : NextWord s true h a k) (hk : isCommitWrite (enablesOf h.transfer) k = true) :
    exec .commitWordWrite s =
      .next (finishWord [] (modInHand (fun h => { h with commit := true }) (parameterWrite h a k s))) :=
  congrArg Host.Outcome.next (onWord_of_next hw hk)

theorem exec_reportReadIndexWrite (hw : NextWord s true h a k) (hk : isReadIndexWrite (enablesOf h.transfer) k = true) :
    exec .reportReadIndexWrite s =
      .next (finishWord [] (deliverMerged (enablesOf h.transfer) (parameterWrite h a k s))) :=
  congrArg Host.Outcome.next (onWord_of_next hw hk)

theorem exec_statusWordWrite (hw : NextWord s true h a k) (hk : isProtectedWord (enablesOf h.transfer) k = true) :
    exec .statusWordWrite s = .next (finishWord [] (absorbProtected a s)) :=
  congrArg Host.Outcome.next (onWord_of_next hw hk)

theorem exec_statusRead {o : Nat} (hw : NextWord s false h a (.status o)) :
    exec .acknowledgeRead s = .next (finishWord [(readStatus o s).1] (readStatus o s).2) :=
  congrArg Host.Outcome.next (onWord_of_next hw rfl)

theorem exec_bufferWordWrite {sd : Side} {b : Fin 3} {o : Nat} {set : ActiveSet} (hw : NextWord s true h a (.buffer sd b o))
    (force : (s.side sd).inForce = some set) :
    exec .bufferWordWrite s =
      .next (finishWord [] (if fullWord (enablesOf h.transfer) then fullWrite sd set b o a (currentData h) s
        else absorbPartial sd b a s)) := by
  refine (congrArg Host.Outcome.next (onWord_of_next hw rfl)).trans ?_
  simp only [bufferWrite, force]

end

/-! ## One row for each word (R9) -/

/-- A word command leaves the state where no next word has its row. -/
theorem onWord_untaken {s : State} {write : Bool} {accepts : BitVec 4 → WordKind → Bool}
    {effect : InHand → Nat → WordKind → State → State} {c : Instr}
    (row : ∀ be k, accepts be k = true → rowFor write be k = c)
    (other : ∀ i a k, s.currentWord = some (i, a, k) → c ≠ rowFor i.transfer.write (enablesOf i.transfer) k) :
    onWord write accepts effect s = s := by
  cases hw : s.currentWord with
  | none => exact onWord_of_none hw
  | some word =>
    obtain ⟨i, a, k⟩ := word
    refine onWord_of_other hw fun direction => ?_
    by_contra taken
    exact other i a k hw (by rw [direction]; exact (row _ _ (by simpa using taken)).symm)

/-- A buffer read is not stuck where its row is not the next word's. -/
theorem readStuck_of_other {s : State}
    (other : ∀ i a k, s.currentWord = some (i, a, k) →
      Instr.bufferWordRead ≠ rowFor i.transfer.write (enablesOf i.transfer) k) : s.readStuck = false := by
  unfold State.readStuck
  split
  · next i a sd b o hw =>
    have write : i.transfer.write = true := by
      by_contra read
      exact other i a _ hw (by simp [rowFor, read])
    simp [write]
  · rfl

/-! Each command accepts the words of its row and no others. -/

theorem rowFor_plainWrite (be : BitVec 4) (k : WordKind) (h : isPlainWrite be k = true) : rowFor true be k = .plainWordWrite := by
  cases k <;> simp_all [isPlainWrite, rowFor]

theorem rowFor_plainRead (be : BitVec 4) (k : WordKind) (h : isPlainRead be k = true) : rowFor false be k = .plainWordRead := by
  cases k <;> simp_all [isPlainRead, rowFor]

theorem rowFor_parameterWrite (be : BitVec 4) (k : WordKind) (h : isParameterWrite be k = true) :
    rowFor true be k = .parameterWordWrite := by
  cases k <;> simp [isParameterWrite, anyEnabled] at h
  simp only [rowFor, if_true, if_neg h.1]
  exact if_neg (by rw [not_and_or, not_not]; exact h.2)

theorem rowFor_commitWrite (be : BitVec 4) (k : WordKind) (h : isCommitWrite be k = true) :
    rowFor true be k = .commitWordWrite := by
  cases k <;> simp_all [isCommitWrite, anyEnabled, rowFor]

theorem rowFor_readIndexWrite (be : BitVec 4) (k : WordKind) (h : isReadIndexWrite be k = true) :
    rowFor true be k = .reportReadIndexWrite := by
  cases k <;> simp_all [isReadIndexWrite, rowFor]

theorem rowFor_statusRead (be : BitVec 4) (k : WordKind) (h : isStatusWord be k = true) :
    rowFor false be k = .acknowledgeRead := by
  cases k <;> simp_all [isStatusWord, rowFor]

theorem rowFor_acknowledgeWrite (be : BitVec 4) (k : WordKind) (h : isAcknowledgeWord be k = true) :
    rowFor true be k = .acknowledgeWrite := by
  cases k <;> simp_all [isAcknowledgeWord, acknowledgeOffset, rowFor]

theorem rowFor_protectedWrite (be : BitVec 4) (k : WordKind) (h : isProtectedWord be k = true) :
    rowFor true be k = .statusWordWrite := by
  cases k <;> simp_all [isProtectedWord, acknowledgeOffset, rowFor]

theorem rowFor_bufferWrite (be : BitVec 4) (k : WordKind) (h : isBufferWord be k = true) :
    rowFor true be k = .bufferWordWrite := by
  cases k <;> simp_all [isBufferWord, rowFor]

theorem rowFor_bufferRead (be : BitVec 4) (k : WordKind) (h : isBufferRead be k = true) :
    rowFor false be k = .bufferWordRead := by
  cases k <;> simp_all [isBufferRead, rowFor]

/-- A word command is not taken where no next word has its row (log 3). -/
theorem word_untaken {c : Instr} (hc : c ∈ wordCommands) {s : State}
    (other : ∀ i a k, s.currentWord = some (i, a, k) → c ≠ rowFor i.transfer.write (enablesOf i.transfer) k) :
    exec c s = .next s := by
  simp only [wordCommands, List.mem_cons, List.not_mem_nil, or_false] at hc
  rcases hc with rfl | rfl | rfl | rfl | rfl | rfl | rfl | rfl | rfl | rfl
  · exact congrArg Host.Outcome.next (onWord_untaken rowFor_plainWrite other)
  · exact congrArg Host.Outcome.next (onWord_untaken rowFor_plainRead other)
  · exact congrArg Host.Outcome.next (onWord_untaken rowFor_parameterWrite other)
  · exact congrArg Host.Outcome.next (onWord_untaken rowFor_commitWrite other)
  · exact congrArg Host.Outcome.next (onWord_untaken rowFor_readIndexWrite other)
  · exact congrArg Host.Outcome.next (onWord_untaken rowFor_statusRead other)
  · exact congrArg Host.Outcome.next (onWord_untaken rowFor_acknowledgeWrite other)
  · exact congrArg Host.Outcome.next (onWord_untaken rowFor_protectedWrite other)
  · exact congrArg Host.Outcome.next (onWord_untaken rowFor_bufferWrite other)
  · refine (if_neg (by simp [readStuck_of_other other])).trans ?_
    exact congrArg Host.Outcome.next (onWord_untaken rowFor_bufferRead other)

theorem rowFor_mem (write : Bool) (be : BitVec 4) (k : WordKind) : rowFor write be k ∈ wordCommands := by
  cases k <;> simp only [rowFor, wordCommands] <;> (repeat' split) <;> simp

/-- The transfer in hand stands at the word that `h` stands at. -/
def AtWord (h : InHand) (u : State) : Prop := ∃ i, u.inHand = some i ∧ i.transfer = h.transfer ∧ i.handled = h.handled

/-- The transfer in hand is one word further than `h`. -/
def Advanced (h : InHand) (t : State) : Prop := ∃ j, t.inHand = some j ∧ j.transfer = h.transfer ∧ j.handled = h.handled + 1

theorem AtWord.of_inHand {h : InHand} {u : State} (hand : u.inHand = some h) : AtWord h u := ⟨h, hand, rfl, rfl⟩

theorem AtWord.modInHand {h : InHand} {u : State} (hu : AtWord h u) {f : InHand → InHand}
    (keeps : ∀ i, (f i).transfer = i.transfer ∧ (f i).handled = i.handled := by intro i; exact ⟨rfl, rfl⟩) :
    AtWord h (Machine.modInHand f u) := by
  obtain ⟨i, hand, transfer, word⟩ := hu
  exact ⟨f i, by unfold Machine.modInHand; rw [hand]; rfl, (keeps i).1.trans transfer, (keeps i).2.trans word⟩

theorem AtWord.finishWord {h : InHand} {u : State} (hu : AtWord h u) (data : List Word) : Advanced h (finishWord data u) := by
  obtain ⟨i, hand, transfer, word⟩ := hu
  rw [finishWord_of_inHand hand]
  exact ⟨handled i data, rfl, transfer, by rw [← word]; rfl⟩

theorem AtWord.continueFrame {h : InHand} {u : State} (hu : u.inHand = some h) (sd : Side) (a : ActiveSet) (b : Fin 3)
    (o addr : Nat) (w : Word) : AtWord h (continueFrame sd a b o addr w u) := by
  unfold Machine.continueFrame markFrameDone
  split
  · exact AtWord.modInHand (.of_inHand (by simpa using hu))
  · exact .of_inHand (by simpa using hu)

theorem AtWord.fullWrite {h : InHand} {u : State} (hu : u.inHand = some h) (sd : Side) (a : ActiveSet) (b : Fin 3)
    (o addr : Nat) (w : Word) : AtWord h (fullWrite sd a b o addr w u) := by
  have started : (frameStart sd a b u).inHand = some h := (Quiet.frameStart sd a b u).inHand.trans hu
  unfold Machine.fullWrite
  split
  · exact .continueFrame started sd a b o addr w
  · exact .continueFrame started sd a b o addr w
  · exact .continueFrame hu sd a b o addr w
  · exact AtWord.modInHand (.of_inHand hu)

theorem AtWord.markScanDone {h : InHand} {u : State} (hu : AtWord h u) (sd : Side) (g : Geometry) (o : Nat) :
    AtWord h (markScanDone sd g o u) := by
  unfold Machine.markScanDone
  split
  · exact hu.modInHand
  · exact hu

theorem advanced_serveBufferWord {h : InHand} {u : State} (hu : u.inHand = some h) (sd : Side) (a : ActiveSet) (b : Fin 3)
    (o addr : Nat) : Advanced h (serveBufferWord sd a b o addr u) := by
  have scanned : ∀ (r : ScanRecord) (v : State), v.inHand = some h → AtWord h (setScanRecord sd r v) := fun r v hv =>
    .of_inHand ((Quiet.setScanRecord sd r v).inHand.trans hv)
  unfold serveBufferWord
  split
  · unfold serveScanWord
    split
    · exact ((scanned _ (openRow _ u) hu).markScanDone _ _ _).finishWord _
    · exact ((scanned _ (openRow _ u) hu).markScanDone _ _ _).finishWord _
    · exact ((scanned _ u hu).markScanDone _ _ _).finishWord _
  · exact AtWord.finishWord (u := openRow addr u) (.of_inHand hu) _

/-- A write row brings its transfer one word further. -/
theorem write_advances {s : State} {h : InHand} {a : Nat} {k : WordKind} (hw : NextWord s true h a k)
    (force : ∀ sd b o, k = .buffer sd b o → (s.side sd).inForce.isSome = true) :
    ∃ t, exec (rowFor true (enablesOf h.transfer) k) s = .next t ∧ Advanced h t := by
  have hand := (currentWord_spec hw.1).1
  cases k with
  | plain => exact ⟨_, exec_plainWordWrite hw rfl, (AtWord.of_inHand hand).finishWord _⟩
  | ring slot => exact ⟨_, exec_plainWordWrite hw rfl, (AtWord.of_inHand hand).finishWord _⟩
  | parameter o =>
    have written : (parameterWrite h a (.parameter o) s).inHand = some h := by
      unfold parameterWrite storeParameter mergePending
      split <;> exact hand
    simp only [rowFor, if_true]
    split
    · next index =>
      refine ⟨_, exec_reportReadIndexWrite hw (by simp [isReadIndexWrite, index]), AtWord.finishWord (.of_inHand ?_) _⟩
      unfold deliverMerged
      split
      · exact (SameBus.deliverReadIndex _ _).inHand.trans written
      · exact written
    · next other =>
      split
      · next commit =>
        refine ⟨_, exec_commitWordWrite hw (by simpa [isCommitWrite, anyEnabled] using commit), ?_⟩
        exact ((AtWord.of_inHand written).modInHand (f := fun i => { i with commit := true })).finishWord _
      · next plain =>
        refine ⟨_, exec_parameterWordWrite hw ?_, (AtWord.of_inHand written).finishWord _⟩
        simp only [isParameterWrite, anyEnabled]
        simpa [other, imp_iff_not_or] using plain
  | status o =>
    simp only [rowFor, if_true]
    split
    · next acknowledge =>
      subst acknowledge
      exact ⟨_, exec_acknowledgeWrite_of_next hw, _, rfl, rfl, rfl⟩
    · next other =>
      refine ⟨_, exec_statusWordWrite hw (by simpa [isProtectedWord, acknowledgeOffset] using other), ?_⟩
      exact AtWord.finishWord (u := absorbProtected a s) ((AtWord.of_inHand hand).modInHand) _
  | buffer sd b o =>
    obtain ⟨set, force⟩ := Option.isSome_iff_exists.mp (force sd b o rfl)
    refine ⟨_, exec_bufferWordWrite hw force, AtWord.finishWord ?_ _⟩
    split
    · exact .fullWrite hand sd set b o a (currentData h)
    · exact .of_inHand ((Quiet.absorbPartial sd b a s).inHand.trans hand)

/-- So does a read row, where no scan start is stuck. -/
theorem read_advances {s : State} {h : InHand} {a : Nat} {k : WordKind} (hw : NextWord s false h a k)
    (force : ∀ sd b o, k = .buffer sd b o → (s.side sd).inForce.isSome = true) (shown : OfSides ViewShown s) :
    ∃ t, exec (rowFor false (enablesOf h.transfer) k) s = .next t ∧ Advanced h t := by
  have hand := (currentWord_spec hw.1).1
  cases k with
  | plain => exact ⟨_, exec_plainWordRead hw rfl, AtWord.finishWord (u := openRow a s) (.of_inHand hand) _⟩
  | ring slot => exact ⟨_, exec_plainWordRead hw rfl, AtWord.finishWord (u := openRow a s) (.of_inHand hand) _⟩
  | parameter o => exact ⟨_, exec_plainWordRead hw rfl, AtWord.finishWord (u := openRow a s) (.of_inHand hand) _⟩
  | status o =>
    exact ⟨_, exec_statusRead hw, (AtWord.of_inHand ((quiet_readStatus o s).inHand.trans hand)).finishWord _⟩
  | buffer sd b o =>
    obtain ⟨set, force⟩ := Option.isSome_iff_exists.mp (force sd b o rfl)
    have served : exec .bufferWordRead s =
        .next (serveBufferWord sd set b o a (if startsScan h o then openScan sd set b s else s)) := by
      refine (if_neg (by simp [readStuck_eq_false shown])).trans
        ((congrArg Host.Outcome.next (onWord_of_next hw rfl)).trans ?_)
      simp only [bufferRead, force]
    refine ⟨_, served, advanced_serveBufferWord ?_ _ _ _ _ _⟩
    split
    · exact (quiet_openScan sd set b s).inHand.trans hand
    · exact hand

/-- Settles O12: the row of a word advances its transfer, and no other word command is taken. -/
theorem eachWordHasOneRow : Obligations.EachWordHasOneRow := by
  refine ⟨fun s h a k hw force shown => ?_, fun s c hc => ⟨fun none => word_untaken hc fun i a k hw => ?_,
    fun h a k hw other => word_untaken hc fun i a' k' hw' => ?_⟩⟩
  · have advances : ∃ t, exec (rowFor h.transfer.write (enablesOf h.transfer) k) s = .next t ∧ Advanced h t := by
      cases direction : h.transfer.write with
      | true => exact write_advances ⟨hw, direction⟩ force
      | false => exact read_advances ⟨hw, direction⟩ force shown
    obtain ⟨t, taken, j, hand, transfer, word⟩ := advances
    exact ⟨t, j, taken, rowFor_mem _ _ _, hand, transfer, word⟩
  · rw [none] at hw
    cases hw
  · rw [hw] at hw'
    cases hw'
    exact other

end Sys2Proof.Safety

/-! PROOF. What the rows of memory, parameter and protected words do, in full (R3, R9, R24 to R27, R39, R75, R116, R154). -/

namespace Sys2Proof.Safety

open Sys2Proof.Machine

/-! ## Plain, ring and absorbed words -/

/-- Settles O17: the word is stored at its address under its enables. -/
theorem plainWordWriteStores : Obligations.PlainWordWriteStores := by
  intro s h a k hw kind
  obtain ⟨hand, _, _, _, h4, hl⟩ := currentWord_spec hw.1
  have accepted : isPlainWrite (enablesOf h.transfer) k = true := by
    rcases kind with rfl | ⟨slot, rfl⟩ <;> rfl
  have stored : (storeWord a (enablesOf h.transfer) (currentData h) s).inHand = some h := hand
  refine ⟨_, exec_plainWordWrite hw accepted, fun wf => ?_, finishWord_of_inHand stored []⟩
  exact stored_writeWord wf h4 hl (enablesOf h.transfer) (writeData h)

/-- Settles O18: the word that is read is memory's at its address. -/
theorem memoryWordReadReturnsMemory : Obligations.MemoryWordReadReturnsMemory := by
  intro s h a k hw kind
  have accepted : isPlainRead (enablesOf h.transfer) k = true := by
    rcases kind with rfl | ⟨slot, rfl⟩ | ⟨o, rfl⟩ <;> rfl
  have opened : (openRow a s).inHand = some h := (currentWord_spec hw.1).1
  rw [exec_plainWordRead hw accepted, finishWord_of_inHand opened]
  rfl

/-- Settles O23: the write only marks its transfer, for the first such word. -/
theorem protectedWordWriteIsAbsorbed : Obligations.ProtectedWordWriteIsAbsorbed := by
  intro s h a o hw other
  have hand := (currentWord_spec hw.1).1
  rw [exec_statusWordWrite hw (by simpa [isProtectedWord, acknowledgeOffset] using other)]
  have marked : (absorbProtected a s).inHand = some { h with protect := some (h.protect.getD a) } := by
    unfold absorbProtected modInHand
    rw [hand]
    rfl
  rw [finishWord_of_inHand marked]
  cases h.protect <;> rfl

/-- The enables of a word are full on a burst and where its single word's are. -/
theorem fullWord_of_full {t : Transfer} (full : t.wordCount = 1 → t.enables = 0xF) : fullWord (enablesOf t) = true := by
  unfold enablesOf
  split
  · next single => rw [full single]; rfl
  · rfl

/-- Settles O32: the write only marks its transfer, for the first such word. -/
theorem showingBufferAbsorbsWrites : Obligations.ShowingBufferAbsorbsWrites := by
  intro s h addr sd b o a hw full force showing
  have hand := (currentWord_spec hw.1).1
  rw [exec_bufferWordWrite hw force, if_pos (fullWord_of_full full)]
  have marked : (absorbTear sd b addr s).inHand = some { h with tear := some (h.tear.getD (sd, b, addr)) } := by
    unfold absorbTear modInHand
    rw [hand]
    rfl
  have absorbed : fullWrite sd a b o addr (currentData h) s = absorbTear sd b addr s := by
    unfold fullWrite
    rw [showing]
  rw [absorbed, finishWord_of_inHand marked]
  cases h.tear <;> rfl

/-- Settles O37: without a scan word the read is that of memory at its own address. -/
theorem bufferReadOutsideScan : Obligations.BufferReadOutsideScan := by
  intro s h addr sd b o a hw force away outside
  have not_start := startsScan_eq_false away
  have none : scanWordRecord b (s.side sd) = Option.none := by
    unfold scanWordRecord
    split
    · next r hr =>
      refine if_neg ?_
      rintro ⟨incomplete, buf⟩
      rcases outside r hr with complete | other
      · exact absurd (incomplete.symm.trans complete) (by decide)
      · exact other buf
    · rfl
  have opened : (openRow addr s).inHand = some h := (currentWord_spec hw.1).1
  rw [exec_bufferWordRead hw force (.inl not_start), not_start]
  simp only [Bool.false_eq_true, if_false, serveBufferWord, none, serveOwnAddress]
  rw [finishWord_of_inHand opened]
  rfl

/-! ## Parameter words -/

/-- What the write of a parameter word does before the transfer moves on (R24, R25). -/
theorem parameterWrite_eq (h : InHand) (a o : Nat) (s : State) :
    parameterWrite h a (.parameter o) s =
      { s with
        mem := Memory.writeWord s.mem a (enablesOf h.transfer) (writeData h)
        cau := { s.cau with
          pendingSet :=
            if o < 0x200 then
              s.cau.pendingSet.set (o / 4) (mergeWord (s.cau.pendingSet.getD (o / 4) 0) (writeData h) (enablesOf h.transfer))
            else s.cau.pendingSet }
        mct := { s.mct with banks := openedBanks s.mct.banks a } } := by
  show mergePending o (enablesOf h.transfer) (currentData h) (storeWord a (enablesOf h.transfer) (currentData h) s) = _
  unfold mergePending
  by_cases copied : o < 0x200
  · rw [if_pos copied, if_pos copied]
    rfl
  · rw [if_neg copied, if_neg copied]
    rfl

/-- Settles O19: the two rows of a parameter write store and merge alike, and the commit word's marks its transfer. -/
theorem parameterWordWriteCopies : Obligations.ParameterWordWriteCopies := by
  intro s h a o be hw other hbe
  obtain ⟨hand, _, _, _, h4, hl⟩ := currentWord_spec hw.1
  have hbe : be = enablesOf h.transfer := hbe
  subst hbe
  have written : (parameterWrite h a (.parameter o) s).inHand = some h := by rw [parameterWrite_eq]; exact hand
  by_cases commit : o = 0x04 ∧ enablesOf h.transfer ≠ 0
  · rw [if_pos commit, if_pos commit]
    have marked : (modInHand (fun i => { i with commit := true }) (parameterWrite h a (.parameter o) s)).inHand =
        some { h with commit := true } := by
      unfold modInHand
      rw [written]
      rfl
    refine ⟨_, _, exec_commitWordWrite hw (by simpa [isCommitWrite, anyEnabled] using commit),
      fun k hk => byteOf_mergeWord _ _ _ k hk, fun wf => ?_, ?_⟩
    · rw [finishWord_mem, modInHand_mem, parameterWrite_eq]
      exact stored_writeWord wf h4 hl _ _
    · rw [finishWord_of_inHand marked]
      unfold modInHand
      rw [parameterWrite_eq]
      rfl
  · rw [if_neg commit, if_neg commit]
    have accepted : isParameterWrite (enablesOf h.transfer) (.parameter o) = true := by
      simpa [isParameterWrite, anyEnabled, other, imp_iff_not_or] using commit
    refine ⟨_, _, exec_parameterWordWrite hw accepted, fun k hk => byteOf_mergeWord _ _ _ k hk, fun wf => ?_, ?_⟩
    · rw [finishWord_mem, parameterWrite_eq]
      exact stored_writeWord wf h4 hl _ _
    · rw [finishWord_of_inHand written, parameterWrite_eq]
      rfl

/-! ## The report read index -/

/-- A delivery does not look at the transfer in hand. -/
theorem deliverReadIndex_of_inHand (w : Word) (hand : Option InHand) (s : State) :
    deliverReadIndex w { s with inHand := hand } = { deliverReadIndex w s with inHand := hand } := by
  unfold deliverReadIndex
  simp only [presentHead_eq]
  (repeat' split) <;> rfl

theorem deliverMerged_of_inHand (be : BitVec 4) (hand : Option InHand) (s : State) :
    deliverMerged be { s with inHand := hand } = { deliverMerged be s with inHand := hand } := by
  unfold deliverMerged
  split
  · exact deliverReadIndex_of_inHand _ hand s
  · rfl

/-- A delivery without a ring, or with one that the new index leaves full, or with room (R26, R154). -/
theorem deliverReadIndex_eq (w : Word) (s : State) :
    deliverReadIndex w s =
      match s.cau.device with
      | none => { s with flu := { s.flu with readIndex := some w } }
      | some d =>
        if (s.flu.writeIndex + 1) % d.ringCapacity = w.toNat % d.ringCapacity then
          withdrawRecord { s with flu := { s.flu with readIndex := some w } }
        else presentHead { s with flu := { s.flu with readIndex := some w } } := by
  unfold deliverReadIndex
  dsimp only
  cases s.cau.device with
  | none => rfl
  | some d =>
    simp only [ringFull, readIndexInUse, Option.getD_some, beq_iff_eq]

/-- Settles O20: the word is stored like any parameter word, and the merged one delivered where an enable is set. -/
theorem readIndexWriteIsDelivered : Obligations.ReadIndexWriteIsDelivered := by
  intro s h a be length hw hbe
  obtain ⟨hand, _, _, _, h4, hl⟩ := currentWord_spec hw.1
  have hbe : be = enablesOf h.transfer := hbe
  subst hbe
  let merged := mergeWord (s.cau.pendingSet.getD 7 0) (writeData h) (enablesOf h.transfer)
  let v : State :=
    { s with
      mem := Memory.writeWord s.mem a (enablesOf h.transfer) (writeData h)
      cau := { s.cau with pendingSet := s.cau.pendingSet.set 7 merged }
      inHand := some (handled h [])
      mct := { s.mct with banks := openedBanks s.mct.banks a } }
  have written : (parameterWrite h a (.parameter 0x1C) s).inHand = some h := by rw [parameterWrite_eq]; exact hand
  have finished : { parameterWrite h a (.parameter 0x1C) s with inHand := some (handled h []) } = v := by
    rw [parameterWrite_eq]
    rfl
  have after : exec .reportReadIndexWrite s = .next (deliverMerged (enablesOf h.transfer) v) := by
    have delivered : (deliverMerged (enablesOf h.transfer) (parameterWrite h a (.parameter 0x1C) s)).inHand = some h := by
      unfold deliverMerged
      split
      · exact (SameBus.deliverReadIndex _ _).inHand.trans written
      · exact written
    rw [exec_reportReadIndexWrite hw rfl, finishWord_of_inHand delivered, ← deliverMerged_of_inHand, finished]
  have word : wordAt v.cau.pendingSet 0x1C = merged := by
    simp [v, wordAt, length]
  refine ⟨_, { v with flu := { s.flu with readIndex := if enablesOf h.transfer = 0 then s.flu.readIndex else some merged } },
    merged, after, fun k hk => byteOf_mergeWord _ _ _ k hk, ?stored, rfl, ?delivered⟩
  case stored => exact fun wf => stored_writeWord wf h4 hl _ _
  case delivered =>
    unfold deliverMerged
    by_cases zero : enablesOf h.transfer = 0
    · rw [if_neg (by simp [anyEnabled, zero]), if_pos zero, if_pos zero]
    · rw [if_pos ((anyEnabled_iff _).mpr zero), if_neg zero, if_neg zero, word, deliverReadIndex_eq]
      rfl

end Sys2Proof.Safety

/-! PROOF. The status words (R28, R163, R164): the bits of a word that is built from a number, and the items that the device's,
the sides' and the map's words show. -/

namespace Sys2Proof.Safety

open Sys2Proof.Machine

/-! ## Bits of a number's word -/

theorem bits_toWord {n : Nat} (small : n < 4294967296) (hi lo : Nat) :
    bits (toWord n) hi lo = n / 2 ^ lo % 2 ^ (hi + 1 - lo) := by
  unfold bits
  rw [toNat_toWord, Nat.mod_eq_of_lt small]

/-- A bit of a number's word, where the number is known to hold a flag there. -/
theorem getLsbD_flag {n k : Nat} {b : Bool} (hk : k < 32) (h : n / 2 ^ k % 2 = flag b) : (toWord n).getLsbD k = b := by
  rw [getLsbD_toWord n k hk, h]
  cases b <;> rfl

theorem viewState_code_lt (v : ViewState) : v.code < 8 := by cases v <;> decide

theorem nightState_code_lt (v : NightState) : v.code < 2 := by cases v <;> decide

theorem configState_code_lt (c : ConfigState) : c.code < 4 := by cases c <;> decide

theorem bufState_code_lt (v : BufState) : v.code < 4 := by cases v <;> decide

/-! ## Device words (R163) -/

/-- At the offsets without an item the status word is 0. -/
theorem statusWord_of_reserved (s : State) {o : Nat}
    (h : (0xE1C ≤ o ∧ o < 0xE40) ∨ o = 0xE5C ∨ o = 0xEDC ∨ (0xF40 ≤ o ∧ o < 0x1000)) : statusWord s o = 0 := by
  rcases h with ⟨low, high⟩ | rfl | rfl | ⟨low, _⟩
  · unfold statusWord deviceStatusWord
    rw [if_pos high]
    iterate 6 rw [if_neg (by omega)]
  · rfl
  · rfl
  · unfold statusWord
    iterate 5 rw [if_neg (by omega)]

/-- Settles O24: each device word is that of its item. -/
theorem deviceStatusShowsTheItems : Obligations.DeviceStatusShowsTheItems := by
  refine ⟨fun s h a o hw other => ?read, fun s => ⟨?config, rfl, rfl, ?lines, fun small => ?writeIndex, ?seq,
    fun o _ reserved => statusWord_of_reserved s reserved⟩⟩
  case read =>
    have quiet : readStatus o s = (statusWord s o, s) := if_neg other
    rw [exec_statusRead hw, quiet, finishWord_of_inHand (currentWord_spec hw.1).1]
  case config =>
    have word : statusWord s 0xE04 = toWord s.cau.config.code := rfl
    have small := configState_code_lt s.cau.config
    rw [word, bits_toWord (by omega), bits_toWord (by omega)]
    omega
  case lines =>
    have word : statusWord s 0xE10 = toWord (flag s.faultLine + flag s.flu.attn * 2) := rfl
    have fault := flag_le s.faultLine
    have attn := flag_le s.flu.attn
    rw [word, bits_toWord (by omega)]
    exact ⟨getLsbD_flag (by omega) (by omega), getLsbD_flag (by omega) (by omega), by omega⟩
  case writeIndex =>
    have word : statusWord s 0xE14 = match s.cau.device with
      | some _ => toWord s.flu.writeIndex
      | none => 0 := rfl
    rw [word]
    cases s.cau.device with
    | none => rfl
    | some d => exact (toNat_toWord _).trans (Nat.mod_eq_of_lt (by omega))
  case seq =>
    have word : statusWord s 0xE18 = toWord s.flu.seq.toNat := rfl
    have small := s.flu.seq.isLt
    rw [word, toNat_toWord, Nat.mod_eq_of_lt (by omega)]

/-! ## Side words (R163) -/

/-- The first word of a side: view, night state, scan buffer and redirect target. -/
theorem sideStateWord_shows (x : SideState) :
    let w := sideStatusWord x 0
    bits w 2 0 = x.view.state.code ∧ bits w 7 3 = 0 ∧ bits w 8 8 = x.glare.night.code ∧ bits w 15 9 = 0 ∧ bits w 31 23 = 0 ∧
      bits w 19 19 = 0 ∧
      match x.scan.record with
      | none => bits w 22 16 = 0
      | some r => bits w 17 16 = r.buf.val ∧ bits w 18 18 = 1 ∧
        match r.redirect with
        | none => bits w 22 20 = 0
        | some b => bits w 21 20 = b.val ∧ bits w 22 22 = 1 := by
  have view := viewState_code_lt x.view.state
  have night := nightState_code_lt x.glare.night
  have word : sideStatusWord x 0 =
    toWord (x.view.state.code + x.glare.night.code * 2 ^ 8 + scanStatusBits x.scan.record) := rfl
  simp only [word]
  cases x.scan.record with
  | none =>
    simp only [scanStatusBits]
    rw [bits_toWord (by omega), bits_toWord (by omega), bits_toWord (by omega), bits_toWord (by omega),
      bits_toWord (by omega), bits_toWord (by omega), bits_toWord (by omega)]
    omega
  | some r =>
    have buf := r.buf.isLt
    cases hr : r.redirect with
    | none =>
      simp only [scanStatusBits, hr]
      rw [bits_toWord (by omega), bits_toWord (by omega), bits_toWord (by omega), bits_toWord (by omega),
        bits_toWord (by omega), bits_toWord (by omega), bits_toWord (by omega), bits_toWord (by omega),
        bits_toWord (by omega)]
      omega
    | some b =>
      have target := b.isLt
      simp only [scanStatusBits, hr]
      rw [bits_toWord (by omega), bits_toWord (by omega), bits_toWord (by omega), bits_toWord (by omega),
        bits_toWord (by omega), bits_toWord (by omega), bits_toWord (by omega), bits_toWord (by omega),
        bits_toWord (by omega), bits_toWord (by omega)]
      omega

/-- The word of a buffer record. -/
theorem bufferStatusWord_shows (r : BufRecord) (profile : r.profile ≤ 3) :
    let w := bufferStatusWord r
    bits w 15 0 = r.seq.toNat ∧ bits w 17 16 = r.state.code ∧ bits w 19 18 = 0 ∧ bits w 21 20 = r.profile ∧
      bits w 23 22 = 0 ∧ w.getLsbD 24 = r.verified ∧ w.getLsbD 25 = r.cut ∧ bits w 31 26 = 0 := by
  have seq := r.seq.isLt
  have state := bufState_code_lt r.state
  have verified := flag_le r.verified
  have cut := flag_le r.cut
  simp only [bufferStatusWord]
  rw [bits_toWord (by omega), bits_toWord (by omega), bits_toWord (by omega), bits_toWord (by omega),
    bits_toWord (by omega), bits_toWord (by omega)]
  exact ⟨by omega, by omega, by omega, by omega, by omega, getLsbD_flag (by omega) (by omega),
    getLsbD_flag (by omega) (by omega), by omega⟩

theorem statusWord_buffer (s : State) (sd : Side) (b : Fin 3) :
    statusWord s (sideStatusBase sd + 8 + 4 * b.val) = bufferStatusWord ((s.side sd).ring.buf b) := by
  have place : sideStatusBase sd + 8 + 4 * b.val = sideStatusBase sd + 4 * (2 + b.val) := by omega
  rw [place, statusWord_side s sd _ (by omega)]
  match b with
  | 0 | 1 | 2 => rfl

/-- The dropped frames and the unchecked scans. -/
theorem counterWord_shows (x : SideState) (law : CounterLaw x) :
    bits (sideStatusWord x 6) 15 0 = x.ring.dropped ∧ bits (sideStatusWord x 6) 31 16 = x.scan.unchecked := by
  obtain ⟨_, _, dropped, unchecked, _⟩ := law
  have word : sideStatusWord x 6 = toWord (x.ring.dropped + x.scan.unchecked * 2 ^ 16) := rfl
  rw [word, bits_toWord (by omega), bits_toWord (by omega)]
  omega

/-! ## Map words (R164) -/

/-- A half of a map word holds its tile's factor, hot mark and code, and nothing above them. -/
theorem tileStatusHalf_lt (g : Glare) (range : GlareRange g) (tile : Nat) : tileStatusHalf g tile < 65536 := by
  obtain ⟨_, _, ⟨_, factors⟩, _, codes⟩ := range
  have factor : g.map.getD tile 256 ≤ 256 := by
    rw [List.getD_eq_getElem?_getD]
    cases h : g.map[tile]? with
    | none => rfl
    | some d => exact factors d (List.mem_of_getElem? h)
  have code : (g.summary.getD tile { hot := false, code := 0 }).code ≤ 63 := by
    rw [List.getD_eq_getElem?_getD]
    cases h : g.summary[tile]? with
    | none => exact Nat.zero_le _
    | some t => exact codes t (List.mem_of_getElem? h)
  have hot := flag_le (g.summary.getD tile { hot := false, code := 0 }).hot
  simp only [tileStatusHalf]
  omega

/-- Either half of a map word. -/
theorem mapWord_shows (g : Glare) (range : GlareRange g) {tile d : Nat} {t : TileSummary} (factor : g.map[tile]? = some d)
    (summary : g.summary[tile]? = some t) :
    let w := mapWord g (tile / 2)
    let at' := tile % 2 * 16
    bits w (at' + 8) at' = d ∧ w.getLsbD (at' + 9) = t.hot ∧ bits w (at' + 15) (at' + 10) = t.code := by
  have low := tileStatusHalf_lt g range (2 * (tile / 2))
  have high := tileStatusHalf_lt g range (2 * (tile / 2) + 1)
  obtain ⟨_, _, ⟨_, factors⟩, _, codes⟩ := range
  have hd := factors d (List.mem_of_getElem? factor)
  have hc := codes t (List.mem_of_getElem? summary)
  have hot := flag_le t.hot
  have half : tileStatusHalf g tile = d + flag t.hot * 2 ^ 9 + t.code * 2 ^ 10 := by
    simp [tileStatusHalf, List.getD_eq_getElem?_getD, factor, summary]
  simp only [mapWord]
  rw [bits_toWord (by omega), bits_toWord (by omega)]
  rcases Nat.mod_two_eq_zero_or_one tile with even | odd
  · have place : 2 * (tile / 2) = tile := by omega
    rw [place] at low high ⊢
    rw [even]
    exact ⟨by omega, getLsbD_flag (by omega) (by omega), by omega⟩
  · have place : 2 * (tile / 2) + 1 = tile := by omega
    rw [place] at high ⊢
    rw [odd]
    exact ⟨by omega, getLsbD_flag (by omega) (by omega), by omega⟩

/-- Settles O25: word by word. -/
theorem sideStatusShowsTheItems : Obligations.SideStatusShowsTheItems := by
  intro s sd
  have word : ∀ n, n < 8 → statusWord s (sideStatusBase sd + 4 * n) = sideStatusWord (s.side sd) n :=
    fun n hn => statusWord_side s sd n hn
  refine ⟨?state, word 1 (by decide), fun b => ?buffer, word 5 (by decide), ?counters, fun tile small law => ?map⟩
  case state =>
    have first : statusWord s (sideStatusBase sd) = sideStatusWord (s.side sd) 0 := word 0 (by decide)
    rw [first]
    exact sideStateWord_shows (s.side sd)
  case buffer =>
    rw [statusWord_buffer]
    exact bufferStatusWord_shows _
  case counters =>
    have sixth : statusWord s (sideStatusBase sd + 0x18) = sideStatusWord (s.side sd) 6 := word 6 (by decide)
    rw [sixth]
    exact counterWord_shows _
  case map =>
    rw [statusWord_map s sd (tile / 2) (by omega)]
    exact fun d t => mapWord_shows _ ((glareLaw_iff _).mp law)

end Sys2Proof.Safety

/-! PROOF. The output word, the luma and the signature term (R51, R57, R60, R61, R160), tiles (R58, R59), and the fields of the
accepted set (R42, R161, R162). -/

namespace Sys2Proof.Safety

open Sys2Proof.Machine

/-! ## The output word (R51, R57, R160) -/

/-- The level of a channel is a byte: the tone table's entries are. -/
theorem outputLevel_le {p : Profile} (law : ProfileLaw p) {d c2 : Nat} (hd : d ≤ 256) (hc : c2 ≤ 4095) :
    outputLevel p d c2 ≤ 255 := by
  obtain ⟨_, _, _, _, _, _, length, entries⟩ := law
  have knee := (kneeStage_le p.k c2 hd).trans hc
  have lo : p.tone[kneeStage p.k d c2 / 128]? = some (p.tone[kneeStage p.k d c2 / 128]'(by omega)) :=
    List.getElem?_eq_getElem _
  have hi : p.tone[kneeStage p.k d c2 / 128 + 1]? = some (p.tone[kneeStage p.k d c2 / 128 + 1]'(by omega)) :=
    List.getElem?_eq_getElem _
  unfold outputLevel
  rw [toneStage_of_entries lo hi]
  exact weightedMean_le (Nat.mod_lt _ (by decide)).le (entries _ (List.getElem_mem _)) (entries _ (List.getElem_mem _))

/-- The channels of a word lie in its low 30 bits. -/
theorem channels_of_masked {w w' : Word} (h : w' &&& 0x3FFFFFFF = w &&& 0x3FFFFFFF) :
    redOf w' = redOf w ∧ greenOf w' = greenOf w ∧ blueOf w' = blueOf w := by
  have low : ∀ v : Word, (v &&& 0x3FFFFFFF).toNat = v.toNat % 2 ^ 30 := fun v => by
    rw [BitVec.toNat_and]
    exact Nat.and_two_pow_sub_one_eq_mod v.toNat 30
  have same : w'.toNat % 2 ^ 30 = w.toNat % 2 ^ 30 := by rw [← low, ← low, h]
  unfold redOf greenOf blueOf bits
  omega

/-- Settles O27: the three levels are bytes, and both words are made of the channels alone. -/
theorem outputWordPacksTheLevels : Obligations.OutputWordPacksTheLevels := by
  intro p d w law hd
  have red := outputLevel_le law hd (gainStage_le_max p.gr (offsetStage p.bor (bits w 29 20)))
  have green := outputLevel_le law hd (gainStage_le_max p.gg (offsetStage p.bog (bits w 19 10)))
  have blue := outputLevel_le law hd (gainStage_le_max p.gb (offsetStage p.bob (bits w 9 0)))
  have packed : outputWord p d w =
      toWord (outputLevel p d (gainStage p.gr (offsetStage p.bor (bits w 29 20))) * 2 ^ 16
        + outputLevel p d (gainStage p.gg (offsetStage p.bog (bits w 19 10))) * 2 ^ 8
        + outputLevel p d (gainStage p.gb (offsetStage p.bob (bits w 9 0)))) := rfl
  refine ⟨⟨red, green, blue, ?_⟩, fun w' masked => ?_⟩
  · rw [packed, bits_toWord (by omega), bits_toWord (by omega), bits_toWord (by omega), bits_toWord (by omega)]
    dsimp only
    omega
  · obtain ⟨sameRed, sameGreen, sameBlue⟩ := channels_of_masked masked
    unfold outputWord luma gainedRed gainedGreen gainedBlue
    rw [sameRed, sameGreen, sameBlue]
    exact ⟨rfl, rfl⟩

/-! ## Luma and signature term (R60, R61) -/

/-- A rotation by less than the width moves each bit up, around the end. -/
theorem getLsbD_signatureTerm (w : Word) (o : Nat) {k : Nat} (hk : k < 32) :
    (signatureTerm w o).getLsbD ((k + o) % 32) = w.getLsbD k := by
  have amount : o % 32 % 32 = o % 32 := Nat.mod_mod _ _
  unfold signatureTerm
  rw [BitVec.getLsbD_rotateLeft, amount]
  by_cases wrapped : (k + o) % 32 < o % 32
  · rw [decide_eq_true wrapped, cond_true]
    congr 1
    omega
  · rw [decide_eq_false wrapped, cond_false, decide_eq_true (by omega), Bool.true_and]
    congr 1
    omega

/-- Settles O28: the weights of the luma add up to 256; the term is a rotation. -/
theorem lumaAndSignatureTerm : Obligations.LumaAndSignatureTerm := by
  refine ⟨fun p w => ⟨rfl, luma_le p w⟩, fun w o => ⟨fun k hk => getLsbD_signatureTerm w o hk, fun whole => ?_⟩⟩
  refine BitVec.eq_of_getLsbD_eq fun k hk => ?_
  have bit := getLsbD_signatureTerm w o hk
  rwa [show (k + o) % 32 = k by omega] at bit

/-! ## Tiles (R58, R59) -/

/-- The column of a tile counts the eighths of a line. -/
theorem eighths {x w : Nat} (hw : w % 8 = 0) : x * 8 / w = x / (w / 8) := by
  have whole : w = w / 8 * 8 := by omega
  conv_lhs => rw [whole]
  exact Nat.mul_div_mul_right _ _ (by decide)

/-- Settles O29: line and column are quotient and remainder, and both are below their range. -/
theorem offsetsFallInTiles : Obligations.OffsetsFallInTiles := by
  intro g o ok inside
  obtain ⟨w64, _, w16, h64, _⟩ := (geometryOk_iff g).mp ok
  have line : lineY g o < g.h := Nat.div_lt_of_lt_mul inside
  have column : columnX g o < g.w := Nat.mod_lt _ (by omega)
  have row : lineY g o * 6 / g.h < 6 := Nat.div_lt_of_lt_mul (by omega)
  have col : columnX g o * 8 / g.w < 8 := Nat.div_lt_of_lt_mul (by omega)
  refine ⟨line, column, Nat.div_add_mod' o g.w, rfl, ?_, eighths (by omega), ?_, ?_⟩
  · unfold tileOf
    omega
  · simp [tileOf, lineY, columnX]
  · have size : g.w * g.h - 1 = (g.h - 1) * g.w + (g.w - 1) := by
      obtain ⟨n, hn⟩ : ∃ n, g.h = n + 1 := ⟨g.h - 1, by omega⟩
      rw [hn, Nat.add_sub_cancel, Nat.mul_add, Nat.mul_one, Nat.mul_comm g.w n]
      omega
    have lastLine : lineY g (g.w * g.h - 1) = g.h - 1 := by
      unfold lineY
      rw [size, Nat.add_comm, Nat.add_mul_div_right _ _ (by omega), Nat.div_eq_of_lt (by omega), Nat.zero_add]
    have lastColumn : columnX g (g.w * g.h - 1) = g.w - 1 := by
      unfold columnX
      rw [size, Nat.mul_add_mod_self_right, Nat.mod_eq_of_lt (by omega)]
    have lastRow : (g.h - 1) * 6 / g.h = 5 := Nat.div_eq_of_lt_le (by omega) (by omega)
    have lastCol : (g.w - 1) * 8 / g.w = 7 := Nat.div_eq_of_lt_le (by omega) (by omega)
    unfold tileOf
    rw [lastLine, lastColumn, lastRow, lastCol]

/-! ## The accepted set (R42, R161, R162) -/

theorem fieldWord_eq (ps : List Word) (offset n : Nat) : fieldWord ps offset n = wordAt ps (offset + 4 * n) := by
  unfold fieldWord wordAt
  rw [Nat.add_mul_div_left _ _ (by decide)]

theorem orderNight_spec (enter leave : Nat) :
    let e := min 4095 enter
    let l := min 4095 leave
    (e < l → (orderNight enter leave).1 = e ∧ (orderNight enter leave).2 = l) ∧
      (l ≤ e → e < 4095 → (orderNight enter leave).1 = e ∧ (orderNight enter leave).2 = e + 1) ∧
      (l ≤ e → e = 4095 → (orderNight enter leave).1 = 4094 ∧ (orderNight enter leave).2 = 4095) := by
  have least : ∀ n, clamp 0 4095 n = min 4095 n := fun n => Nat.zero_max _
  unfold orderNight
  simp only [least]
  refine ⟨fun ordered => ?_, fun swapped small => ?_, fun swapped top => ?_⟩
  · rw [if_pos ordered]
    exact ⟨rfl, rfl⟩
  · rw [if_neg (by omega), if_neg (by omega)]
    exact ⟨rfl, rfl⟩
  · rw [if_neg (by omega), if_pos top]
    exact ⟨rfl, rfl⟩

/-- The descriptor of a side in the accepted set is that of its offset, clamped. -/
theorem acceptedFrom_descriptor (ps : List Word) (generation : Word) (sd : Side) :
    (acceptedFrom ps generation).descriptor sd = clampDescriptor (pendingDescriptor ps (descriptorOffset sd)) := by
  cases sd <;> rfl

theorem acceptedFrom_profile (ps : List Word) (generation : Word) {i : Nat} (hi : i < 4) :
    (acceptedFrom ps generation).profiles.get i = clampProfile (pendingProfile ps (0x100 + i * 0x40)) := by
  match i, hi with
  | 0, _ | 1, _ | 2, _ | 3, _ => rfl

/-- Settles O43: each field stands at its bits, clamped where the table says so. -/
theorem acceptedSetIsClamped : Obligations.AcceptedSetIsClamped := by
  intro ps generation
  simp only [fieldWord_eq]
  refine ⟨rfl, ⟨rfl, rfl, rfl, rfl, clamp_bounded _ _ _ (by decide)⟩, fun sd offset place => ?side, fun i hi => ?profile⟩
  case side =>
    have place : offset = descriptorOffset sd := by cases sd <;> exact place
    rw [acceptedFrom_descriptor, ← place]
    exact ⟨rfl, rfl, rfl, rfl, clamp_bounded _ _ _ (by decide), clamp_bounded _ _ _ (by decide),
      clamp_bounded _ _ _ (by decide), clamp_bounded _ _ _ (by decide), clamp_bounded _ _ _ (by decide),
      orderNight_spec _ _, clamp_bounded _ _ _ (by decide), clamp_bounded _ _ _ (by decide)⟩
  case profile =>
    rw [acceptedFrom_profile ps generation hi]
    refine ⟨rfl, rfl, rfl, rfl, rfl, rfl, clamp_bounded _ _ _ (by decide), clamp_bounded _ _ _ (by decide),
      clamp_bounded _ _ _ (by decide), clamp_bounded _ _ _ (by decide), by simp [clampProfile, pendingProfile], fun k hk => ?_⟩
    simp [clampProfile, pendingProfile, hk]

end Sys2Proof.Safety

/-! PROOF. What a raise does (R136, R144, R145, R150 to R153, R156, R166), the expiry of a timer (R126, R129), and how a side
takes a set (R43 to R45, R131, R141, R155). -/

namespace Sys2Proof.Safety

open Sys2Proof.Machine

/-! ## Timers (R126, R129) -/

/-- Settles O47: a due timer's expiry is taken, and the buffers named are found by their state. -/
theorem timersExpire : Obligations.TimersExpire := by
  refine ⟨fun s sd tm running due => ?_, fun s sd tm running due => ?_, fun r b => ⟨find_spec, find_spec, fun none =>
    find_none none b, fun none => find_none none b⟩⟩
  · simp only [exec, execWatchdogExpiry, running]
    exact congrArg Host.Outcome.next (whenReady_true ((due_iff tm s.timebase).mpr due) _ s)
  · simp only [exec, execHoldTimerExpiry, running]
    exact congrArg Host.Outcome.next (whenReady_true ((due_iff tm s.timebase).mpr due) _ s)

/-! ## The presentation of the head record (R152, R153) -/

theorem recordOutstanding_iff (m : Mct) : recordWriteOutstanding m = true ↔ RecordOutstanding m := by
  rw [recordWriteOutstanding_iff]
  constructor
  · rintro ⟨x, member, record⟩
    cases x with
    | bootLoadRead a => cases record
    | recordWrite a ws => exact ⟨a, ws, member⟩
  · rintro ⟨a, ws, member⟩
    exact ⟨_, member, rfl⟩

theorem ringFull_iff (f : Flu) (d : DeviceCopy) :
    ringFull f d = true ↔ (f.writeIndex + 1) % d.ringCapacity = (f.readIndex.getD 0).toNat % d.ringCapacity := beq_iff_eq

theorem presentHead_of_record {s : State} {d : DeviceCopy} {r : FaultRecord} {rest : List FaultRecord}
    (device : s.cau.device = some d) (queue : s.flu.queue = r :: rest) :
    presentHead s =
      if ringFull s.flu d || recordWriteOutstanding s.mct then s
      else joinOwnQueue (.recordWrite (recordSlot d s.flu) r.words) s := by
  unfold presentHead
  rw [device, queue]

theorem presentHead_of_none {s : State} (h : s.cau.device = none ∨ s.flu.queue = []) : presentHead s = s := by
  unfold presentHead
  split
  · next device queue =>
    rcases h with none | empty
    · rw [device] at none
      cases none
    · rw [queue] at empty
      cases empty
  · rfl

theorem entry_source_lt (e : FaultEntry) : e.source < 256 := by
  cases e with
  | device k => simp [FaultEntry.source]
  | side sd k => cases sd <;> simp [FaultEntry.source]

theorem entry_code_lt (e : FaultEntry) : e.code < 256 := by
  cases e with
  | device k => cases k <;> simp [FaultEntry.code, DeviceKind.code]
  | side sd k => cases k <;> simp [FaultEntry.code, SideKind.code]

/-- The first word of a record: its sequence, source and code (R166). -/
theorem recordWord0_shows (r : FaultRecord) :
    let w := toWord (r.seq.toNat * 2 ^ 16 + r.entry.source * 2 ^ 8 + r.entry.code)
    bits w 31 16 = r.seq.toNat ∧ bits w 15 8 = r.entry.source ∧ bits w 7 0 = r.entry.code := by
  have seq := r.seq.isLt
  have source := entry_source_lt r.entry
  have code := entry_code_lt r.entry
  dsimp only
  rw [bits_toWord (by omega), bits_toWord (by omega), bits_toWord (by omega)]
  omega

/-- The four bits that name a view state, or none. -/
def viewNibble : Option ViewState → Nat
  | some v => v.code
  | none => 0xF

/-- The twenty bits that name a frame, or none. -/
def frameBits : Option (BitVec 16 × Fin 3) → Nat
  | some (seq, b) => seq.toNat + b.val * 2 ^ 16
  | none => 0xF * 2 ^ 16

theorem recordWord2_eq (frame : Option (BitVec 16 × Fin 3)) (view : Option ViewState) :
    recordWord2 frame view = toWord (frameBits frame + viewNibble view * 2 ^ 24) := by
  cases frame <;> cases view <;> rfl

theorem viewNibble_lt (view : Option ViewState) : viewNibble view < 16 := by
  cases view with
  | none => decide
  | some v => exact (viewState_code_lt v).trans (by decide)

theorem frameBits_lt (frame : Option (BitVec 16 × Fin 3)) : frameBits frame < 2 ^ 20 := by
  rcases frame with _ | ⟨seq, b⟩
  · decide
  · have hs := seq.isLt
    have hb := b.isLt
    simp only [frameBits]
    omega

/-- The third word of a record: its frame and its view state (R166). -/
theorem recordWord2_shows (frame : Option (BitVec 16 × Fin 3)) (view : Option ViewState) :
    let w := recordWord2 frame view
    (∀ seq b, frame = some (seq, b) → bits w 15 0 = seq.toNat ∧ bits w 19 16 = b.val) ∧
      (frame = none → bits w 15 0 = 0 ∧ bits w 19 16 = 0xF) ∧ (∀ v, view = some v → bits w 27 24 = v.code) ∧
      (view = none → bits w 27 24 = 0xF) ∧ bits w 23 20 = 0 ∧ bits w 31 28 = 0 := by
  have hv := viewNibble_lt view
  have hf := frameBits_lt frame
  dsimp only
  rw [recordWord2_eq, bits_toWord (by omega), bits_toWord (by omega), bits_toWord (by omega), bits_toWord (by omega),
    bits_toWord (by omega)]
  refine ⟨fun seq b e => ?_, fun e => ?_, fun v e => ?_, fun e => ?_, by omega, by omega⟩
  · have hs := seq.isLt
    have hb := b.isLt
    have value : frameBits frame = seq.toNat + b.val * 2 ^ 16 := by rw [e]; rfl
    omega
  · have value : frameBits frame = 0xF * 2 ^ 16 := by rw [e]; rfl
    omega
  · have value : viewNibble view = v.code := by rw [e]; rfl
    omega
  · have value : viewNibble view = 0xF := by rw [e]; rfl
    omega

/-- Settles O50: the three conditions of the presentation, and the words of a record. -/
theorem headRecordIsPresented : Obligations.HeadRecordIsPresented := by
  refine ⟨fun s d r rest device queue => ⟨fun room none => ?_, fun blocked => ?_⟩, fun s h => presentHead_of_none h,
    fun r => ?_⟩
  · rw [presentHead_of_record device queue, if_neg]
    · rfl
    · rw [Bool.or_eq_true, ringFull_iff, recordOutstanding_iff]
      exact not_or.mpr ⟨room, none⟩
  · rw [presentHead_of_record device queue, if_pos]
    rwa [Bool.or_eq_true, ringFull_iff, recordOutstanding_iff]
  · obtain ⟨seq, source, code⟩ := recordWord0_shows r
    exact ⟨_, _, rfl, seq, source, code, recordWord2_shows r.frame r.view⟩

/-! ## Raises (R144, R145, R150, R151) -/

/-- A raise adds 1 to the count at its entry's place, up to 255 (R145). -/
theorem countRaise_of_place {e : FaultEntry} {i : Nat} (place : entryOrder[i]? = some e) (entries : List Nat) :
    countRaise e entries = entries.set i (min 255 (entries.getD i 0 + 1)) := by
  unfold countRaise saturate
  rw [place_of_entryOrder place]

/-- The fault unit after a raise whose record is joined. -/
theorem joinRecordQueue_of_room {f : Flu} (room : f.queue.length < 8) (r : FaultRecord) :
    joinRecordQueue r f = { f with queue := f.queue ++ [{ r with seq := f.seq }], seq := f.seq + 1 } := if_pos room

/-- The fault unit after a raise whose record is discarded. -/
theorem joinRecordQueue_of_full {f : Flu} (full : 8 ≤ f.queue.length) (r : FaultRecord) :
    joinRecordQueue r f = { f with entries := countRaise (.device .recordDropped) f.entries } :=
  if_neg (Nat.not_lt.mpr full)

/-- The state after a raise, before the head record is presented. -/
def raised (e : FaultEntry) (frame : Option (BitVec 16 × Fin 3)) (view : Option ViewState) (detail : Word) (s : State) : State :=
  updateLines
    { s with
      flu := joinRecordQueue { seq := 0, entry := e, time := s.timebase, frame := frame, view := view, detail := detail }
        { s.flu with entries := countRaise e s.flu.entries } }

theorem fluRaise_eq_presentHead (e : FaultEntry) (frame : Option (BitVec 16 × Fin 3)) (view : Option ViewState) (detail : Word)
    (s : State) : fluRaise e frame view detail s = presentHead (raised e frame view detail s) := rfl

theorem raised_indices (e : FaultEntry) (frame : Option (BitVec 16 × Fin 3)) (view : Option ViewState) (detail : Word)
    (s : State) : (raised e frame view detail s).flu.readIndex = s.flu.readIndex ∧
      (raised e frame view detail s).flu.writeIndex = s.flu.writeIndex :=
  ⟨joinRecordQueue_readIndex _ _, joinRecordQueue_writeIndex _ _⟩

theorem raised_of_room {e : FaultEntry} {i : Nat} (place : entryOrder[i]? = some e) {s : State} (room : s.flu.queue.length < 8)
    (frame : Option (BitVec 16 × Fin 3)) (view : Option ViewState) (detail : Word) :
    (raised e frame view detail s).flu.entries = s.flu.entries.set i (min 255 (s.flu.entries.getD i 0 + 1)) ∧
      (raised e frame view detail s).flu.seq = s.flu.seq + 1 ∧
      (raised e frame view detail s).flu.queue = s.flu.queue ++
        [{ seq := s.flu.seq, entry := e, time := s.timebase, frame := frame, view := view, detail := detail }] := by
  unfold raised
  rw [joinRecordQueue_of_room (f := { s.flu with entries := countRaise e s.flu.entries }) room]
  exact ⟨countRaise_of_place place _, rfl, rfl⟩

theorem raised_of_full {e : FaultEntry} {i : Nat} (place : entryOrder[i]? = some e) {s : State} (full : 8 ≤ s.flu.queue.length)
    (frame : Option (BitVec 16 × Fin 3)) (view : Option ViewState) (detail : Word) :
    (raised e frame view detail s).flu.entries =
        countRaise (.device .recordDropped) (s.flu.entries.set i (min 255 (s.flu.entries.getD i 0 + 1))) ∧
      (raised e frame view detail s).flu.seq = s.flu.seq ∧ (raised e frame view detail s).flu.queue = s.flu.queue := by
  unfold raised
  rw [joinRecordQueue_of_full (f := { s.flu with entries := countRaise e s.flu.entries }) full]
  exact ⟨congrArg (countRaise (.device .recordDropped)) (countRaise_of_place place _), rfl, rfl⟩

/-- Settles O49: the view of a side's raise acts first, and the fault unit's part is the same for both kinds. -/
theorem raiseReachesTheFaultUnit : Obligations.RaiseReachesTheFaultUnit := by
  intro s e frame detail i place _ _
  have dropped : entryOrder[24]? = some (.device .recordDropped) := rfl
  cases e with
  | device k =>
    refine ⟨raised (.device k) none none detail s, none, rfl, linesLaw_updateLines _, rfl, rfl,
      (raised_indices _ _ _ _ s).1, (raised_indices _ _ _ _ s).2, fun room => raised_of_room place room none none detail, fun full => ?_⟩
    have after := raised_of_full place full none none detail
    rwa [countRaise_of_place dropped] at after
  | side sd k =>
    have kept : (viewFault sd k s).flu = s.flu := viewFault_flu sd k s
    have time : (viewFault sd k s).timebase = s.timebase := viewFault_timebase sd k s
    let view := some ((viewFault sd k s).side sd).view.state
    refine ⟨raised (.side sd k) frame view detail (viewFault sd k s), view, rfl, linesLaw_updateLines _, rfl, ?_,
      (raised_indices _ _ _ _ _).1.trans (by rw [kept]), (raised_indices _ _ _ _ _).2.trans (by rw [kept]),
      fun room => ?_, fun full => ?_⟩
    · cases sd <;> rfl
    · have after := raised_of_room place (s := viewFault sd k s) (by rw [kept]; exact room) frame view detail
      rwa [kept, time] at after
    · have after := raised_of_full place (s := viewFault sd k s) (by rw [kept]; exact full) frame view detail
      rwa [countRaise_of_place dropped, kept] at after

/-! ## Sets (R43 to R45, R131, R141, R155) -/

theorem enabled_iff (x : SideState) : x.enabled = true ↔ ∃ old, x.active = some old ∧ old.desc.enabled = true := by
  unfold SideState.enabled
  cases x.active <;> simp

/-- Settles O44: what an accepted commit puts in force, and what a changed ring brings with it. -/
theorem acceptedCommitTakesEffect : Obligations.AcceptedCommitTakesEffect := by
  intro s passes
  let acc := acceptedFrom s.cau.pendingSet (fieldWord s.cau.pendingSet 0 1)
  have accepted : commit s = moveRing (ringChanged s.cau.device acc.device) (updateLines (offerSet acc (installSet acc s))) :=
    if_pos passes
  refine ⟨updateLines (offerSet acc (installSet acc s)), linesLaw_updateLines _, rfl, fun changes => ?_, fun stays => ?_⟩
  · have changed := (ringChanged_iff s.cau.device acc.device).mpr changes
    rw [accepted, changed]
    exact ⟨if_pos changed, rfl⟩
  · have same : ringChanged s.cau.device acc.device = false := by
      rwa [← Bool.not_eq_true, ringChanged_iff]
    rw [accepted, same]
    exact ⟨if_neg (by simp [same]), rfl⟩

theorem takeSet_of_enabled {x : SideState} (was : x.enabled = true) (now : Word) (a : ActiveSet) :
    takeSet now a x = if a.desc.enabled then { x with active := some a, takeWaiting := false } else .off (some a) := if_pos was

theorem takeSet_of_disabled {x : SideState} (was : x.enabled = false) (now : Word) (a : ActiveSet) :
    takeSet now a x = if a.desc.enabled then enabledSide now a else { x with active := some a, takeWaiting := false } :=
  if_neg (by simp [was])

/-- Settles O46: a side that fills a frame waits for an enabling set; the four cases of taking one. -/
theorem sideTakesTheSet : Obligations.SideTakesTheSet := by
  refine ⟨fun now a x => ⟨fun filling enables => ?_, fun other => ?_⟩, fun now a x => ?_⟩
  · exact if_pos (by rw [(filling_isSome x.ring).mpr filling, enables]; rfl)
  · refine if_neg ?_
    rw [Bool.and_eq_true, filling_isSome]
    rintro ⟨⟨b, filling⟩, enables⟩
    rcases other with none | disables
    · exact none b filling
    · exact absurd (disables.symm.trans enables) (by decide)
  · dsimp only
    rw [← enabled_iff]
    simp only [Bool.not_eq_true]
    refine ⟨fun will was => ?_, fun will was => ?_, fun will was => ?_, fun will was => ?_⟩
    · rw [takeSet_of_disabled was, if_neg (by simp [will])]
    · rw [takeSet_of_enabled was, if_pos will]
    · rw [takeSet_of_enabled was, if_neg (by simp [will])]
      exact ⟨rfl, sideReset_off⟩
    · rw [takeSet_of_disabled was, if_pos will]
      exact ⟨rfl, rfl, sideReset_off⟩

end Sys2Proof.Safety

/-! PROOF. Capture writes (R49, R71 to R74, R90, R91): a frame start and a continuation, as changes of one side and of the state
around it. -/

namespace Sys2Proof.Safety

open Sys2Proof.Machine

/-! ## Accumulation (R90, R91) -/

theorem accumulate_eq (tile y : Nat) (g : Glare) :
    accumulate tile y g =
      { g with
        acc := if (g.acc.map (·.n)).sum < 16777215 then g.acc.set tile (addLuma g.frameGt y (g.accOf tile)) else g.acc } := by
  unfold accumulate
  by_cases room : g.pixelCount < Config.wordCountMax
  · rw [if_pos room, if_pos (show (g.acc.map (·.n)).sum < 16777215 from room)]
  · rw [if_neg room, if_neg (show ¬(g.acc.map (·.n)).sum < 16777215 from room)]

/-- The first word of a frame meets cleared accumulators. -/
theorem accumulate_frameStart (gt tile y : Nat) (g : Glare) :
    accumulate tile y (glareFrameStart gt g) =
      { g with
        frameGt := gt
        acc := (List.replicate 48 { n := 0, lumaSum := 0, hot := 0, maximum := 0 }).set tile
          { n := 1, lumaSum := y, hot := if gt ≤ y then 1 else 0, maximum := y } } := by
  have cleared : (glareFrameStart gt g).accOf tile = { n := 0, lumaSum := 0, hot := 0, maximum := 0 } := by
    unfold Glare.accOf glareFrameStart
    simp only [List.getD_eq_getElem?_getD, List.getElem?_replicate]
    split <;> rfl
  rw [accumulate_eq, cleared, if_pos (by simp [glareFrameStart, TileAcc.cleared])]
  simp only [glareFrameStart, addLuma, Nat.zero_add, Nat.zero_max]
  rfl

/-! ## A continuation (R74) -/

/-- A continued frame changes its side, memory, the open row and its transfer. -/
theorem finishWord_continueFrame {u : State} {h : InHand} (hand : u.inHand = some h) (sd : Side) (a : ActiveSet) (b : Fin 3)
    (o addr : Nat) (w : Word) :
    finishWord [] (continueFrame sd a b o addr w u) =
      setSide sd (continueSide a b o w (u.side sd))
        { u with
          mem := Memory.writeWord u.mem addr 0xF (developedWord a b o w (u.side sd))
          inHand := some
            { handled h [] with
              frameDone := if o + 1 = a.desc.geometry.w * a.desc.geometry.h then some (sd, b) else h.frameDone }
          mct := { u.mct with banks := openedBanks u.mct.banks addr } } := by
  have counted : (modSide sd (continueSide a b o w) (storeWord addr 0xF (developedWord a b o w (u.side sd)) u)).inHand =
      some h := by simpa using hand
  have shown : ∀ i : InHand, { modSide sd (continueSide a b o w)
        (storeWord addr 0xF (developedWord a b o w (u.side sd)) u) with inHand := some i } =
      setSide sd (continueSide a b o w (u.side sd))
        { u with
          mem := Memory.writeWord u.mem addr 0xF (developedWord a b o w (u.side sd))
          inHand := some i
          mct := { u.mct with banks := openedBanks u.mct.banks addr } } := fun i => by
    cases sd <;> rfl
  rw [← shown]
  unfold continueFrame markFrameDone
  by_cases last : o + 1 = a.desc.geometry.size
  · have marked : (modInHand (fun h => { h with frameDone := some (sd, b) })
        (modSide sd (continueSide a b o w) (storeWord addr 0xF (developedWord a b o w (u.side sd)) u))).inHand =
        some { h with frameDone := some (sd, b) } := by
      unfold modInHand
      rw [counted]
      rfl
    rw [if_pos last, if_pos (show o + 1 = a.desc.geometry.w * a.desc.geometry.h from last), finishWord_of_inHand marked]
    rfl
  · rw [if_neg last, if_neg (show ¬o + 1 = a.desc.geometry.w * a.desc.geometry.h from last), finishWord_of_inHand counted]
    rfl

/-- Settles O31: the word is developed with the frame's profile, written, counted and accumulated. -/
theorem bufferWriteContinuesFrame : Obligations.BufferWriteContinuesFrame := by
  intro s h addr sd b o a profile hw full force filling frameProfile
  obtain ⟨hand, _, _, _, h4, hl⟩ := currentWord_spec hw.1
  have continued : fullWrite sd a b o addr (currentData h) s = continueFrame sd a b o addr (currentData h) s := by
    unfold fullWrite
    rw [filling]
  have develops : developProfile a b (s.side sd) = a.profiles.get profile := by
    unfold developProfile
    rw [frameProfile]
    rfl
  have word : developedWord a b o (currentData h) (s.side sd) =
      outputWord (a.profiles.get profile) ((s.side sd).glare.map.getD (tileOf a.desc.geometry o) 256) (writeData h) := by
    unfold developedWord
    rw [develops]
    rfl
  have side : continueSide a b o (currentData h) (s.side sd) = { s.side sd with
      ring := (s.side sd).ring.setBuf b (countWord (developedWord a b o (currentData h) (s.side sd)) o ((s.side sd).ring.buf b))
      glare := { (s.side sd).glare with
        acc := if ((s.side sd).glare.acc.map (·.n)).sum < 16777215 then
            (s.side sd).glare.acc.set (tileOf a.desc.geometry o) (addLuma (s.side sd).glare.frameGt
              (luma (a.profiles.get profile) (writeData h)) ((s.side sd).glare.accOf (tileOf a.desc.geometry o)))
          else (s.side sd).glare.acc } } := by
    unfold continueSide
    rw [develops, accumulate_eq]
    rfl
  have taken : exec .bufferWordWrite s = .next (setSide sd (continueSide a b o (currentData h) (s.side sd))
      { s with
        mem := Memory.writeWord s.mem addr 0xF (developedWord a b o (currentData h) (s.side sd))
        inHand := some
          { handled h [] with
            frameDone := if o + 1 = a.desc.geometry.w * a.desc.geometry.h then some (sd, b) else h.frameDone }
        mct := { s.mct with banks := openedBanks s.mct.banks addr } }) := by
    rw [exec_bufferWordWrite hw force, if_pos (fullWord_of_full full), continued, finishWord_continueFrame hand]
  refine ⟨_, taken, fun wf => ?_, ?_⟩
  · rw [setSide_mem, word]
    change Stored s.mem (Memory.writeWord s.mem addr 0xF _) addr 0xF _
    exact stored_writeWord wf h4 hl _ _
  · rw [side, word, setSide_mem]
    rfl

/-! ## A frame start (R71, R72, R73) -/

/-- The raise of FRAME_CUT for the FILLING frame of a side, if it has one (R72). -/
def cutRaise (sd : Side) (s : State) : State :=
  match (s.side sd).ring.filling with
  | some c => raiseSide sd .frameCut (some (frameOf (s.side sd) c)) (toWord ((s.side sd).ring.buf c).count) s
  | none => s

theorem cutRaise_inHand (sd : Side) (s : State) : (cutRaise sd s).inHand = s.inHand := by
  unfold cutRaise
  split
  · exact raiseSide_inHand ..
  · rfl

theorem cutRaise_mem (sd : Side) (s : State) : (cutRaise sd s).mem = s.mem := by
  unfold cutRaise
  split
  · exact raiseSide_mem ..
  · rfl

theorem cutRaise_banks (sd : Side) (s : State) : (cutRaise sd s).mct.banks = s.mct.banks := by
  unfold cutRaise
  split
  · exact raiseSide_banks ..
  · rfl

/-- The cut of the other FILLING frame is the raise, and the change of that buffer's record. -/
theorem cutOther_eq {sd : Side} {b : Fin 3} {s : State} (hb : ((s.side sd).ring.buf b).state ≠ .filling) :
    cutOther sd b s = setSide sd (cutOtherSide b (s.side sd)) (cutRaise sd s) := by
  unfold cutOther cutOtherSide cutRaise
  cases filling : (s.side sd).ring.filling with
  | none => exact (setSide_self sd s).symm
  | some c =>
    have other : c ≠ b := fun same => hb (same ▸ find_spec filling)
    simp only [if_neg other]
    unfold cutFrame
    rw [raiseSide_modBuf sd rfl]
    unfold modBuf modRing modSide
    have side : (raiseSide sd .frameCut (some (frameOf (s.side sd) c)) (toWord ((s.side sd).ring.buf c).count) s).side sd =
        s.side sd := by simp [faultSide, SideKind.classA]
    rw [side]

theorem frameStart_eq {sd : Side} {a : ActiveSet} {b : Fin 3} {s : State}
    (hb : ((s.side sd).ring.buf b).state ≠ .filling) :
    frameStart sd a b s = setSide sd (startSide s.timebase a b (cutOtherSide b (s.side sd))) (cutRaise sd s) := by
  unfold frameStart modSide
  rw [cutOther_eq hb, setSide_setSide, side_setSide, if_pos rfl]

/-- What a frame start leaves of its side for the first word's development (R49, R71). -/
theorem cutOtherSide_eq (b : Fin 3) (x : SideState) : cutOtherSide b x = { x with ring := (cutOtherSide b x).ring } := by
  unfold cutOtherSide
  split
  · split <;> rfl
  · rfl

theorem cutOtherSide_marks (b : Fin 3) (x : SideState) :
    (cutOtherSide b x).ring.nextSeq = x.ring.nextSeq ∧ (cutOtherSide b x).ring.dropped = x.ring.dropped ∧
      (cutOtherSide b x).ring.lastVerified = x.ring.lastVerified ∧ (cutOtherSide b x).ring.equalRun = x.ring.equalRun ∧
      (cutOtherSide b x).ring.frozenMark = x.ring.frozenMark := by
  unfold cutOtherSide
  split
  · split
    · exact ⟨rfl, rfl, rfl, rfl, rfl⟩
    · simp
  · exact ⟨rfl, rfl, rfl, rfl, rfl⟩

/-- The side after the first word of a frame: everything but its ring (R49, R71, R90, R91). -/
theorem continueSide_startSide (now : Word) (a : ActiveSet) (b : Fin 3) (o : Nat) (w : Word) (x : SideState) :
    continueSide a b o w (startSide now a b (cutOtherSide b x)) =
      { x with
        frameProfile := some (chooseProfile a.desc x.glare.night)
        ring := (continueSide a b o w (startSide now a b (cutOtherSide b x))).ring
        glare := { x.glare with
          frameGt := (a.profiles.get (chooseProfile a.desc x.glare.night)).gt
          acc := (List.replicate 48 { n := 0, lumaSum := 0, hot := 0, maximum := 0 }).set (tileOf a.desc.geometry o)
            { n := 1
              lumaSum := luma (a.profiles.get (chooseProfile a.desc x.glare.night)) w
              hot :=
                if (a.profiles.get (chooseProfile a.desc x.glare.night)).gt ≤
                    luma (a.profiles.get (chooseProfile a.desc x.glare.night)) w then 1 else 0
              maximum := luma (a.profiles.get (chooseProfile a.desc x.glare.night)) w } } } := by
  rw [← accumulate_frameStart, cutOtherSide_eq]
  rfl

/-- The first word of a frame is developed with the profile chosen at its start (R49). -/
theorem developedWord_startSide (now : Word) (a : ActiveSet) (b : Fin 3) (o : Nat) (w : Word) (x : SideState) :
    developedWord a b o w (startSide now a b (cutOtherSide b x)) =
      outputWord (a.profiles.get (chooseProfile a.desc x.glare.night)) (x.glare.map.getD (tileOf a.desc.geometry o) 256)
        w := by
  rw [cutOtherSide_eq]
  rfl

/-- The records after the first word of a frame (R71, R72, R74). -/
theorem firstWord_buf (now : Word) (a : ActiveSet) (b : Fin 3) (o : Nat) (w : Word) (x : SideState) (c : Fin 3) :
    (continueSide a b o w (startSide now a b (cutOtherSide b x))).ring.buf c =
      if c = b then
        countWord (developedWord a b o w (startSide now a b (cutOtherSide b x))) o
          ((startSide now a b (cutOtherSide b x)).ring.buf b)
      else if x.ring.filling = some c then cutRecord (x.ring.buf c) else x.ring.buf c := by
  change (BufferRing.setBuf _ b _).buf c = _
  rw [buf_setBuf]
  split
  · rfl
  · next other => rw [frameStart_buf, if_neg other]

/-- The other marks of the ring after the first word of a frame (R71, R73). -/
theorem firstWord_marks (now : Word) (a : ActiveSet) (b : Fin 3) (o : Nat) (w : Word) (x : SideState) :
    let ring := (continueSide a b o w (startSide now a b (cutOtherSide b x))).ring
    ring.nextSeq = x.ring.nextSeq + 1 ∧
      ring.dropped = (if (x.ring.buf b).state = .ready then min 65535 (x.ring.dropped + 1) else x.ring.dropped) ∧
      ring.lastVerified = x.ring.lastVerified ∧ ring.equalRun = x.ring.equalRun ∧
      ring.frozenMark = x.ring.frozenMark := by
  obtain ⟨seq, dropped, verified, run, mark⟩ := cutOtherSide_marks b x
  have own : (cutOtherSide b x).ring.buf b = x.ring.buf b := by rw [cutOtherSide_buf, if_neg (by simp)]
  simp only [continueSide, startSide, startRing, setBuf_nextSeq, setBuf_dropped, setBuf_lastVerified, setBuf_equalRun,
    setBuf_frozenMark, seq, dropped, verified, run, mark, own, saturate]
  simp

/-- Settles O30: a full word in a FREE or READY buffer cuts the other FILLING frame, starts a frame, and is its first word. -/
theorem bufferWriteStartsFrame : Obligations.BufferWriteStartsFrame := by
  intro s h addr sd b o a hw full force state
  obtain ⟨hand, _, _, _, h4, hl⟩ := currentWord_spec hw.1
  have notFilling : ((s.side sd).ring.buf b).state ≠ .filling := by
    rcases state with free | ready
    · simp [free]
    · simp [ready]
  have started : fullWrite sd a b o addr (currentData h) s =
      continueFrame sd a b o addr (currentData h)
        (setSide sd (startSide s.timebase a b (cutOtherSide b (s.side sd))) (cutRaise sd s)) := by
    rw [← frameStart_eq notFilling]
    unfold fullWrite
    rcases state with free | ready
    · rw [free]
    · rw [ready]
  have taken : exec .bufferWordWrite s = .next
      (setSide sd (continueSide a b o (currentData h) (startSide s.timebase a b (cutOtherSide b (s.side sd))))
        { cutRaise sd s with
          mem := Memory.writeWord s.mem addr 0xF (developedWord a b o (currentData h)
            (startSide s.timebase a b (cutOtherSide b (s.side sd))))
          inHand := some
            { handled h [] with
              frameDone := if o + 1 = a.desc.geometry.w * a.desc.geometry.h then some (sd, b) else h.frameDone }
          mct := { (cutRaise sd s).mct with banks := openedBanks s.mct.banks addr } }) := by
    rw [exec_bufferWordWrite hw force, if_pos (fullWord_of_full full), started,
      finishWord_continueFrame (by rw [setSide_inHand, cutRaise_inHand, hand]), side_setSide, if_pos rfl, setSide_mem,
      cutRaise_mem, setSide_mct, cutRaise_banks]
    cases sd <;> rfl
  obtain ⟨seq, dropped, marks⟩ := firstWord_marks s.timebase a b o (currentData h) (s.side sd)
  have word := developedWord_startSide s.timebase a b o (currentData h) (s.side sd)
  refine ⟨_, (continueSide a b o (currentData h) (startSide s.timebase a b (cutOtherSide b (s.side sd)))).ring, taken,
    fun wf => ?_, ?_, ?_, fun c other => ?_, seq, dropped, marks⟩
  · rw [setSide_mem, word]
    change Stored s.mem (Memory.writeWord s.mem addr 0xF _) addr 0xF _
    exact stored_writeWord wf h4 hl _ _
  · rw [setSide_mem, continueSide_startSide]
    cases sd <;> rfl
  · rw [firstWord_buf, if_pos rfl, frameStart_buf, if_pos rfl, word]
    have counted : saturate Config.wordCountMax (0 + 1) = 1 := rfl
    have folded : ∀ term : Word, (0 : Word) ^^^ term = term := fun _ => BitVec.zero_xor
    have glare : (cutOtherSide b (s.side sd)).glare = (s.side sd).glare := (cutOtherSide_leaves b (s.side sd)).2.2.1
    simp only [countWord, startRecord, cutOtherSide_buf, counted, folded, glare, (cutOtherSide_marks b (s.side sd)).1, ne_eq,
      not_true_eq_false, and_false, if_false, signatureTerm]
    rfl
  · rw [firstWord_buf, if_neg other]
    rfl

end Sys2Proof.Safety

/-! PROOF. The completion of a frame (R77, R78, R82, R83): its steps up to the take of a waiting set as one change of a
side, with the raises of SHORT_FRAME and FROZEN around it. -/

namespace Sys2Proof.Safety

open Sys2Proof.Machine

/-! ## The judgements of a completion -/

/-- Every word of the frame was written (R78). -/
abbrev WholeFrame (a : ActiveSet) (r : BufRecord) : Prop := r.count = a.desc.geometry.w * a.desc.geometry.h

/-- The frame is VERIFIED after the length check (R78). -/
abbrev VerifiedFrame (a : ActiveSet) (r : BufRecord) : Prop := r.verified = true ∧ WholeFrame a r

/-- The frame's signature is that of the last verified one (R82). -/
abbrev EqualFrame (ring : BufferRing) (r : BufRecord) : Prop := ring.lastVerified = some r.signature

/-- The equal run after the frame (R82). -/
abbrev runAfterFrame (a : ActiveSet) (ring : BufferRing) (r : BufRecord) : Nat :=
  if VerifiedFrame a r then (if EqualFrame ring r then min 255 (ring.equalRun + 1) else 0) else ring.equalRun

/-- The frozen mark after the frame, before the check of R83 (R82). -/
abbrev markAfterFrame (a : ActiveSet) (ring : BufferRing) (r : BufRecord) : Bool :=
  if VerifiedFrame a r ∧ ¬EqualFrame ring r then false else ring.frozenMark

/-- The frame raises FROZEN (R83). -/
abbrev FrozenFrame (a : ActiveSet) (ring : BufferRing) (r : BufRecord) : Prop :=
  VerifiedFrame a r ∧ a.desc.frozenRun - 1 ≤ runAfterFrame a ring r ∧ markAfterFrame a ring r = false

/-- The record of the completed frame (R77, R78). -/
def completedRecord (now : Word) (a : ActiveSet) (r : BufRecord) : BufRecord :=
  { r with state := .ready, completionTime := now, verified := decide (VerifiedFrame a r) }

/-- The ring after a completion (R77, R82, R83). -/
def completedRing (now : Word) (a : ActiveSet) (b : Fin 3) (ring : BufferRing) : BufferRing :=
  { ring.setBuf b (completedRecord now a (ring.buf b)) with
    lastVerified := if VerifiedFrame a (ring.buf b) then some (ring.buf b).signature else ring.lastVerified
    equalRun := runAfterFrame a ring (ring.buf b)
    frozenMark := if FrozenFrame a ring (ring.buf b) then true else markAfterFrame a ring (ring.buf b) }

/-- The raise of SHORT_FRAME at a completion, if the frame is not whole (R78). -/
def shortRaise (sd : Side) (a : ActiveSet) (b : Fin 3) (s : State) : State :=
  if WholeFrame a ((s.side sd).ring.buf b) then s
  else raiseSide sd .shortFrame (some (frameOf (s.side sd) b)) (toWord ((s.side sd).ring.buf b).count) s

/-- The raises of a completion (R78, R83). -/
def completionRaises (sd : Side) (a : ActiveSet) (b : Fin 3) (s : State) : State :=
  if FrozenFrame a (s.side sd).ring ((s.side sd).ring.buf b) then
    raiseSide sd .frozen (some (frameOf (s.side sd) b)) ((s.side sd).ring.buf b).signature (shortRaise sd a b s)
  else shortRaise sd a b s

/-! ## The steps -/

theorem shortRaise_side (sd : Side) (a : ActiveSet) (b : Fin 3) (s : State) (sd' : Side) :
    (shortRaise sd a b s).side sd' = s.side sd' := by
  unfold shortRaise
  split
  · rfl
  · by_cases same : sd' = sd
    · simp [faultSide, SideKind.classA, same]
    · simp [same]

theorem shortRaise_timebase (sd : Side) (a : ActiveSet) (b : Fin 3) (s : State) :
    (shortRaise sd a b s).timebase = s.timebase := by
  unfold shortRaise
  split
  · rfl
  · exact raiseSide_timebase ..

theorem completionRaises_timebase (sd : Side) (a : ActiveSet) (b : Fin 3) (s : State) :
    (completionRaises sd a b s).timebase = s.timebase := by
  unfold completionRaises
  split
  · exact (raiseSide_timebase ..).trans (shortRaise_timebase sd a b s)
  · exact shortRaise_timebase sd a b s

/-- The raises of a completion change nothing of the side but its view. -/
theorem completionRaises_side (sd : Side) (a : ActiveSet) (b : Fin 3) (s : State) :
    (completionRaises sd a b s).side sd = { s.side sd with view := ((completionRaises sd a b s).side sd).view } := by
  unfold completionRaises
  split
  · rw [raiseSide_side_self, shortRaise_side]
  · rw [shortRaise_side]

/-- Step 1: the length check clears VERIFIED of a frame that is not whole (R78). -/
theorem lengthCheck_eq (sd : Side) (a : ActiveSet) (b : Fin 3) (s : State) :
    lengthCheck sd a b s =
      setSide sd
        { s.side sd with
          ring := (s.side sd).ring.setBuf b
            { (s.side sd).ring.buf b with verified := decide (VerifiedFrame a ((s.side sd).ring.buf b)) } }
        (shortRaise sd a b s) := by
  unfold lengthCheck shortRaise
  by_cases whole : WholeFrame a ((s.side sd).ring.buf b)
  · have kept : { (s.side sd).ring.buf b with verified := decide (VerifiedFrame a ((s.side sd).ring.buf b)) } =
        (s.side sd).ring.buf b := by
      have judged : decide (VerifiedFrame a ((s.side sd).ring.buf b)) = ((s.side sd).ring.buf b).verified := by
        rw [Bool.eq_iff_iff, decide_eq_true_iff]
        exact and_iff_left whole
      rw [judged]
    rw [if_pos whole, kept, setBuf_self, setSide_self]
    exact if_pos whole
  · have side : (raiseSide sd .shortFrame (some (frameOf (s.side sd) b)) (toWord ((s.side sd).ring.buf b).count) s).side sd =
        s.side sd := by simp [faultSide, SideKind.classA]
    have cleared : decide (VerifiedFrame a ((s.side sd).ring.buf b)) = false := decide_eq_false fun v => whole v.2
    rw [if_neg whole, cleared]
    refine (if_neg whole).trans ?_
    rw [raiseSide_modBuf sd rfl]
    unfold modBuf modRing modSide
    rw [side]

/-- Step 3, second half: the check of R83 on a changed side that kept its view. -/
theorem frozenCheck_setSide {sd : Side} {y : SideState} {u : State} (a : ActiveSet) (b : Fin 3)
    (view : y.view = (u.side sd).view) (active : y.active = (u.side sd).active) :
    frozenCheck sd a b (setSide sd y u) =
      if a.desc.frozenRun - 1 ≤ y.ring.equalRun ∧ y.ring.frozenMark = false then
        setSide sd
          { y with
            ring := { y.ring with frozenMark := true }
            view := ((raiseSide sd .frozen (some (frameOf y b)) (y.ring.buf b).signature u).side sd).view }
          (raiseSide sd .frozen (some (frameOf y b)) (y.ring.buf b).signature u)
      else setSide sd y u := by
  unfold frozenCheck
  rw [side_setSide, if_pos rfl]
  refine if_congr Iff.rfl ?_ rfl
  have marked : modRing sd (fun r => { r with frozenMark := true }) (setSide sd y u) =
      setSide sd { y with ring := { y.ring with frozenMark := true } } u := by
    unfold modRing modSide
    rw [setSide_setSide, side_setSide, if_pos rfl]
  rw [marked, raiseSide_setSide_of_view sd .frozen _ _ { y with ring := { y.ring with frozenMark := true } } u view active,
    raiseSide_side_self]

theorem runCheck_setSide (sd : Side) (y : SideState) (u : State) (a : ActiveSet) (b : Fin 3) :
    runCheck sd a b (setSide sd y u) =
      if (y.ring.buf b).verified then
        frozenCheck sd a b (setSide sd { y with ring := stepRun (y.ring.buf b).signature y.ring } u)
      else setSide sd y u := by
  unfold runCheck modRing modSide
  dsimp only
  rw [side_setSide, if_pos rfl, setSide_setSide]

/-- Step 2 after step 1 (R77, R78). -/
theorem ready_lengthCheck (sd : Side) (a : ActiveSet) (b : Fin 3) (now : Word) (s : State) :
    modSide sd (readySide now b) (lengthCheck sd a b s) =
      setSide sd
        { s.side sd with
          frameProfile := none
          ring := (s.side sd).ring.setBuf b (completedRecord now a ((s.side sd).ring.buf b)) }
        (shortRaise sd a b s) := by
  unfold modSide
  rw [lengthCheck_eq, setSide_setSide, side_setSide, if_pos rfl]
  unfold readySide
  simp only [setBuf_setBuf, buf_setBuf, if_true]
  rfl

theorem completedRing_of_unverified {a : ActiveSet} {b : Fin 3} {ring : BufferRing}
    (not : ¬VerifiedFrame a (ring.buf b)) (now : Word) :
    completedRing now a b ring = ring.setBuf b (completedRecord now a (ring.buf b)) := by
  have frozen : ¬FrozenFrame a ring (ring.buf b) := fun f => not f.1
  have fresh : ¬(VerifiedFrame a (ring.buf b) ∧ ¬EqualFrame ring (ring.buf b)) := fun f => not f.1
  unfold completedRing runAfterFrame markAfterFrame
  rw [if_neg not, if_neg frozen, if_neg not, if_neg fresh]
  match b with
  | 0 | 1 | 2 => rfl

/-- Step 3, first half, on the ring of a verified frame (R82). -/
theorem stepRun_completed {a : ActiveSet} {b : Fin 3} {ring : BufferRing} (verified : VerifiedFrame a (ring.buf b))
    (now : Word) :
    stepRun (ring.buf b).signature (ring.setBuf b (completedRecord now a (ring.buf b))) =
      { ring.setBuf b (completedRecord now a (ring.buf b)) with
        lastVerified := some (ring.buf b).signature
        equalRun := runAfterFrame a ring (ring.buf b)
        frozenMark := markAfterFrame a ring (ring.buf b) } := by
  unfold stepRun runAfterFrame markAfterFrame
  rw [setBuf_lastVerified, setBuf_equalRun, if_pos verified]
  by_cases equal : EqualFrame ring (ring.buf b)
  · rw [if_pos equal, if_pos equal, if_neg (fun f => f.2 equal)]
    conv_rhs => rw [← (show ring.lastVerified = _ from equal)]
    match b with
    | 0 | 1 | 2 => rfl
  · rw [if_neg equal, if_neg equal, if_pos ⟨verified, equal⟩]

/-- Steps 1 to 3 of a completion: the ring is the completed one, and the view that after the raises. -/
theorem runCheck_completed (sd : Side) (a : ActiveSet) (b : Fin 3) (now : Word) (s : State) :
    runCheck sd a b (modSide sd (readySide now b) (lengthCheck sd a b s)) =
      setSide sd
        { s.side sd with
          frameProfile := none
          ring := completedRing now a b (s.side sd).ring
          view := ((completionRaises sd a b s).side sd).view }
        (completionRaises sd a b s) := by
  rw [ready_lengthCheck, runCheck_setSide, buf_setBuf, if_pos rfl]
  by_cases verified : VerifiedFrame a ((s.side sd).ring.buf b)
  · have own : (stepRun ((s.side sd).ring.buf b).signature
        ((s.side sd).ring.setBuf b (completedRecord now a ((s.side sd).ring.buf b)))).buf b =
        completedRecord now a ((s.side sd).ring.buf b) := by rw [stepRun_buf, buf_setBuf, if_pos rfl]
    have check := frozenCheck_setSide (sd := sd) (u := shortRaise sd a b s) (y := { s.side sd with
      frameProfile := none
      ring := stepRun ((s.side sd).ring.buf b).signature
        ((s.side sd).ring.setBuf b (completedRecord now a ((s.side sd).ring.buf b))) }) a b
      (by rw [shortRaise_side]) (by rw [shortRaise_side])
    rw [if_pos (show (completedRecord now a _).verified = true from decide_eq_true verified)]
    refine check.trans ?_
    unfold frameOf
    dsimp only
    rw [own, stepRun_completed verified]
    unfold completionRaises completedRing
    by_cases frozen : FrozenFrame a (s.side sd).ring ((s.side sd).ring.buf b)
    · rw [if_pos frozen.2, if_pos frozen, if_pos verified, if_pos frozen]
      rfl
    · rw [if_neg (fun f => frozen ⟨verified, f⟩), if_neg frozen, if_pos verified, if_neg frozen, shortRaise_side]
  · have unfrozen : completionRaises sd a b s = shortRaise sd a b s := if_neg fun f => verified f.1
    rw [if_neg (show ¬(completedRecord now a _).verified = true from by simpa [completedRecord] using verified), unfrozen,
      completedRing_of_unverified verified, shortRaise_side]

/-- The side after steps 1 to 5 of a completion, under the view that the raises leave (R77). -/
def completedSide (now : Word) (a : ActiveSet) (b : Fin 3) (x : SideState) (v : View) : SideState :=
  { x with
    frameProfile := none
    ring := completedRing now a b x.ring
    glare := completionUpdate a.desc (a.profiles.get (x.ring.buf b).profile) x.glare
    view := { v with watchdog := some { loadTime := now, duration := a.desc.intervalMax } } }

/-- A completion: steps 1 to 5 as one change of the side and the raises, then the take of a waiting set (R77). -/
theorem completeFrame_eq {sd : Side} {a : ActiveSet} {b : Fin 3} {s : State} (force : (s.side sd).inForce = some a)
    (filling : ((s.side sd).ring.buf b).state = .filling) :
    completeFrame sd b s =
      takeWaitingSet sd
        (setSide sd (completedSide s.timebase a b (s.side sd) ((completionRaises sd a b s).side sd).view)
          (completionRaises sd a b s)) := by
  have now : (lengthCheck sd a b s).timebase = s.timebase := by
    rw [lengthCheck_eq, setSide_timebase, shortRaise_timebase]
  have record : (completedRing s.timebase a b (s.side sd).ring).buf b =
      completedRecord s.timebase a ((s.side sd).ring.buf b) := by
    unfold completedRing
    rw [buf_of_marks, buf_setBuf, if_pos rfl]
  unfold completeFrame
  rw [force]
  refine (if_pos filling).trans ?_
  unfold finishFrame modView
  rw [now, runCheck_completed]
  unfold modSide
  rw [setSide_setSide, setSide_setSide, side_setSide, side_setSide, if_pos rfl, if_pos rfl]
  unfold updateGlare completedSide
  dsimp only
  rw [record]
  rfl

/-- A completion without a waiting set (R44, R77). -/
theorem completeFrame_of_not_waiting {sd : Side} {a : ActiveSet} {b : Fin 3} {s : State}
    (force : (s.side sd).inForce = some a) (filling : ((s.side sd).ring.buf b).state = .filling)
    (waits : (s.side sd).takeWaiting = false) :
    completeFrame sd b s =
      setSide sd (completedSide s.timebase a b (s.side sd) ((completionRaises sd a b s).side sd).view)
        (completionRaises sd a b s) := by
  rw [completeFrame_eq force filling]
  unfold takeWaitingSet
  split
  · exact if_neg (by rw [side_setSide, if_pos rfl]; simp [completedSide, waits])
  · rfl

/-! ## The take of a waiting set (R44) -/

theorem shortRaise_setSide {sd : Side} {y : SideState} {s : State} (a : ActiveSet) (b : Fin 3)
    (ring : y.ring = (s.side sd).ring) (view : y.view = (s.side sd).view) :
    shortRaise sd a b (setSide sd y s) = setSide sd y (shortRaise sd a b s) := by
  unfold shortRaise frameOf
  rw [side_setSide, if_pos rfl, ring]
  split
  · rfl
  · exact raiseSide_setSide sd rfl _ _ y s (by rw [view])

/-- The raises of a completion and a change of its side that keeps the ring and the view. -/
theorem completionRaises_setSide {sd : Side} {y : SideState} {s : State} (a : ActiveSet) (b : Fin 3)
    (ring : y.ring = (s.side sd).ring) (view : y.view = (s.side sd).view) (active : y.active = (s.side sd).active) :
    completionRaises sd a b (setSide sd y s) =
      setSide sd { y with view := ((completionRaises sd a b s).side sd).view } (completionRaises sd a b s) := by
  unfold completionRaises frameOf
  rw [shortRaise_setSide a b ring view, side_setSide, if_pos rfl, ring]
  split
  · rw [raiseSide_setSide_of_view sd .frozen _ _ y (shortRaise sd a b s) (by rw [view, shortRaise_side])
      (by rw [active, shortRaise_side]), raiseSide_side_self, ← ring]
  · rw [shortRaise_side, ← view, ← ring]

/-- The take of a set does not look at the mark that it clears. -/
theorem takeSet_clears (now : Word) (a : ActiveSet) (x : SideState) :
    takeSet now a { x with takeWaiting := false } = takeSet now a x := rfl

/-- A completion that takes a waiting set is one without, then the take (R44, R77). -/
theorem completeFrame_of_waiting {sd : Side} {a : ActiveSet} {b : Fin 3} {s : State} {acc : AcceptedSet}
    (force : (s.side sd).inForce = some a) (filling : ((s.side sd).ring.buf b).state = .filling)
    (accepted : s.cau.accepted = some acc) (waits : (s.side sd).takeWaiting = true) :
    completeFrame sd b s =
      updateLines (modSide sd (takeSet s.timebase (acc.forSide sd))
        (completeFrame sd b (modSide sd (fun x => { x with takeWaiting := false }) s))) := by
  have cau : (completionRaises sd a b s).cau = s.cau := by
    unfold completionRaises shortRaise
    (repeat' split) <;> simp
  have cleared : completeFrame sd b (modSide sd (fun x => { x with takeWaiting := false }) s) =
      setSide sd
        { completedSide s.timebase a b (s.side sd) ((completionRaises sd a b s).side sd).view with takeWaiting := false }
        (completionRaises sd a b s) := by
    have off : modSide sd (fun x => { x with takeWaiting := false }) s =
        setSide sd { s.side sd with takeWaiting := false } s := rfl
    have side : (setSide sd { s.side sd with takeWaiting := false } s).side sd =
        { s.side sd with takeWaiting := false } := by rw [side_setSide, if_pos rfl]
    rw [off, completeFrame_of_not_waiting (a := a) (by rw [side]; exact force) (by rw [side]; exact filling) (by rw [side]),
      side, setSide_timebase,
      completionRaises_setSide (y := { s.side sd with takeWaiting := false }) a b rfl rfl rfl, side_setSide, if_pos rfl,
      setSide_setSide]
    rfl
  rw [completeFrame_eq force filling, cleared]
  unfold takeWaitingSet
  rw [setSide_cau, cau, accepted]
  refine (if_pos (by rw [side_setSide, if_pos rfl]; exact waits)).trans ?_
  unfold modSide
  rw [setSide_setSide, setSide_setSide, side_setSide, side_setSide, if_pos rfl, if_pos rfl, takeSet_clears,
    setSide_timebase, completionRaises_timebase]

/-- Settles O34: the steps of a completion in one change of its side, and the take of a waiting set at its end. -/
theorem frameCompletionRunsItsSteps : Obligations.FrameCompletionRunsItsSteps := by
  refine fun s sd b a force filling => ⟨fun waits => ?_, fun acc accepted waits =>
    completeFrame_of_waiting force filling accepted waits⟩
  refine (completeFrame_of_not_waiting force filling waits).trans ?_
  change _ = setSide sd { (completionRaises sd a b s).side sd with
    frameProfile := none
    ring := completedRing s.timebase a b (s.side sd).ring
    glare := completionUpdate a.desc (a.profiles.get ((s.side sd).ring.buf b).profile) (s.side sd).glare
    view := { ((completionRaises sd a b s).side sd).view with
      watchdog := some { loadTime := s.timebase, duration := a.desc.intervalMax } } } (completionRaises sd a b s)
  rw [completionRaises_side]
  rfl

end Sys2Proof.Safety

/-! PROOF. Scan words (R111 to R115): the word the model serves is the one the statements describe, in each view state. -/

namespace Sys2Proof.Safety

open Sys2Proof.Machine

theorem countScanWord_eq (g : Geometry) (o : Nat) (r : ScanRecord) :
    countScanWord g o r =
      { r with
        wordsRead := min 16777215 (r.wordsRead + 1)
        readLast := if o + 1 = g.w * g.h then true else r.readLast } := by
  unfold countScanWord Geometry.size
  by_cases last : o + 1 = g.w * g.h
  · rw [if_pos last, decide_eq_true last, Bool.or_true]
    rfl
  · rw [if_neg last, decide_eq_false last, Bool.or_false]
    rfl

/-- In WAITING and LOST memory is not read, and the marker word is served (R114). -/
theorem serveFill_eq {sd : Side} {s : State} {h : InHand} (hand : s.inHand = some h) (g : Geometry) (r : ScanRecord) (o : Nat)
    (fill : (s.side sd).view.state = .waiting ∨ (s.side sd).view.state = .lost) :
    serveFill sd g r o s = scanWordServed sd g h r o s := by
  unfold serveFill setScanRecord
  rw [finishWord_markScanDone sd g h o _ ((modSide_inHand ..).trans hand), countScanWord_eq, markerWord_eq]
  unfold scanWordServed
  simp only [fill, if_true, true_or]
  cases sd <;> rfl

/-- Elsewhere the served buffer is read and folded into the signature, and the border may show the marker word (R111, R113,
R115). -/
theorem serveMemory_eq {sd : Side} {s : State} {h : InHand} (hand : s.inHand = some h) (g : Geometry) (r : ScanRecord)
    (mode : ServeMode) (o : Nat) (read : ¬((s.side sd).view.state = .waiting ∨ (s.side sd).view.state = .lost))
    (border : mode = .border ↔ (s.side sd).view.state = .marked ∨ (s.side sd).view.state = .holding) :
    serveMemory sd g r mode o s = scanWordServed sd g h r o s := by
  have opened : (openRow (g.base r.served + o * 4) s).inHand = some h := hand
  unfold serveMemory setScanRecord overlayWord
  dsimp only
  rw [finishWord_markScanDone sd g h o _ ((modSide_inHand ..).trans opened), countScanWord_eq, markerWord_eq, inBorder_eq]
  unfold scanWordServed
  simp only [read, border, if_false, false_or]
  cases sd <;> rfl

/-- A scan word outside OFF is served as the view state says (R112). -/
theorem serveScanWord_eq {sd : Side} {s : State} {h : InHand} (hand : s.inHand = some h) (g : Geometry) (r : ScanRecord)
    (o : Nat) (on : (s.side sd).view.state ≠ .off) : serveScanWord sd g r o s = scanWordServed sd g h r o s := by
  unfold serveScanWord
  cases view : (s.side sd).view.state with
  | off => exact absurd view on
  | waiting => exact serveFill_eq hand g r o (.inl view)
  | live => exact serveMemory_eq hand g r .plain o (by simp [view]) (by simp [view])
  | marked => exact serveMemory_eq hand g r .border o (by simp [view]) (by simp [view])
  | holding => exact serveMemory_eq hand g r .border o (by simp [view]) (by simp [view])
  | lost => exact serveFill_eq hand g r o (.inr view)

/-- A word of the scan in progress is a scan word (R111). -/
theorem serveBufferWord_of_record {sd : Side} {b : Fin 3} {r : ScanRecord} {s : State} {h : InHand} (hand : s.inHand = some h)
    (record : (s.side sd).scan.record = some r) (inProgress : r.complete = false) (buf : r.buf = b)
    (on : (s.side sd).view.state ≠ .off) (a : ActiveSet) (o addr : Nat) :
    serveBufferWord sd a b o addr s = scanWordServed sd a.desc.geometry h r o s := by
  have scanWord : scanWordRecord b (s.side sd) = some r := by
    unfold scanWordRecord
    rw [record]
    exact if_pos ⟨inProgress, buf⟩
  unfold serveBufferWord
  rw [scanWord]
  exact serveScanWord_eq hand _ r o on

/-- Settles O38: the word belongs to the open record, and is served by the view state. -/
theorem scanWordFollowsTheView : Obligations.ScanWordFollowsTheView := by
  intro s h addr sd b o a r hw force away record inProgress buf on
  rw [exec_bufferWordRead hw force (.inl (startsScan_eq_false away)), startsScan_eq_false away]
  exact congrArg Host.Outcome.next
    (serveBufferWord_of_record (currentWord_spec hw.1).1 record inProgress buf on a o addr)

/-! ## The end of a scan (R117) -/

theorem scanChecked_iff (g : Geometry) (r : ScanRecord) (served : BufRecord) :
    scanChecked g r served = true ↔ r.wordsRead = g.w * g.h ∧ r.fillServed = false ∧ served.verified = true := by
  simp [scanChecked, Geometry.size, and_assoc]

/-- A scan that completes is judged with its record complete. -/
theorem completeScan_of_open {sd : Side} {s : State} {a : ActiveSet} {r : ScanRecord}
    (force : (s.side sd).inForce = some a) (record : (s.side sd).scan.record = some r) (inProgress : r.complete = false) :
    completeScan sd s =
      judgeScan sd a.desc.geometry r
        (setSide sd { s.side sd with scan := { (s.side sd).scan with record := some { r with complete := true } } } s) := by
  unfold completeScan
  rw [force, record]
  simp only [inProgress, Bool.false_eq_true, if_false]
  rfl

/-- The judgement of a scan, on a side that a completed record has been set in. -/
theorem judgeScan_setSide (sd : Side) (g : Geometry) (r : ScanRecord) (y : SideState) (s : State) :
    judgeScan sd g r (setSide sd y s) =
      if scanChecked g r (y.ring.buf r.served) then
        if r.signature = (y.ring.buf r.served).signature then setSide sd y s
        else
          raiseSide sd .readback (some (frameOf y r.served)) (r.signature ^^^ (y.ring.buf r.served).signature) (setSide sd y s)
      else setSide sd { y with scan := countUnchecked y.scan } s := by
  unfold judgeScan modSide
  rw [side_setSide, if_pos rfl, setSide_setSide]

/-- Settles O41: the three ends of a scan, by whether it is compared and whether it differs. -/
theorem scanCompletionChecksTheReadback : Obligations.ScanCompletionChecksTheReadback := by
  intro s sd a r force record inProgress
  dsimp only
  rw [completeScan_of_open force record inProgress, judgeScan_setSide]
  refine ⟨fun checked same => ?_, fun checked differs => ?_, fun unchecked => ?_⟩
  · exact (if_pos ((scanChecked_iff ..).mpr checked)).trans (if_pos same)
  · exact (if_pos ((scanChecked_iff ..).mpr checked)).trans (if_neg differs)
  · exact if_neg (mt (scanChecked_iff ..).mp unchecked)

end Sys2Proof.Safety

/-! PROOF. A scan start on a READY buffer (R79, R106, R108, R109). -/

namespace Sys2Proof.Safety

open Sys2Proof.Machine

/-! ## The first word of a scan -/

/-- The first word of a scan is served as one of its words, in the state that the scan start leaves (R106, R111). -/
theorem exec_scanStart {s : State} {h : InHand} {addr : Nat} {sd : Side} {b : Fin 3} {a : ActiveSet}
    (hw : NextWord s false h addr (.buffer sd b 0)) (first : h.handled = 0) (force : (s.side sd).inForce = some a)
    (free : scanStartStuck b (s.side sd) = false) {r : ScanRecord}
    (record : ((openScan sd a b s).side sd).scan.record = some r) (inProgress : r.complete = false) (buf : r.buf = b)
    (on : ((openScan sd a b s).side sd).view.state ≠ .off) :
    exec .bufferWordRead s = .next (scanWordServed sd a.desc.geometry h r 0 (openScan sd a b s)) := by
  have starts : startsScan h 0 = true := by simp [startsScan, first]
  have hand : (openScan sd a b s).inHand = some h := (quiet_openScan sd a b s).inHand.trans (currentWord_spec hw.1).1
  rw [exec_bufferWordRead hw force (.inr free), if_pos starts]
  exact congrArg Host.Outcome.next (serveBufferWord_of_record hand record inProgress buf on a 0 addr)

theorem scanStartStuck_of_ready {b : Fin 3} {x : SideState} (ready : (x.ring.buf b).state = .ready) :
    scanStartStuck b x = false := by
  unfold scanStartStuck
  rw [ready]
  rfl

/-! ## The notice -/

theorem freeShowing_marks (r : BufferRing) :
    (freeShowing r).nextSeq = r.nextSeq ∧ (freeShowing r).dropped = r.dropped ∧
      (freeShowing r).lastVerified = r.lastVerified ∧ (freeShowing r).equalRun = r.equalRun ∧
      (freeShowing r).frozenMark = r.frozenMark := by
  unfold freeShowing
  split
  · simp
  · exact ⟨rfl, rfl, rfl, rfl, rfl⟩

/-- The notice changes the states of buffers only (R79). -/
theorem scanNotice_marks (b : Fin 3) (r : BufferRing) :
    (scanNotice b r).nextSeq = r.nextSeq ∧ (scanNotice b r).dropped = r.dropped ∧
      (scanNotice b r).lastVerified = r.lastVerified ∧ (scanNotice b r).equalRun = r.equalRun ∧
      (scanNotice b r).frozenMark = r.frozenMark := by
  unfold scanNotice
  split
  · simpa using freeShowing_marks r
  · exact ⟨rfl, rfl, rfl, rfl, rfl⟩

theorem scanNotice_own {b : Fin 3} {r : BufferRing} (ready : (r.buf b).state = .ready) :
    (scanNotice b r).buf b = { r.buf b with state := .showing } := by
  rw [scanNotice_buf, if_pos ready, if_pos rfl]
  rfl

/-! ## Step 4 on a READY buffer (R108, R109) -/

/-- The raise of LATENCY, or the good-scan notice, of a scan start on a READY buffer. -/
def readyRaise (sd : Side) (a : ActiveSet) (b : Fin 3) (s : State) : State :=
  if a.desc.latencyMax < (latencyOf s.timebase b (s.side sd)).toNat then
    raiseSide sd .latency (some (frameOf (s.side sd) b)) (latencyOf s.timebase b (s.side sd)) s
  else if ((s.side sd).ring.buf b).verified = true ∧ (s.side sd).ring.equalRun < a.desc.frozenRun - 1 then goodScan sd s
  else s

/-- It changes nothing of the side but its view. -/
theorem readyRaise_side (sd : Side) (a : ActiveSet) (b : Fin 3) (s : State) :
    (readyRaise sd a b s).side sd = { s.side sd with view := ((readyRaise sd a b s).side sd).view } := by
  unfold readyRaise
  split
  · rw [raiseSide_side_self]
  · split
    · rw [goodScan_side_self]
    · rfl

theorem readyRaise_setSide {sd : Side} {y : SideState} {s : State} {a : ActiveSet} {b : Fin 3}
    (view : y.view = (s.side sd).view) (active : y.active = (s.side sd).active) :
    (if a.desc.latencyMax < (latencyOf s.timebase b (s.side sd)).toNat then
        raiseSide sd .latency (some (frameOf (s.side sd) b)) (latencyOf s.timebase b (s.side sd)) (setSide sd y s)
      else if ((s.side sd).ring.buf b).verified = true ∧ (s.side sd).ring.equalRun < a.desc.frozenRun - 1 then
        goodScan sd (setSide sd y s)
      else setSide sd y s) =
      setSide sd { y with view := ((readyRaise sd a b s).side sd).view } (readyRaise sd a b s) := by
  unfold readyRaise
  split
  · rw [raiseSide_setSide_of_view sd .latency _ _ y s view active, raiseSide_side_self]
  · split
    · rw [goodScan_setSide_of_view sd y s view active, goodScan_side_self]
    · rw [← view]

theorem judgeReady_notice {sd : Side} {b : Fin 3} {s : State} (ready : ((s.side sd).ring.buf b).state = .ready)
    (a : ActiveSet) :
    judgeReady sd a b (setSide sd (noticeSide b (s.side sd)) s) =
      setSide sd
        { s.side sd with
          ring := scanNotice b (s.side sd).ring
          scan := { endOpenScan (s.side sd).scan with lastLatency := latencyOf s.timebase b (s.side sd) }
          view := ((readyRaise sd a b s).side sd).view }
        (readyRaise sd a b s) := by
  have own := scanNotice_own ready
  have latency : latencyOf s.timebase b (noticeSide b (s.side sd)) = latencyOf s.timebase b (s.side sd) := by
    unfold latencyOf noticeSide
    rw [own]
  have frame : frameOf (noticeSide b (s.side sd)) b = frameOf (s.side sd) b := by
    unfold frameOf noticeSide
    rw [own]
  have fresh : freshFrame a b (noticeSide b (s.side sd)) = true ↔
      ((s.side sd).ring.buf b).verified = true ∧ (s.side sd).ring.equalRun < a.desc.frozenRun - 1 := by
    unfold freshFrame noticeSide
    rw [own, (scanNotice_marks b _).2.2.2.1, Bool.and_eq_true, decide_eq_true_iff]
  unfold judgeReady modSide
  simp only [side_setSide, if_true, setSide_setSide, setSide_timebase, latency, frame, fresh]
  exact readyRaise_setSide (y := { noticeSide b (s.side sd) with
    scan := { endOpenScan (s.side sd).scan with lastLatency := latencyOf s.timebase b (s.side sd) } }) rfl rfl

/-- A scan start on a READY buffer (R79, R106 to R109). -/
theorem scanStart_of_ready {sd : Side} {b : Fin 3} {s : State} (ready : ((s.side sd).ring.buf b).state = .ready)
    (a : ActiveSet) :
    scanStart sd a b s =
      setSide sd
        { (readyRaise sd a b s).side sd with
          ring := scanNotice b (s.side sd).ring
          scan :=
            { record := some (newScanRecord b none s.timebase)
              lastLatency := latencyOf s.timebase b (s.side sd)
              unchecked := uncheckedAfterStart (s.side sd).scan } }
        (readyRaise sd a b s) := by
  have judged : judgeScanStart sd a b ((s.side sd).ring.buf b).state (modSide sd (noticeSide b) s) =
      judgeReady sd a b (setSide sd (noticeSide b (s.side sd)) s) := if_pos ready
  unfold scanStart
  dsimp only
  rw [judged, judgeReady_notice ready, scanRedirect_of_ready ready, endOpenScan_eq, readyRaise_side]
  unfold modSide
  rw [setSide_setSide, side_setSide, if_pos rfl]

/-! ## The view after it -/

/-- The view state that step 4 leaves: that of a late frame, that of a good scan, or the one before. -/
theorem readyRaise_state (sd : Side) (a : ActiveSet) (b : Fin 3) (s : State) :
    ((readyRaise sd a b s).side sd).view.state = viewAfterFault .latency (s.side sd).view.state ∨
      ((readyRaise sd a b s).side sd).view.state = (goodScanView (s.side sd).recoverRun (s.side sd).view).state ∨
      ((readyRaise sd a b s).side sd).view.state = (s.side sd).view.state := by
  unfold readyRaise
  split
  · exact .inl (by rw [raiseSide_side_self]; rfl)
  · split
    · exact .inr (.inl (by rw [goodScan_side_self]; rfl))
    · exact .inr (.inr rfl)

theorem readyRaise_ne_off {sd : Side} {s : State} (on : (s.side sd).view.state ≠ .off) (a : ActiveSet) (b : Fin 3) :
    ((readyRaise sd a b s).side sd).view.state ≠ .off := by
  rcases readyRaise_state sd a b s with late | good | same
  · exact late ▸ viewAfterFault_ne_off on
  · exact good ▸ goodScanView_ne_off on
  · exact same ▸ on

/-- A good scan never leads to HOLDING (R132). -/
theorem goodScanView_ne_holding {n : Nat} {v : View} (h : v.state ≠ .holding) : (goodScanView n v).state ≠ .holding := by
  unfold goodScanView advanceRun
  cases state : v.state with
  | off => simp [state]
  | waiting => simp
  | live => simp [state]
  | marked =>
    dsimp only
    split
    · simp
    · simp
  | holding => exact absurd state h
  | lost =>
    dsimp only
    split
    · simp
    · simp

theorem viewAfterFault_latency_ne_holding {v : ViewState} (h : v ≠ .holding) : viewAfterFault .latency v ≠ .holding := by
  revert h
  cases v <;> decide

theorem readyRaise_ne_holding {sd : Side} {s : State} (other : (s.side sd).view.state ≠ .holding) (a : ActiveSet)
    (b : Fin 3) : ((readyRaise sd a b s).side sd).view.state ≠ .holding := by
  rcases readyRaise_state sd a b s with late | good | same
  · exact late ▸ viewAfterFault_latency_ne_holding other
  · exact good ▸ goodScanView_ne_holding other
  · exact same ▸ other

/-- A scan start on a READY buffer does not lead to HOLDING, so no expiry falls before its first word (R129). -/
theorem openScan_of_ready {sd : Side} {b : Fin 3} {s : State} (ready : ((s.side sd).ring.buf b).state = .ready)
    (a : ActiveSet) : openScan sd a b s = scanStart sd a b s := by
  refine openScan_eq_scanStart fun other => ?_
  rw [scanStart_of_ready ready, side_setSide, if_pos rfl]
  exact readyRaise_ne_holding other a b

/-- Settles O39: the notice shows the frame, step 4 judges it, and the first word is served in the view that is left. -/
theorem scanStartOnReadyShowsTheFrame : Obligations.ScanStartOnReadyShowsTheFrame := by
  intro s h addr sd b a hw first force on ready
  have opened := (openScan_of_ready ready a).trans (scanStart_of_ready ready a)
  have served := exec_scanStart hw first force (scanStartStuck_of_ready ready) (r := newScanRecord b none s.timebase)
    (by rw [opened, side_setSide, if_pos rfl]) rfl rfl
    (by rw [opened, side_setSide, if_pos rfl]; exact readyRaise_ne_off on a b)
  obtain ⟨seq, dropped, marks⟩ := scanNotice_marks b (s.side sd).ring
  refine ⟨openScan sd a b s, scanNotice b (s.side sd).ring, served, opened, scanNotice_own ready, fun c other => ?_, seq,
    dropped, marks⟩
  rw [scanNotice_buf, if_pos ready, if_neg other]
  rfl

end Sys2Proof.Safety

/-! PROOF. A scan start on a buffer that is not READY: a repeat, or a redirect with its fault (R107, R110, R129). -/

namespace Sys2Proof.Safety

open Sys2Proof.Machine

/-! ## The tables of R107 and R110 -/

/-- The view shows a frame that a scan start can be redirected to (R107). -/
abbrev ShowsFrame (x : SideState) : Prop := x.view.state = .live ∨ x.view.state = .marked ∨ x.view.state = .holding

/-- The scan start raises TEAR_SCAN or STALE_SCAN (R110). -/
abbrev TornStart (b : Fin 3) (x : SideState) : Prop :=
  (x.ring.buf b).state ≠ .showing ∧ (x.view.state = .live ∨ x.view.state = .marked)

theorem scanStartFault_eq (st : BufState) (v : ViewState) :
    scanStartFault st v =
      if v = .live ∨ v = .marked then
        if st = .filling then some .tearScan else if st = .free then some .staleScan else none
      else none := by
  cases st <;> cases v <;> rfl

theorem redirectTarget_eq {st : BufState} (h : st ≠ .ready) (v : ViewState) (showing : Option (Fin 3)) :
    redirectTarget st v showing =
      if st ≠ .showing ∧ (v = .live ∨ v = .marked ∨ v = .holding) then showing else none := by
  cases st with
  | ready => exact absurd rfl h
  | free | filling | showing => cases v <;> rfl

/-! ## The raise of a redirected scan start -/

/-- The raise of TEAR_SCAN or STALE_SCAN at a scan start on b, with the sequence of the frame in the target (R110). -/
def redirectRaise (sd : Side) (b target : Fin 3) (s : State) : State :=
  if (s.side sd).view.state = .live ∨ (s.side sd).view.state = .marked then
    if ((s.side sd).ring.buf b).state = .filling then
      raiseSide sd .tearScan (some (((s.side sd).ring.buf b).seq, b))
        (BitVec.ofNat 32 ((s.side sd).ring.buf target).seq.toNat) s
    else if ((s.side sd).ring.buf b).state = .free then
      raiseSide sd .staleScan (some (((s.side sd).ring.buf b).seq, b))
        (BitVec.ofNat 32 ((s.side sd).ring.buf target).seq.toNat) s
    else s
  else s

theorem redirectRaise_freeDraws (sd : Side) (b target : Fin 3) (s : State) :
    (redirectRaise sd b target s).freeDraws = s.freeDraws := by
  unfold redirectRaise
  (repeat' split) <;> simp

theorem redirectRaise_timebase (sd : Side) (b target : Fin 3) (s : State) :
    (redirectRaise sd b target s).timebase = s.timebase := by
  unfold redirectRaise
  (repeat' split) <;> simp

/-- It changes nothing of the side but its view. -/
theorem redirectRaise_side (sd : Side) (b target : Fin 3) (s : State) :
    (redirectRaise sd b target s).side sd = { s.side sd with view := ((redirectRaise sd b target s).side sd).view } := by
  unfold redirectRaise
  split
  · split
    · rw [raiseSide_side_self]
    · split
      · rw [raiseSide_side_self]
      · rfl
  · rfl

/-- Without TEAR_SCAN and STALE_SCAN nothing is raised. -/
theorem redirectRaise_of_not_torn {sd : Side} {b : Fin 3} {s : State} (calm : ¬TornStart b (s.side sd)) (target : Fin 3) :
    redirectRaise sd b target s = s := by
  unfold redirectRaise
  split
  · next shows =>
    have showing : ((s.side sd).ring.buf b).state = .showing := by
      by_contra other
      exact calm ⟨other, shows⟩
    rw [if_neg (by simp [showing]), if_neg (by simp [showing])]
  · rfl

/-- TEAR_SCAN and STALE_SCAN take LIVE and MARKED to HOLDING, which loads the hold timer (R128, R134). -/
theorem redirectRaise_view_of_torn {sd : Side} {b : Fin 3} {s : State} {a : ActiveSet} (active : (s.side sd).active = some a)
    (notReady : ((s.side sd).ring.buf b).state ≠ .ready) (torn : TornStart b (s.side sd)) (target : Fin 3) :
    ((redirectRaise sd b target s).side sd).view =
      { (s.side sd).view with
        state := .holding
        hold := some { loadTime := s.timebase, duration := a.desc.holdMax }
        recovery := 0 } := by
  obtain ⟨other, shows⟩ := torn
  have holds : ∀ k, k = .tearScan ∨ k = .staleScan →
      (faultSide s.timebase k (s.side sd)).view =
        { (s.side sd).view with
          state := .holding
          hold := some { loadTime := s.timebase, duration := a.desc.holdMax }
          recovery := 0 } := fun k kind => by
    rw [faultSide_of_classA (by rcases kind with rfl | rfl <;> rfl) active]
    unfold moveView
    rcases kind with rfl | rfl <;> rcases shows with view | view <;> rw [view] <;> rfl
  unfold redirectRaise
  rw [if_pos shows]
  split
  · rw [raiseSide_side_self]
    exact holds .tearScan (.inl rfl)
  · next notFilling =>
    split
    · rw [raiseSide_side_self]
      exact holds .staleScan (.inr rfl)
    · next notFree => cases state : ((s.side sd).ring.buf b).state <;> contradiction

/-! ## The scan start -/

/-- Step 4 on a buffer that is not READY, on a side whose open scan has ended. -/
theorem judgeScanStart_elsewhere {sd : Side} {b target : Fin 3} {s : State} {y : SideState}
    (notReady : ((s.side sd).ring.buf b).state ≠ .ready)
    (shown : ShowsFrame (s.side sd) → (s.side sd).ring.showing = some target) (ring : y.ring = (s.side sd).ring)
    (view : y.view = (s.side sd).view) (active : y.active = (s.side sd).active) (a : ActiveSet) :
    judgeScanStart sd a b ((s.side sd).ring.buf b).state (setSide sd y s) =
      setSide sd { y with view := ((redirectRaise sd b target s).side sd).view } (redirectRaise sd b target s) := by
  have raised : (s.side sd).view.state = .live ∨ (s.side sd).view.state = .marked → ∀ k,
      raiseScanStart sd b k (setSide sd y s) =
        raiseSide sd k (some (((s.side sd).ring.buf b).seq, b))
          (BitVec.ofNat 32 ((s.side sd).ring.buf target).seq.toNat) (setSide sd y s) := fun shows k => by
    have showing := shown (shows.imp_right .inl)
    unfold raiseScanStart frameOf toWord
    simp only [side_setSide, if_true, ring, showing]
  unfold judgeScanStart redirectRaise
  rw [if_neg notReady, side_setSide, if_pos rfl, view, scanStartFault_eq]
  by_cases shows : (s.side sd).view.state = .live ∨ (s.side sd).view.state = .marked
  · simp only [if_pos shows]
    by_cases filling : ((s.side sd).ring.buf b).state = .filling
    · simp only [if_pos filling]
      rw [raised shows, raiseSide_setSide_of_view sd .tearScan _ _ y s view active, raiseSide_side_self]
    · simp only [if_neg filling]
      by_cases free : ((s.side sd).ring.buf b).state = .free
      · simp only [if_pos free]
        rw [raised shows, raiseSide_setSide_of_view sd .staleScan _ _ y s view active, raiseSide_side_self]
      · simp only [if_neg free]
        rw [← view]
  · simp only [if_neg shows]
    rw [← view]

/-- The record of a scan that a start on b opens, with its redirect target (R106, R107). -/
theorem scanRedirect_elsewhere {b target : Fin 3} {x : SideState} (notReady : (x.ring.buf b).state ≠ .ready)
    (shown : ShowsFrame x → x.ring.showing = some target) :
    scanRedirect b x = if (x.ring.buf b).state ≠ .showing ∧ ShowsFrame x then some target else none := by
  unfold scanRedirect
  rw [scanNotice_of_not_ready notReady, redirectTarget_eq notReady]
  by_cases redirects : (x.ring.buf b).state ≠ .showing ∧ ShowsFrame x
  · rw [if_pos redirects, if_pos redirects, shown redirects.2]
  · rw [if_neg redirects, if_neg redirects]

/-- A scan start on a buffer that is not READY (R106, R107, R110). -/
theorem scanStart_elsewhere {sd : Side} {b target : Fin 3} {s : State}
    (notReady : ((s.side sd).ring.buf b).state ≠ .ready)
    (shown : ShowsFrame (s.side sd) → (s.side sd).ring.showing = some target) (a : ActiveSet) :
    scanStart sd a b s =
      setSide sd
        { (redirectRaise sd b target s).side sd with
          scan := { (s.side sd).scan with
            record := some (newScanRecord b
              (if ((s.side sd).ring.buf b).state ≠ .showing ∧ ShowsFrame (s.side sd) then some target else none) s.timebase)
            unchecked := uncheckedAfterStart (s.side sd).scan } }
        (redirectRaise sd b target s) := by
  have noticed : modSide sd (noticeSide b) s = setSide sd { s.side sd with scan := endOpenScan (s.side sd).scan } s := by
    unfold modSide noticeSide
    rw [scanNotice_of_not_ready notReady]
  unfold scanStart
  dsimp only
  rw [noticed, judgeScanStart_elsewhere (target := target) (y := { s.side sd with scan := endOpenScan (s.side sd).scan }) notReady
      shown rfl rfl rfl, scanRedirect_elsewhere notReady shown,
    endOpenScan_eq, redirectRaise_side]
  unfold modSide
  rw [setSide_setSide, side_setSide, if_pos rfl]

/-! ## The expiry of the hold timer before the first word (R129) -/

theorem due_when_loaded (now : Word) (duration : Nat) :
    ({ loadTime := now, duration := duration } : Timer).due now = true ↔ duration = 0 := by
  rw [due_iff, BitVec.sub_self]
  exact Nat.le_zero

/-- A scan start on a buffer that is not READY leaves an expiry to be taken before its first word only where it enters HOLDING
with HOLD_MAX 0 (R129). -/
theorem openScan_elsewhere {sd : Side} {b target : Fin 3} {s : State} {a : ActiveSet}
    (active : (s.side sd).active = some a) (notReady : ((s.side sd).ring.buf b).state ≠ .ready)
    (shown : ShowsFrame (s.side sd) → (s.side sd).ring.showing = some target) :
    openScan sd a b s =
      if TornStart b (s.side sd) ∧ a.desc.holdMax = 0 then
        expireAtStart sd { loadTime := s.timebase, duration := a.desc.holdMax } (scanStart sd a b s)
      else scanStart sd a b s := by
  have after : ((scanStart sd a b s).side sd).view = ((redirectRaise sd b target s).side sd).view := by
    rw [scanStart_elsewhere notReady shown, side_setSide, if_pos rfl]
  by_cases torn : TornStart b (s.side sd)
  · have view := after.trans (redirectRaise_view_of_torn active notReady torn target)
    have entered : (s.side sd).view.state ≠ .holding := by
      rcases torn.2 with live | marked
      · simp [live]
      · simp [marked]
    rw [openScan_of_holding entered (by rw [view]) (tm := { loadTime := s.timebase, duration := a.desc.holdMax })
      (by rw [view])]
    exact if_congr ((due_when_loaded _ _).trans (and_iff_right torn).symm) rfl rfl
  · rw [if_neg fun both => torn both.1]
    refine openScan_eq_scanStart fun other => ?_
    rw [after, redirectRaise_of_not_torn torn]
    exact other

/-- The expiry taken or left before the first word, naming the frame in the SHOWING buffer (R129). -/
theorem expireAtStart_eq {sd : Side} {target : Fin 3} {t : State} {seq : BitVec 16}
    (showing : (t.side sd).ring.showing = some target) (frame : ((t.side sd).ring.buf target).seq = seq) (now : Word) :
    expireAtStart sd { loadTime := now, duration := 0 } t =
      if Config.expiryBeforeFirstWord t.freeDraws then
        raiseSide sd .holdExpired (some (seq, target)) 0
          (setSide sd { t.side sd with view := { (t.side sd).view with hold := none } }
            { t with freeDraws := t.freeDraws + 1 })
      else { t with freeDraws := t.freeDraws + 1 } := by
  have side : ({ t with freeDraws := t.freeDraws + 1 } : State).side sd = t.side sd := by cases sd <;> rfl
  unfold expireAtStart expireHold modView modSide frameOf
  dsimp only
  rw [side, showing, ← frame]
  rfl

/-- A scan start on a buffer that is not READY is not stuck on a side whose view has its SHOWING buffer (log 17). -/
theorem scanStartStuck_of_shown {x : SideState} {target : Fin 3} (shown : ShowsFrame x → x.ring.showing = some target)
    (b : Fin 3) : scanStartStuck b x = false := by
  by_contra stuck
  rw [Bool.not_eq_false, scanStartStuck, Bool.and_eq_true, Bool.and_eq_true] at stuck
  obtain ⟨⟨_, view⟩, none⟩ := stuck
  have showing := shown (by simpa [or_assoc] using view)
  simp [showing] at none

/-- The expiry before the first word leaves the scan as it is, and does not lead to OFF (R129, R134). -/
theorem expireAtStart_leaves (sd : Side) (tm : Timer) (s : State) :
    ((expireAtStart sd tm s).side sd).scan = (s.side sd).scan ∧
      ((s.side sd).view.state ≠ .off → ((expireAtStart sd tm s).side sd).view.state ≠ .off) := by
  have side : ({ s with freeDraws := s.freeDraws + 1 } : State).side sd = s.side sd := by cases sd <;> rfl
  unfold expireAtStart
  dsimp only
  split
  · unfold expireHold modView
    rw [raiseSide_side_self, side_modSide, if_pos rfl, side]
    exact ⟨rfl, fun on => viewAfterFault_ne_off (k := .holdExpired) on⟩
  · rw [side]
    exact ⟨rfl, id⟩

theorem openScan_leaves (sd : Side) (a : ActiveSet) (b : Fin 3) (s : State) :
    ((openScan sd a b s).side sd).scan = ((scanStart sd a b s).side sd).scan ∧
      (((scanStart sd a b s).side sd).view.state ≠ .off → ((openScan sd a b s).side sd).view.state ≠ .off) := by
  unfold openScan
  dsimp only
  split
  · exact expireAtStart_leaves sd _ _
  · exact ⟨rfl, id⟩

theorem redirectRaise_ne_off {sd : Side} {b : Fin 3} {s : State} {a : ActiveSet} (active : (s.side sd).active = some a)
    (notReady : ((s.side sd).ring.buf b).state ≠ .ready) (on : (s.side sd).view.state ≠ .off) (target : Fin 3) :
    ((redirectRaise sd b target s).side sd).view.state ≠ .off := by
  by_cases torn : TornStart b (s.side sd)
  · rw [redirectRaise_view_of_torn active notReady torn]
    exact nofun
  · rwa [redirectRaise_of_not_torn torn]

/-- Settles O40: the scan start is a repeat or a redirect, the expiry of R129 may follow, and the first word is served in the
view that is left. -/
theorem scanStartElsewhereRedirects : Obligations.ScanStartElsewhereRedirects := by
  intro s h addr sd b a hw first force on notReady hasShown
  obtain ⟨active, _⟩ := inForce_some force
  obtain ⟨target, shown⟩ : ∃ target, ShowsFrame (s.side sd) → (s.side sd).ring.showing = some target := by
    by_cases shows : ShowsFrame (s.side sd)
    · obtain ⟨c, hc⟩ := hasShown shows
      cases showing : (s.side sd).ring.showing with
      | none => exact absurd hc (find_none showing c)
      | some target => exact ⟨target, fun _ => rfl⟩
    · exact ⟨b, fun shows' => absurd shows' shows⟩
  have start := scanStart_elsewhere (target := target) notReady shown a
  have startSide : (scanStart sd a b s).side sd = _ := (congrArg (State.side · sd) start).trans
    ((side_setSide ..).trans (if_pos rfl))
  obtain ⟨scan, onAfter⟩ := openScan_leaves sd a b s
  have served := exec_scanStart hw first force (scanStartStuck_of_shown shown b) (r := newScanRecord b
      (if ((s.side sd).ring.buf b).state ≠ .showing ∧ ShowsFrame (s.side sd) then some target else none) s.timebase)
    (by rw [scan, startSide]) rfl rfl
    (onAfter (by rw [startSide]; exact redirectRaise_ne_off active notReady on target))
  refine ⟨target, openScan sd a b s, fun shows => find_spec (shown shows), served, ?_⟩
  rw [openScan_elsewhere active notReady shown]
  by_cases loads : TornStart b (s.side sd) ∧ a.desc.holdMax = 0
  · have ring : ((scanStart sd a b s).side sd).ring = (s.side sd).ring := by rw [startSide, redirectRaise_side]
    have draws : (scanStart sd a b s).freeDraws = s.freeDraws := by rw [start, setSide_freeDraws, redirectRaise_freeDraws]
    have expires := expireAtStart_eq (ring ▸ shown (loads.1.2.imp_right .inl)) (by rw [ring]) s.timebase
    refine Eq.trans ?_ (if_pos loads).symm
    rw [if_pos loads, loads.2, expires, draws, start]
    rfl
  · rw [if_neg loads, start]
    exact (if_neg loads).symm

end Sys2Proof.Safety

/-! PROOF. The end of a transfer (R1, R4, R18, R19): the status words that are left of a read, the deferred effects, and the
request that waited. -/

namespace Sys2Proof.Safety

open Sys2Proof.Machine

/-! ## The status words that are left (log 12) -/

/-- Word i of the transfer is one that TRANSFER_END may answer: a status word of a read, but not the acknowledge word. -/
abbrev QuietWord (h : InHand) (i : Nat) : Prop :=
  ∃ o, classify h.snapshot (wordAddress h.transfer i) = .status o ∧ o ≠ 0xE00

/-- The value of word i of the transfer as a status word (R28, R163). -/
abbrev restWord (s : State) (h : InHand) (i : Nat) : Word :=
  statusWord s (wordAddress h.transfer i - h.snapshot.controlBase)

theorem statusWord_inHand (s : State) (i : Option InHand) (o : Nat) : statusWord { s with inHand := i } o = statusWord s o := rfl

theorem offset_of_status {sn : Snapshot} {a o : Nat} (h : classify sn a = .status o) : o = a - sn.controlBase := by
  obtain ⟨_, offset, _⟩ : KindSays sn a (.status o) := h ▸ classify_says sn a
  exact offset

theorem currentWord_of_left {s : State} {h : InHand} (hand : s.inHand = some h) (left : h.handled < h.transfer.wordCount) :
    s.currentWord =
      some (h, wordAddress h.transfer h.handled, classify h.snapshot (wordAddress h.transfer h.handled)) := by
  unfold State.currentWord
  rw [hand]
  exact if_pos left

/-- One status word answered at the end of a read. -/
theorem answerQuiet_eq {s : State} {h : InHand} (hand : s.inHand = some h) (read : h.transfer.write = false)
    (left : h.handled < h.transfer.wordCount) (quiet : QuietWord h h.handled) :
    onWord false isQuietStatus answerStatus s = { s with inHand := some (handled h [restWord s h h.handled]) } := by
  obtain ⟨o, kind, other⟩ := quiet
  have word : NextWord s false h (wordAddress h.transfer h.handled) (.status o) :=
    ⟨by rw [currentWord_of_left hand left, kind], read⟩
  have value : readStatus o s = (restWord s h h.handled, s) := by
    rw [restWord, ← offset_of_status kind]
    exact if_neg other
  rw [onWord_of_next word (by simpa [isQuietStatus, acknowledgeOffset] using other)]
  unfold answerStatus
  dsimp only
  rw [value]
  exact finishWord_of_inHand hand _

/-- Where the next word is not one of them, none is answered. -/
theorem answerRest_of_other {s : State} {h : InHand} (hand : s.inHand = some h)
    (other : h.transfer.write = true ∨ ¬QuietWord h h.handled) (n : Nat) : answerRest n s = s := by
  by_cases left : h.handled < h.transfer.wordCount
  · refine answerRest_of_not_quiet (.inr ⟨_, _, _, currentWord_of_left hand left, other.imp_right fun noise => ?_⟩) n
    unfold isQuietStatus
    split
    · next o kind =>
      by_contra quiet
      exact noise ⟨o, kind, by simpa [acknowledgeOffset] using quiet⟩
    · rfl
  · exact answerRest_of_not_quiet (.inl (currentWord_of_allHandled hand (decide_eq_true (Nat.le_of_not_lt left)))) n

/-- The transfer after all the status words that are left of a read are answered. -/
def restAnswered (s : State) (h : InHand) : InHand :=
  { h with
    handled := h.transfer.wordCount
    readData := h.readData ++ ((List.range h.transfer.wordCount).drop h.handled).map (restWord s h) }

theorem restAnswered_of_none {s : State} {h : InHand} (last : h.handled = h.transfer.wordCount) : restAnswered s h = h := by
  unfold restAnswered
  rw [last, List.drop_eq_nil_of_le (by simp), List.map_nil, List.append_nil, ← last]

theorem restAnswered_step {s : State} {h : InHand} (left : h.handled < h.transfer.wordCount) (i : Option InHand) :
    restAnswered { s with inHand := i } (handled h [restWord s h h.handled]) = restAnswered s h := by
  have word : (List.range h.transfer.wordCount).drop h.handled =
      h.handled :: (List.range h.transfer.wordCount).drop (h.handled + 1) := by
    rw [List.drop_eq_getElem_cons (by simpa using left), List.getElem_range]
  unfold restAnswered
  rw [word, List.map_cons, List.append_cons]
  rfl

/-- With enough fuel every status word that is left is answered. -/
theorem answerRest_of_quiet (n : Nat) {s : State} {h : InHand} (hand : s.inHand = some h) (read : h.transfer.write = false)
    (within : h.handled ≤ h.transfer.wordCount) (fuel : h.transfer.wordCount ≤ h.handled + n)
    (quiet : ∀ i, h.handled ≤ i → i < h.transfer.wordCount → QuietWord h i) :
    answerRest n s = { s with inHand := some (restAnswered s h) } := by
  induction n generalizing s h with
  | zero =>
    rw [restAnswered_of_none (Nat.le_antisymm within fuel), ← hand]
    rfl
  | succ n ih =>
    rcases Nat.lt_or_eq_of_le within with left | last
    · have rest := ih (s := { s with inHand := some (handled h [restWord s h h.handled]) })
        (h := handled h [restWord s h h.handled]) rfl read left (by simpa [handled, Nat.add_assoc, Nat.add_comm 1] using fuel)
        fun i after => quiet i (Nat.le_of_succ_le after)
      rw [answerRest, answerQuiet_eq hand read left (quiet _ le_rfl left), rest, restAnswered_step left]
    · rw [answerRest_of_not_quiet (.inl (currentWord_of_allHandled hand (decide_eq_true last.ge))),
        restAnswered_of_none last, ← hand]

/-- A word of another kind stops them: it stays unhandled. -/
theorem answerRest_stops (n : Nat) {s : State} {h : InHand} {i : Nat} (hand : s.inHand = some h) (before : h.handled ≤ i)
    (word : i < h.transfer.wordCount) (other : h.transfer.write = true ∨ ¬QuietWord h i) :
    ∃ j, (answerRest n s).inHand = some j ∧ j.allHandled = false := by
  induction n generalizing s h with
  | zero => exact ⟨h, hand, decide_eq_false (Nat.not_le_of_lt (Nat.lt_of_le_of_lt before word))⟩
  | succ n ih =>
    by_cases taken : h.transfer.write = false ∧ QuietWord h h.handled
    · obtain ⟨read, quiet⟩ := taken
      have noise : ¬QuietWord h i := other.resolve_left (by simp [read])
      have next : h.handled < i := Nat.lt_of_le_of_ne before fun same => noise (same ▸ quiet)
      rw [answerRest, answerQuiet_eq hand read (Nat.lt_trans next word) quiet]
      exact ih rfl next word other
    · rw [answerRest_of_other hand (by
        rw [not_and_or] at taken
        exact taken.imp_left (by simp))]
      exact ⟨h, hand, decide_eq_false (Nat.not_le_of_lt (Nat.lt_of_le_of_lt before word))⟩

/-! ## What the deferred effects leave for a request that waits (R1, R18) -/

/-- The request on the pins and the count of free draws are the same. -/
structure SameRequest (s t : State) : Prop where
  request : t.request = s.request
  freeDraws : t.freeDraws = s.freeDraws

theorem SameRequest.trans {s t u : State} (h : SameRequest s t) (k : SameRequest t u) : SameRequest s u :=
  ⟨k.request.trans h.request, k.freeDraws.trans h.freeDraws⟩

theorem sameRequest_completeFrame (sd : Side) (b : Fin 3) (s : State) : SameRequest s (completeFrame sd b s) := by
  unfold completeFrame finishFrame takeWaitingSet runCheck frozenCheck lengthCheck
  constructor <;> dsimp only <;> (repeat' split) <;> simp

theorem sameRequest_completeScan (sd : Side) (s : State) : SameRequest s (completeScan sd s) := by
  unfold completeScan judgeScan setScanRecord
  constructor <;> dsimp only <;> (repeat' split) <;> simp

theorem sameRequest_commit (s : State) : SameRequest s (commit s) := by
  unfold commit acceptCommit moveRing rejectCommit
  dsimp only
  split
  · split
    · exact ⟨by simp [offerSet, installSet], by simp [offerSet, installSet]⟩
    · exact ⟨rfl, rfl⟩
  · exact ⟨raiseDevice_request .., raiseDevice_freeDraws ..⟩

theorem sameRequest_deferredEffects (h : InHand) (s : State) : SameRequest s (deferredEffects h s) := by
  have frame : SameRequest s (endFrame h s) := by
    unfold endFrame
    split
    · exact sameRequest_completeFrame _ _ s
    · exact ⟨rfl, rfl⟩
  have scan : ∀ u, SameRequest u (endScan h u) := fun u => by
    unfold endScan
    split
    · exact sameRequest_completeScan _ u
    · exact ⟨rfl, rfl⟩
  have commit : ∀ u, SameRequest u (endCommit h u) := fun u => by
    unfold endCommit
    split
    · exact sameRequest_commit u
    · exact ⟨rfl, rfl⟩
  have protect : ∀ u, SameRequest u (endProtect h u) := fun u => by
    unfold endProtect
    split
    · exact ⟨raiseDevice_request .., raiseDevice_freeDraws ..⟩
    · exact ⟨rfl, rfl⟩
  have tear : ∀ u, SameRequest u (endTear h u) := fun u => by
    unfold endTear
    split
    · exact ⟨raiseSide_request .., raiseSide_freeDraws ..⟩
    · exact ⟨rfl, rfl⟩
  exact (((frame.trans (scan _)).trans (commit _)).trans (protect _)).trans (tear _)

/-! ## The request that waited -/

theorem grantBus_inHand (s : State) : (grantBus s).inHand = s.inHand := by
  unfold grantBus
  (repeat' split) <;> rfl

theorem grantOrNot_inHand (s : State) : (grantOrNot s).inHand = s.inHand := by
  unfold grantOrNot whenReady
  dsimp only
  (repeat' split)
  · exact grantBus_inHand _
  · rfl
  · rfl

/-- The request that waited is taken as an arrival, after a grant or without one, and its answer follows (R1, R18). -/
theorem takeRequest_of_some {s : State} {r : Transfer} (waits : s.request = some r) (wellFormed : r.wellFormed = true)
    (none : s.inHand = none) :
    ∃ u t,
      (Config.grantBeforeRequest s.freeDraws = false → u = { s with request := Option.none, freeDraws := s.freeDraws + 1 }) ∧
        (Config.grantBeforeRequest s.freeDraws = true →
          exec .grant { s with request := Option.none, freeDraws := s.freeDraws + 1 } = .next u) ∧
        exec (.transferArrival r) u = .next t ∧ takeRequest s = { t with answers := s.answers ++ t.answers } := by
  refine ⟨grantOrNot { s with request := Option.none }, arrive r (grantOrNot { s with request := Option.none }),
    fun no => ?_, fun yes => ?_, exec_arrival ((grantOrNot_inHand _).trans none) wellFormed, ?_⟩
  · unfold grantOrNot
    exact if_neg (by simp [no])
  · unfold grantOrNot
    exact congrArg Host.Outcome.next (if_pos yes).symm
  · unfold takeRequest
    rw [waits]
    rfl

/-! ## The end -/

theorem exec_transferEnd (s : State) : exec .transferEnd s = .next (endTransfer s (answerRest 16 s)) := rfl

theorem wordCount_le (t : Transfer) : t.wordCount ≤ 16 := by
  rcases wordCount_cases t with e | e | e | e <;> omega

/-- Settles O36: the status words left are answered first; a word left of another kind stops the end; and else the deferred
effects are made, COMPLETE is given, and a request that waits is taken. -/
theorem transferEndCompletes : Obligations.TransferEndCompletes := by
  refine ⟨fun s h hand read within quiet => ?rest, fun s h i hand before word other => ?stops, fun s h hand all => ?ends⟩
  case rest =>
    have answered := answerRest_of_quiet 16 hand read within ((wordCount_le _).trans (Nat.le_add_left ..)) quiet
    have done : (restAnswered s h).allHandled = true := decide_eq_true (le_refl h.transfer.wordCount)
    have taken := execTransferEnd_of_allHandled (s := { s with inHand := some (restAnswered s h) }) rfl done
    refine Eq.trans ?_ taken.symm
    rw [exec_transferEnd, answered]
    exact congrArg Host.Outcome.next (if_pos done)
  case stops =>
    have stopped : h.transfer.write = true ∨ ¬QuietWord h i := other.imp_right fun only ⟨o, kind, ne⟩ => ne (only o kind)
    obtain ⟨j, left, more⟩ := answerRest_stops 16 hand before word stopped
    rw [exec_transferEnd]
    unfold endTransfer
    rw [left]
    exact congrArg Host.Outcome.next (if_neg (by simp [more]))
  case ends =>
    have ended := execTransferEnd_of_allHandled hand (decide_eq_true all)
    have same := sameRequest_deferredEffects h s
    refine ⟨fun none => ?_, fun r waits wellFormed => ?_⟩
    · refine ended.trans ?_
      unfold takeRequest
      rw [show (answerComplete h (deferredEffects h s)).request = Option.none from same.request.trans none]
      rfl
    · obtain ⟨u, t, ungranted, granted, arrived, taken⟩ :=
        takeRequest_of_some (s := answerComplete h (deferredEffects h s)) (same.request.trans waits) wellFormed rfl
      have draws : (answerComplete h (deferredEffects h s)).freeDraws = s.freeDraws := same.freeDraws
      rw [draws] at ungranted granted
      exact ⟨u, t, ungranted, granted, arrived, ended.trans (congrArg Host.Outcome.next taken)⟩

end Sys2Proof.Safety
